-- ==== Sys2Proof/Word.lean ====
section
/-!
DEFINITION. The element types of QRA-CORE (spec/00_scope.md rule R7, spec/10_state.md rules R11 to R13):
bits, bytes, 16-bit and 32-bit unsigned words, 2-bit selectors, banks of four like registers, and the
plain data that stands for exact real numbers. The operations over these types stand in
Machine/Numerics.lean and Machine/Ops.lean.
-/

namespace Sys2Proof

/-- `Bit` of rule R7: `true` is 1 and `false` is 0. A `Level` is a bit too: 1 is mark, 0 is space. -/
abbrev Bit := Bool

/-- `Byte` of rule R7. -/
abbrev Byte := BitVec 8

/-- `U16` of rule R7. -/
abbrev U16 := BitVec 16

/-- `U32` of rule R7; also the command word of rule R70. -/
abbrev U32 := BitVec 32

/-- A buffer selector, 0 to 3 (rule R11); also the number of an `A` or `R` register and a profile id. -/
abbrev Sel := BitVec 2

/-- Four like registers, numbered 0 to 3: `BB0..3`, `YB0..3`, `A0..3`, `R0..3` (rules R11 to R13). -/
structure Four (α : Type) where
  x0 : α
  x1 : α
  x2 : α
  x3 : α
deriving DecidableEq, Repr

/-- An exact real number that is a rational number and rational multiples of named reals, as plain data: a frequency in hertz
(`Real` of rule R7; assumption log 1), or an angle in whole turns that comes of one. Every real number is one, at least as a
named real (`Config.reals` in Machine/Sign.lean). -/
structure LinearReal where
  rational : ℚ
  named : List (Nat × ℚ)
deriving DecidableEq, Repr, Inhabited

/-- An exact real number, as plain data (`Real` and `Sample` of rule R7; assumption log 1): a finite sum of terms, each
a rational `coef` times the product of the named reals listed times the cosine of `turn` whole turns. A rational number is a
term with no named real and `turn` 0. Such sums are closed under everything the block computes, because the product of two
cosines is half the sum of the cosines of the sum and the difference of their angles; and every real number the host can
write is one, at least as a named real. -/
inductive ExactReal where
  | zero
  | plus (coef : ℚ) (named : List Nat) (turn : LinearReal) (rest : ExactReal)
deriving DecidableEq, Repr, Inhabited

end Sys2Proof
end

