-- ==== Sys2Proof/Config.lean ====
section
/-!
DEFINITION. What an implementation of QRA-CORE fixes and the spec leaves open: the profile ROM's settings
(spec/00_scope.md rule R6, spec/10_state.md rule R18, spec/93_implementation_defined.md U1) and the free
values. Each is an opaque constant: no proof can see what it is, so a theorem holds whatever it is. One more, the real
numbers that names stand for, is in Machine/Sign.lean.
-/

namespace Sys2Proof

/-- The closed set of four profiles (spec/30_encoding.md rule R62, spec/10_state.md rule R18). -/
inductive Profile where
  | afskBell
  | mfsk
  | afskFifth
  | gfskFifth
deriving DecidableEq, Repr

/-- The three modulation kinds that `CFG.KIND` names (rule R17). -/
inductive Kind where
  | afsk
  | gfsk
  | mfsk
deriving DecidableEq, Repr

/-- `PROFILE_ROM[p].BAUD`, OPEN (rule R6). -/
opaque Config.romBaud : Profile → Nat

/-- `PROFILE_ROM[p].F_MARK` in hertz, OPEN (rule R6); read for AFSK and GFSK profiles. -/
opaque Config.romFMark : Profile → LinearReal

/-- `PROFILE_ROM[p].F_SPACE` in hertz, OPEN (rule R6); read for AFSK and GFSK profiles. -/
opaque Config.romFSpace : Profile → LinearReal

/-- `PROFILE_ROM[p].BPS` less one, OPEN, so that BPS is 1 to 4 (rule R6); read for MFSK profiles. -/
opaque Config.romBpsLessOne : Profile → Fin 4

/-- `PROFILE_ROM[p].NTONES`, OPEN, 0 to 16 (rules R6, R17); read for MFSK profiles. -/
opaque Config.romNTones : Profile → Fin 17

/-- `PROFILE_ROM[p].TONE[t]` in hertz for a tone below `NTONES`, OPEN (rule R6). -/
opaque Config.romTone : Profile → Fin 16 → LinearReal

/-- `PROFILE_ROM[p].TONE[t]` at and above `NTONES`: a value or `unconfigured`, the spec says neither (log 7). -/
opaque Config.romSpareTone : Profile → Fin 16 → Option LinearReal

/-- `PROFILE_ROM[p].GFSK_ALPHA`, OPEN (rule R6); read for GFSK profiles. -/
opaque Config.romGfskAlpha : Profile → ExactReal

/-- `PROFILE_ROM[p].NPRE`, OPEN (rule R6). -/
opaque Config.romNpre : Profile → Nat

/-- FREE VALUE: what result register `R[k]` holds after a count of `2^32` or more, which it has no room for
(spec/46_system.md rules R257, R258, spec/93_implementation_defined.md U27; log 3). The first argument is
the model's own tick, the last the count. -/
opaque Config.openCount : Nat → Sel → Nat → U32

end Sys2Proof
end

