-- ==== Sys2Proof/Syntax.lean ====
section
/-!
DEFINITION. The operations of QRA-CORE: one constructor per row of spec/opcode_table.json, which is the
opcode map of spec/30_encoding.md rule R73. Each operand has the type of its field (rule R71), so an operand
out of its range cannot be written down; which command words are legal is said in WellFormed.lean.
-/

namespace Sys2Proof

/-- The 53 operations. `src` and `dst` are buffer selectors; whether one names a bit or a byte buffer is
fixed by the operation (rule R73). -/
inductive Instr where
  /-- `SYS.NOP`, format Z (46_system.md rule R250). -/
  | sysNop
  /-- `SYS.INIT`, format Z (46_system.md rule R251). -/
  | sysInit
  /-- `SYS.RESET`, format Z (46_system.md rule R252). -/
  | sysReset
  /-- `SYS.LOADP`, format I2 (46_system.md rule R254). -/
  | sysLoadp (id : Sel)
  /-- `SYS.MOVB`, format SD (46_system.md rule R255). -/
  | sysMovb (src dst : Sel)
  /-- `SYS.MOVY`, format SD (46_system.md rule R256). -/
  | sysMovy (src dst : Sel)
  /-- `SYS.FQPOP`, format D (46_system.md rule R257). -/
  | sysFqpop (dst : Sel)
  /-- `GTZ.SETF`, format Z (40_goertzel.md rule R92). -/
  | gtzSetf
  /-- `GTZ.SETC`, format Z (40_goertzel.md rule R93). -/
  | gtzSetc
  /-- `GTZ.CLR`, format Z (40_goertzel.md rule R94). -/
  | gtzClr
  /-- `GTZ.STEP`, format Z (40_goertzel.md rule R95). -/
  | gtzStep
  /-- `GTZ.ENERGY`, format Z (40_goertzel.md rule R96). -/
  | gtzEnergy
  /-- `GTZ.WIN`, format Z (40_goertzel.md rule R97). -/
  | gtzWin
  /-- `AFSK.SYM`, format Z (41_demodulators.md rule R116). -/
  | afskSym
  /-- `AFSK.DEMOD`, format D (41_demodulators.md rule R117). -/
  | afskDemod (dst : Sel)
  /-- `GFSK.DEMOD`, format D (41_demodulators.md rule R122). -/
  | gfskDemod (dst : Sel)
  /-- `MFSK.MAP`, format SD (41_demodulators.md rule R128). -/
  | mfskMap (src dst : Sel)
  /-- `MFSK.UNMAP`, format SD (41_demodulators.md rule R129). -/
  | mfskUnmap (src dst : Sel)
  /-- `MFSK.SYM`, format Z (41_demodulators.md rule R130). -/
  | mfskSym
  /-- `MFSK.DEMOD`, format D (41_demodulators.md rule R131). -/
  | mfskDemod (dst : Sel)
  /-- `NRZI.CLR`, format Z (42_line_coding_hdlc.md rule R142). -/
  | nrziClr
  /-- `NRZI.ENCB`, format I1 (42_line_coding_hdlc.md rule R143). -/
  | nrziEncb (bit : Bit)
  /-- `NRZI.DECB`, format I1 (42_line_coding_hdlc.md rule R144). -/
  | nrziDecb (bit : Bit)
  /-- `NRZI.ENC`, format SD (42_line_coding_hdlc.md rule R145). -/
  | nrziEnc (src dst : Sel)
  /-- `NRZI.DEC`, format SD (42_line_coding_hdlc.md rule R146). -/
  | nrziDec (src dst : Sel)
  /-- `HDLC.UNPACK`, format SD (42_line_coding_hdlc.md rule R150). -/
  | hdlcUnpack (src dst : Sel)
  /-- `HDLC.PACK`, format SD (42_line_coding_hdlc.md rule R151). -/
  | hdlcPack (src dst : Sel)
  /-- `HDLC.STUFF`, format SD (42_line_coding_hdlc.md rule R152). -/
  | hdlcStuff (src dst : Sel)
  /-- `HDLC.DESTUFF`, format SD (42_line_coding_hdlc.md rule R153). -/
  | hdlcDestuff (src dst : Sel)
  /-- `HDLC.FRAME`, format SD (42_line_coding_hdlc.md rule R154). -/
  | hdlcFrame (src dst : Sel)
  /-- `HDLC.FLAGS`, format S (42_line_coding_hdlc.md rule R155). -/
  | hdlcFlags (src : Sel)
  /-- `HDLC.EXTRACT`, format S (42_line_coding_hdlc.md rule R156). -/
  | hdlcExtract (src : Sel)
  /-- `FRM.BUILD`, format SD (43_crc_frame.md rule R182). -/
  | frmBuild (src dst : Sel)
  /-- `FRM.PARSE`, format SD (43_crc_frame.md rule R183). -/
  | frmParse (src dst : Sel)
  /-- `FRM.ENCODE`, format SD (43_crc_frame.md rule R184). -/
  | frmEncode (src dst : Sel)
  /-- `FRM.DECODE`, format SD (43_crc_frame.md rule R185). -/
  | frmDecode (src dst : Sel)
  /-- `CRC.CLR`, format Z (43_crc_frame.md rule R172). -/
  | crcClr
  /-- `CRC.BIT`, format I1 (43_crc_frame.md rule R173). -/
  | crcBit (bit : Bit)
  /-- `CRC.BYTE`, format I8 (43_crc_frame.md rule R174). -/
  | crcByte (imm : Byte)
  /-- `CRC.FINAL`, format Z (43_crc_frame.md rule R175). -/
  | crcFinal
  /-- `CRC.GEN`, format S (43_crc_frame.md rule R177). -/
  | crcGen (src : Sel)
  /-- `CRC.APPEND`, format SD (43_crc_frame.md rule R178). -/
  | crcAppend (src dst : Sel)
  /-- `CRC.CHK`, format S (43_crc_frame.md rule R179). -/
  | crcChk (src : Sel)
  /-- `GF.ADD`, format II (44_gf256.md rule R204). -/
  | gfAdd (a b : Byte)
  /-- `GF.MUL`, format II (44_gf256.md rule R205). -/
  | gfMul (a b : Byte)
  /-- `GF.INV`, format I8 (44_gf256.md rule R206). -/
  | gfInv (imm : Byte)
  /-- `GF.EXP`, format I9 (44_gf256.md rule R207). -/
  | gfExp (index : BitVec 9)
  /-- `GF.LOG`, format I8 (44_gf256.md rule R208). -/
  | gfLog (imm : Byte)
  /-- `RS.ENCB`, format SD (45_reed_solomon.md rule R225). -/
  | rsEncb (src dst : Sel)
  /-- `RS.SYN`, format S (45_reed_solomon.md rule R227). -/
  | rsSyn (src : Sel)
  /-- `RS.DECB`, format SD (45_reed_solomon.md rule R231). -/
  | rsDecb (src dst : Sel)
  /-- `RS.ENC`, format SD (45_reed_solomon.md rule R232). -/
  | rsEnc (src dst : Sel)
  /-- `RS.DEC`, format SD (45_reed_solomon.md rule R233). -/
  | rsDec (src dst : Sel)
deriving DecidableEq, Repr

end Sys2Proof
end

