-- ==== Sys2Proof/WellFormed.lean ====
section
/-!
DEFINITION. Which 32-bit command words are legal (spec/30_encoding.md rules R70, R71, R73, R78), said of the
word itself, field by field and apart from the decoder: an operation's operands are well formed by their types.
-/

namespace Sys2Proof

/-- The nine formats of rule R71. -/
inductive Format where
  | Z
  | S
  | D
  | SD
  | I8
  | I2
  | I1
  | II
  | I9
deriving DecidableEq, Repr

/-- A command word's four 8-bit fields (rule R70), each as an unsigned number. -/
structure Fields where
  op : Nat
  a : Nat
  b : Nat
  c : Nat
deriving DecidableEq, Repr

/-- The fields of a command word: `OP` is bits 31:24, `A` 23:16, `B` 15:8, `C` 7:0 (rule R70). -/
def fieldsOf (w : U32) : Fields :=
  let n := w.toNat
  ⟨n / 0x1000000, n / 0x10000 % 0x100, n / 0x100 % 0x100, n % 0x100⟩

/-- The opcode map of rule R73: each assigned `OP` with its format. -/
def opcodeMap : List (Nat × Format) :=
  [(0x00, .Z), (0x01, .Z), (0x02, .Z), (0x03, .I2), (0x04, .SD), (0x05, .SD), (0x06, .D),
   (0x10, .Z), (0x11, .Z), (0x12, .Z), (0x13, .Z), (0x14, .Z), (0x15, .Z),
   (0x20, .Z), (0x21, .D),
   (0x30, .D),
   (0x40, .SD), (0x41, .SD), (0x42, .Z), (0x43, .D),
   (0x50, .Z), (0x51, .I1), (0x52, .I1), (0x53, .SD), (0x54, .SD),
   (0x60, .SD), (0x61, .SD), (0x62, .SD), (0x63, .SD), (0x64, .SD), (0x65, .S), (0x66, .S),
   (0x70, .SD), (0x71, .SD), (0x72, .SD), (0x73, .SD),
   (0x80, .Z), (0x81, .I1), (0x82, .I8), (0x83, .Z), (0x84, .S), (0x85, .SD), (0x86, .S),
   (0x90, .II), (0x91, .II), (0x92, .I8), (0x93, .I9), (0x94, .I8),
   (0xA0, .SD), (0xA1, .S), (0xA2, .SD), (0xA3, .SD), (0xA4, .SD)]

/-- Rule R71's requirement on the fields `A`, `B`, `C` of one format: a field the format does not use is
zero, a selector is at most 3, and the bits of a field above a short immediate are zero. -/
def Format.allows (f : Format) (x : Fields) : Bool :=
  match f with
  | .Z => x.a == 0 && x.b == 0 && x.c == 0
  | .S => decide (x.a ≤ 3) && x.b == 0 && x.c == 0
  | .D => x.a == 0 && decide (x.b ≤ 3) && x.c == 0
  | .SD => decide (x.a ≤ 3) && decide (x.b ≤ 3) && x.c == 0
  | .I8 => x.a == 0 && x.b == 0
  | .I2 => x.a == 0 && x.b == 0 && decide (x.c ≤ 3)
  | .I1 => x.a == 0 && x.b == 0 && decide (x.c ≤ 1)
  | .II => x.a == 0
  | .I9 => x.a == 0 && decide (x.b ≤ 1)

/-- A command word is legal when its `OP` is assigned and its fields are as the format of that `OP` allows;
every other word is illegal (rule R78). -/
def wordLegal (w : U32) : Bool :=
  match opcodeMap.lookup (fieldsOf w).op with
  | none => false
  | some f => f.allows (fieldsOf w)

end Sys2Proof
end

