-- ==== Sys2Proof/Decode.lean ====
section
/-!
DEFINITION. The decoder and the encoder of command words (spec/30_encoding.md part B, rules R70 to R73 and
R78). The decoder is total on 32-bit words and rejects an illegal word by name.
-/

namespace Sys2Proof

/-- Why a command word is illegal (rule R78). Each of them ends the command with status `ILLEGAL`. -/
inductive Reject where
  /-- `OP` is not in the opcode map. -/
  | unassignedOp
  /-- A field that the format does not use is not zero. -/
  | unusedField
  /-- A selector is larger than 3. -/
  | selectorRange
  /-- A bit above an `I1`, `I2` or `I9` immediate is not zero. -/
  | immediateRange
deriving DecidableEq, Repr

/-- `OP`, bits 31:24 (rule R70). -/
def opField (w : U32) : Byte := w.extractLsb' 24 8

/-- `A`, bits 23:16 (rule R70). -/
def aField (w : U32) : Byte := w.extractLsb' 16 8

/-- `B`, bits 15:8 (rule R70). -/
def bField (w : U32) : Byte := w.extractLsb' 8 8

/-- `C`, bits 7:0 (rule R70). -/
def cField (w : U32) : Byte := w.extractLsb' 0 8

/-- Format `Z`: no field operand. -/
def decodeZ (w : U32) (i : Instr) : Except Reject Instr :=
  if aField w = 0 ∧ bField w = 0 ∧ cField w = 0 then .ok i else .error .unusedField

/-- A selector field: its unsigned value, 0 to 3 (rules R71, R72). -/
def selector (f : Byte) : Except Reject Sel :=
  if f.toNat ≤ 3 then .ok (f.setWidth 2) else .error .selectorRange

/-- Format `S`: source selector in `A`. -/
def decodeS (w : U32) (k : Sel → Instr) : Except Reject Instr :=
  if bField w = 0 ∧ cField w = 0 then
    match selector (aField w) with
    | .ok a => .ok (k a)
    | .error e => .error e
  else .error .unusedField

/-- Format `D`: destination selector in `B`. -/
def decodeD (w : U32) (k : Sel → Instr) : Except Reject Instr :=
  if aField w = 0 ∧ cField w = 0 then
    match selector (bField w) with
    | .ok b => .ok (k b)
    | .error e => .error e
  else .error .unusedField

/-- Format `SD`: source selector in `A`, destination selector in `B`. -/
def decodeSD (w : U32) (k : Sel → Sel → Instr) : Except Reject Instr :=
  if cField w = 0 then
    match selector (aField w), selector (bField w) with
    | .ok a, .ok b => .ok (k a b)
    | _, _ => .error .selectorRange
  else .error .unusedField

/-- Format `I8`: a byte immediate in `C`. -/
def decodeI8 (w : U32) (k : Byte → Instr) : Except Reject Instr :=
  if aField w = 0 ∧ bField w = 0 then .ok (k (cField w)) else .error .unusedField

/-- Format `I2`: a profile id in `C[1:0]`. -/
def decodeI2 (w : U32) (k : Sel → Instr) : Except Reject Instr :=
  if aField w = 0 ∧ bField w = 0 then
    if (cField w).toNat ≤ 3 then .ok (k ((cField w).setWidth 2)) else .error .immediateRange
  else .error .unusedField

/-- Format `I1`: a bit in `C[0]`. -/
def decodeI1 (w : U32) (k : Bit → Instr) : Except Reject Instr :=
  if aField w = 0 ∧ bField w = 0 then
    if (cField w).toNat ≤ 1 then .ok (k ((cField w).getLsbD 0)) else .error .immediateRange
  else .error .unusedField

/-- Format `II`: byte immediates in `B` and `C`. -/
def decodeII (w : U32) (k : Byte → Byte → Instr) : Except Reject Instr :=
  if aField w = 0 then .ok (k (bField w) (cField w)) else .error .unusedField

/-- Format `I9`: the table index `B[0]*256 + C` (rule R72). -/
def decodeI9 (w : U32) (k : BitVec 9 → Instr) : Except Reject Instr :=
  if aField w = 0 then
    if (bField w).toNat ≤ 1 then .ok (k (BitVec.ofNat 9 ((bField w).toNat * 256 + (cField w).toNat)))
    else .error .immediateRange
  else .error .unusedField

/-- The opcode map of rule R73: each assigned `OP` and how the rest of its word is read. -/
def decodeRows : List (Nat × (U32 → Except Reject Instr)) :=
  [(0x00, fun w => decodeZ w .sysNop),
   (0x01, fun w => decodeZ w .sysInit),
   (0x02, fun w => decodeZ w .sysReset),
   (0x03, fun w => decodeI2 w .sysLoadp),
   (0x04, fun w => decodeSD w .sysMovb),
   (0x05, fun w => decodeSD w .sysMovy),
   (0x06, fun w => decodeD w .sysFqpop),
   (0x10, fun w => decodeZ w .gtzSetf),
   (0x11, fun w => decodeZ w .gtzSetc),
   (0x12, fun w => decodeZ w .gtzClr),
   (0x13, fun w => decodeZ w .gtzStep),
   (0x14, fun w => decodeZ w .gtzEnergy),
   (0x15, fun w => decodeZ w .gtzWin),
   (0x20, fun w => decodeZ w .afskSym),
   (0x21, fun w => decodeD w .afskDemod),
   (0x30, fun w => decodeD w .gfskDemod),
   (0x40, fun w => decodeSD w .mfskMap),
   (0x41, fun w => decodeSD w .mfskUnmap),
   (0x42, fun w => decodeZ w .mfskSym),
   (0x43, fun w => decodeD w .mfskDemod),
   (0x50, fun w => decodeZ w .nrziClr),
   (0x51, fun w => decodeI1 w .nrziEncb),
   (0x52, fun w => decodeI1 w .nrziDecb),
   (0x53, fun w => decodeSD w .nrziEnc),
   (0x54, fun w => decodeSD w .nrziDec),
   (0x60, fun w => decodeSD w .hdlcUnpack),
   (0x61, fun w => decodeSD w .hdlcPack),
   (0x62, fun w => decodeSD w .hdlcStuff),
   (0x63, fun w => decodeSD w .hdlcDestuff),
   (0x64, fun w => decodeSD w .hdlcFrame),
   (0x65, fun w => decodeS w .hdlcFlags),
   (0x66, fun w => decodeS w .hdlcExtract),
   (0x70, fun w => decodeSD w .frmBuild),
   (0x71, fun w => decodeSD w .frmParse),
   (0x72, fun w => decodeSD w .frmEncode),
   (0x73, fun w => decodeSD w .frmDecode),
   (0x80, fun w => decodeZ w .crcClr),
   (0x81, fun w => decodeI1 w .crcBit),
   (0x82, fun w => decodeI8 w .crcByte),
   (0x83, fun w => decodeZ w .crcFinal),
   (0x84, fun w => decodeS w .crcGen),
   (0x85, fun w => decodeSD w .crcAppend),
   (0x86, fun w => decodeS w .crcChk),
   (0x90, fun w => decodeII w .gfAdd),
   (0x91, fun w => decodeII w .gfMul),
   (0x92, fun w => decodeI8 w .gfInv),
   (0x93, fun w => decodeI9 w .gfExp),
   (0x94, fun w => decodeI8 w .gfLog),
   (0xA0, fun w => decodeSD w .rsEncb),
   (0xA1, fun w => decodeS w .rsSyn),
   (0xA2, fun w => decodeSD w .rsDecb),
   (0xA3, fun w => decodeSD w .rsEnc),
   (0xA4, fun w => decodeSD w .rsDec)]

/-- The operation a command word names (rules R70 to R73), or why the word is illegal (rule R78). -/
def decode (w : U32) : Except Reject Instr :=
  match decodeRows.lookup (opField w).toNat with
  | some read => read w
  | none => .error .unassignedOp

/-- The command word with the fields `OP`, `A`, `B`, `C` (rule R70). -/
def commandWord (op a b c : Byte) : U32 := op ++ a ++ b ++ c

/-- A selector or a profile id in its 8-bit field, the bits above it zero (rule R71). -/
def selField (x : Sel) : Byte := x.setWidth 8

/-- A one-bit immediate in its 8-bit field, the bits above it zero (rule R71). -/
def bitField (x : Bit) : Byte := if x then 1 else 0

/-- The command word of an operation (rules R71, R73). -/
def encode (i : Instr) : U32 :=
  match i with
  | .sysNop => commandWord 0x00 0 0 0
  | .sysInit => commandWord 0x01 0 0 0
  | .sysReset => commandWord 0x02 0 0 0
  | .sysLoadp p => commandWord 0x03 0 0 (selField p)
  | .sysMovb a b => commandWord 0x04 (selField a) (selField b) 0
  | .sysMovy a b => commandWord 0x05 (selField a) (selField b) 0
  | .sysFqpop b => commandWord 0x06 0 (selField b) 0
  | .gtzSetf => commandWord 0x10 0 0 0
  | .gtzSetc => commandWord 0x11 0 0 0
  | .gtzClr => commandWord 0x12 0 0 0
  | .gtzStep => commandWord 0x13 0 0 0
  | .gtzEnergy => commandWord 0x14 0 0 0
  | .gtzWin => commandWord 0x15 0 0 0
  | .afskSym => commandWord 0x20 0 0 0
  | .afskDemod b => commandWord 0x21 0 (selField b) 0
  | .gfskDemod b => commandWord 0x30 0 (selField b) 0
  | .mfskMap a b => commandWord 0x40 (selField a) (selField b) 0
  | .mfskUnmap a b => commandWord 0x41 (selField a) (selField b) 0
  | .mfskSym => commandWord 0x42 0 0 0
  | .mfskDemod b => commandWord 0x43 0 (selField b) 0
  | .nrziClr => commandWord 0x50 0 0 0
  | .nrziEncb x => commandWord 0x51 0 0 (bitField x)
  | .nrziDecb x => commandWord 0x52 0 0 (bitField x)
  | .nrziEnc a b => commandWord 0x53 (selField a) (selField b) 0
  | .nrziDec a b => commandWord 0x54 (selField a) (selField b) 0
  | .hdlcUnpack a b => commandWord 0x60 (selField a) (selField b) 0
  | .hdlcPack a b => commandWord 0x61 (selField a) (selField b) 0
  | .hdlcStuff a b => commandWord 0x62 (selField a) (selField b) 0
  | .hdlcDestuff a b => commandWord 0x63 (selField a) (selField b) 0
  | .hdlcFrame a b => commandWord 0x64 (selField a) (selField b) 0
  | .hdlcFlags a => commandWord 0x65 (selField a) 0 0
  | .hdlcExtract a => commandWord 0x66 (selField a) 0 0
  | .frmBuild a b => commandWord 0x70 (selField a) (selField b) 0
  | .frmParse a b => commandWord 0x71 (selField a) (selField b) 0
  | .frmEncode a b => commandWord 0x72 (selField a) (selField b) 0
  | .frmDecode a b => commandWord 0x73 (selField a) (selField b) 0
  | .crcClr => commandWord 0x80 0 0 0
  | .crcBit x => commandWord 0x81 0 0 (bitField x)
  | .crcByte n => commandWord 0x82 0 0 n
  | .crcFinal => commandWord 0x83 0 0 0
  | .crcGen a => commandWord 0x84 (selField a) 0 0
  | .crcAppend a b => commandWord 0x85 (selField a) (selField b) 0
  | .crcChk a => commandWord 0x86 (selField a) 0 0
  | .gfAdd x y => commandWord 0x90 0 x y
  | .gfMul x y => commandWord 0x91 0 x y
  | .gfInv n => commandWord 0x92 0 0 n
  | .gfExp n => commandWord 0x93 0 (bitField (n.getLsbD 8)) (n.setWidth 8)
  | .gfLog n => commandWord 0x94 0 0 n
  | .rsEncb a b => commandWord 0xA0 (selField a) (selField b) 0
  | .rsSyn a => commandWord 0xA1 (selField a) 0 0
  | .rsDecb a b => commandWord 0xA2 (selField a) (selField b) 0
  | .rsEnc a b => commandWord 0xA3 (selField a) (selField b) 0
  | .rsDec a b => commandWord 0xA4 (selField a) (selField b) 0

/-- The operation read from an instruction whose bits are `w` (there is one length, 32 bits: rule R70). -/
def decodeTableWord (_nbits w : Nat) : Option Instr :=
  match decode (BitVec.ofNat 32 w) with
  | .ok i => some i
  | .error _ => none

end Sys2Proof
end

