-- ==== Sys2Proof/Machine/State.lean ====
section
/-!
DEFINITION. The architectural state of QRA-CORE as plain data (spec/10_state.md), the host's actions that the
block waits for, the state after reset (rule R27), and the reasons a step can stop: there is none.
-/

namespace Sys2Proof.Machine

/-- A record of `FQ` (rule R11): a candidate frame, its first bit index, one past its last, and its bytes. -/
structure FrameRec where
  start : Nat
  stop : Nat
  bytes : List Byte
deriving DecidableEq, Repr

/-- The configuration registers `CFG.*` (rule R17). `none` is the value `unconfigured` (rule R303). -/
structure Cfg where
  fs : Option Nat
  baud : Option Nat
  kind : Option Kind
  fMark : Option LinearReal
  fSpace : Option LinearReal
  bps : Option Nat
  ntones : Nat
  tone : Vector (Option LinearReal) 16
  gfskAlpha : Option ExactReal
  npre : Option Nat
  minFrameBits : Nat
  flagAdvance : Nat
deriving DecidableEq, Repr

/-- The Goertzel unit: `GTZ.COEFF`, `GTZ.S1`, `GTZ.S2` (rule R19). -/
structure Goertzel where
  coeff : Option ExactReal
  s1 : ExactReal
  s2 : ExactReal
deriving DecidableEq, Repr

/-- The registers of the last parsed frame, `P_FLAGS` to `P_CRC_CALC` (rule R13). -/
structure Parsed where
  flags : Byte
  gzip : Bit
  fec : Bit
  profile : Sel
  len : U16
  crcStored : U16
  crcCalc : U16
deriving DecidableEq, Repr

/-- What the host can do to an idle block (rules R10, R80): issue a command word, write an operand register
(rule R12) or a configuration register (rule R17), load a buffer or a list register (rule R11), or pull the
reset input (rule R330). -/
inductive HostAction where
  | command (word : U32)
  | setA (index : Sel) (value : U32)
  | setXs (value : ExactReal)
  | setXf (value : LinearReal)
  | setHdrFlags (value : Byte)
  | setHdrLen (value : U16)
  | setFs (value : Nat)
  | setBaud (value : Nat)
  | setKind (value : Kind)
  | setFMark (value : LinearReal)
  | setFSpace (value : LinearReal)
  | setBps (value : Nat)
  | setNtones (value : Nat)
  | setTone (index : Fin 16) (value : LinearReal)
  | setGfskAlpha (value : ExactReal)
  | setNpre (value : Nat)
  | setMinFrameBits (value : Nat)
  | setFlagAdvance (value : Nat)
  | loadSb (samples : List ExactReal)
  | loadBb (buffer : Sel) (bits : List Bit)
  | loadYb (buffer : Sel) (bytes : List Byte)
  | loadFp (positions : List Nat)
  | loadFq (records : List FrameRec)
  | resetInput
deriving DecidableEq, Repr

/-- The whole state. All but the last two fields are the spec's (rules R11 to R23, R26); `pending` and
`openTick` are the model's own (assumption log 5 and 3). -/
structure State where
  /-- `SB`, the input waveform. -/
  sb : List ExactReal
  /-- `BB0` to `BB3`, the bit buffers. -/
  bb : Four (List Bit)
  /-- `YB0` to `YB3`, the byte buffers. -/
  yb : Four (List Byte)
  /-- `FP`, the flag positions of the last flag search. -/
  fp : List Nat
  /-- `FQ`, the candidate frames of the last extraction. -/
  fq : List FrameRec
  /-- `A0` to `A3`, scalar operands. -/
  a : Four U32
  /-- `XS`, the sample operand. -/
  xs : ExactReal
  /-- `XF`, the frequency or coefficient operand. -/
  xf : LinearReal
  /-- `HDR_FLAGS`. -/
  hdrFlags : Byte
  /-- `HDR_LEN`. -/
  hdrLen : U16
  /-- `R0` to `R3`, scalar results. -/
  r : Four U32
  /-- `EV[0..15]`, energies. -/
  ev : Vector ExactReal 16
  /-- `P_FLAGS` to `P_CRC_CALC`. -/
  parsed : Parsed
  /-- `STATUS`, the code of the last command. -/
  status : Byte
  /-- `CFG.*`. -/
  cfg : Cfg
  /-- The Goertzel unit. -/
  gtz : Goertzel
  /-- `NRZI.ENC_LEVEL`. -/
  nrziEncLevel : Bit
  /-- `NRZI.DEC_PREV`. -/
  nrziDecPrev : Bit
  /-- `CRC.REG`, before the final complement. -/
  crcReg : U16
  /-- `RS.SYN[0..31]`. -/
  rsSyn : Vector Byte 32
  /-- `RS.PAR[0..31]`. -/
  rsPar : Vector Byte 32
  /-- `TABLES_READY` (rule R26). -/
  tablesReady : Bool
  /-- MODEL'S OWN: the host's actions still to come, the next one first (log 5). -/
  pending : List HostAction
  /-- MODEL'S OWN: a counter that every host action advances; the free values of counts are read at it (log 3). -/
  openTick : Nat
deriving DecidableEq, Repr

/-- The state at the end of reset: the table of rule R27, with no host action pending (log 5). -/
def State.reset : State where
  sb := []
  bb := ⟨[], [], [], []⟩
  yb := ⟨[], [], [], []⟩
  fp := []
  fq := []
  a := ⟨0, 0, 0, 0⟩
  xs := .zero
  xf := ⟨0, []⟩
  hdrFlags := 0
  hdrLen := 0
  r := ⟨0, 0, 0, 0⟩
  ev := Vector.replicate 16 .zero
  parsed := ⟨0, false, false, 0, 0, 0, 0⟩
  status := 0
  cfg := ⟨none, none, none, none, none, none, 0, Vector.replicate 16 none, none, none, 80, 8⟩
  gtz := ⟨none, .zero, .zero⟩
  nrziEncLevel := true
  nrziDecPrev := true
  crcReg := 0xFFFF
  rsSyn := Vector.replicate 32 0
  rsPar := Vector.replicate 32 0
  tablesReady := true
  pending := []
  openTick := 0

/-- The reasons a step can end in a fault: none. A failing operation of the block ends with a status code in
`STATUS` and a next state (spec/60_exceptions.md rules R300, R304, R309), and every command word, legal or
not, has an effect (rule R78). Safe: no behaviour is cut off (assumption log 15). -/
inductive Fault where
deriving DecidableEq, Repr

/-- The reasons a step can be refused. -/
inductive Refusal where
  /-- Raised by an arm of `exec` whose operation has no meaning yet; no arm raises it now. Safe: the run
  stops. -/
  | notModelled (mnemonic : String)
deriving DecidableEq, Repr

end Sys2Proof.Machine
end

