-- ==== Sys2Proof/Machine/Flags.lean ====
section
/-!
DEFINITION. The flag-like values of the block: the status codes (spec/30_encoding.md rule R68,
spec/60_exceptions.md rule R300), the fields of a frame's FLAGS byte and the profile ids (spec/30_encoding.md
rules R61, R62), and one-bit results. The block has no condition codes (spec/10_state.md rule R16).
-/

namespace Sys2Proof.Machine

/-- The status codes an operation can end with (rule R300). Code 7 is the host's and is never written. -/
inductive Status where
  | ok
  | none
  | integrity
  | fecUncorrectable
  | config
  | illegal
  | domain
deriving DecidableEq, Repr

/-- The number of a status code (rule R300). -/
def statusCode (x : Status) : Byte :=
  match x with
  | .ok => 0
  | .none => 1
  | .integrity => 2
  | .fecUncorrectable => 3
  | .config => 4
  | .illegal => 5
  | .domain => 6

/-- A bit in a 32-bit result register: zero-extended (rule R13). -/
def bitWord (x : Bit) : U32 := if x then 1 else 0

/-- FLAGS bit 0, GZIP (rule R61). -/
def flagGzip (flags : Byte) : Bit := flags.getLsbD 0

/-- FLAGS bit 1, FEC (rule R61). -/
def flagFec (flags : Byte) : Bit := flags.getLsbD 1

/-- FLAGS bits 3:2, PROFILE (rule R61). -/
def flagProfile (flags : Byte) : Sel := flags.extractLsb' 2 2

/-- `profile_flag`: the id of a profile (rule R62). -/
def profileFlag (p : Profile) : Sel :=
  match p with
  | .afskBell => 0
  | .mfsk => 1
  | .afskFifth => 2
  | .gfskFifth => 3

/-- `profile_from_flags`: the profile of an id; all four ids are assigned (rule R62,
spec/90_conflicts.md C1). -/
def profileFromFlags (id : Sel) : Profile :=
  match id.toNat with
  | 0 => .afskBell
  | 1 => .mfsk
  | 2 => .afskFifth
  | _ => .gfskFifth

/-- The modulation kind of a profile (rule R18). -/
def profileKind (p : Profile) : Kind :=
  match p with
  | .afskBell => .afsk
  | .mfsk => .mfsk
  | .afskFifth => .afsk
  | .gfskFifth => .gfsk

end Sys2Proof.Machine
end

