-- ==== Sys2Proof/Machine/Cosines.lean ====
section
/-!
DEFINITION. The sign of a finite sum of cosines of rational angles, exactly: rational approximations with their error, a test
for zero, and the search that ends (`NUMERICS`, spec/92_eei_decisions.md D6; assumption log 2). The search is shown to end and
its answer to be right in this file, because the definitions of Machine/Sign.lean rest on that.
-/

namespace Sys2Proof

/-! ## Folding a rational angle -/

/-- A rational angle brought into `[0, 1/2]` of a turn. -/
def foldHalf (turn : ℚ) : ℚ :=
  let u := turn - turn.floor
  if 1 / 2 < u then 1 - u else u

/-- A rational angle brought into `[0, 1/4]` of a turn, and whether its cosine changes sign with that. -/
def foldAngle (turn : ℚ) : ℚ × Bool :=
  let v := foldHalf turn
  if 1 / 4 < v then (1 / 2 - v, true) else (v, false)

/-! ## Approximations -/

/-- `arctan(1/m)` cut after `n` terms of the sum of `(-1)^k / ((2k+1) * m^(2k+1))`. -/
def arctanSum (m : Nat) : Nat → ℚ
  | 0 => 0
  | n + 1 => arctanSum m n + (-1) ^ n / ((2 * n + 1) * m ^ (2 * n + 1))

/-- A rational number below `pi = 16 * arctan(1/5) - 4 * arctan(1/239)`. -/
def piLow (n : Nat) : ℚ := 16 * arctanSum 5 (2 * n) - 4 * arctanSum 239 (2 * n + 1)

/-- A rational number above `pi`. -/
def piHigh (n : Nat) : ℚ := 16 * arctanSum 5 (2 * n + 1) - 4 * arctanSum 239 (2 * n)

/-- The series of the cosine from its term `k` on, cut after `n` terms and divided by that term; `y2` is the square of the
angle in radians. -/
def cosSeries (y2 : ℚ) : Nat → Nat → ℚ
  | 0, _ => 0
  | n + 1, k => 1 - y2 / ((2 * k + 1) * (2 * k + 2)) * cosSeries y2 n (k + 1)

/-- How many pairs of terms of `pi` are taken for `p` bits. -/
def piTerms (p : Nat) : Nat := p / 8 + 1

/-- How many terms of the cosine are taken for `p` bits. -/
def cosTerms (p : Nat) : Nat := p / 4 + 4

/-- `cos(2*pi*turn)` to about `p` bits. -/
def cosApprox (p : Nat) (turn : ℚ) : ℚ :=
  let f := foldAngle turn
  let w : ℚ := mkRat (2 * f.1 * piLow (piTerms p) * 2 ^ p).floor (2 ^ p)
  let c := cosSeries (w * w) (cosTerms p) 0
  if f.2 then -c else c

/-- How far `cosApprox` can be off. -/
def cosError (p : Nat) : ℚ :=
  (piHigh (piTerms p) - piLow (piTerms p)) / 2 + 1 / 2 ^ p + 2 * 2 ^ (2 * cosTerms p) / (2 * cosTerms p).factorial

/-- A sum of cosines of rational angles, each term an angle in turns and a coefficient: the real number it is. -/
noncomputable def cosSum (ts : List (ℚ × ℚ)) : ℝ := (ts.map fun t => (t.2 : ℝ) * Real.cos (2 * Real.pi * t.1)).sum

/-- A sum of cosines, each to about `p` bits. -/
def sumApprox (p : Nat) (ts : List (ℚ × ℚ)) : ℚ := (ts.map fun t => t.2 * cosApprox p t.1).sum

/-- How many times the error of one cosine a sum of cosines can be off. -/
def sumWeight (ts : List (ℚ × ℚ)) : ℚ := (ts.map fun t => |t.2|).sum

/-- The sign of a sum of cosines where `p` bits show it. -/
def signAt (ts : List (ℚ × ℚ)) (p : Nat) : Option Int :=
  let a := sumApprox p ts
  let e := sumWeight ts * cosError p
  if e < a then some 1 else if a < -e then some (-1) else none

/-- The sign of a sum of cosines where `p` bits, or as many doubled up to `n - 1` times, show it. -/
def signWithin (ts : List (ℚ × ℚ)) : Nat → Nat → Option Int
  | 0, _ => none
  | n + 1, p =>
    match signAt ts p with
    | some a => some a
    | none => signWithin ts n (2 * p)

/-! ## The test for zero

With `n` the common denominator of the angles, a sum of cosines is a combination of the `n`-th roots of unity. It is zero
exactly when the combination becomes zero in each place on being shifted by `n/p` places and subtracted from itself, for
each prime divisor `p` of `n` in turn. -/

/-- `p` is a prime divisor of `n`. -/
def isPrimeDivisor (n p : Nat) : Bool :=
  decide (1 < p) && decide (n % p = 0) && (List.range p).all fun d => decide (d < 2) || decide (p % d ≠ 0)

/-- The prime divisors of a positive number. -/
def primeDivisors (n : Nat) : List Nat := (List.range (n + 1)).filter (isPrimeDivisor n)

/-- The common denominator of the angles of a sum of cosines. -/
def commonDen (ts : List (ℚ × ℚ)) : Nat := ts.foldr (fun t n => Nat.lcm t.1.den n) 1

/-- The place among the `n`-th roots of unity that an angle with a denominator dividing `n` has. -/
def rootIndex (n : Nat) (q : ℚ) : ZMod n := ((q.num * (n / q.den : Nat) : Int) : ZMod n)

/-- The coefficient of each `n`-th root of unity in a sum of cosines: a cosine is half the sum of two of them. -/
def rootSum (n : Nat) (ts : List (ℚ × ℚ)) (k : ZMod n) : ℚ :=
  (ts.map fun t => (if rootIndex n t.1 = k then t.2 / 2 else 0) + (if -rootIndex n t.1 = k then t.2 / 2 else 0)).sum

/-- A combination of roots of unity shifted by `d` places, less the combination. -/
def shiftSub {n : Nat} (d : Nat) (f : ZMod n → ℚ) (k : ZMod n) : ℚ := f (k - d) - f k

/-- A combination of roots of unity shifted and subtracted from itself for each prime divisor of `n`. -/
def shiftSubAll {n : Nat} (f : ZMod n → ℚ) : ZMod n → ℚ := (primeDivisors n).foldl (fun g p => shiftSub (n / p) g) f

/-- A sum of cosines of rational angles is zero. -/
def vanishes (ts : List (ℚ × ℚ)) : Bool :=
  let n := commonDen ts
  let g := shiftSubAll (rootSum n ts)
  (List.range n).all fun k => decide (g (k : ZMod n) = 0)

/-! ## The approximations are right, and as good as needed -/

/-- `cos` of an angle and of that angle less a whole number of turns. -/
theorem cos_turn_sub_int (x : ℝ) (n : ℤ) : Real.cos (2 * Real.pi * (x - n)) = Real.cos (2 * Real.pi * x) := by
  rw [show 2 * Real.pi * (x - n) = 2 * Real.pi * x - n * (2 * Real.pi) by ring, Real.cos_sub_int_mul_two_pi]

/-- `cos` of an angle less half a turn. -/
theorem cos_turn_sub_half (x : ℝ) : Real.cos (2 * Real.pi * (x - 1 / 2)) = -Real.cos (2 * Real.pi * x) := by
  rw [show 2 * Real.pi * (x - 1 / 2) = 2 * Real.pi * x - Real.pi by ring, Real.cos_sub_pi]

theorem cos_turn_neg (x : ℝ) : Real.cos (2 * Real.pi * -x) = Real.cos (2 * Real.pi * x) := by
  rw [mul_neg, Real.cos_neg]

theorem foldHalf_cos (q : ℚ) : Real.cos (2 * Real.pi * (foldHalf q : ℝ)) = Real.cos (2 * Real.pi * (q : ℝ)) := by
  have hu : Real.cos (2 * Real.pi * ((q - q.floor : ℚ) : ℝ)) = Real.cos (2 * Real.pi * (q : ℝ)) := by
    push_cast; rw [cos_turn_sub_int]
  rw [← hu]
  simp only [foldHalf]
  split
  · rw [show ((1 - (q - q.floor) : ℚ) : ℝ) = -(((q - q.floor : ℚ) : ℝ) - (1 : ℤ)) by push_cast; ring, cos_turn_neg,
      cos_turn_sub_int]
  · rfl

theorem foldHalf_range (q : ℚ) : 0 ≤ foldHalf q ∧ foldHalf q ≤ 1 / 2 := by
  have h0 : (0 : ℚ) ≤ q - q.floor := by have := Rat.floor_le q; linarith
  have h1 : q - q.floor < 1 := by
    have := Rat.lt_floor_add_one q
    push_cast at this
    linarith
  simp only [foldHalf]
  split <;> constructor <;> linarith

/-- The cosine of a folded rational angle. -/
theorem foldAngle_cos (q : ℚ) :
    (if (foldAngle q).2 then -1 else 1) * Real.cos (2 * Real.pi * ((foldAngle q).1 : ℝ)) =
      Real.cos (2 * Real.pi * (q : ℝ)) := by
  rw [← foldHalf_cos q]
  simp only [foldAngle]
  split
  · rw [if_pos rfl, show ((1 / 2 - foldHalf q : ℚ) : ℝ) = -((foldHalf q : ℝ) - 1 / 2) by push_cast; ring, cos_turn_neg,
      cos_turn_sub_half]
    ring
  · simp

/-- A folded rational angle lies in the first quadrant. -/
theorem foldAngle_range (q : ℚ) : 0 ≤ (foldAngle q).1 ∧ (foldAngle q).1 ≤ 1 / 4 := by
  obtain ⟨h0, h1⟩ := foldHalf_range q
  simp only [foldAngle]
  split <;> constructor <;> simp only <;> linarith

open Filter Topology

theorem arctanSum_eq (m n : ℕ) : ((arctanSum m n : ℚ) : ℝ) =
    ∑ k ∈ Finset.range n, (-1) ^ k * (1 / ((2 * k + 1) * m ^ (2 * k + 1)) : ℝ) := by
  induction n with
  | zero => simp [arctanSum]
  | succ n ih => rw [Finset.sum_range_succ, ← ih]; simp [arctanSum, div_eq_mul_inv]

/-- The sums of the series converge to the arctangent. -/
theorem arctanSum_tendsto {m : ℕ} (hm : 2 ≤ m) :
    Tendsto (fun n => ((arctanSum m n : ℚ) : ℝ)) atTop (𝓝 (Real.arctan (m : ℝ)⁻¹)) := by
  have h : ‖(m : ℝ)⁻¹‖ < 1 := by
    rw [norm_inv, Real.norm_natCast]
    exact inv_lt_one_of_one_lt₀ (by exact_mod_cast hm)
  refine (Real.hasSum_arctan h).tendsto_sum_nat.congr fun n => ?_
  rw [arctanSum_eq]
  refine Finset.sum_congr rfl fun k _ => ?_
  simp [div_eq_mul_inv]
  ring

theorem arctanTerm_antitone {m : ℕ} (hm : 2 ≤ m) : Antitone fun k : ℕ => (1 / ((2 * k + 1) * m ^ (2 * k + 1)) : ℝ) := by
  intro a b hab
  have h1 : (1 : ℝ) ≤ m := by exact_mod_cast (by omega : 1 ≤ m)
  have h2 : (a : ℝ) ≤ b := by exact_mod_cast hab
  refine one_div_le_one_div_of_le (by positivity) (mul_le_mul (by linarith) (pow_le_pow_right₀ h1 (by omega)) ?_ ?_) <;>
    positivity

/-- Rough bounds of the sums: an even one is not negative, an odd one at most 1. -/
theorem arctanSum_range {m : ℕ} (hm : 2 ≤ m) (n : ℕ) :
    0 ≤ ((arctanSum m (2 * n) : ℚ) : ℝ) ∧ ((arctanSum m (2 * n + 1) : ℚ) : ℝ) ≤ 1 := by
  have ha := arctanTerm_antitone hm
  simp only [arctanSum_eq]
  induction n with
  | zero =>
    have : (1 : ℝ) ≤ m := by exact_mod_cast (by omega : 1 ≤ m)
    simpa using inv_le_one_of_one_le₀ this
  | succ n ih =>
    have h1 := ha (Nat.le_succ (2 * n))
    have h2 := ha (Nat.le_succ (2 * n + 1))
    have e1 : (-1 : ℝ) ^ (2 * n) = 1 := by rw [pow_mul]; simp
    have e2 : (-1 : ℝ) ^ (2 * n + 1) = -1 := by rw [pow_succ, e1]; ring
    have e3 : (-1 : ℝ) ^ (2 * n + 1 + 1) = 1 := by rw [pow_succ, e2]; ring
    rw [show 2 * (n + 1) = 2 * n + 1 + 1 by ring]
    simp only [Finset.sum_range_succ _ (2 * n + 1 + 1), Finset.sum_range_succ _ (2 * n + 1),
      Finset.sum_range_succ _ (2 * n), e1, e2, e3] at ih ⊢
    simp only [Nat.succ_eq_add_one] at h1 h2
    obtain ⟨i1, i2⟩ := ih
    constructor <;> linarith

/-- An even sum of the series is below the arctangent and an odd one above it. -/
theorem arctanSum_bounds {m : ℕ} (hm : 2 ≤ m) (n : ℕ) :
    ((arctanSum m (2 * n) : ℚ) : ℝ) ≤ Real.arctan (m : ℝ)⁻¹ ∧ Real.arctan (m : ℝ)⁻¹ ≤ (arctanSum m (2 * n + 1) : ℚ) := by
  have ha := arctanTerm_antitone hm
  have ht := (arctanSum_tendsto hm).congr (arctanSum_eq m)
  simp only [arctanSum_eq]
  exact ⟨ha.alternating_series_le_tendsto ht n, ha.tendsto_le_alternating_series ht n⟩

/-- Machin's formula. -/
theorem pi_machin : Real.pi = 16 * Real.arctan ((5 : ℕ) : ℝ)⁻¹ - 4 * Real.arctan ((239 : ℕ) : ℝ)⁻¹ := by
  have := Real.four_mul_arctan_inv_5_sub_arctan_inv_239
  push_cast
  linarith

theorem piLow_le (n : ℕ) : ((piLow n : ℚ) : ℝ) ≤ Real.pi := by
  rw [pi_machin]
  have h1 := (arctanSum_bounds (m := 5) (by norm_num) n).1
  have h2 := (arctanSum_bounds (m := 239) (by norm_num) n).2
  simp only [piLow]; push_cast at *; linarith

theorem le_piHigh (n : ℕ) : Real.pi ≤ ((piHigh n : ℚ) : ℝ) := by
  rw [pi_machin]
  have h1 := (arctanSum_bounds (m := 5) (by norm_num) n).2
  have h2 := (arctanSum_bounds (m := 239) (by norm_num) n).1
  simp only [piHigh]; push_cast at *; linarith

/-- The bounds of `pi` come together. -/
theorem piWidth_tendsto : Tendsto (fun n => ((piHigh n - piLow n : ℚ) : ℝ)) atTop (𝓝 0) := by
  have e : Tendsto (fun n : ℕ => 2 * n) atTop atTop := 
    tendsto_atTop_mono (fun n => (by omega : n ≤ 2 * n)) tendsto_id
  have o : Tendsto (fun n : ℕ => 2 * n + 1) atTop atTop := 
    tendsto_atTop_mono (fun n => (by omega : n ≤ 2 * n + 1)) tendsto_id
  have h5 := arctanSum_tendsto (m := 5) (by norm_num)
  have h9 := arctanSum_tendsto (m := 239) (by norm_num)
  have := (((h5.comp o).const_mul 16).sub ((h9.comp e).const_mul 4)).sub
    (((h5.comp e).const_mul 16).sub ((h9.comp o).const_mul 4))
  simp only [sub_self] at this
  refine this.congr fun n => ?_
  simp [piHigh, piLow]

/-- `cosSeries` is the Taylor polynomial. -/
theorem cosSeries_eq (y : ℝ) (y2 : ℚ) (h : (y2 : ℝ) = y ^ 2) (n k : ℕ) :
    y ^ (2 * k) / (2 * k).factorial * ((cosSeries y2 n k : ℚ) : ℝ) =
      ∑ j ∈ Finset.range n, (-1) ^ j * y ^ (2 * (k + j)) / ((2 * (k + j)).factorial : ℝ) := by
  induction n generalizing k with
  | zero => simp [cosSeries]
  | succ n ih =>
    rw [Finset.sum_range_succ']
    have hf : ((2 * (k + 1)).factorial : ℝ) = (2 * k + 2) * (2 * k + 1) * (2 * k).factorial := by
      rw [show 2 * (k + 1) = 2 * k + 1 + 1 by ring, Nat.factorial_succ, Nat.factorial_succ]; push_cast; ring
    have h1 : ((2 * k).factorial : ℝ) ≠ 0 := by positivity
    have h2 : (2 * (k : ℝ) + 1) ≠ 0 := by positivity
    have h3 : (2 * (k : ℝ) + 2) ≠ 0 := by positivity
    have hs : ∑ j ∈ Finset.range n, (-1) ^ (j + 1) * y ^ (2 * (k + (j + 1))) / ((2 * (k + (j + 1))).factorial : ℝ) =
        -(y ^ (2 * (k + 1)) / (2 * (k + 1)).factorial * ((cosSeries y2 n (k + 1) : ℚ) : ℝ)) := by
      rw [ih, ← Finset.sum_neg_distrib]
      refine Finset.sum_congr rfl fun j _ => ?_
      rw [show k + (j + 1) = k + 1 + j by ring]; ring
    rw [hs, hf]
    simp only [cosSeries]
    push_cast
    rw [h]
    field_simp
    simp only [Nat.add_zero]
    ring

/-- The real part of the exponential series at an imaginary number. -/
theorem expSeries_re (w : ℝ) (m : ℕ) :
    (∑ k ∈ Finset.range (2 * m), ((w : ℂ) * Complex.I) ^ k / (k.factorial : ℂ)).re =
      ∑ j ∈ Finset.range m, (-1) ^ j * w ^ (2 * j) / ((2 * j).factorial : ℝ) := by
  induction m with
  | zero => simp
  | succ m ih =>
    have he : ((w : ℂ) * Complex.I) ^ (2 * m) / ((2 * m).factorial : ℂ) =
        (((-1) ^ m * w ^ (2 * m) / ((2 * m).factorial : ℝ) : ℝ) : ℂ) := by
      rw [mul_pow, pow_mul Complex.I, Complex.I_sq]; push_cast; ring
    have ho : ((w : ℂ) * Complex.I) ^ (2 * m + 1) / ((2 * m + 1).factorial : ℂ) =
        (((-1) ^ m * w ^ (2 * m + 1) / ((2 * m + 1).factorial : ℝ) : ℝ) : ℂ) * Complex.I := by
      rw [mul_pow, pow_succ Complex.I, pow_mul Complex.I, Complex.I_sq]; push_cast; ring
    rw [show 2 * (m + 1) = 2 * m + 1 + 1 by ring, Finset.sum_range_succ, Finset.sum_range_succ, he, ho,
      Complex.add_re, Complex.add_re, ih, Finset.sum_range_succ, Complex.ofReal_re, Complex.re_ofReal_mul, Complex.I_re,
      mul_zero, add_zero]

/-- What the cut series of the cosine can be off by, for an angle of at most 2 radians. -/
theorem cosSeries_error {w : ℚ} {m : ℕ} (h0 : -2 ≤ w) (h2 : w ≤ 2) (hm : 2 ≤ m) :
    |Real.cos w - (cosSeries (w * w) m 0 : ℚ)| ≤ 2 * 2 ^ (2 * m) / (2 * m).factorial := by
  have hw2 : |(w : ℝ)| ≤ 2 := by exact_mod_cast abs_le.mpr ⟨h0, h2⟩
  have hw : ‖((w : ℝ) : ℂ) * Complex.I‖ = |(w : ℝ)| := by
    rw [norm_mul, Complex.norm_I, mul_one, Complex.norm_real, Real.norm_eq_abs]
  have hb := Complex.exp_bound' (x := ((w : ℝ) : ℂ) * Complex.I) (n := 2 * m) (by
    rw [hw, div_le_iff₀ (by positivity)]
    have : (2 : ℝ) ≤ m := by exact_mod_cast hm
    push_cast; linarith)
  have hs := cosSeries_eq w (w * w) (by push_cast; ring) m 0
  simp only [mul_zero, pow_zero, Nat.factorial_zero, Nat.cast_one, div_one, one_mul, zero_add] at hs
  have hre := Complex.abs_re_le_norm (Complex.exp (((w : ℝ) : ℂ) * Complex.I) -
      ∑ k ∈ Finset.range (2 * m), (((w : ℝ) : ℂ) * Complex.I) ^ k / k.factorial)
  rw [Complex.sub_re, Complex.exp_ofReal_mul_I_re, expSeries_re, ← hs] at hre
  refine hre.trans (hb.trans ?_)
  rw [hw, mul_comm, mul_div_assoc]
  gcongr

theorem cosTerms_two (p : ℕ) : 2 ≤ cosTerms p := by unfold cosTerms; omega

theorem piLow_ge (n : ℕ) : (-4 : ℝ) ≤ (piLow n : ℚ) := by
  have h1 := (arctanSum_range (m := 5) (by norm_num) n).1
  have h2 := (arctanSum_range (m := 239) (by norm_num) n).2
  simp only [piLow]; push_cast at *; linarith

/-- `cosApprox` is off by at most `cosError`. -/
theorem cosApprox_error (p : ℕ) (turn : ℚ) :
    |Real.cos (2 * Real.pi * turn) - (cosApprox p turn : ℚ)| ≤ (cosError p : ℚ) := by
  obtain ⟨h0, h4⟩ := foldAngle_range turn
  set t := (foldAngle turn).1 with ht
  have r0 : (0 : ℝ) ≤ t := by exact_mod_cast h0
  have r4 : (t : ℝ) ≤ 1 / 4 := by have : ((t : ℚ) : ℝ) ≤ ((1 / 4 : ℚ) : ℝ) := by exact_mod_cast h4
                                  simpa using this
  set n := piTerms p with hn
  set v : ℚ := 2 * t * piLow n with hv
  set w : ℚ := mkRat (v * 2 ^ p).floor (2 ^ p) with hw
  have hP : (0 : ℚ) < 2 ^ p := by positivity
  have hwe : w = ((v * 2 ^ p).floor : ℚ) / 2 ^ p := by rw [hw, Rat.mkRat_eq_div]; push_cast; rfl
  have hwv : w ≤ v := by
    rw [hwe, div_le_iff₀ hP]; exact Rat.floor_le _
  have hvw : v ≤ w + 1 / 2 ^ p := by
    rw [hwe, ← add_div, le_div_iff₀ hP]
    have := Rat.lt_floor_add_one (v * 2 ^ p)
    push_cast at this
    exact this.le
  have l := piLow_le n
  have u := le_piHigh n
  have lv : (v : ℝ) = 2 * t * (piLow n : ℚ) := by rw [hv]; push_cast; ring
  have v2 : v ≤ 2 := by
    have : (v : ℝ) ≤ 2 := by
      rw [lv]
      have := Real.pi_le_four
      nlinarith
    exact_mod_cast this
  have w2 : -2 ≤ w := by
    have : ((-2 : ℤ) : ℝ) ≤ v := by
      rw [lv]
      have := piLow_ge n
      push_cast
      nlinarith
    have h : ((-2 : ℤ) : ℚ) ≤ v := by exact_mod_cast this
    rw [hwe, le_div_iff₀ hP]
    have : -2 * 2 ^ p ≤ (v * 2 ^ p).floor := by
      rw [Rat.le_floor_iff]
      push_cast
      push_cast at h
      nlinarith
    exact_mod_cast this
  have hE := cosSeries_error w2 (hwv.trans v2) (cosTerms_two p)
  have hd := Real.abs_cos_sub_cos_le (2 * Real.pi * t) w
  have hd2 : |2 * Real.pi * (t : ℝ) - w| ≤ ((piHigh n - piLow n) / 2 + 1 / 2 ^ p : ℚ) := by
    have a1 : (w : ℝ) ≤ v := by exact_mod_cast hwv
    have a2 : (v : ℝ) ≤ w + 1 / 2 ^ p := by
      have : (v : ℝ) ≤ ((w + 1 / 2 ^ p : ℚ) : ℝ) := by exact_mod_cast hvw
      push_cast at this; exact this
    rw [lv] at a1 a2
    push_cast
    rw [abs_le]
    have hp : (0 : ℝ) < 1 / 2 ^ p := by positivity
    constructor <;> nlinarith
  have key : |Real.cos (2 * Real.pi * t) - (cosSeries (w * w) (cosTerms p) 0 : ℚ)| ≤ (cosError p : ℚ) := by
    have := abs_sub_le (Real.cos (2 * Real.pi * t)) (Real.cos w) ((cosSeries (w * w) (cosTerms p) 0 : ℚ) : ℝ)
    simp only [cosError]
    push_cast at hd2 hE ⊢
    linarith
  rw [← foldAngle_cos turn]
  simp only [cosApprox]
  split
  · rw [show (-1 : ℝ) * Real.cos (2 * Real.pi * t) - ((-cosSeries (w * w) (cosTerms p) 0 : ℚ) : ℝ) =
      -(Real.cos (2 * Real.pi * t) - (cosSeries (w * w) (cosTerms p) 0 : ℚ)) by push_cast; ring, abs_neg]
    exact key
  · rw [one_mul]; exact key

/-- `cosError` becomes as small as one likes. -/
theorem cosError_tendsto : Tendsto (fun p => ((cosError p : ℚ) : ℝ)) atTop (𝓝 0) := by
  have e1 : Tendsto piTerms atTop atTop := by
    refine tendsto_atTop.mpr fun b => ?_
    filter_upwards [eventually_ge_atTop (8 * b)] with p hp
    unfold piTerms; omega
  have e2 : Tendsto (fun p => 2 * cosTerms p) atTop atTop := by
    refine tendsto_atTop.mpr fun b => ?_
    filter_upwards [eventually_ge_atTop (4 * b)] with p hp
    unfold cosTerms; omega
  have h1 := (piWidth_tendsto.comp e1).div_const 2
  have h2 : Tendsto (fun p : ℕ => (1 / 2 : ℝ) ^ p) atTop (𝓝 0) := tendsto_pow_atTop_nhds_zero_of_lt_one (by norm_num) (by norm_num)
  have h3 := ((FloorSemiring.tendsto_pow_div_factorial_atTop (2 : ℝ)).comp e2).const_mul 2
  have := (h1.add h2).add h3
  simp only [zero_div, mul_zero, add_zero] at this
  refine this.congr fun p => ?_
  simp [cosError, mul_div_assoc]
/-- The approximation of a sum of cosines is off by at most its weight times the error of one cosine. -/
theorem sumApprox_error (p : ℕ) (ts : List (ℚ × ℚ)) :
    |cosSum ts - (sumApprox p ts : ℚ)| ≤ ((sumWeight ts * cosError p : ℚ) : ℝ) := by
  induction ts with
  | nil => simp [cosSum, sumApprox, sumWeight]
  | cons t ts ih =>
    have h : |(t.2 : ℝ) * Real.cos (2 * Real.pi * t.1) - t.2 * (cosApprox p t.1 : ℚ)| ≤ |(t.2 : ℝ)| * (cosError p : ℚ) := by
      rw [← mul_sub, abs_mul]
      exact mul_le_mul_of_nonneg_left (cosApprox_error p t.1) (abs_nonneg _)
    simp only [cosSum, sumApprox, sumWeight, List.map_cons, List.sum_cons] at ih ⊢
    push_cast at ih ⊢
    rw [add_mul]
    refine le_trans ?_ (add_le_add h ih)
    refine le_trans (le_of_eq ?_) (abs_add_le _ _)
    congr 1
    ring

/-- The sign that an approximation shows is right. -/
theorem signAt_right {ts : List (ℚ × ℚ)} {p : ℕ} {a : Int} (h : signAt ts p = some a) :
    (a = 1 ∧ 0 < cosSum ts) ∨ (a = -1 ∧ cosSum ts < 0) := by
  have he := abs_le.mp (sumApprox_error p ts)
  simp only [signAt] at h
  split at h
  · rename_i hc
    have hc : ((sumWeight ts * cosError p : ℚ) : ℝ) < (sumApprox p ts : ℚ) := by exact_mod_cast hc
    exact .inl ⟨by simpa using h.symm, by linarith [he.1]⟩
  · split at h
    · rename_i hc
      have hc : ((sumApprox p ts : ℚ) : ℝ) < ((-(sumWeight ts * cosError p) : ℚ) : ℝ) := by exact_mod_cast hc
      push_cast at hc he
      exact .inr ⟨by simpa using h.symm, by linarith [he.2]⟩
    · cases h

/-- The sign of a sum of cosines that is not zero is shown at some precision. -/
theorem exists_signAt {ts : List (ℚ × ℚ)} (h : cosSum ts ≠ 0) : ∃ p, (signAt ts p).isSome = true := by
  have hl := (cosError_tendsto.const_mul (((sumWeight ts : ℚ) : ℝ) * 2))
  rw [mul_zero] at hl
  obtain ⟨p, hp⟩ := (hl.eventually (gt_mem_nhds (abs_pos.mpr h))).exists
  refine ⟨p, ?_⟩
  have he := abs_le.mp (sumApprox_error p ts)
  simp only [signAt]
  split
  · rfl
  · rename_i h1
    split
    · rfl
    · rename_i h2
      exfalso
      have h1 : ((sumApprox p ts : ℚ) : ℝ) ≤ ((sumWeight ts * cosError p : ℚ) : ℝ) := by exact_mod_cast not_lt.mp h1
      have h2 : ((-(sumWeight ts * cosError p) : ℚ) : ℝ) ≤ (sumApprox p ts : ℚ) := by exact_mod_cast not_lt.mp h2
      push_cast at h1 h2 he
      rcases abs_cases (cosSum ts) with ⟨h3, -⟩ | ⟨h3, -⟩ <;> rw [h3] at hp <;> linarith [he.1, he.2]

theorem signWithin_right {ts : List (ℚ × ℚ)} {n p : ℕ} {a : Int} (h : signWithin ts n p = some a) :
    (a = 1 ∧ 0 < cosSum ts) ∨ (a = -1 ∧ cosSum ts < 0) := by
  induction n generalizing p with
  | zero => cases h
  | succ n ih =>
    simp only [signWithin] at h
    split at h
    · rename_i hs; cases h; exact signAt_right hs
    · exact ih h

/-! ## The test for zero is right -/

theorem mem_primeDivisors {n p : ℕ} (hn : 0 < n) : p ∈ primeDivisors n ↔ p.Prime ∧ p ∣ n := by
  simp only [primeDivisors, isPrimeDivisor, List.mem_filter, List.mem_range, Bool.and_eq_true, decide_eq_true_eq,
    List.all_eq_true, Bool.or_eq_true]
  constructor
  · rintro ⟨-, ⟨h1, h2⟩, h3⟩
    refine ⟨Nat.prime_def_lt'.mpr ⟨h1, fun m hm hlt hd => ?_⟩, Nat.dvd_of_mod_eq_zero h2⟩
    rcases h3 m hlt with h | h
    · omega
    · exact h (Nat.mod_eq_zero_of_dvd hd)
  · rintro ⟨hp, hd⟩
    refine ⟨Nat.lt_succ_of_le (Nat.le_of_dvd hn hd), ⟨hp.one_lt, Nat.mod_eq_zero_of_dvd hd⟩, fun m hlt => ?_⟩
    by_cases h : m < 2
    · exact .inl h
    · exact .inr fun hm => (Nat.prime_def_lt'.mp hp).2 m (by omega) hlt (Nat.dvd_of_mod_eq_zero hm)

/-- A common denominator is positive. -/
theorem commonDen_pos (ts : List (ℚ × ℚ)) : 0 < commonDen ts := by
  induction ts with
  | nil => exact Nat.one_pos
  | cons t ts ih => exact Nat.lcm_pos t.1.den_pos ih

theorem den_dvd_commonDen {ts : List (ℚ × ℚ)} {t : ℚ × ℚ} (h : t ∈ ts) : t.1.den ∣ commonDen ts := by
  induction ts with
  | nil => simp at h
  | cons u ts ih =>
    rcases List.mem_cons.mp h with rfl | h
    · exact Nat.dvd_lcm_left _ _
    · exact (ih h).trans (Nat.dvd_lcm_right _ _)

section

open Complex

variable {n : ℕ} [NeZero n]

/-- A combination of roots of unity with each root raised to the power `j`: its conjugates, for `j` prime to `n`. -/
noncomputable def conjugate (f : ZMod n → ℚ) (j : ZMod n) : ℂ := ∑ k, (f k : ℂ) * ZMod.stdAddChar (j * k)

/-- Shifting and subtracting multiplies each conjugate by a root of unity less one. -/
theorem conjugate_shiftSub (d : ℕ) (f : ZMod n → ℚ) (j : ZMod n) :
    conjugate (shiftSub d f) j = (ZMod.stdAddChar (j * (d : ZMod n)) - 1) * conjugate f j := by
  have h : ∑ k, (f (k - d) : ℂ) * ZMod.stdAddChar (j * k) = ZMod.stdAddChar (j * (d : ZMod n)) * conjugate f j := by
    rw [conjugate, Finset.mul_sum, ← Equiv.sum_comp (Equiv.addRight (d : ZMod n))]
    refine Finset.sum_congr rfl fun k _ => ?_
    simp only [Equiv.coe_addRight, add_sub_cancel_right, mul_add, AddChar.map_add_eq_mul]
    ring
  simp only [conjugate] at h ⊢
  simp only [shiftSub, Rat.cast_sub, sub_mul, Finset.sum_sub_distrib, one_mul, h]

theorem conjugate_foldl (ps : List ℕ) (f : ZMod n → ℚ) (j : ZMod n) :
    conjugate (ps.foldl (fun g p => shiftSub (n / p) g) f) j =
      (ps.map fun p => (ZMod.stdAddChar (j * ((n / p : ℕ) : ZMod n)) - 1 : ℂ)).prod * conjugate f j := by
  induction ps generalizing f with
  | nil => simp
  | cons p ps ih => rw [List.foldl_cons, ih, conjugate_shiftSub, List.map_cons, List.prod_cons]; ring

/-- A combination all of whose conjugates are zero has only zeros in it. -/
theorem conjugate_eq_zero {f : ZMod n → ℚ} (h : ∀ j, conjugate f j = 0) : f = 0 := by
  have : (fun k => (f k : ℂ)) = 0 := by
    apply (ZMod.dft (N := n) (E := ℂ)).symm.injective
    rw [map_zero]
    funext j
    rw [ZMod.invDFT_apply]
    have e : ∑ k : ZMod n, ZMod.stdAddChar (k * j) • (f k : ℂ) = conjugate f j :=
      Finset.sum_congr rfl fun k _ => by rw [smul_eq_mul, mul_comm, mul_comm k]
    rw [e, h]; simp
  funext k
  have hk := congrFun this k
  simpa using hk

theorem stdAddChar_eq_one {k : ZMod n} : (ZMod.stdAddChar k : ℂ) = 1 ↔ k = 0 := by
  rw [← AddChar.map_zero_eq_one (ZMod.stdAddChar (N := n))]
  exact ZMod.injective_stdAddChar.eq_iff

theorem stdAddChar_one_primitive : IsPrimitiveRoot (ZMod.stdAddChar (1 : ZMod n) : ℂ) n := by
  have := Complex.isPrimitiveRoot_exp n (NeZero.ne n)
  have e : (ZMod.stdAddChar (1 : ZMod n) : ℂ) = exp (2 * Real.pi * I / n) := by
    have := ZMod.stdAddChar_coe (N := n) 1
    simpa using this
  rw [e]; exact this

/-- The conjugates of zero are zero, because the cyclotomic polynomials are irreducible. -/
theorem conjugate_unit {f : ZMod n → ℚ} (h : conjugate f 1 = 0) {j : ZMod n} (hj : j.val.Coprime n) : conjugate f j = 0 := by
  set z : ℂ := ZMod.stdAddChar (1 : ZMod n) with hz
  have hp : IsPrimitiveRoot z n := stdAddChar_one_primitive
  have hn : 0 < n := Nat.pos_of_ne_zero (NeZero.ne n)
  let P : Polynomial ℚ := ∑ k : ZMod n, Polynomial.C (f k) * Polynomial.X ^ k.val
  have ev : ∀ i : ZMod n, Polynomial.aeval (z ^ i.val) P = conjugate f i := by
    intro i
    simp only [P, map_sum, map_mul, Polynomial.aeval_C, map_pow, Polynomial.aeval_X, conjugate]
    refine Finset.sum_congr rfl fun k _ => ?_
    rw [hz, ← pow_mul, ← AddChar.map_nsmul_eq_pow]
    congr 2
    simp
  have h1 : Polynomial.aeval z P = 0 := by
    have := ev 1
    rw [h] at this
    by_cases hn1 : n = 1
    · subst hn1
      have e : z = 1 := by simpa using hp.pow_eq_one
      rw [e] at this ⊢; simpa using this
    · have hf : Fact (1 < n) := ⟨by omega⟩
      rwa [ZMod.val_one, pow_one] at this
  have hd := minpoly.dvd ℚ z h1
  rw [← Polynomial.cyclotomic_eq_minpoly_rat hp hn] at hd
  obtain ⟨Q, hQ⟩ := hd
  have hr : Polynomial.aeval (z ^ j.val) (Polynomial.cyclotomic n ℚ) = 0 := by
    rw [Polynomial.cyclotomic_eq_minpoly_rat (hp.pow_of_coprime _ hj) hn]
    exact minpoly.aeval _ _
  rw [← ev j, hQ, map_mul, hr, zero_mul]

/-- The combination of roots of unity of a sum of cosines is that sum. -/
theorem conjugate_rootSum {ts : List (ℚ × ℚ)} (h : ∀ t ∈ ts, t.1.den ∣ n) : conjugate (rootSum n ts) 1 = cosSum ts := by
  induction ts with
  | nil => simp [conjugate, rootSum, cosSum]
  | cons t ts ih =>
    have e : conjugate (rootSum n (t :: ts)) 1 =
        (t.2 / 2 : ℂ) * ZMod.stdAddChar (rootIndex n t.1) + (t.2 / 2 : ℂ) * ZMod.stdAddChar (-rootIndex n t.1) +
          conjugate (rootSum n ts) 1 := by
      simp only [conjugate, rootSum, List.map_cons, List.sum_cons, one_mul, Rat.cast_add, add_mul, Finset.sum_add_distrib]
      congr 1
      congr 1 <;>
      · rw [Finset.sum_eq_single (_ : ZMod n)]
        rotate_left
        · intro b _ hb; rw [if_neg (Ne.symm hb)]; simp
        · simp
        · simp
    rw [e, ih fun u hu => h u (List.mem_cons_of_mem _ hu)]
    obtain ⟨m, hm⟩ := h t (List.mem_cons_self ..)
    have hd0 : (t.1.den : ℂ) ≠ 0 := by exact_mod_cast t.1.den_pos.ne'
    have hn0 : (n : ℂ) ≠ 0 := by exact_mod_cast NeZero.ne n
    have hdiv : n / t.1.den = m := by rw [hm]; exact Nat.mul_div_cancel_left _ t.1.den_pos
    have hq : ((t.1 : ℚ) : ℂ) = (t.1.num : ℂ) / t.1.den := by
      exact_mod_cast congrArg (fun q : ℚ => (q : ℂ)) (Rat.num_div_den t.1).symm
    have hm0 : (m : ℂ) ≠ 0 := by
      intro h0; apply hn0; rw [hm]; push_cast; rw [h0]; simp
    have pos : (ZMod.stdAddChar (rootIndex n t.1) : ℂ) = exp (2 * Real.pi * t.1 * I) := by
      rw [rootIndex, ZMod.stdAddChar_coe, hdiv, hq]
      congr 1
      rw [hm]
      push_cast
      field_simp
    have neg : (ZMod.stdAddChar (-rootIndex n t.1) : ℂ) = exp (-(2 * Real.pi * t.1) * I) := by
      rw [AddChar.map_neg_eq_inv, pos, neg_mul, exp_neg]
    rw [pos, neg]
    simp only [cosSum, List.map_cons, List.sum_cons]
    push_cast
    rw [Complex.cos]
    ring

end

/-- The zero test is right. -/
theorem vanishes_iff (ts : List (ℚ × ℚ)) : vanishes ts = true ↔ cosSum ts = 0 := by
  have hn := commonDen_pos ts
  have : NeZero (commonDen ts) := ⟨hn.ne'⟩
  set f := rootSum (commonDen ts) ts with hf
  have hv : conjugate f 1 = cosSum ts := conjugate_rootSum fun t h => den_dvd_commonDen h
  have hg : vanishes ts = true ↔ shiftSubAll f = 0 := by
    simp only [vanishes, List.all_eq_true, List.mem_range, decide_eq_true_eq]
    constructor
    · intro h
      funext k
      have := h k.val (ZMod.val_lt k)
      rwa [ZMod.natCast_zmod_val] at this
    · intro h k _
      rw [← hf, h]; rfl
  rw [hg]
  constructor
  · intro h
    have h1 := conjugate_foldl (primeDivisors (commonDen ts)) f 1
    change conjugate (shiftSubAll f) 1 = _ at h1
    rw [h, hv] at h1
    have h0 : conjugate (0 : ZMod (commonDen ts) → ℚ) 1 = 0 := by simp [conjugate]
    rw [h0, eq_comm, mul_eq_zero] at h1
    rcases h1 with h1 | h1
    · rw [List.prod_eq_zero_iff, List.mem_map] at h1
      obtain ⟨p, hp, h1⟩ := h1
      obtain ⟨hp, m, hm⟩ := (mem_primeDivisors hn).mp hp
      rw [sub_eq_zero, stdAddChar_eq_one, one_mul, ZMod.natCast_eq_zero_iff] at h1
      have := Nat.le_of_dvd (Nat.div_pos (Nat.le_of_dvd hn ⟨m, hm⟩) hp.pos) h1
      exact absurd this (not_le.mpr (Nat.div_lt_self hn hp.one_lt))
    · exact_mod_cast h1
  · intro h
    rw [h] at hv
    refine conjugate_eq_zero fun j => ?_
    have h1 := conjugate_foldl (primeDivisors (commonDen ts)) f j
    change conjugate (shiftSubAll f) j = _ at h1
    rw [h1]
    by_cases hj : j.val.Coprime (commonDen ts)
    · rw [conjugate_unit (by exact_mod_cast hv) hj, mul_zero]
    · obtain ⟨p, hp, ⟨a, ha⟩, ⟨m, hm⟩⟩ := Nat.Prime.not_coprime_iff_dvd.mp hj
      refine mul_eq_zero_of_left (List.prod_eq_zero_iff.mpr (List.mem_map.mpr
        ⟨p, (mem_primeDivisors hn).mpr ⟨hp, m, hm⟩, ?_⟩)) _
      rw [sub_eq_zero, stdAddChar_eq_one, ← ZMod.natCast_zmod_val j, ← Nat.cast_mul, ZMod.natCast_eq_zero_iff]
      have hd : commonDen ts / p = m := by
        conv_lhs => rw [hm]
        exact Nat.mul_div_cancel_left _ hp.pos
      rw [hd, ha]
      exact ⟨a, by conv_rhs => rw [hm]
                   ring⟩

/-! ## The sign -/

/-- The sign of a rational number: 1, 0 or -1. -/
def ratSign (q : ℚ) : Int := if q < 0 then -1 else if q = 0 then 0 else 1

/-- The sign of a sum of cosines of rational angles: 1, 0 or -1. A sum that a few precisions do not decide is tried for zero,
and one that is not zero is approximated ever better until its sign shows. -/
def exactSign (ts : List (ℚ × ℚ)) : Int :=
  if ts.all fun t => decide (t.1 = 0) then ratSign (ts.map fun t => t.2).sum
  else
    match signWithin ts 5 32 with
    | some a => a
    | none =>
      if h : vanishes ts = true then 0
      else (signAt ts (Nat.find (exists_signAt fun e => h ((vanishes_iff ts).mpr e)))).getD 0

/-- A sign is that of a real number. -/
def SignIs (a : Int) (r : ℝ) : Prop := (a = 1 ∧ 0 < r) ∨ (a = 0 ∧ r = 0) ∨ (a = -1 ∧ r < 0)

theorem ratSign_right (q : ℚ) : SignIs (ratSign q) (q : ℝ) := by
  simp only [ratSign, SignIs]
  rcases lt_trichotomy q 0 with h | h | h
  · exact .inr (.inr ⟨by rw [if_pos h], by exact_mod_cast h⟩)
  · exact .inr (.inl ⟨by simp [h], by exact_mod_cast h⟩)
  · exact .inl ⟨by rw [if_neg h.not_gt, if_neg h.ne'], by exact_mod_cast h⟩

/-- A sum of cosines of the angle 0 is the sum of the coefficients. -/
theorem cosSum_rational {ts : List (ℚ × ℚ)} (h : ∀ t ∈ ts, t.1 = 0) : cosSum ts = ((ts.map fun t => t.2).sum : ℚ) := by
  induction ts with
  | nil => simp [cosSum]
  | cons t ts ih =>
    have h0 := h t (List.mem_cons_self ..)
    have := ih fun u hu => h u (List.mem_cons_of_mem _ hu)
    simp only [cosSum, List.map_cons, List.sum_cons] at this ⊢
    rw [this, h0]
    simp

/-- The sign of a sum of cosines of rational angles is right. -/
theorem exactSign_right (ts : List (ℚ × ℚ)) : SignIs (exactSign ts) (cosSum ts) := by
  simp only [exactSign]
  split
  · rename_i h
    rw [cosSum_rational (by simpa using h)]
    exact ratSign_right _
  · split
    · rename_i hs
      exact (signWithin_right hs).imp_right .inr
    · split
      · rename_i h
        exact .inr (.inl ⟨rfl, (vanishes_iff ts).mp h⟩)
      · rename_i h
        have hx := exists_signAt fun e => h ((vanishes_iff ts).mpr e)
        obtain ⟨a, ha⟩ := Option.isSome_iff_exists.mp (Nat.find_spec hx)
        rw [ha]
        exact (signAt_right ha).imp_right .inr

end Sys2Proof
end

