-- ==== Sys2Proof/Machine/Numerics.lean ====
section
/-!
DEFINITION. The number system of samples, energies and phases (`NUMERICS`, spec/00_scope.md rules R6, R7,
spec/92_eei_decisions.md D6; assumption logs 1, 2 and 10): the record of operations that the rules compute with, and the
arithmetic of the default, exact reals as plain data, kept in the normal form of `ExactReal.normal`. Their order stands in
Machine/Sign.lean; Safety.lean says which real number each one stands for.
-/

namespace Sys2Proof

/-- `NUMERICS` (decision D6): arithmetic, cosine and sine, comparison, and sums of `atan2` angles, over a type `ρ` of
frequencies and angles, a type `α` of numbers and a type `φ` of sums of angles. Angles of `cosTurn` and `sinTurn` are in
whole turns. -/
structure Numerics (ρ α φ : Type) where
  /-- The sum of two frequencies. -/
  frequencyAdd : ρ → ρ → ρ
  /-- A rational number times a frequency. -/
  frequencyScale : ℚ → ρ → ρ
  /-- A frequency as a number. -/
  ofFrequency : ρ → α
  ofRat : ℚ → α
  add : α → α → α
  sub : α → α → α
  mul : α → α → α
  /-- A rational number times a number. -/
  scale : ℚ → α → α
  /-- `cos(2*pi*x)`. -/
  cosTurn : ρ → α
  /-- `sin(2*pi*x)`. -/
  sinTurn : ρ → α
  /-- 1 for a positive number, -1 for a negative one, 0 for zero. -/
  sign : α → Int
  /-- The empty sum of angles. -/
  phaseZero : φ
  /-- A sum of angles and `atan2(cross, dot)`, where `atan2(0, 0)` is 0 (spec/41_demodulators.md rule R120). -/
  phaseAdd : φ → (dot cross : α) → φ
  /-- The sign of a sum of angles, as `sign` gives it for a number. -/
  phaseSign : φ → Int

variable {ρ α φ : Type}

/-- The number zero of a number system. -/
def Numerics.zero (N : Numerics ρ α φ) : α := N.ofRat 0

/-- `x <= y`. -/
def Numerics.le (N : Numerics ρ α φ) (x y : α) : Bool := decide (0 ≤ N.sign (N.sub y x))

/-- `x < y`. -/
def Numerics.lt (N : Numerics ρ α φ) (x y : α) : Bool := decide (0 < N.sign (N.sub y x))

/-! ## Frequencies and angles -/

/-- A rational number as a frequency or an angle. -/
def LinearReal.ofRat (q : ℚ) : LinearReal := ⟨q, []⟩

/-- Adds `q` times the named real `n` to multiples of named reals; multiples of one name become one, and a zero multiple is
dropped. -/
def addNamed (n : Nat) (q : ℚ) : List (Nat × ℚ) → List (Nat × ℚ)
  | [] => if q = 0 then [] else [(n, q)]
  | (m, r) :: ms =>
    if n = m then (if q + r = 0 then ms else (n, q + r) :: ms)
    else if n < m then (if q = 0 then (m, r) :: ms else (n, q) :: (m, r) :: ms)
    else (m, r) :: addNamed n q ms

/-- `acc + q * x` for a rational `q`. -/
def LinearReal.addScaled (q : ℚ) (x acc : LinearReal) : LinearReal :=
  ⟨acc.rational + q * x.rational, x.named.foldr (fun p ms => addNamed p.1 (q * p.2) ms) acc.named⟩

/-- `x + y`. -/
def LinearReal.add (x y : LinearReal) : LinearReal := y.addScaled 1 x

/-- `x - y`. -/
def LinearReal.sub (x y : LinearReal) : LinearReal := y.addScaled (-1) x

/-- `q * x` for a rational `q`. -/
def LinearReal.scale (q : ℚ) (x : LinearReal) : LinearReal := x.addScaled q (.ofRat 0)

/-- The normal form of a frequency or an angle. -/
def LinearReal.norm (x : LinearReal) : LinearReal := x.scale 1

/-- The names rise strictly and no multiple is zero. -/
def normalNamed : List (Nat × ℚ) → Bool
  | [] => true
  | (n, q) :: ms => decide (q ≠ 0) && (ms.all fun p => decide (n < p.1)) && normalNamed ms

/-- A frequency or an angle is in normal form. -/
abbrev LinearReal.Normal (x : LinearReal) : Prop := normalNamed x.named = true

/-! ## Terms and their order -/

/-- The names of a term as rationals: how many, and each of them. -/
def namesCode (names : List Nat) : List ℚ := (names.length : ℚ) :: names.map fun n : Nat => (n : ℚ)

/-- The order of lists of rationals by their first difference. -/
def lexLt : List ℚ → List ℚ → Bool
  | _, [] => false
  | [], _ :: _ => true
  | a :: as, b :: bs => if a = b then lexLt as bs else decide (a < b)

/-- The multiples of named reals of an angle as rationals. -/
def multiplesCode : List (Nat × ℚ) → List ℚ
  | [] => []
  | (n, q) :: ms => (n : ℚ) :: q :: multiplesCode ms

/-- The place of a term among the terms of a number, as a list of rationals, different for different terms. -/
def termKey (names : List Nat) (turn : LinearReal) : List ℚ :=
  namesCode names ++ turn.rational :: multiplesCode turn.named

/-- Every term of a number comes after the key given: its first term does. -/
def keyBelow (key : List ℚ) : ExactReal → Bool
  | .zero => true
  | .plus _ names t _ => lexLt key (termKey names t)

/-- The names of a product, in order. -/
def mulNames (a b : List Nat) : List Nat := (a ++ b).insertionSort (· ≤ ·)

/-! ## Folding an angle

`cos` has period one turn, is even, changes sign when half a turn is added, is 0 at a quarter turn and `1/2` at a sixth of a
turn. Each angle is replaced by one that stands for all angles with the same cosine, up to a factor. -/

/-- A rational angle folded: an angle and a factor, the cosine being the factor times the cosine of the angle. -/
def foldRational (turn : ℚ) : LinearReal × ℚ :=
  let f := foldAngle turn
  let s : ℚ := if f.2 then -1 else 1
  if f.1 = 1 / 4 then (.ofRat 0, 0) else if f.1 = 1 / 6 then (.ofRat 0, s / 2) else (.ofRat f.1, s)

/-- Multiples of named reals negated. -/
def negNamed (ms : List (Nat × ℚ)) : List (Nat × ℚ) := ms.map fun p => (p.1, -p.2)

/-- The first of the multiples of named reals is negative. -/
def leadNegative : List (Nat × ℚ) → Bool
  | [] => false
  | (_, q) :: _ => decide (q < 0)

/-- An angle with named reals, folded: the first multiple made positive, the rational brought into `[0, 1/2)`. -/
def foldMixed (q : ℚ) (ms : List (Nat × ℚ)) : LinearReal × ℚ :=
  let flip := leadNegative ms
  let ns := if flip then negNamed ms else ms
  let r := if flip then -q else q
  let u := r - r.floor
  if 1 / 2 ≤ u then (⟨u - 1 / 2, ns⟩, -1) else (⟨u, ns⟩, 1)

/-- An angle folded, with the factor of its cosine. -/
def foldTurn (turn : LinearReal) : LinearReal × ℚ :=
  if turn.named = [] then foldRational turn.rational else foldMixed turn.rational turn.named

/-! ## Arithmetic -/

/-- A rational number. -/
def ExactReal.ofRat (q : ℚ) : ExactReal := if q = 0 then .zero else .plus q [] (.ofRat 0) .zero

/-- The normal form: the terms rise strictly by their keys, no coefficient is zero, the names of each term are in order,
and its angle is in normal form and folded. -/
def ExactReal.normal : ExactReal → Bool
  | .zero => true
  | .plus c names t r =>
    decide (c ≠ 0) && decide (mulNames names [] = names) && normalNamed t.named && decide (foldTurn t = (t, 1)) &&
      keyBelow (termKey names t) r && r.normal

/-- A number is in normal form. -/
abbrev ExactReal.Normal (x : ExactReal) : Prop := x.normal = true

/-- Adds a term with its angle folded to a number in normal form; terms of one key become one, and a zero term is
dropped. -/
def insertTerm (c : ℚ) (names : List Nat) (t : LinearReal) : ExactReal → ExactReal
  | .zero => .plus c names t .zero
  | .plus d ms u r =>
    if names = ms ∧ t = u then (if c + d = 0 then r else .plus (c + d) ms u r)
    else if lexLt (termKey names t) (termKey ms u) then .plus c names t (.plus d ms u r)
    else .plus d ms u (insertTerm c names t r)

/-- `x + c * names * cos(2*pi*t)`, the names in order and `t` in normal form. -/
def ExactReal.addTerm (x : ExactReal) (c : ℚ) (names : List Nat) (t : LinearReal) : ExactReal :=
  let f := foldTurn t
  if c * f.2 = 0 then x else insertTerm (c * f.2) names f.1 x

/-- The normal form of a number. -/
def ExactReal.norm : ExactReal → ExactReal
  | .zero => .zero
  | .plus c names t r => r.norm.addTerm c (mulNames names []) t.norm

/-- `x + y`. -/
def ExactReal.add : ExactReal → ExactReal → ExactReal
  | .zero, y => y
  | .plus c names t r, y => r.add (y.addTerm c names t)

/-- `acc + q * x` for a rational `q`. -/
def ExactReal.addScaled (q : ℚ) : ExactReal → ExactReal → ExactReal
  | .zero, acc => acc
  | .plus c names t r, acc => r.addScaled q (acc.addTerm (q * c) names t)

/-- `q * x` for a rational `q`. -/
def ExactReal.scale (q : ℚ) (x : ExactReal) : ExactReal := x.addScaled q .zero

/-- `x - y`. -/
def ExactReal.sub (x y : ExactReal) : ExactReal := y.addScaled (-1) x

/-- Adds `c * names * cos(2*pi*t) * d * ms * cos(2*pi*u)`: the product of two cosines is half the sum of the cosines of the
sum and the difference of their angles, and the cosine of 0 is 1. -/
def ExactReal.addProduct (acc : ExactReal) (c : ℚ) (names : List Nat) (t : LinearReal) (d : ℚ) (ms : List Nat)
    (u : LinearReal) : ExactReal :=
  if t = .ofRat 0 ∨ u = .ofRat 0 then acc.addTerm (c * d) (mulNames names ms) (t.add u)
  else
    (acc.addTerm (c * d / 2) (mulNames names ms) (t.add u)).addTerm (c * d / 2) (mulNames names ms) (t.sub u)

/-- `acc + c * names * cos(2*pi*t) * y`. -/
def ExactReal.addMulTerm (c : ℚ) (names : List Nat) (t : LinearReal) : ExactReal → ExactReal → ExactReal
  | .zero, acc => acc
  | .plus d ms u r, acc => ExactReal.addMulTerm c names t r (acc.addProduct c names t d ms u)

/-- `acc + x * y`. -/
def ExactReal.addMul : ExactReal → ExactReal → ExactReal → ExactReal
  | .zero, _, acc => acc
  | .plus c names t r, y, acc => r.addMul y (ExactReal.addMulTerm c names t y acc)

/-- `x * y`. -/
def ExactReal.mul (x y : ExactReal) : ExactReal := x.addMul y .zero

/-- A frequency as a number. -/
def LinearReal.toExact (x : LinearReal) : ExactReal :=
  x.named.foldr (fun p y => y.addTerm p.2 [p.1] (.ofRat 0)) (ExactReal.ofRat x.rational)

/-- `cos(2*pi*x)`. -/
def LinearReal.cosTurn (x : LinearReal) : ExactReal := ExactReal.zero.addTerm 1 [] x

/-- `sin(2*pi*x)`, the cosine of a quarter turn less. -/
def LinearReal.sinTurn (x : LinearReal) : ExactReal := (x.sub (.ofRat (1 / 4))).cosTurn

end Sys2Proof
end

