-- ==== Sys2Proof/Machine/Sign.lean ====
section
/-!
DEFINITION. The order of the exact reals of `NUMERICS` and the sums of angles of a discriminator (spec/00_scope.md rule R6,
spec/92_eei_decisions.md D6, spec/41_demodulators.md rule R120; assumption logs 1, 2 and 10), and the record of operations that
the machine takes.
-/

namespace Sys2Proof

/-! ## The real numbers that names stand for -/

/-- The real number that a frequency or an angle is when the names stand for the real numbers given. -/
noncomputable def LinearReal.valueWith (v : Nat → ℝ) (x : LinearReal) : ℝ :=
  (x.rational : ℝ) + (x.named.map fun p => (p.2 : ℝ) * v p.1).sum

/-- The real number that a number is when the names stand for the real numbers given. -/
noncomputable def ExactReal.valueWith (v : Nat → ℝ) : ExactReal → ℝ
  | .zero => 0
  | .plus c names t r =>
    (c : ℝ) * (names.map v).prod * Real.cos (2 * Real.pi * t.valueWith v) + r.valueWith v

/-- The terms of a number without names in front, and of their angles the rational part: all that is left where every name
stands for 0. -/
def ExactReal.rationalTerms : ExactReal → List (ℚ × ℚ)
  | .zero => []
  | .plus c names t r => if names = [] then (t.rational, c) :: r.rationalTerms else r.rationalTerms

/-- A number has no name in it: it is a sum of cosines of rational angles. -/
def ExactReal.nameFree : ExactReal → Bool
  | .zero => true
  | .plus _ names t r => decide (names = []) && decide (t.named = []) && r.nameFree

theorem LinearReal.valueWith_rational (v : Nat → ℝ) {x : LinearReal} (h : x.named = []) : x.valueWith v = x.rational := by
  simp [LinearReal.valueWith, h]

theorem LinearReal.valueWith_zero (x : LinearReal) : x.valueWith (fun _ => 0) = x.rational := by
  simp [LinearReal.valueWith]

/-- Where every name stands for 0, a number is the sum of its rational terms. -/
theorem ExactReal.valueWith_zero (x : ExactReal) : x.valueWith (fun _ => 0) = cosSum x.rationalTerms := by
  induction x with
  | zero => simp [ExactReal.valueWith, ExactReal.rationalTerms, cosSum]
  | plus c names t r ih =>
    simp only [ExactReal.valueWith, ExactReal.rationalTerms, LinearReal.valueWith_zero, ih]
    cases names with
    | nil => simp [cosSum]
    | cons n ns => simp

/-- A number without names is the sum of its rational terms, whatever names stand for. -/
theorem ExactReal.valueWith_nameFree (v : Nat → ℝ) {x : ExactReal} (h : x.nameFree = true) :
    x.valueWith v = cosSum x.rationalTerms := by
  induction x with
  | zero => simp [ExactReal.valueWith, ExactReal.rationalTerms, cosSum]
  | plus c names t r ih =>
    simp only [ExactReal.nameFree, Bool.and_eq_true, decide_eq_true_eq] at h
    obtain ⟨⟨rfl, h2⟩, h3⟩ := h
    simp [ExactReal.valueWith, ExactReal.rationalTerms, LinearReal.valueWith_rational v h2, ih h3, cosSum]

/-- What names stand for: real numbers, with the sign of every number that has names in it. The sign is the right one
whichever real numbers they are, for `right` is a part of the type. That there are such signs is shown by the case where
every name stands for 0. -/
structure NamedReals where
  /-- The real number that each name stands for. -/
  value : Nat → ℝ := fun _ => 0
  /-- The sign of each number. -/
  sign : ExactReal → Int := fun x => exactSign x.rationalTerms
  /-- The sign of each number is the sign of the real number it is. -/
  right : ∀ x, SignIs (sign x) (x.valueWith value) := by
    intro x
    rw [ExactReal.valueWith_zero]
    exact exactSign_right _
deriving Inhabited

/-- The real numbers that the host's numbers can name (`NUMERICS`, decision D6; assumption log 1). Nothing is known of them but
that signs are right, so a claim about numbers with names in them holds for all real numbers in their place. -/
opaque Config.reals : NamedReals

/-! ## Order -/

/-- The sign of a number: 1 when it is positive, -1 when it is negative, 0 when it is zero. It is computed for a sum of
cosines of rational angles, and for a number with names in it given with the real numbers they stand for; both are right
(log 2). -/
def ExactReal.sign (x : ExactReal) : Int :=
  if x.nameFree then exactSign x.rationalTerms else Config.reals.sign x

/-! ## Sums of angles

A sum of `atan2` angles is kept as a number of whole turns and a direction, since only its sign is ever needed (log 10). -/

/-- A sum of angles: `turns` whole turns and the angle in `(-pi, pi]` of the direction `(re, im)`, which is not the origin. -/
structure PhaseSum where
  turns : Int
  re : ExactReal
  im : ExactReal
deriving DecidableEq, Repr

/-- The empty sum of angles, 0. -/
def phaseZero : PhaseSum := ⟨0, ExactReal.ofRat 1, .zero⟩

/-- The sign of the angle of a direction, taken in `(-pi, pi]`: 1 on `(0, pi]`, 0 at 0, -1 on `(-pi, 0)`. -/
def angleSign (re im : ExactReal) : Int :=
  if im.sign = 0 then (if re.sign < 0 then 1 else 0) else im.sign

/-- The direction whose angle is the sum of two directions' angles, up to whole turns: their product as complex numbers. -/
def directionMul (p : PhaseSum) (dot cross : ExactReal) : ExactReal × ExactReal :=
  (ExactReal.sub (ExactReal.mul p.re dot) (ExactReal.mul p.im cross),
    ExactReal.add (ExactReal.mul p.re cross) (ExactReal.mul p.im dot))

/-- Adds `atan2(cross, dot)` to a sum of angles; `atan2(0, 0)` is 0 (spec/41_demodulators.md rule R120). A whole turn is
counted when the sum of the two directions' angles leaves `(-pi, pi]`. -/
def phaseAdd (p : PhaseSum) (dot cross : ExactReal) : PhaseSum :=
  if dot.sign = 0 ∧ cross.sign = 0 then p
  else
    let d := directionMul p dot cross
    let a := angleSign p.re p.im
    let b := angleSign dot cross
    let c := angleSign d.1 d.2
    let wrap : Int := if a = 1 ∧ b = 1 ∧ c ≠ 1 then 1 else if a = -1 ∧ b = -1 ∧ c = 1 then -1 else 0
    ⟨p.turns + wrap, d.1, d.2⟩

/-- The sign of a sum of angles. -/
def phaseSign (p : PhaseSum) : Int :=
  if p.turns = 0 then angleSign p.re p.im else if 0 < p.turns then 1 else -1

/-! ## The record -/

/-- The `NUMERICS` that the machine takes: the default, exact reals (decision D6). -/
def numerics : Numerics LinearReal ExactReal PhaseSum where
  frequencyAdd := LinearReal.add
  frequencyScale := LinearReal.scale
  ofFrequency := LinearReal.toExact
  ofRat := ExactReal.ofRat
  add := ExactReal.add
  sub := ExactReal.sub
  mul := ExactReal.mul
  scale := ExactReal.scale
  cosTurn := LinearReal.cosTurn
  sinTurn := LinearReal.sinTurn
  sign := ExactReal.sign
  phaseZero := phaseZero
  phaseAdd := phaseAdd
  phaseSign := phaseSign

end Sys2Proof
end

