-- ==== Sys2Proof/Machine/Ops.lean ====
section
/-!
DEFINITION. The named operations over buffers and registers (`BufRead`, `BufWrite` and register writes of
spec/00_scope.md rule R9), and the two ways an operation ends (spec/60_exceptions.md rule R304): `return`
after its writes, and `raise`, which stands where a processor has the taking of an exception. There is no
trap entry and no return from one (rule R309).
-/

namespace Sys2Proof.Machine

/-- The register of a bank that a selector names (rules R11 to R13). -/
def bankGet {α : Type} (x : Four α) (k : Sel) : α :=
  match k.toNat with
  | 0 => x.x0
  | 1 => x.x1
  | 2 => x.x2
  | _ => x.x3

/-- A bank with the register that a selector names replaced. -/
def bankSet {α : Type} (x : Four α) (k : Sel) (v : α) : Four α :=
  match k.toNat with
  | 0 => { x with x0 := v }
  | 1 => { x with x1 := v }
  | 2 => { x with x2 := v }
  | _ => { x with x3 := v }

/-- `BufRead(BB[k])` (rules R9, R40). -/
def bbRead (k : Sel) (s : State) : List Bit := bankGet s.bb k

/-- `BufWrite(BB[k], bits)`: the whole content is replaced (rules R9, R40); buffers are unbounded (rule R41). -/
def bbWrite (k : Sel) (bits : List Bit) (s : State) : State := { s with bb := bankSet s.bb k bits }

/-- `BufRead(YB[k])` (rules R9, R40). -/
def ybRead (k : Sel) (s : State) : List Byte := bankGet s.yb k

/-- `BufWrite(YB[k], bytes)` (rules R9, R40). -/
def ybWrite (k : Sel) (bytes : List Byte) (s : State) : State := { s with yb := bankSet s.yb k bytes }

/-- `R[k] <- v` (rule R13). -/
def setR (k : Sel) (v : U32) (s : State) : State := { s with r := bankSet s.r k v }

/-- What result register `R[k]` holds after a count: the count itself when it fits in 32 bits. The spec defines
no value for a count that does not fit (rules R257, R258, spec/93_implementation_defined.md U27): a free value
(assumption log 3). -/
def countWord (tick : Nat) (k : Sel) (n : Nat) : U32 :=
  if n < 2 ^ 32 then BitVec.ofNat 32 n else Config.openCount tick k n

/-- `R[k] <- n` for a length, a count or an index `n`. -/
def setCount (k : Sel) (n : Nat) (s : State) : State := setR k (countWord s.openTick k n) s

/-- The first entries of `EV` replaced by the energies given, the others kept (rules R13, R130). -/
def evWrite (es : List ExactReal) (ev : Vector ExactReal 16) : Vector ExactReal 16 :=
  ⟨((es ++ ev.toList.drop es.length).take 16).toArray, by simp; omega⟩

/-- The first thirty-two bytes of a list, for `RS.SYN` and `RS.PAR` (rule R23); every list given has as many. -/
def bytes32 (xs : List Byte) : Vector Byte 32 := ⟨((xs ++ List.replicate 32 0).take 32).toArray, by simp⟩

/-- `STATUS <- x` (rule R300). -/
def setStatus (x : Status) (s : State) : State := { s with status := statusCode x }

/-- `return x`: the operation ends with status `x` after the writes made so far (rule R304). -/
def endWith (x : Status) (s : State) : Host.Outcome State Fault Refusal := .next (setStatus x s)

/-- `raise x`: the operation ends with status `x` and no other write to the state `s` it began in (rule R304). -/
def raise (x : Status) (s : State) : Host.Outcome State Fault Refusal := .next (setStatus x s)

/-- The state at the end of reset, from any state (rules R27, R252, R330). The host's pending actions and the
model's tick are no state of the block and go on (assumption log 6). -/
def resetBlock (s : State) : State := { State.reset with pending := s.pending, openTick := s.openTick }

/-- `CRC.REG <- v` (rule R21). -/
def setCrc (v : U16) (s : State) : State := { s with crcReg := v }

/-- The Goertzel unit left with a coefficient and a state (rule R98). -/
def setGoertzel (coeff s1 s2 : ExactReal) (s : State) : State := { s with gtz := ⟨some coeff, s1, s2⟩ }

/-- Energies written to `EV` from index 0 on. -/
def setEnergies (es : List ExactReal) (s : State) : State := { s with ev := evWrite es s.ev }

/-- `RS.SYN <- bytes` (rule R23). -/
def setSyndromes (xs : List Byte) (s : State) : State := { s with rsSyn := bytes32 xs }

/-- `RS.PAR <- bytes` (rule R23). -/
def setParity (xs : List Byte) (s : State) : State := { s with rsPar := bytes32 xs }

end Sys2Proof.Machine
end

