-- ==== Sys2Proof/Machine/Operands.lean ====
section
/-!
DEFINITION. How operations read and check their operands: the configuration checks of spec/41_demodulators.md
rules R113, R121 and R126 and spec/60_exceptions.md rules R301 and R303, the symbol windows of rule R114, and
windows of `SB`. Each check answers `none` where the operation ends with status `CONFIG`.
-/

namespace Sys2Proof.Machine

/-- The sampling rate and the samples per symbol that `sym_config` finds (rules R110, R113). -/
structure SymConfig where
  fs : Nat
  sps : Nat
deriving DecidableEq, Repr

/-- `sym_config` (rule R113): `SPS = FS / BAUD`, refused unless `FS` is a multiple of `BAUD`. -/
def symConfig (c : Cfg) : Option SymConfig :=
  match c.fs, c.baud with
  | some fs, some baud =>
    if fs < 1 ∨ baud < 1 then none
    else if fs % baud ≠ 0 then none
    else some ⟨fs, fs / baud⟩
  | _, _ => none

/-- The checked operands of the AFSK operations (rule R116). -/
structure AfskConfig (ρ : Type) where
  sym : SymConfig
  mark : ρ
  space : ρ
deriving DecidableEq, Repr

/-- The configuration checks of `AFSK.SYM` and `AFSK.DEMOD` (rules R116, R117). -/
def afskConfig (c : Cfg) : Option (AfskConfig LinearReal) :=
  match symConfig c, c.fMark, c.fSpace with
  | some y, some m, some p => some ⟨y, m, p⟩
  | _, _, _ => none

/-- The checked operands of `GFSK.DEMOD` (rule R121). -/
structure GfskConfig (ρ α : Type) where
  sym : SymConfig
  mark : ρ
  space : ρ
  alpha : α
deriving DecidableEq, Repr

/-- The configuration checks of rule R121: mark and space differ, and `0 < alpha <= 1`. -/
def gfskConfig (c : Cfg) : Option (GfskConfig LinearReal ExactReal) :=
  match symConfig c, c.fMark, c.fSpace, c.gfskAlpha with
  | some y, some m, some p, some alpha =>
    if numerics.sign (numerics.sub (numerics.ofFrequency m) (numerics.ofFrequency p)) ≠ 0 ∧ 0 < numerics.sign alpha ∧
        numerics.le alpha (numerics.ofRat 1) then
      some ⟨y, m, p, alpha⟩
    else none
  | _, _, _, _ => none

/-- The `BPS` checks of rule R126, all that `MFSK.MAP` and `MFSK.UNMAP` need. -/
def bpsConfig (c : Cfg) : Option Nat :=
  match c.bps with
  | some b => if b < 1 ∨ 4 < b then none else some b
  | none => none

/-- The values of a list of registers, or `none` when one of them is unconfigured. -/
def allConfigured {α : Type} : List (Option α) → Option (List α)
  | [] => some []
  | none :: _ => none
  | some x :: rest =>
    match allConfigured rest with
    | some xs => some (x :: xs)
    | none => none

/-- The checked operands of `MFSK.SYM` and `MFSK.DEMOD` (rule R130): the bits per symbol and the first
`2^BPS` tones. -/
structure MfskConfig (ρ : Type) where
  sym : SymConfig
  bps : Nat
  tones : List ρ
deriving DecidableEq, Repr

/-- `mfsk_config` (rule R126) after `sym_config`; `NTONES` is also at most 16, a legal value that its reader checks
(spec/10_state.md rule R17; assumption log 14). -/
def mfskConfig (c : Cfg) : Option (MfskConfig LinearReal) :=
  match symConfig c, bpsConfig c with
  | some y, some b =>
    if c.ntones < 2 ^ b ∨ 16 < c.ntones then none
    else
      match allConfigured (c.tone.toList.take (2 ^ b)) with
      | some tones => some ⟨y, b, tones⟩
      | none => none
  | _, _ => none

/-- `s[i..j)`: the elements from index `i` up to but not including `j` (rule R7). -/
def slice {α : Type} (xs : List α) (i j : Nat) : List α := (xs.drop i).take (j - i)

/-- The number of whole symbol windows (rule R114). -/
def windowCount (len off sps : Nat) : Nat := if len < off then 0 else (len - off) / sps

/-- The symbol windows of a waveform, in time order (rule R114). -/
def symWindows {α : Type} (xs : List α) (off sps : Nat) : List (List α) :=
  (List.range (windowCount xs.length off sps)).map fun k => slice xs (off + k * sps) (off + (k + 1) * sps)

end Sys2Proof.Machine
end

