-- ==== Sys2Proof/Machine/Goertzel.lean ====
section
/-!
DEFINITION. The Goertzel unit (spec/40_goertzel.md): the pure functions of rules R90 and R91 and the six
`GTZ` operations.
-/

namespace Sys2Proof.Machine

variable {ρ α φ : Type}

/-- `goertzel_coeff(f, fs) = 2 * cos(2 * pi * f / fs)` (rule R90). -/
def goertzelCoeff (N : Numerics ρ α φ) (f : ρ) (fs : Nat) : α :=
  N.scale 2 (N.cosTurn (N.frequencyScale (1 / fs) f))

/-- `goertzel_step` (rule R91). -/
def goertzelStep (N : Numerics ρ α φ) (coeff : α) (st : α × α) (x : α) : α × α :=
  (N.sub (N.add x (N.mul coeff st.1)) st.2, st.1)

/-- `goertzel_energy` (rule R91). -/
def goertzelEnergy (N : Numerics ρ α φ) (coeff : α) (st : α × α) : α :=
  N.sub (N.add (N.mul st.1 st.1) (N.mul st.2 st.2)) (N.mul coeff (N.mul st.1 st.2))

/-- The unit's state after a window of samples, begun at `(0, 0)` (rule R91). -/
def goertzelRun (N : Numerics ρ α φ) (coeff : α) (xs : List α) : α × α :=
  xs.foldl (goertzelStep N coeff) (N.zero, N.zero)

/-- `goertzel_window` (rule R91). -/
def goertzelWindow (N : Numerics ρ α φ) (coeff : α) (xs : List α) : α := goertzelEnergy N coeff (goertzelRun N coeff xs)

/-- `GTZ.SETF` (rule R92). `FS` is at least 1, a legal value that its reader checks (spec/10_state.md rule R17;
assumption log 4). -/
def execGtzSetf (s : State) : Host.Outcome State Fault Refusal :=
  match s.cfg.fs with
  | none => raise .config s
  | some fs =>
    if fs < 1 then raise .config s
    else endWith .ok { s with gtz := { s.gtz with coeff := some (goertzelCoeff numerics s.xf fs) } }

/-- `GTZ.SETC` (rule R93). -/
def execGtzSetc (s : State) : Host.Outcome State Fault Refusal :=
  endWith .ok { s with gtz := { s.gtz with coeff := some (numerics.ofFrequency s.xf) } }

/-- `GTZ.CLR` (rule R94). -/
def execGtzClr (s : State) : Host.Outcome State Fault Refusal :=
  endWith .ok { s with gtz := { s.gtz with s1 := numerics.zero, s2 := numerics.zero } }

/-- `GTZ.STEP` (rule R95). -/
def execGtzStep (s : State) : Host.Outcome State Fault Refusal :=
  match s.gtz.coeff with
  | none => raise .config s
  | some c =>
    let st := goertzelStep numerics c (s.gtz.s1, s.gtz.s2) s.xs
    endWith .ok (setGoertzel c st.1 st.2 s)

/-- `GTZ.ENERGY` (rule R96). -/
def execGtzEnergy (s : State) : Host.Outcome State Fault Refusal :=
  match s.gtz.coeff with
  | none => raise .config s
  | some c => endWith .ok (setEnergies [goertzelEnergy numerics c (s.gtz.s1, s.gtz.s2)] s)

/-- `GTZ.WIN` (rule R97). -/
def execGtzWin (s : State) : Host.Outcome State Fault Refusal :=
  match s.gtz.coeff with
  | none => raise .config s
  | some c =>
    let start := (bankGet s.a 0).toNat
    let count := (bankGet s.a 1).toNat
    if s.sb.length < start + count then raise .config s
    else
      let st := goertzelRun numerics c (slice s.sb start (start + count))
      endWith .ok (setEnergies [goertzelEnergy numerics c st] (setGoertzel c st.1 st.2 s))

end Sys2Proof.Machine
end

