-- ==== Sys2Proof/Machine/Afsk.lean ====
section
/-!
DEFINITION. The AFSK demodulator (spec/41_demodulators.md rules R115 to R117).
-/

namespace Sys2Proof.Machine

/-- What `afsk_symbol` finds in a window: the level, the two energies, and the coefficient and final state of
the space run, which is the last one (rules R98, R115). -/
structure AfskResult (α : Type) where
  level : Bit
  mark : α
  space : α
  coeff : α
  final : α × α
deriving DecidableEq, Repr

variable {ρ α φ : Type}

/-- `afsk_symbol` (rule R115): level 1 when the mark energy is at least the space energy. -/
def afskSymbol (N : Numerics ρ α φ) (xs : List α) (fm fsp : ρ) (fs : Nat) : AfskResult α :=
  let eMark := goertzelWindow N (goertzelCoeff N fm fs) xs
  let c := goertzelCoeff N fsp fs
  let st := goertzelRun N c xs
  let eSpace := goertzelEnergy N c st
  ⟨N.le eSpace eMark, eMark, eSpace, c, st⟩

/-- The Goertzel unit and `EV[0]`, `EV[1]` after a symbol window (rules R98, R116). -/
def leaveAfsk (x : AfskResult ExactReal) (s : State) : State :=
  setEnergies [x.mark, x.space] (setGoertzel x.coeff x.final.1 x.final.2 s)

/-- The results of `afsk_symbol` on every whole window from an offset on (rule R117). -/
def afskSymbols (N : Numerics ρ α φ) (xs : List α) (off : Nat) (c : AfskConfig ρ) : List (AfskResult α) :=
  (symWindows xs off c.sym.sps).map fun w => afskSymbol N w c.mark c.space c.sym.fs

/-- `afsk_demod`: one level per symbol, in time order (rule R117). -/
def afskDemod (N : Numerics ρ α φ) (xs : List α) (off : Nat) (c : AfskConfig ρ) : List Bit :=
  (afskSymbols N xs off c).map fun x => x.level

/-- `AFSK.SYM` (rule R116). -/
def execAfskSym (s : State) : Host.Outcome State Fault Refusal :=
  match afskConfig s.cfg with
  | none => raise .config s
  | some c =>
    let start := (bankGet s.a 0).toNat
    if s.sb.length < start + c.sym.sps then raise .config s
    else
      let x := afskSymbol numerics (slice s.sb start (start + c.sym.sps)) c.mark c.space c.sym.fs
      endWith .ok (setR 0 (bitWord x.level) (leaveAfsk x s))

/-- `AFSK.DEMOD` (rule R117). -/
def execAfskDemod (dst : Sel) (s : State) : Host.Outcome State Fault Refusal :=
  match afskConfig s.cfg with
  | none => raise .config s
  | some c =>
    let rs := afskSymbols numerics s.sb (bankGet s.a 0).toNat c
    let t := setCount 0 rs.length (bbWrite dst (rs.map fun x => x.level) s)
    match rs.getLast? with
    | none => endWith .ok t
    | some x => endWith .ok (leaveAfsk x t)

end Sys2Proof.Machine
end

