-- ==== Sys2Proof/Machine/Crc.lean ====
section
/-!
DEFINITION. CRC-16/X.25 (spec/43_crc_frame.md rules R170 to R179).
-/

namespace Sys2Proof.Machine

/-- The LFSR feedback `CRC_POLY` (rule R170). -/
def crcPoly : U16 := 0x8408

/-- `crc_bit` (rule R171). -/
def crcBit (reg : U16) (b : Bit) : U16 :=
  if (reg.getLsbD 0 ^^ b) then (reg >>> 1) ^^^ crcPoly else reg >>> 1

/-- One shift of `crc_byte` (rule R171). -/
def crcShift (reg : U16) : U16 := if reg.getLsbD 0 then (reg >>> 1) ^^^ crcPoly else reg >>> 1

/-- `crc_byte` (rule R171): the byte goes in whole, then eight shifts. -/
def crcByte (reg : U16) (y : Byte) : U16 :=
  crcShift (crcShift (crcShift (crcShift (crcShift (crcShift (crcShift (crcShift (reg ^^^ y.setWidth 16))))))))

/-- The register after a byte sequence, from `CRC_INIT` (rule R170), before the complement. -/
def crcRun (bytes : List Byte) : U16 := bytes.foldl crcByte 0xFFFF

/-- `crc16x25` (rule R171). -/
def crc16x25 (bytes : List Byte) : U16 := crcRun bytes ^^^ 0xFFFF

/-- A CRC as its two trailer bytes, low byte first (rule R43). -/
def crcTrailer (c : U16) : List Byte := [c.setWidth 8, (c >>> 8).setWidth 8]

/-- The 16-bit value of the last two of a byte sequence, low byte first (rules R43, R179, R183). -/
def storedCrc (bytes : List Byte) : U16 :=
  (bytes.getD (bytes.length - 2) 0).setWidth 16 ||| ((bytes.getD (bytes.length - 1) 0).setWidth 16 <<< 8)

/-- A byte sequence less its two trailer bytes. -/
def withoutTrailer (bytes : List Byte) : List Byte := slice bytes 0 (bytes.length - 2)

/-- `CRC.CLR` (rule R172). -/
def execCrcClr (s : State) : Host.Outcome State Fault Refusal := endWith .ok (setCrc 0xFFFF s)

/-- `CRC.BIT` (rule R173). -/
def execCrcBit (bit : Bit) (s : State) : Host.Outcome State Fault Refusal :=
  endWith .ok (setCrc (crcBit s.crcReg bit) s)

/-- `CRC.BYTE` (rule R174). -/
def execCrcByte (imm : Byte) (s : State) : Host.Outcome State Fault Refusal :=
  endWith .ok (setCrc (crcByte s.crcReg imm) s)

/-- `CRC.FINAL` (rule R175). -/
def execCrcFinal (s : State) : Host.Outcome State Fault Refusal :=
  endWith .ok (setR 0 ((s.crcReg ^^^ 0xFFFF).setWidth 32) s)

/-- `CRC.GEN` (rules R176, R177). -/
def execCrcGen (src : Sel) (s : State) : Host.Outcome State Fault Refusal :=
  let c := crc16x25 (ybRead src s)
  endWith .ok (setCrc (c ^^^ 0xFFFF) (setR 0 (c.setWidth 32) s))

/-- `CRC.APPEND` (rules R176, R178). -/
def execCrcAppend (src dst : Sel) (s : State) : Host.Outcome State Fault Refusal :=
  let d := ybRead src s
  let c := crc16x25 d
  endWith .ok (setCrc (c ^^^ 0xFFFF) (setR 0 (c.setWidth 32) (ybWrite dst (d ++ crcTrailer c) s)))

/-- `CRC.CHK` (rules R176, R179). -/
def execCrcChk (src : Sel) (s : State) : Host.Outcome State Fault Refusal :=
  let d := ybRead src s
  if d.length < 2 then raise .none s
  else
    let stored := storedCrc d
    let computed := crc16x25 (withoutTrailer d)
    endWith .ok
      (setCrc (computed ^^^ 0xFFFF)
        (setR 2 (computed.setWidth 32) (setR 1 (stored.setWidth 32) (setR 0 (bitWord (computed == stored)) s))))

end Sys2Proof.Machine
end

