-- ==== Sys2Proof/Machine/Gf.lean ====
section
/-!
DEFINITION. GF(256) (spec/44_gf256.md). The read-only tables `EXP` and `LOG` (spec/10_state.md rule R22) are
constants (spec/70_reset_and_hazards.md rule R332). A listing is held as numbers, sixteen entries a number,
so that a table read is a shift.
-/

namespace Sys2Proof.Machine

/-- Joins rows of sixteen bytes into one number, the first row lowest. -/
def joinRows : List Nat → Nat
  | [] => 0
  | r :: rs => r + 2 ^ 128 * joinRows rs

/-- Byte `i` of a number, byte 0 the lowest. -/
def byteAt (n i : Nat) : Nat := (n >>> (8 * i)) % 256

/-- `EXP[0..255]`: the sixteen rows of rule R201's listing, entry 0 of a row in its lowest byte. -/
def expRows : List Nat :=
  [0x261387CDE8743A1D8040201008040201,
   0xC06030180C06038FC9EA75B45A2D984C,
   0x239FC1EE77B5D46A35944A259C4E279D,
   0xA1DE6FB9D269BA5DA05028140A058C46,
   0xF0783C1E0F89CA65BC5E2F99C261BE5F,
   0xE271B65BA3DFE1FE7FB1D66BBBD3E7FD,
   0xCE67BDD068341A0D884422118643AFD9,
   0xCC663397C5EC763B93C7EDF87C3E1F81,
   0x542A158442219E4FA9DA6DB85C2E1785,
   0x73B7D5E472399249AA55A452299A4DA8,
   0xFFF1F67BB3D7E5FC7E3F91C663BFD1E6,
   0x41AE57A5DC6E3795C46231964BABDBE3,
   0xA653A7DDE070381C0E078DC864321982,
   0x098A45AC562B9BC3EFF9F279B259A251,
   0x160B8BCBEBFBF3F7F5F47A3D90482412,
   0x018E47ADD86C361B83CFE9FA7DB0582C]

/-- `EXP[0..255]` as one number. -/
def expRom : Nat := joinRows expRows

/-- `EXP[i]` (rule R201): entries 255 to 511 repeat entries 0 to 256. -/
def expEntry (i : Nat) : Byte := BitVec.ofNat 8 (byteAt expRom (i % 255))

/-- `LOG[0..255]`: the sixteen rows of rule R202's listing, laid out as `expRows`. `LOG[0]` holds no value; a 0
stands in its place and no operation reads it (rule R202). -/
def logRows : List Nat :=
  [0x4BC7681BEE33DF03C61A320219010000,
   0x714C08C8F869C11C81EF8D340EE06404,
   0x458212F0DA8E9335210F24E12F658A05,
   0xA672E44D78099AC9B9F9276A7DC2B51D,
   0x88229110B32598E2FD30DD66628BBF06,
   0x404638835C13D2F1BDDB968FCE94D036,
   0x3DBA85FA54283A6B6E7E48C3A3B6421E,
   0x57A7F373ACE5D44E2B79150A9F9B5ECA,
   0x18FEC531EDDE4A670D63808CF7C07007,
   0x2E892023D99244117CB4B8267799A5E3,
   0x61BEFCDCB2978790CDCFBC955BD13F37,
   0xA2416D4753393C849E5D2A14ABD356F2,
   0xF66F0C7FEC4917C476A47BB7D8432D1F,
   0x5A3ECCBBB18660FBAA559D29523BA16C,
   0xD72C757AEB16F50B51A0A99CB05F59CB,
   0xAF5850A8EAF4D674E8ADE7E6E9D5AE4F]

/-- `LOG[0..255]` as one number. -/
def logRom : Nat := joinRows logRows

/-- `LOG[a]` for `a ≠ 0` (rule R202). -/
def logEntry (a : Byte) : Nat := byteAt logRom a.toNat

/-- `gf_add` (rule R203). -/
def gfAdd (a b : Byte) : Byte := a ^^^ b

/-- `gf_mul` (rule R203). -/
def gfMul (a b : Byte) : Byte := if a = 0 ∨ b = 0 then 0 else expEntry (logEntry a + logEntry b)

/-- `gf_inv` for `a ≠ 0` (rule R203). -/
def gfInv (a : Byte) : Byte := expEntry (255 - logEntry a)

/-- `gf_div` for `b ≠ 0` (rule R203). -/
def gfDiv (a b : Byte) : Byte := gfMul a (gfInv b)

/-- `gf_pow` (rule R203). -/
def gfPow (a : Byte) (n : Nat) : Byte :=
  if n = 0 then 1 else if a = 0 then 0 else expEntry ((logEntry a * n) % 255)

/-- `GF.ADD` (rule R204). -/
def execGfAdd (a b : Byte) (s : State) : Host.Outcome State Fault Refusal :=
  endWith .ok (setR 0 ((gfAdd a b).setWidth 32) s)

/-- `GF.MUL` (rule R205). -/
def execGfMul (a b : Byte) (s : State) : Host.Outcome State Fault Refusal :=
  endWith .ok (setR 0 ((gfMul a b).setWidth 32) s)

/-- `GF.INV` (rule R206). -/
def execGfInv (imm : Byte) (s : State) : Host.Outcome State Fault Refusal :=
  if imm = 0 then raise .domain s else endWith .ok (setR 0 ((gfInv imm).setWidth 32) s)

/-- `GF.EXP` (rule R207). -/
def execGfExp (index : BitVec 9) (s : State) : Host.Outcome State Fault Refusal :=
  endWith .ok (setR 0 ((expEntry index.toNat).setWidth 32) s)

/-- `GF.LOG` (rule R208). -/
def execGfLog (imm : Byte) (s : State) : Host.Outcome State Fault Refusal :=
  if imm = 0 then raise .domain s else endWith .ok (setR 0 (BitVec.ofNat 32 (logEntry imm)) s)

end Sys2Proof.Machine
end

