-- ==== Sys2Proof/Machine/Mfsk.lean ====
section
/-!
DEFINITION. The MFSK multi-tone mapper (spec/41_demodulators.md rules R126 to R131).
-/

namespace Sys2Proof.Machine

/-- The value of a bit group, its first bit least significant (rules R46, R127). -/
def groupIndex : List Bit → Nat
  | [] => 0
  | b :: bs => (if b then 1 else 0) + 2 * groupIndex bs

/-- `n` groups of `size` bits, a short last group padded with zeros (rule R127). -/
def bitGroups (size : Nat) : Nat → List Bit → List (List Bit)
  | 0, _ => []
  | n + 1, bits => (List.range size).map (fun j => bits.getD j false) :: bitGroups size n (bits.drop size)

/-- `ceil(n / d)`. -/
def ceilDiv (n d : Nat) : Nat := (n + d - 1) / d

/-- `mfsk_map`: bits to tone indices (rule R127). -/
def mfskMap (bits : List Bit) (bps : Nat) : List Nat :=
  (bitGroups bps (ceilDiv bits.length bps) bits).map groupIndex

/-- The bits of one tone index, least significant first (rules R46, R127). -/
def indexBits (bps idx : Nat) : List Bit := (List.range bps).map fun j => idx.testBit j

/-- `mfsk_unmap`: tone indices to bits (rule R127). -/
def mfskUnmap (idx : List Nat) (bps : Nat) : List Bit := (idx.map (indexBits bps)).flatten

variable {ρ α φ : Type}

/-- The scan of `bestTone` from index `i` on, when `best` is the index and `e` the energy of the best tone so far. -/
def bestFrom (N : Numerics ρ α φ) (i best : Nat) (e : α) : List α → Nat
  | [] => best
  | u :: us => if N.lt e u then bestFrom N (i + 1) i u us else bestFrom N (i + 1) best e us

/-- The smallest index of a greatest energy: a later tone is taken only when its energy is greater (rule R130). -/
def bestTone (N : Numerics ρ α φ) : List α → Nat
  | [] => 0
  | e :: es => bestFrom N 1 0 e es

/-- What `mfsk_symbol` finds in a window: the best tone, the energies, and the coefficient and final state of
the last tone's run (rules R98, R130). -/
structure MfskResult (α : Type) where
  best : Nat
  energies : List α
  coeff : α
  final : α × α
deriving DecidableEq, Repr

/-- `mfsk_symbol` (rule R130). -/
def mfskSymbol (N : Numerics ρ α φ) (xs : List α) (tones : List ρ) (fs : Nat) : MfskResult α :=
  let cs := tones.map fun f => goertzelCoeff N f fs
  let es := cs.map fun c => goertzelWindow N c xs
  let c := cs.getLastD N.zero
  ⟨bestTone N es, es, c, goertzelRun N c xs⟩

/-- The Goertzel unit and `EV[0..M-1]` after a symbol window (rules R98, R130). -/
def leaveMfsk (x : MfskResult ExactReal) (s : State) : State :=
  setEnergies x.energies (setGoertzel x.coeff x.final.1 x.final.2 s)

/-- The results of `mfsk_symbol` on every whole window from an offset on (rule R131). -/
def mfskSymbols (N : Numerics ρ α φ) (xs : List α) (off : Nat) (c : MfskConfig ρ) : List (MfskResult α) :=
  (symWindows xs off c.sym.sps).map fun w => mfskSymbol N w c.tones c.sym.fs

/-- `mfsk_demod`: the data bits (rule R131). -/
def mfskDemod (N : Numerics ρ α φ) (xs : List α) (off : Nat) (c : MfskConfig ρ) : List Bit :=
  mfskUnmap ((mfskSymbols N xs off c).map fun x => x.best) c.bps

/-- `MFSK.MAP` (rule R128): one tone index per byte. -/
def execMfskMap (src dst : Sel) (s : State) : Host.Outcome State Fault Refusal :=
  match bpsConfig s.cfg with
  | none => raise .config s
  | some bps =>
    let idx := mfskMap (bbRead src s) bps
    endWith .ok (setCount 0 idx.length (ybWrite dst (idx.map (BitVec.ofNat 8)) s))

/-- `MFSK.UNMAP` (rule R129). -/
def execMfskUnmap (src dst : Sel) (s : State) : Host.Outcome State Fault Refusal :=
  match bpsConfig s.cfg with
  | none => raise .config s
  | some bps =>
    let idx := (ybRead src s).map fun y => y.toNat
    if idx.any fun i => decide (2 ^ bps ≤ i) then raise .config s
    else
      let out := mfskUnmap idx bps
      endWith .ok (setCount 0 out.length (bbWrite dst out s))

/-- `MFSK.SYM` (rule R130). -/
def execMfskSym (s : State) : Host.Outcome State Fault Refusal :=
  match mfskConfig s.cfg with
  | none => raise .config s
  | some c =>
    let start := (bankGet s.a 0).toNat
    if s.sb.length < start + c.sym.sps then raise .config s
    else
      let x := mfskSymbol numerics (slice s.sb start (start + c.sym.sps)) c.tones c.sym.fs
      endWith .ok (setCount 0 x.best (leaveMfsk x s))

/-- `MFSK.DEMOD` (rule R131). -/
def execMfskDemod (dst : Sel) (s : State) : Host.Outcome State Fault Refusal :=
  match mfskConfig s.cfg with
  | none => raise .config s
  | some c =>
    let rs := mfskSymbols numerics s.sb (bankGet s.a 0).toNat c
    let t := setCount 0 rs.length (bbWrite dst (mfskUnmap (rs.map fun x => x.best) c.bps) s)
    match rs.getLast? with
    | none => endWith .ok t
    | some x => endWith .ok (leaveMfsk x t)

end Sys2Proof.Machine
end

