-- ==== Sys2Proof/Machine/Rs.lean ====
section
/-!
DEFINITION. Reed-Solomon RS(255,223) (spec/45_reed_solomon.md): the generator, the encoder, the syndromes, the
block decoder of rule R228 and the five `RS` operations.
-/

namespace Sys2Proof.Machine

/-! ## Encoding -/

/-- `GEN[0..32]`, the coefficients of the generator polynomial, constant term first (rule R221). -/
def genTable : List Byte :=
  [0x58, 0xAC, 0x37, 0x8E, 0x14, 0xFD, 0x8A, 0x18] ++
  [0xB9, 0xB3, 0x2F, 0x94, 0xE4, 0xFD, 0x37, 0x3B] ++
  [0x0C, 0xE1, 0xC5, 0xB0, 0x9D, 0x21, 0x21, 0xA2] ++
  [0xC2, 0x10, 0x7E, 0x36, 0xAE, 0x34, 0x40, 0x74] ++
  [0x01]

/-- `GEN[31]` down to `GEN[0]`: the feedback taps of `par[0]` to `par[31]` (rule R224). -/
def genTaps : List Byte := (genTable.take 32).reverse

/-- One data byte into the parity shift register, `par[0]` first (rule R224). -/
def parityStep (par : List Byte) (d : Byte) : List Byte :=
  let fb := gfAdd d (par.headD 0)
  let shifted := par.drop 1 ++ [0]
  if fb = 0 then shifted else List.zipWith (fun x g => gfAdd x (gfMul fb g)) shifted genTaps

/-- The 32 parity bytes of a data block (rule R224). -/
def rsParity (d : List Byte) : List Byte := d.foldl parityStep (List.replicate 32 0)

/-- `rs_encode_block` (rule R224). -/
def rsEncodeBlock (d : List Byte) : List Byte := d ++ rsParity d

/-- `n` blocks of `size` bytes, a short last block padded with zeros. -/
def byteBlocks (size : Nat) : Nat → List Byte → List (List Byte)
  | 0, _ => []
  | n + 1, xs => (xs.take size ++ List.replicate (size - xs.length) 0) :: byteBlocks size n (xs.drop size)

/-- The data blocks of a payload: `ceil(len/223)` blocks of 223 bytes (rule R232). -/
def dataBlocks (p : List Byte) : List (List Byte) := byteBlocks 223 (ceilDiv p.length 223) p

/-- `rs_encode` (rule R232). -/
def rsEncode (p : List Byte) : List Byte := ((dataBlocks p).map rsEncodeBlock).flatten

/-! ## Syndromes -/

/-- A block, first byte the highest coefficient, evaluated at `x` by Horner's rule (rule R226). -/
def evalBlock (r : List Byte) (x : Byte) : Byte := r.foldl (fun acc y => gfAdd (gfMul acc x) y) 0

/-- `rs_syndromes` (rule R226). -/
def rsSyndromes (r : List Byte) : List Byte := (List.range 32).map fun i => evalBlock r (expEntry i)

/-- Every byte of a list is zero. -/
def allZero (xs : List Byte) : Bool := xs.all fun x => x == 0

/-! ## The block decoder (rule R228)

Polynomials are coefficient lists, index the power of `x`; a coefficient beyond the end is zero. -/

/-- The sum of two polynomials. -/
def polyAdd : List Byte → List Byte → List Byte
  | [], ys => ys
  | xs, [] => xs
  | x :: xs, y :: ys => gfAdd x y :: polyAdd xs ys

/-- A polynomial times a constant and `x^m`. -/
def polyShift (k : Byte) (m : Nat) (xs : List Byte) : List Byte := List.replicate m 0 ++ xs.map (gfMul k)

/-- The value of a polynomial. -/
def polyEval (xs : List Byte) (x : Byte) : Byte := xs.foldr (fun c acc => gfAdd c (gfMul x acc)) 0

/-- The largest index of a non-zero coefficient; 0 when there is none. -/
def polyDegree (xs : List Byte) : Nat := (xs.reverse.dropWhile fun c => c == 0).length - 1

/-- The variables of the Berlekamp-Massey iteration: `C`, `B`, `L`, `m`, `b`. -/
structure Locator where
  c : List Byte
  b : List Byte
  l : Nat
  m : Nat
  disc : Byte
deriving DecidableEq, Repr

/-- The discrepancy of iteration `n`: `S[n] + sum over i in 1..L of C[i] * S[n-i]`. -/
def discrepancy (syn : List Byte) (x : Locator) (n : Nat) : Byte :=
  (List.range x.l).foldl (fun acc i => gfAdd acc (gfMul (x.c.getD (i + 1) 0) (syn.getD (n - (i + 1)) 0))) (syn.getD n 0)

/-- Iteration `n` of Berlekamp-Massey. -/
def locatorStep (syn : List Byte) (x : Locator) (n : Nat) : Locator :=
  let d := discrepancy syn x n
  if d = 0 then { x with m := x.m + 1 }
  else
    let c := polyAdd x.c (polyShift (gfMul d (gfInv x.disc)) x.m x.b)
    if 2 * x.l ≤ n then ⟨c, x.c, n + 1 - x.l, 1, d⟩ else { x with c := c, m := x.m + 1 }

/-- The locator after all 32 syndromes. -/
def findLocator (syn : List Byte) : Locator := (List.range 32).foldl (locatorStep syn) ⟨[1], [1], 0, 1, 1⟩

/-- The powers `p` in 0 to 254 such that `C(alpha^(-p)) = 0`, each of which says an error sits at `x^p`. -/
def errorPowers (c : List Byte) : List Nat :=
  (List.range 255).filter fun p => polyEval c (expEntry ((255 - p) % 255)) == 0

/-- Takes out the first row whose first entry is not zero: that row, and the others in their order. -/
def takePivot : List (List Byte) → Option (List Byte × List (List Byte))
  | [] => none
  | row :: rows =>
    if row.headD 0 = 0 then
      match takePivot rows with
      | none => none
      | some (p, rest) => some (p, row :: rest)
    else some (row, rows)

/-- Solves `n` linear equations in `n` unknowns by Gaussian elimination, each row its coefficients and then its
right-hand side; `none` when a column has no pivot. -/
def gaussSolve : Nat → List (List Byte) → Option (List Byte)
  | 0, _ => some []
  | n + 1, rows =>
    match takePivot rows with
    | none => none
    | some (p, rest) =>
      let tail := (p.drop 1).map (gfMul (gfInv (p.headD 0)))
      let reduced := rest.map fun row => List.zipWith (fun x t => gfAdd x (gfMul (row.headD 0) t)) (row.drop 1) tail
      match gaussSolve n reduced with
      | none => none
      | some xs => some ((List.zipWith gfMul tail xs).foldl gfAdd (tail.getD n 0) :: xs)

/-- The first `e` syndrome equations for the magnitudes of errors at the powers `pos`, `e` their number. -/
def magnitudeRows (syn : List Byte) (pos : List Nat) : List (List Byte) :=
  (List.range pos.length).map fun i => pos.map (fun p => gfPow (expEntry p) i) ++ [syn.getD i 0]

/-- Adds each magnitude to the byte at index `254 - p` of a block. -/
def applyErrors (r : List Byte) : List (Nat × Byte) → List Byte
  | [] => r
  | (p, e) :: rest => applyErrors (r.set (254 - p) (gfAdd (r.getD (254 - p) 0) e)) rest

/-- Steps 2 to 4 of rule R228, given the syndromes and the locator's degree and coefficients. -/
def correctAt (r syn c : List Byte) (deg : Nat) : Option (List Byte) :=
  let pos := errorPowers c
  if pos.length ≠ deg then none
  else
    match gaussSolve pos.length (magnitudeRows syn pos) with
    | none => none
    | some e =>
      let fixed := applyErrors r (pos.zip e)
      if allZero (rsSyndromes fixed) then some fixed else none

/-- `rs_correct_block` (rule R228); `none` is failure. -/
def rsCorrectBlock (r : List Byte) : Option (List Byte) :=
  let syn := rsSyndromes r
  if allZero syn then some r
  else
    let x := findLocator syn
    if polyDegree x.c ≠ x.l ∨ 16 < polyDegree x.c then none else correctAt r syn x.c (polyDegree x.c)

/-- `rs_decode_block` (rule R230). -/
def rsDecodeBlock (r : List Byte) : Option (List Byte) := (rsCorrectBlock r).map fun c => c.take 223

/-- The number of indices at which two lists differ. -/
def diffCount (xs ys : List Byte) : Nat := ((xs.zip ys).filter fun p => p.1 != p.2).length

/-- `rs_correct_block` on every block, in order; `none` when one fails (rules R185, R233). -/
def correctBlocks : List (List Byte) → Option (List (List Byte))
  | [] => some []
  | b :: bs =>
    match rsCorrectBlock b with
    | none => none
    | some c =>
      match correctBlocks bs with
      | none => none
      | some cs => some (c :: cs)

/-- The 255-byte blocks of an area (rules R185, R233). -/
def codeBlocks (area : List Byte) : List (List Byte) := byteBlocks 255 (area.length / 255) area

/-- The data bytes of corrected blocks, joined. -/
def blocksData (cs : List (List Byte)) : List Byte := (cs.map fun c => c.take 223).flatten

/-- The number of byte positions that correction changed, summed over blocks. -/
def changedBytes (bs cs : List (List Byte)) : Nat := (List.zipWith diffCount bs cs).sum

/-- `RS.SYN` after a run over blocks: the syndromes of the last block as received, unchanged when there is none. -/
def leaveSyndromes (bs : List (List Byte)) (s : State) : State :=
  match bs.getLast? with
  | none => s
  | some b => setSyndromes (rsSyndromes b) s

/-- `RS.PAR` after a run over data blocks: the parity of the last block, unchanged when there is none. -/
def leaveParity (ds : List (List Byte)) (s : State) : State :=
  match ds.getLast? with
  | none => s
  | some d => setParity (rsParity d) s

/-! ## Operations -/

/-- `RS.ENCB` (rule R225). -/
def execRsEncb (src dst : Sel) (s : State) : Host.Outcome State Fault Refusal :=
  let d := ybRead src s
  if d.length ≠ 223 then raise .config s
  else endWith .ok (setParity (rsParity d) (ybWrite dst (rsEncodeBlock d) s))

/-- `RS.SYN` (rule R227). -/
def execRsSyn (src : Sel) (s : State) : Host.Outcome State Fault Refusal :=
  let r := ybRead src s
  if r.length ≠ 255 then raise .config s
  else
    let syn := rsSyndromes r
    endWith .ok (setR 0 (bitWord (!allZero syn)) (setSyndromes syn s))

/-- `RS.DECB` (rule R231). On failure `RS.SYN` alone is written besides `STATUS`. -/
def execRsDecb (src dst : Sel) (s : State) : Host.Outcome State Fault Refusal :=
  let r := ybRead src s
  if r.length ≠ 255 then raise .config s
  else
    let t := setSyndromes (rsSyndromes r) s
    match rsCorrectBlock r with
    | none => endWith .fecUncorrectable t
    | some c =>
      endWith .ok
        (setCount 1 (diffCount (c.drop 223) (r.drop 223)) (setCount 0 (diffCount c r) (ybWrite dst (c.take 223) t)))

/-- `RS.ENC` (rule R232). -/
def execRsEnc (src dst : Sel) (s : State) : Host.Outcome State Fault Refusal :=
  let p := ybRead src s
  endWith .ok (leaveParity (dataBlocks p) (setCount 0 (dataBlocks p).length (ybWrite dst (rsEncode p) s)))

/-- `RS.DEC` (rule R233). -/
def execRsDec (src dst : Sel) (s : State) : Host.Outcome State Fault Refusal :=
  let area := ybRead src s
  if area.length % 255 ≠ 0 then raise .none s
  else
    let bs := codeBlocks area
    match correctBlocks bs with
    | none => raise .fecUncorrectable s
    | some cs =>
      endWith .ok
        (leaveSyndromes bs (setCount 1 (changedBytes bs cs) (setCount 0 bs.length (ybWrite dst (blocksData cs) s))))

end Sys2Proof.Machine
end

