-- ==== Sys2Proof/Machine/Frame.lean ====
section
/-!
DEFINITION. The frame builder and parser (spec/30_encoding.md rules R60 to R66, spec/43_crc_frame.md rules R181
to R186).
-/

namespace Sys2Proof.Machine

/-- `MAGIC`, the ASCII text "QRA1" (rules R6, R60). -/
def frameMagic : List Byte := [0x51, 0x52, 0x41, 0x31]

/-- `VERSION` (rules R6, R60). -/
def frameVersion : Byte := 0x01

/-- The eight header bytes; FLAGS bits 7:4 are written as 0 and LEN is big-endian (rules R42, R61, R182). -/
def frameHeader (flags : Byte) (len : U16) : List Byte :=
  frameMagic ++ [frameVersion, flags &&& 0x0F, (len >>> 8).setWidth 8, len.setWidth 8]

/-- The CRC of a frame to build: over header and area (rules R181, R182). -/
def frameCrc (flags : Byte) (len : U16) (area : List Byte) : U16 := crc16x25 (frameHeader flags len ++ area)

/-- `build_frame` (rule R182). -/
def buildFrame (flags : Byte) (len : U16) (area : List Byte) : List Byte :=
  frameHeader flags len ++ area ++ crcTrailer (frameCrc flags len area)

/-- What `parse_frame` gives for a frame whose header is good (rule R183). -/
structure ParsedFrame where
  flags : Byte
  len : U16
  area : List Byte
  stored : U16
  computed : U16
deriving DecidableEq, Repr

/-- `crc_ok` of a parsed frame (rule R183). -/
def frameCrcOk (r : ParsedFrame) : Bool := r.computed == r.stored

/-- The profile of a parsed frame (rule R183): all four ids name one. -/
def frameProfile (r : ParsedFrame) : Profile := profileFromFlags (flagProfile r.flags)

/-- LEN of a header, big-endian (rule R42). -/
def headerLen (f : List Byte) : U16 := ((f.getD 6 0).setWidth 16 <<< 8) ||| (f.getD 7 0).setWidth 16

/-- `parse_frame` (rule R183): `none` on a short frame, a wrong magic or a wrong version, in that order. -/
def parseFrame (f : List Byte) : Option ParsedFrame :=
  if f.length < 10 then none
  else if slice f 0 4 ≠ frameMagic then none
  else if f.getD 4 0 ≠ frameVersion then none
  else some ⟨f.getD 5 0, headerLen f, slice f 8 (f.length - 2), storedCrc f, crc16x25 (withoutTrailer f)⟩

/-- The `P_` registers of a parsed frame (rules R13, R183). -/
def parsedRegs (r : ParsedFrame) : Parsed :=
  ⟨r.flags, flagGzip r.flags, flagFec r.flags, flagProfile r.flags, r.len, r.stored, r.computed⟩

/-- The `P_` registers and `CRC.REG` after a parse (rules R176, R183). -/
def leaveParsed (r : ParsedFrame) (s : State) : State := setCrc (r.computed ^^^ 0xFFFF) { s with parsed := parsedRegs r }

/-- The area length that LEN and the FEC bit announce (rules R66, R185). -/
def expectedArea (r : ParsedFrame) : Nat :=
  if flagFec r.flags then 255 * ceilDiv r.len.toNat 223 else r.len.toNat

/-- How `decode_frame` ends once the header has parsed (rules R185, R186): a failure status with the register
value of the last CRC it computed, or a payload with the blocks received and corrected. -/
inductive Decoded where
  | fail (status : Status) (lastCrc : U16)
  | payload (bytes : List Byte) (received corrected : List (List Byte)) (lastCrc : U16)
deriving DecidableEq, Repr

/-- `decode_frame` after `parse_frame` (rules R185, R186). `f` is the frame. -/
def decodeParsed (f : List Byte) (r : ParsedFrame) : Decoded :=
  if r.area.length ≠ expectedArea r then .fail .none r.computed
  else if flagFec r.flags then
    match correctBlocks (codeBlocks r.area) with
    | none => .fail .fecUncorrectable r.computed
    | some cs =>
      let again := crc16x25 (slice f 0 8 ++ cs.flatten)
      let last := if frameCrcOk r then r.computed else again
      if frameCrcOk r || again == r.stored then
        .payload ((blocksData cs).take r.len.toNat) (codeBlocks r.area) cs last
      else .fail .integrity last
  else if frameCrcOk r then .payload r.area [] [] r.computed
  else .fail .integrity r.computed

/-- The area of `FRM.ENCODE`: Reed-Solomon codewords when the FEC bit is set, else the payload (rules R66, R184). -/
def encodeArea (flags : Byte) (p : List Byte) : List Byte := if flagFec flags then rsEncode p else p

/-- `FRM.BUILD` (rules R176, R182). -/
def execFrmBuild (src dst : Sel) (s : State) : Host.Outcome State Fault Refusal :=
  let area := ybRead src s
  let c := frameCrc s.hdrFlags s.hdrLen area
  endWith .ok
    (setCrc (c ^^^ 0xFFFF) (setR 0 (c.setWidth 32) (ybWrite dst (buildFrame s.hdrFlags s.hdrLen area) s)))

/-- `FRM.PARSE` (rules R176, R183). A CRC mismatch ends with `INTEGRITY` after the same writes. -/
def execFrmParse (src dst : Sel) (s : State) : Host.Outcome State Fault Refusal :=
  match parseFrame (ybRead src s) with
  | none => raise .none s
  | some r =>
    endWith (if frameCrcOk r then .ok else .integrity)
      (setCount 0 r.area.length (ybWrite dst r.area (leaveParsed r s)))

/-- `FRM.ENCODE` (rules R176, R184). -/
def execFrmEncode (src dst : Sel) (s : State) : Host.Outcome State Fault Refusal :=
  let p := ybRead src s
  if 65535 < p.length then raise .config s
  else
    let len := BitVec.ofNat 16 p.length
    let area := encodeArea s.hdrFlags p
    let c := frameCrc s.hdrFlags len area
    let t := setCount 1 area.length (setR 0 (c.setWidth 32) (ybWrite dst (buildFrame s.hdrFlags len area) s))
    endWith .ok (setCrc (c ^^^ 0xFFFF) (if flagFec s.hdrFlags then leaveParity (dataBlocks p) t else t))

/-- `FRM.DECODE` (rules R176, R185, R186). -/
def execFrmDecode (src dst : Sel) (s : State) : Host.Outcome State Fault Refusal :=
  let f := ybRead src s
  match parseFrame f with
  | none => raise .none s
  | some r =>
    match decodeParsed f r with
    | .fail status last => endWith status (setCrc (last ^^^ 0xFFFF) (leaveParsed r s))
    | .payload p received corrected last =>
      endWith .ok
        (leaveSyndromes received
          (setCount 1 (changedBytes received corrected)
            (setCount 0 p.length (ybWrite dst p (setCrc (last ^^^ 0xFFFF) (leaveParsed r s))))))

end Sys2Proof.Machine
end

