-- ==== Sys2Proof/Machine/Gfsk.lean ====
section
/-!
DEFINITION. The GFSK quadrature discriminator (spec/41_demodulators.md rules R120 to R123). The
number system sums the phase advances of a symbol (assumption log 10).
-/

namespace Sys2Proof.Machine

/-- The low-pass filter's state: the filtered I and Q (rule R120). -/
structure IQ (α : Type) where
  i : α
  q : α
deriving DecidableEq, Repr

variable {ρ α φ : Type}

/-- One input sample of the discriminator: mixing at `turn` turns of the local oscillator, the single-pole
low-pass, and the phase advance from the previous filtered sample (rule R120). -/
def gfskSample (N : Numerics ρ α φ) (alpha : α) (st : IQ α × φ) (x : α) (turn : ρ) : IQ α × φ :=
  let i := N.mul x (N.cosTurn turn)
  let q := N.scale (-1) (N.mul x (N.sinTurn turn))
  let fi := N.add st.1.i (N.mul alpha (N.sub i st.1.i))
  let fq := N.add st.1.q (N.mul alpha (N.sub q st.1.q))
  let dot := N.add (N.mul fi st.1.i) (N.mul fq st.1.q)
  let cross := N.sub (N.mul st.1.i fq) (N.mul fi st.1.q)
  (⟨fi, fq⟩, N.phaseAdd st.2 dot cross)

/-- The oscillator's angle at index `n` of the waveform: `fc * n / fs` turns, with `fc` the midpoint of mark and space
(rule R120). -/
def gfskTurn (N : Numerics ρ α φ) (c : GfskConfig ρ α) (n : Nat) : ρ :=
  N.frequencyScale (n / (2 * c.sym.fs)) (N.frequencyAdd c.mark c.space)

/-- The samples of one symbol window, the first of them at index `n` of the waveform (rule R120). -/
def gfskWindow (N : Numerics ρ α φ) (c : GfskConfig ρ α) (st : IQ α × φ) : List α → Nat → IQ α × φ
  | [], _ => st
  | x :: xs, n => gfskWindow N c (gfskSample N c.alpha st x (gfskTurn N c n)) xs (n + 1)

/-- The level of a symbol from the sign of its summed phase, which is the sign of its average; a tie favours
mark (rule R120). -/
def gfskLevel (N : Numerics ρ α φ) (c : GfskConfig ρ α) (sign : Int) : Bit :=
  if N.lt (N.ofFrequency c.space) (N.ofFrequency c.mark) then decide (0 ≤ sign) else decide (sign ≤ 0)

/-- The levels of the symbol windows given, the first window beginning at index `n`; the filter runs on from
window to window (rule R120). -/
def gfskLevels (N : Numerics ρ α φ) (c : GfskConfig ρ α) (f : IQ α) : List (List α) → Nat → List Bit
  | [], _ => []
  | w :: ws, n =>
    let st := gfskWindow N c (f, N.phaseZero) w n
    gfskLevel N c (N.phaseSign st.2) :: gfskLevels N c st.1 ws (n + c.sym.sps)

/-- `gfsk_demod` (rule R120). -/
def gfskDemod (N : Numerics ρ α φ) (xs : List α) (off : Nat) (c : GfskConfig ρ α) : List Bit :=
  gfskLevels N c ⟨N.zero, N.zero⟩ (symWindows xs off c.sym.sps) off

/-- `GFSK.DEMOD` (rule R122). -/
def execGfskDemod (dst : Sel) (s : State) : Host.Outcome State Fault Refusal :=
  match gfskConfig s.cfg with
  | none => raise .config s
  | some c =>
    let out := gfskDemod numerics s.sb (bankGet s.a 0).toNat c
    endWith .ok (setCount 0 out.length (bbWrite dst out s))

end Sys2Proof.Machine
end

