-- ==== Sys2Proof/Machine/Hdlc.lean ====
section
/-!
DEFINITION. HDLC byte packing, bit stuffing, flag search and frame extraction (spec/20_memory.md rules R44 and
R45, spec/42_line_coding_hdlc.md rules R148 to R156).
-/

namespace Sys2Proof.Machine

/-- The eight bits of a byte, least significant first (rule R44). -/
def byteBits (y : Byte) : List Bit := (List.range 8).map fun k => y.getLsbD k

/-- `unpack_lsb` (rule R44). -/
def unpackLsb (bytes : List Byte) : List Bit := (bytes.map byteBits).flatten

/-- The value of a bit list, its first bit least significant. -/
def bitsValue : List Bit → Nat
  | [] => 0
  | b :: bs => (if b then 1 else 0) + 2 * bitsValue bs

/-- `n` bytes from a bit list, eight bits each, least significant first. -/
def packBytes : Nat → List Bit → List Byte
  | 0, _ => []
  | n + 1, bits => BitVec.ofNat 8 (bitsValue (bits.take 8)) :: packBytes n (bits.drop 8)

/-- `pack_lsb`: the bits left over at the end, fewer than eight, are dropped (rule R45). -/
def packLsb (bits : List Bit) : List Byte := packBytes (bits.length / 8) bits

/-- `stuff` with `n` ones sent in a row so far (rule R148). -/
def stuffFrom : Nat → List Bit → List Bit
  | _, [] => []
  | _, false :: bs => false :: stuffFrom 0 bs
  | n, true :: bs => if n + 1 = 5 then true :: false :: stuffFrom 0 bs else true :: stuffFrom (n + 1) bs

/-- `stuff` (rule R148). -/
def stuff (bits : List Bit) : List Bit := stuffFrom 0 bits

/-- `destuff` with `n` ones seen in a row so far, at most 5 (rule R149). -/
def destuffFrom : Nat → List Bit → List Bit
  | _, [] => []
  | n, false :: bs => if n = 5 then destuffFrom 0 bs else false :: destuffFrom 0 bs
  | n, true :: bs => true :: destuffFrom (min (n + 1) 5) bs

/-- `destuff` (rule R149). -/
def destuff (bits : List Bit) : List Bit := destuffFrom 0 bits

/-- `FLAG`, first bit first (rules R6, R63). -/
def hdlcFlag : List Bit := [false, true, true, true, true, true, true, false]

/-- `hdlc_build` (rules R63, R154). -/
def hdlcBuild (frame : List Byte) (npre : Nat) : List Bit :=
  (List.replicate npre hdlcFlag).flatten ++ hdlcFlag ++ stuff (unpackLsb frame) ++ hdlcFlag

/-- The flag positions from index `i` on, `skip` positions not being tested first (rule R155). -/
def findFlagsFrom (adv : Nat) : Nat → Nat → List Bit → List Nat
  | _, _, [] => []
  | i, skip + 1, _ :: bs => findFlagsFrom adv (i + 1) skip bs
  | i, 0, b :: bs =>
    if (b :: bs).take 8 = hdlcFlag then i :: findFlagsFrom adv (i + 1) (adv - 1) bs
    else findFlagsFrom adv (i + 1) 0 bs

/-- `find_flags` (rule R155). After a match the next position tested is the match plus `adv`. -/
def findFlags (bits : List Bit) (adv : Nat) : List Nat := findFlagsFrom adv 0 0 bits

/-- The candidate between the flags at `p` and `q`, unless it is below the minimum raw length (rule R156). -/
def candidate (bits : List Bit) (minbits p q : Nat) : Option FrameRec :=
  let raw := slice bits (p + 8) q
  if raw.length < minbits then none else some ⟨p, q + 8, packLsb (destuff raw)⟩

/-- The candidates of each consecutive pair of positions, in ascending order (rule R156). -/
def framesBetween (bits : List Bit) (minbits : Nat) : List Nat → List FrameRec
  | [] => []
  | p :: ps =>
    match ps with
    | [] => []
    | q :: _ =>
      match candidate bits minbits p q with
      | none => framesBetween bits minbits ps
      | some item => item :: framesBetween bits minbits ps

/-- `extract_frames` (rule R156): the flag positions and the candidate frames. -/
def extractFrames (bits : List Bit) (adv minbits : Nat) : List Nat × List FrameRec :=
  let pos := findFlags bits adv
  (pos, framesBetween bits minbits pos)

/-- `HDLC.UNPACK` (rule R150). -/
def execHdlcUnpack (src dst : Sel) (s : State) : Host.Outcome State Fault Refusal :=
  endWith .ok (bbWrite dst (unpackLsb (ybRead src s)) s)

/-- `HDLC.PACK` (rule R151). -/
def execHdlcPack (src dst : Sel) (s : State) : Host.Outcome State Fault Refusal :=
  let bits := bbRead src s
  endWith .ok (setCount 0 (bits.length % 8) (ybWrite dst (packLsb bits) s))

/-- `HDLC.STUFF` (rule R152): `R0` counts the zeros inserted. -/
def execHdlcStuff (src dst : Sel) (s : State) : Host.Outcome State Fault Refusal :=
  let bits := bbRead src s
  let out := stuff bits
  endWith .ok (setCount 0 (out.length - bits.length) (bbWrite dst out s))

/-- `HDLC.DESTUFF` (rule R153): `R0` counts the zeros dropped. -/
def execHdlcDestuff (src dst : Sel) (s : State) : Host.Outcome State Fault Refusal :=
  let bits := bbRead src s
  let out := destuff bits
  endWith .ok (setCount 0 (bits.length - out.length) (bbWrite dst out s))

/-- `HDLC.FRAME` (rule R154). -/
def execHdlcFrame (src dst : Sel) (s : State) : Host.Outcome State Fault Refusal :=
  match s.cfg.npre with
  | none => raise .config s
  | some npre =>
    let out := hdlcBuild (ybRead src s) npre
    endWith .ok (setCount 0 out.length (bbWrite dst out s))

/-- `CFG.FLAG_ADVANCE` is 7 or 8 (rules R155, R301). -/
def flagAdvanceLegal (c : Cfg) : Bool := c.flagAdvance == 7 || c.flagAdvance == 8

/-- `HDLC.FLAGS` (rule R155). -/
def execHdlcFlags (src : Sel) (s : State) : Host.Outcome State Fault Refusal :=
  if flagAdvanceLegal s.cfg then
    let pos := findFlags (bbRead src s) s.cfg.flagAdvance
    endWith .ok (setCount 0 pos.length { s with fp := pos })
  else raise .config s

/-- `HDLC.EXTRACT` (rule R156). -/
def execHdlcExtract (src : Sel) (s : State) : Host.Outcome State Fault Refusal :=
  if flagAdvanceLegal s.cfg then
    let x := extractFrames (bbRead src s) s.cfg.flagAdvance s.cfg.minFrameBits
    endWith .ok (setCount 1 x.1.length (setCount 0 x.2.length { s with fp := x.1, fq := x.2 }))
  else raise .config s

end Sys2Proof.Machine
end

