-- ==== Sys2Proof/Machine/Nrzi.lean ====
section
/-!
DEFINITION. The NRZI encoder and decoder (spec/42_line_coding_hdlc.md rules R140 to R146).
-/

namespace Sys2Proof.Machine

/-- `nrzi_enc_step`: the new level, which is also the level sent (rule R140). -/
def nrziEncStep (lv b : Bit) : Bit := if b then lv else !lv

/-- `nrzi_enc` from a starting level (rule R140). -/
def nrziEnc (lv : Bit) : List Bit → List Bit
  | [] => []
  | b :: bs => nrziEncStep lv b :: nrziEnc (nrziEncStep lv b) bs

/-- The bit of `nrzi_dec_step`: 1 when the level equals the one before it (rule R141). -/
def nrziDecStep (pv l : Bit) : Bit := l == pv

/-- `nrzi_dec` from a previous level (rule R141). -/
def nrziDec (pv : Bit) : List Bit → List Bit
  | [] => []
  | l :: ls => nrziDecStep pv l :: nrziDec l ls

/-- `NRZI.CLR` (rule R142). -/
def execNrziClr (s : State) : Host.Outcome State Fault Refusal :=
  endWith .ok { s with nrziEncLevel := true, nrziDecPrev := true }

/-- `NRZI.ENCB` (rule R143). -/
def execNrziEncb (bit : Bit) (s : State) : Host.Outcome State Fault Refusal :=
  let lv := nrziEncStep s.nrziEncLevel bit
  endWith .ok (setR 0 (bitWord lv) { s with nrziEncLevel := lv })

/-- `NRZI.DECB` (rule R144). -/
def execNrziDecb (bit : Bit) (s : State) : Host.Outcome State Fault Refusal :=
  endWith .ok (setR 0 (bitWord (nrziDecStep s.nrziDecPrev bit)) { s with nrziDecPrev := bit })

/-- `NRZI.ENC` (rule R145): the whole-buffer form starts from level 1. -/
def execNrziEnc (src dst : Sel) (s : State) : Host.Outcome State Fault Refusal :=
  let out := nrziEnc true (bbRead src s)
  endWith .ok { bbWrite dst out s with nrziEncLevel := out.getLastD true }

/-- `NRZI.DEC` (rule R146): the whole-buffer form starts from previous level 1. -/
def execNrziDec (src dst : Sel) (s : State) : Host.Outcome State Fault Refusal :=
  let levels := bbRead src s
  endWith .ok { bbWrite dst (nrziDec true levels) s with nrziDecPrev := levels.getLastD true }

end Sys2Proof.Machine
end

