-- ==== Sys2Proof/Machine/System.lean ====
section
/-!
DEFINITION. The system operations and the profile ROM (spec/46_system.md rules R250 to R257,
spec/10_state.md rule R18).
-/

namespace Sys2Proof.Machine

/-- An entry of the profile ROM (rule R18). -/
structure ProfileEntry where
  kind : Kind
  baud : Option Nat
  fMark : Option LinearReal
  fSpace : Option LinearReal
  bps : Option Nat
  ntones : Nat
  tone : Vector (Option LinearReal) 16
  npre : Option Nat
  gfskAlpha : Option ExactReal
deriving DecidableEq, Repr

/-- The tone table of an MFSK profile's entry: tones below `NTONES` hold a value (assumption log 7). -/
def romTones (p : Profile) : Vector (Option LinearReal) 16 :=
  (Vector.replicate 16 ()).mapFinIdx fun t _ h =>
    if t < (Config.romNTones p).val then some (Config.romTone p ⟨t, h⟩).norm
    else (Config.romSpareTone p ⟨t, h⟩).map LinearReal.norm

/-- `PROFILE_ROM[p]` (rule R18): a field that the profile's kind does not use is `unconfigured`; `NTONES` is 0 for
the AFSK and GFSK entries (rule R254). -/
def profileRom (p : Profile) : ProfileEntry :=
  match profileKind p with
  | .afsk =>
    { kind := .afsk, baud := some (Config.romBaud p), fMark := some (Config.romFMark p).norm,
      fSpace := some (Config.romFSpace p).norm, bps := none, ntones := 0, tone := Vector.replicate 16 none,
      npre := some (Config.romNpre p), gfskAlpha := none }
  | .gfsk =>
    { kind := .gfsk, baud := some (Config.romBaud p), fMark := some (Config.romFMark p).norm,
      fSpace := some (Config.romFSpace p).norm, bps := none, ntones := 0, tone := Vector.replicate 16 none,
      npre := some (Config.romNpre p), gfskAlpha := some (Config.romGfskAlpha p).norm }
  | .mfsk =>
    { kind := .mfsk, baud := some (Config.romBaud p), fMark := none, fSpace := none,
      bps := some ((Config.romBpsLessOne p).val + 1), ntones := (Config.romNTones p).val, tone := romTones p,
      npre := some (Config.romNpre p), gfskAlpha := none }

/-- The configuration registers after a profile is loaded: `FS`, `MIN_FRAME_BITS` and `FLAG_ADVANCE` are kept
(rule R254). -/
def loadProfile (e : ProfileEntry) (c : Cfg) : Cfg :=
  { c with
    kind := some e.kind, baud := e.baud, fMark := e.fMark, fSpace := e.fSpace, bps := e.bps,
    ntones := e.ntones, tone := e.tone, gfskAlpha := e.gfskAlpha, npre := e.npre }

/-- `SYS.NOP` (rule R250). -/
def execSysNop (s : State) : Host.Outcome State Fault Refusal := endWith .ok s

/-- `SYS.INIT` (rule R251): the tables are constants (rule R332), so building them is setting `TABLES_READY`. -/
def execSysInit (s : State) : Host.Outcome State Fault Refusal :=
  if s.tablesReady then endWith .ok s else endWith .ok { s with tablesReady := true }

/-- `SYS.RESET` (rule R252). -/
def execSysReset (s : State) : Host.Outcome State Fault Refusal := endWith .ok (resetBlock s)

/-- `SYS.LOADP` (rule R254). -/
def execSysLoadp (id : Sel) (s : State) : Host.Outcome State Fault Refusal :=
  endWith .ok (setR 0 (id.setWidth 32) { s with cfg := loadProfile (profileRom (profileFromFlags id)) s.cfg })

/-- `SYS.MOVB` (rule R255). -/
def execSysMovb (src dst : Sel) (s : State) : Host.Outcome State Fault Refusal :=
  let bits := bbRead src s
  endWith .ok (setCount 0 bits.length (bbWrite dst bits s))

/-- `SYS.MOVY` (rule R256). -/
def execSysMovy (src dst : Sel) (s : State) : Host.Outcome State Fault Refusal :=
  let bytes := ybRead src s
  endWith .ok (setCount 0 bytes.length (ybWrite dst bytes s))

/-- `SYS.FQPOP` (rule R257). -/
def execSysFqpop (dst : Sel) (s : State) : Host.Outcome State Fault Refusal :=
  match s.fq with
  | [] => raise .none s
  | item :: rest =>
    endWith .ok
      (setCount 2 rest.length
        (setCount 1 item.stop (setCount 0 item.start (ybWrite dst item.bytes { s with fq := rest }))))

end Sys2Proof.Machine
end

