-- ==== Sys2Proof/Machine/Families.lean ====
section
/-!
DEFINITION. The eleven units' meanings together, for Dispatch.lean: this file only imports them.
-/
end

