-- ==== Sys2Proof/Machine/Dispatch.lean ====
section
/-!
DEFINITION. One arm per operation: each calls the operation's own meaning.
-/

namespace Sys2Proof.Machine

def exec (i : Instr) (s : State) : Host.Outcome State Fault Refusal :=
  match i with
  | .sysNop => Sys2Proof.Machine.execSysNop s
  | .sysInit => Sys2Proof.Machine.execSysInit s
  | .sysReset => Sys2Proof.Machine.execSysReset s
  | .sysLoadp id => Sys2Proof.Machine.execSysLoadp id s
  | .sysMovb src dst => Sys2Proof.Machine.execSysMovb src dst s
  | .sysMovy src dst => Sys2Proof.Machine.execSysMovy src dst s
  | .sysFqpop dst => Sys2Proof.Machine.execSysFqpop dst s
  | .gtzSetf => Sys2Proof.Machine.execGtzSetf s
  | .gtzSetc => Sys2Proof.Machine.execGtzSetc s
  | .gtzClr => Sys2Proof.Machine.execGtzClr s
  | .gtzStep => Sys2Proof.Machine.execGtzStep s
  | .gtzEnergy => Sys2Proof.Machine.execGtzEnergy s
  | .gtzWin => Sys2Proof.Machine.execGtzWin s
  | .afskSym => Sys2Proof.Machine.execAfskSym s
  | .afskDemod dst => Sys2Proof.Machine.execAfskDemod dst s
  | .gfskDemod dst => Sys2Proof.Machine.execGfskDemod dst s
  | .mfskMap src dst => Sys2Proof.Machine.execMfskMap src dst s
  | .mfskUnmap src dst => Sys2Proof.Machine.execMfskUnmap src dst s
  | .mfskSym => Sys2Proof.Machine.execMfskSym s
  | .mfskDemod dst => Sys2Proof.Machine.execMfskDemod dst s
  | .nrziClr => Sys2Proof.Machine.execNrziClr s
  | .nrziEncb bit => Sys2Proof.Machine.execNrziEncb bit s
  | .nrziDecb bit => Sys2Proof.Machine.execNrziDecb bit s
  | .nrziEnc src dst => Sys2Proof.Machine.execNrziEnc src dst s
  | .nrziDec src dst => Sys2Proof.Machine.execNrziDec src dst s
  | .hdlcUnpack src dst => Sys2Proof.Machine.execHdlcUnpack src dst s
  | .hdlcPack src dst => Sys2Proof.Machine.execHdlcPack src dst s
  | .hdlcStuff src dst => Sys2Proof.Machine.execHdlcStuff src dst s
  | .hdlcDestuff src dst => Sys2Proof.Machine.execHdlcDestuff src dst s
  | .hdlcFrame src dst => Sys2Proof.Machine.execHdlcFrame src dst s
  | .hdlcFlags src => Sys2Proof.Machine.execHdlcFlags src s
  | .hdlcExtract src => Sys2Proof.Machine.execHdlcExtract src s
  | .frmBuild src dst => Sys2Proof.Machine.execFrmBuild src dst s
  | .frmParse src dst => Sys2Proof.Machine.execFrmParse src dst s
  | .frmEncode src dst => Sys2Proof.Machine.execFrmEncode src dst s
  | .frmDecode src dst => Sys2Proof.Machine.execFrmDecode src dst s
  | .crcClr => Sys2Proof.Machine.execCrcClr s
  | .crcBit bit => Sys2Proof.Machine.execCrcBit bit s
  | .crcByte imm => Sys2Proof.Machine.execCrcByte imm s
  | .crcFinal => Sys2Proof.Machine.execCrcFinal s
  | .crcGen src => Sys2Proof.Machine.execCrcGen src s
  | .crcAppend src dst => Sys2Proof.Machine.execCrcAppend src dst s
  | .crcChk src => Sys2Proof.Machine.execCrcChk src s
  | .gfAdd a b => Sys2Proof.Machine.execGfAdd a b s
  | .gfMul a b => Sys2Proof.Machine.execGfMul a b s
  | .gfInv imm => Sys2Proof.Machine.execGfInv imm s
  | .gfExp index => Sys2Proof.Machine.execGfExp index s
  | .gfLog imm => Sys2Proof.Machine.execGfLog imm s
  | .rsEncb src dst => Sys2Proof.Machine.execRsEncb src dst s
  | .rsSyn src => Sys2Proof.Machine.execRsSyn src s
  | .rsDecb src dst => Sys2Proof.Machine.execRsDecb src dst s
  | .rsEnc src dst => Sys2Proof.Machine.execRsEnc src dst s
  | .rsDec src dst => Sys2Proof.Machine.execRsDec src dst s

end Sys2Proof.Machine
end

