-- ==== Sys2Proof/Machine/HostSide.lean ====
section
/-!
DEFINITION. The host's side of the command interface (spec/10_state.md rule R10, spec/20_memory.md rule R51,
spec/30_encoding.md rules R78, R80, R81): what each host action does to an idle block, the issue of a command
word, and the pseudo-instructions.
-/

namespace Sys2Proof.Machine

/-- The issue of one command word: an illegal word writes `STATUS <- ILLEGAL` and nothing else (rule R78); a legal
one runs its operation from start to end (rule R10). -/
def issue (word : U32) (s : State) : Host.Outcome State Fault Refusal :=
  match decode word with
  | .error _ => raise .illegal s
  | .ok i => exec i s

/-- Writes to the configuration registers (rule R17): no check is made and no side effect follows. -/
def setCfg (c : Cfg) (s : State) : State := { s with cfg := c }

/-- One action of the host (rules R10, R80). A real that the host writes is held in normal form (log 1). -/
def hostAct (act : HostAction) (s : State) : Host.Outcome State Fault Refusal :=
  match act with
  | .command word => issue word s
  | .setA k v => .next { s with a := bankSet s.a k v }
  | .setXs v => .next { s with xs := v.norm }
  | .setXf v => .next { s with xf := v.norm }
  | .setHdrFlags v => .next { s with hdrFlags := v }
  | .setHdrLen v => .next { s with hdrLen := v }
  | .setFs v => .next (setCfg { s.cfg with fs := some v } s)
  | .setBaud v => .next (setCfg { s.cfg with baud := some v } s)
  | .setKind v => .next (setCfg { s.cfg with kind := some v } s)
  | .setFMark v => .next (setCfg { s.cfg with fMark := some v.norm } s)
  | .setFSpace v => .next (setCfg { s.cfg with fSpace := some v.norm } s)
  | .setBps v => .next (setCfg { s.cfg with bps := some v } s)
  | .setNtones v => .next (setCfg { s.cfg with ntones := v } s)
  | .setTone k v => .next (setCfg { s.cfg with tone := s.cfg.tone.set k (some v.norm) } s)
  | .setGfskAlpha v => .next (setCfg { s.cfg with gfskAlpha := some v.norm } s)
  | .setNpre v => .next (setCfg { s.cfg with npre := some v } s)
  | .setMinFrameBits v => .next (setCfg { s.cfg with minFrameBits := v } s)
  | .setFlagAdvance v => .next (setCfg { s.cfg with flagAdvance := v } s)
  | .loadSb xs => .next { s with sb := xs.map ExactReal.norm }
  | .loadBb k bits => .next (bbWrite k bits s)
  | .loadYb k bytes => .next (ybWrite k bytes s)
  | .loadFp pos => .next { s with fp := pos }
  | .loadFq recs => .next { s with fq := recs }
  | .resetInput => .next (resetBlock s)

/-- The state in which the block meets the host's next action: that action taken from the pending ones, and the
model's tick advanced (logs 3, 5). -/
def takeAction (rest : List HostAction) (s : State) : State := { s with pending := rest, openTick := s.openTick + 1 }

/-- One turn: the next pending action of the host. With none pending the block is idle and does nothing
(rule R330). -/
def hostTurn (s : State) : Host.Outcome State Fault Refusal :=
  match s.pending with
  | [] => .next s
  | act :: rest => hostAct act (takeAction rest s)

/-- The command word at the head of the host's pending actions. -/
def pushCommand (word : U32) (s : State) : State := { s with pending := .command word :: s.pending }

/-! ## Pseudo-instructions (rule R81) -/

/-- `GTZ.RUN f, start, n`. -/
def pseudoGtzRun (f : LinearReal) (start n : U32) : List HostAction :=
  [.setXf f, .command (encode .gtzSetf), .setA 0 start, .setA 1 n, .command (encode .gtzWin)]

/-- `CRC16 YBs`. -/
def pseudoCrc16 (src : Sel) : List HostAction := [.command (encode (.crcGen src))]

/-- `RX.AFSK off, BBd`. -/
def pseudoRxAfsk (off : U32) (dst : Sel) : List HostAction :=
  [.setA 0 off, .command (encode (.afskDemod dst)), .command (encode (.nrziDec dst dst)),
   .command (encode (.hdlcExtract dst))]

/-- `RX.GFSK off, BBd`. -/
def pseudoRxGfsk (off : U32) (dst : Sel) : List HostAction :=
  [.setA 0 off, .command (encode (.gfskDemod dst)), .command (encode (.nrziDec dst dst)),
   .command (encode (.hdlcExtract dst))]

/-- `RX.MFSK off, BBd`. -/
def pseudoRxMfsk (off : U32) (dst : Sel) : List HostAction :=
  [.setA 0 off, .command (encode (.mfskDemod dst)), .command (encode (.hdlcExtract dst))]

/-- `TX.BITS YBs, BBd`, for AFSK and GFSK. -/
def pseudoTxBits (src dst : Sel) : List HostAction :=
  [.command (encode (.hdlcFrame src dst)), .command (encode (.nrziEnc dst dst))]

end Sys2Proof.Machine
end

