-- ==== Sys2Proof/Machine/Step.lean ====
section
/-!
DEFINITION. One step: the host's next action, run by the block (assumption log 5). The block fetches nothing
(spec/00_scope.md rule R2): the place of a fetch is taken by the command word the host issues next.
-/

namespace Sys2Proof.Machine

/-- One step of the machine: the host's next action; an idle step changes nothing. -/
def step (s : State) : Host.Outcome State Fault Refusal := hostTurn s

/-- `s` with the command word `w` as the host's next action. There is one instruction length, 32 bits. -/
def State.withFetchWord (s : State) (_nbits w : Nat) : State := pushCommand (BitVec.ofNat 32 w) s

end Sys2Proof.Machine
end

