-- ==== Sys2Proof/Safety.lean ====
section
/-!
DEFINITION. The terms that statements use: the real number that the model's numbers are and the spec's real
functions over them, what an operation wrote and what it kept, and the invariant of the machine. A run of the
block is always safe: no step stops (assumption log 15).
-/

namespace Sys2Proof

/-- The real number that a frequency or an angle is (assumption log 1). -/
noncomputable def LinearReal.toReal (x : LinearReal) : ℝ := x.valueWith Config.reals.value

/-- The real number that a number is (assumption log 1). -/
noncomputable def ExactReal.toReal (x : ExactReal) : ℝ := x.valueWith Config.reals.value

end Sys2Proof

namespace Sys2Proof.Machine

/-! ## The spec's functions over the real numbers -/

/-- `goertzel_step` over the reals (spec/40_goertzel.md rule R91). -/
def realStep (coeff : ℝ) (st : ℝ × ℝ) (x : ℝ) : ℝ × ℝ := (x + coeff * st.1 - st.2, st.1)

/-- `goertzel_energy` over the reals (rule R91). -/
def realEnergy (coeff : ℝ) (st : ℝ × ℝ) : ℝ := st.1 * st.1 + st.2 * st.2 - coeff * st.1 * st.2

/-- The state of the recurrence after a window, over the reals (rule R91). -/
def realRun (coeff : ℝ) (xs : List ℝ) : ℝ × ℝ := xs.foldl (realStep coeff) (0, 0)

/-- `goertzel_coeff` over the reals (rule R90). -/
noncomputable def realCoeff (f : ℝ) (fs : Nat) : ℝ := 2 * Real.cos (2 * Real.pi * (f / fs))

/-- The recurrence's state after a window of samples, for a frequency and a sample rate, over the reals (rule R91). -/
noncomputable def realState (f : ℝ) (fs : Nat) (xs : List ExactReal) : ℝ × ℝ :=
  realRun (realCoeff f fs) (xs.map ExactReal.toReal)

/-- `goertzel_window(goertzel_coeff(f, fs), xs)` over the reals (rules R90, R91). -/
noncomputable def realWindow (f : ℝ) (fs : Nat) (xs : List ExactReal) : ℝ :=
  realEnergy (realCoeff f fs) (realState f fs xs)

/-- The Goertzel unit holds a coefficient and a state, read as real numbers. -/
def GoertzelHolds (g : Goertzel) (coeff : ℝ) (st : ℝ × ℝ) : Prop :=
  (∃ c, g.coeff = some c ∧ c.toReal = coeff) ∧ g.s1.toReal = st.1 ∧ g.s2.toReal = st.2

/-- The sample rate and the symbol length that the checks of spec/41_demodulators.md rule R113 accept. -/
def SymReady (c : Cfg) (fs sps : Nat) : Prop :=
  ∃ baud, c.fs = some fs ∧ c.baud = some baud ∧ 1 ≤ fs ∧ 1 ≤ baud ∧ fs % baud = 0 ∧ sps = fs / baud

/-- What the checks of rules R113, R126 and, for `NTONES` up to 16, spec/10_state.md R17 (log 14) accept: sample rate, symbol length, bits per symbol, and the tones used. -/
def MfskReady (c : Cfg) (fs sps b : Nat) (tones : List LinearReal) : Prop :=
  SymReady c fs sps ∧ c.bps = some b ∧ 1 ≤ b ∧ b ≤ 4 ∧ 2 ^ b ≤ c.ntones ∧ c.ntones ≤ 16 ∧ c.tone.toList.take (2 ^ b) = tones.map some

/-- The level of a symbol window (spec/41_demodulators.md rule R115): 1 exactly when the mark energy is at least
the space energy. -/
def AfskLevel (fm fsp : LinearReal) (fs : Nat) (xs : List ExactReal) (level : Bit) : Prop :=
  level = true ↔ realWindow fsp.toReal fs xs ≤ realWindow fm.toReal fs xs

/-- The tone index of a symbol window (rule R130): the smallest index of a greatest energy. -/
def BestIndex (es : List ExactReal) (best : Nat) : Prop :=
  ∃ e, es[best]? = some e ∧ (∀ u ∈ es, u.toReal ≤ e.toReal) ∧ ∀ u ∈ es.take best, u.toReal < e.toReal

/-- A direction's angle in `(-pi, pi]`, `atan2(im, re)` with `atan2(0, 0)` taken as 0
(spec/41_demodulators.md rule R120). -/
noncomputable def realAngle (re im : ℝ) : ℝ := Complex.arg ⟨re, im⟩

/-- The real number that a `PhaseSum` stands for. -/
noncomputable def phaseValue (p : PhaseSum) : ℝ :=
  2 * Real.pi * (p.turns : ℝ) + realAngle p.re.toReal p.im.toReal

/-! ## The GFSK discriminator over the real numbers (rule R120)

The samples are counted by `j` from 0 at the offset, so the sample `j` has index `off + j` in the waveform. -/

/-- The single-pole low-pass filter of an input `u`: its output before input `j`, 0 at the start (rule R120). -/
def lowPass (alpha : ℝ) (u : Nat → ℝ) : Nat → ℝ
  | 0 => 0
  | j + 1 => lowPass alpha u j + alpha * (u j - lowPass alpha u j)

/-- The phase of the local oscillator at index `n`, in radians: `2 * pi * fc / fs * n`, `fc` the midpoint of mark and space
(rule R120). -/
noncomputable def oscillator (fm fsp : ℝ) (fs n : Nat) : ℝ := 2 * Real.pi * ((fm + fsp) / 2) / fs * n

/-- The filtered I before sample `j` (rule R120). -/
noncomputable def filteredI (fm fsp alpha : ℝ) (fs off : Nat) (xs : List ℝ) : Nat → ℝ :=
  lowPass alpha fun j => xs.getD (off + j) 0 * Real.cos (oscillator fm fsp fs (off + j))

/-- The filtered Q before sample `j` (rule R120). -/
noncomputable def filteredQ (fm fsp alpha : ℝ) (fs off : Nat) (xs : List ℝ) : Nat → ℝ :=
  lowPass alpha fun j => -(xs.getD (off + j) 0 * Real.sin (oscillator fm fsp fs (off + j)))

/-- The phase advance at sample `j`, `atan2(cross, dot)` of the filtered samples after and before it (rule R120). -/
noncomputable def phaseAdvance (fm fsp alpha : ℝ) (fs off : Nat) (xs : List ℝ) (j : Nat) : ℝ :=
  let i := filteredI fm fsp alpha fs off xs
  let q := filteredQ fm fsp alpha fs off xs
  realAngle (i (j + 1) * i j + q (j + 1) * q j) (i j * q (j + 1) - i (j + 1) * q j)

/-- The level of symbol `k` is mark: the average phase advance of its samples is at least 0 when mark is above space, at
most 0 when it is not (rule R120). -/
def GfskMark (fm fsp alpha : ℝ) (fs sps off : Nat) (xs : List ℝ) (k : Nat) : Prop :=
  let avg := (∑ m ∈ Finset.range sps, phaseAdvance fm fsp alpha fs off xs (k * sps + m)) / sps
  (fsp < fm → 0 ≤ avg) ∧ (fm ≤ fsp → avg ≤ 0)

/-- What the checks of rules R113 and R121 accept. -/
def GfskReady (c : Cfg) (fs sps : Nat) (fm fsp : LinearReal) (alpha : ExactReal) : Prop :=
  SymReady c fs sps ∧ c.fMark = some fm ∧ c.fSpace = some fsp ∧ c.gfskAlpha = some alpha ∧
    fm.toReal ≠ fsp.toReal ∧ 0 < alpha.toReal ∧ alpha.toReal ≤ 1

/-- Polynomial multiplication modulo `0x11D` by shift and add, the product of `a` and the low `n` bits of `b`
(spec/44_gf256.md rules R200, R203). -/
def shiftAddMul (a b : Byte) : Nat → Byte
  | 0 => 0
  | n + 1 =>
    let hi := shiftAddMul a b n
    let twice := if hi.getLsbD 7 then (hi <<< 1) ^^^ 0x1D else hi <<< 1
    if b.getLsbD (7 - n) then twice ^^^ a else twice

/-! ## What an operation wrote and what it kept -/

/-- The state with another `STATUS` and nothing else changed (spec/60_exceptions.md rule R304). -/
def withStatus (code : Byte) (s : State) : State := { s with status := code }

/-- Bit buffer `dst` holds `out` and the other bit buffers are as before. -/
def BbWritten (dst : Sel) (out : List Bit) (s t : State) : Prop :=
  bbRead dst t = out ∧ ∀ k, k ≠ dst → bbRead k t = bbRead k s

/-- Byte buffer `dst` holds `out` and the other byte buffers are as before. -/
def YbWritten (dst : Sel) (out : List Byte) (s t : State) : Prop :=
  ybRead dst t = out ∧ ∀ k, k ≠ dst → ybRead k t = ybRead k s

/-- The result registers listed hold the values given and the others are as before. -/
def RWritten (vs : List (Sel × U32)) (s t : State) : Prop :=
  (∀ p ∈ vs, bankGet t.r p.1 = p.2) ∧ ∀ k, (∀ p ∈ vs, p.1 ≠ k) → bankGet t.r k = bankGet s.r k

/-- `EV[0..]` hold the energies listed and the other `EV` registers are as before. -/
def EvWritten (es : List ExactReal) (s t : State) : Prop :=
  ∀ k : Fin 16, t.ev[k] = es.getD k.val s.ev[k]

/-! ## The invariant -/

/-- The invariant of the machine: the tables are ready (spec/10_state.md rule R26); `STATUS` is one of the codes an
operation writes (spec/60_exceptions.md rule R300); the one-bit and two-bit `P_` registers are the fields of
`P_FLAGS` (spec/10_state.md rule R13); and every real register holds its normal form (assumption log 1). -/
structure State.Inv (s : State) : Prop where
  tables : s.tablesReady = true
  status : s.status.toNat ≤ 6
  gzip : s.parsed.gzip = flagGzip s.parsed.flags
  fec : s.parsed.fec = flagFec s.parsed.flags
  profile : s.parsed.profile = flagProfile s.parsed.flags
  samples : ∀ x ∈ s.sb, x.Normal
  sample : s.xs.Normal
  operand : s.xf.Normal
  mark : ∀ x, s.cfg.fMark = some x → x.Normal
  space : ∀ x, s.cfg.fSpace = some x → x.Normal
  tones : ∀ (k : Fin 16) (x : LinearReal), s.cfg.tone[k] = some x → x.Normal
  alpha : ∀ x, s.cfg.gfskAlpha = some x → x.Normal
  energies : ∀ k : Fin 16, s.ev[k].Normal
  coeff : ∀ c, s.gtz.coeff = some c → c.Normal
  state1 : s.gtz.s1.Normal
  state2 : s.gtz.s2.Normal

end Sys2Proof.Machine
end

