-- ==== Sys2Proof/Certificates/Slice0/Obligations.lean ====
section
/-!
DEFINITION. The statements for the provers. Each docstring names the rules of spec/ it rests on, or says that a
clause is the model's choice and names its log entry.
-/

open Sys2Proof Sys2Proof.Machine

/-! ## Command words -/

/-- Decoding the word of an operation gives that operation (30_encoding.md rules R70 to R73). -/
def Obligations.DecodeEncode : Prop := ∀ i : Instr, decode (encode i) = .ok i

/-- A word that decodes is the word of what it decodes to, so no two words name one operation and no bit of a legal
word is dropped (30_encoding.md rules R70 to R73). -/
def Obligations.EncodeDecode : Prop := ∀ (w : U32) (i : Instr), decode w = .ok i → encode i = w

/-- The decoder reads exactly the legal words; an illegal one writes `STATUS` and nothing else (30_encoding.md rule R78;
`wordLegal` says which words are illegal). -/
def Obligations.IllegalWords : Prop :=
  ∀ w : U32, (wordLegal w = true ↔ ∃ i, decode w = .ok i) ∧
    (wordLegal w = false → ∀ s : State, issue w s = .next (withStatus 5 s))

/-- The words that 30_encoding.md rule R80 writes out, and one word of each further format. -/
def Obligations.SampleWords : Prop :=
  decode 0x53000100 = .ok (.nrziEnc 0 1) ∧ decode 0x82000031 = .ok (.crcByte 0x31) ∧
  decode 0x910053CA = .ok (.gfMul 0x53 0xCA) ∧ decode 0x93000100 = .ok (.gfExp 256) ∧
  decode 0x03000003 = .ok (.sysLoadp 3) ∧ decode 0x15000000 = .ok .gtzWin ∧
  decode 0x06000100 = .ok (.sysFqpop 1) ∧ decode 0x66030000 = .ok (.hdlcExtract 3) ∧
  decode 0x51000001 = .ok (.nrziEncb true) ∧ decode 0xFFFFFFFF = .error .unassignedOp

/-- A step whose next host action is a command word runs the operation the word decodes to; the model's step takes
the action from the pending ones and advances its tick, and adds nothing else (10_state.md rule R10, log 5). -/
def Obligations.StepRunsCommand : Prop :=
  ∀ (s : State) (w : U32) (i : Instr) (rest : List HostAction),
    s.pending = .command w :: rest → decode w = .ok i → step s = exec i (takeAction rest s)

/-- With no host action pending a step changes nothing; else it performs the next one (70_reset_and_hazards.md rule R330; that
one action is one step is log 5). A host write to an operand register, a configuration register, a buffer or a list register changes that one
place and nothing else, and the number read there is the one written (10_state.md rules R10 to R12, R17). -/
def Obligations.HostTurns : Prop :=
  (∀ s : State, s.pending = [] → step s = .next s) ∧
  (∀ s act rest, s.pending = act :: rest → step s = hostAct act (takeAction rest s)) ∧
  (∀ s k v, ∃ t, hostAct (.setA k v) s = .next t ∧ bankGet t.a k = v ∧ (∀ j, j ≠ k → bankGet t.a j = bankGet s.a j) ∧
    t = { s with a := t.a }) ∧
  (∀ s v, ∃ t, hostAct (.setXs v) s = .next t ∧ t.xs.toReal = v.toReal ∧ t = { s with xs := t.xs }) ∧
  (∀ s v, ∃ t, hostAct (.setXf v) s = .next t ∧ t.xf.toReal = v.toReal ∧ t = { s with xf := t.xf }) ∧
  (∀ s v, hostAct (.setHdrFlags v) s = .next { s with hdrFlags := v }) ∧
  (∀ s v, hostAct (.setHdrLen v) s = .next { s with hdrLen := v }) ∧
  (∀ s v, hostAct (.setFs v) s = .next { s with cfg := { s.cfg with fs := some v } }) ∧
  (∀ s v, hostAct (.setBaud v) s = .next { s with cfg := { s.cfg with baud := some v } }) ∧
  (∀ s v, hostAct (.setKind v) s = .next { s with cfg := { s.cfg with kind := some v } }) ∧
  (∀ s v, ∃ x, hostAct (.setFMark v) s = .next { s with cfg := { s.cfg with fMark := some x } } ∧ x.toReal = v.toReal) ∧
  (∀ s v, ∃ x, hostAct (.setFSpace v) s = .next { s with cfg := { s.cfg with fSpace := some x } } ∧ x.toReal = v.toReal) ∧
  (∀ s v, hostAct (.setBps v) s = .next { s with cfg := { s.cfg with bps := some v } }) ∧
  (∀ s v, hostAct (.setNtones v) s = .next { s with cfg := { s.cfg with ntones := v } }) ∧
  (∀ s (k : Fin 16) v, ∃ t x, hostAct (.setTone k v) s = .next t ∧ t.cfg.tone[k] = some x ∧ x.toReal = v.toReal ∧
    (∀ j : Fin 16, j ≠ k → t.cfg.tone[j] = s.cfg.tone[j]) ∧ t = { s with cfg := { s.cfg with tone := t.cfg.tone } }) ∧
  (∀ s v, ∃ x, hostAct (.setGfskAlpha v) s = .next { s with cfg := { s.cfg with gfskAlpha := some x } } ∧ x.toReal = v.toReal) ∧
  (∀ s v, hostAct (.setNpre v) s = .next { s with cfg := { s.cfg with npre := some v } }) ∧
  (∀ s v, hostAct (.setMinFrameBits v) s = .next { s with cfg := { s.cfg with minFrameBits := v } }) ∧
  (∀ s v, hostAct (.setFlagAdvance v) s = .next { s with cfg := { s.cfg with flagAdvance := v } }) ∧
  (∀ s xs, ∃ t, hostAct (.loadSb xs) s = .next t ∧ t.sb.map ExactReal.toReal = xs.map ExactReal.toReal ∧
    t = { s with sb := t.sb }) ∧
  (∀ s k bits, ∃ t, hostAct (.loadBb k bits) s = .next t ∧ BbWritten k bits s t ∧ t = { s with bb := t.bb }) ∧
  (∀ s k bytes, ∃ t, hostAct (.loadYb k bytes) s = .next t ∧ YbWritten k bytes s t ∧ t = { s with yb := t.yb }) ∧
  (∀ s v, hostAct (.loadFp v) s = .next { s with fp := v }) ∧
  (∀ s v, hostAct (.loadFq v) s = .next { s with fq := v })

/-! ## Reset, invariants and rules of the whole machine -/

/-- The values of the reset table (10_state.md rule R27). That the two fields of the model's own, `pending` and
`openTick`, start empty and 0 is the model's choice (logs 3 and 5). -/
def Obligations.ResetTable : Prop :=
  let s := State.reset
  s.sb = [] ∧ (∀ k, bbRead k s = []) ∧ (∀ k, ybRead k s = []) ∧ s.fp = [] ∧ s.fq = [] ∧
  (∀ k, bankGet s.a k = 0) ∧ (∀ k, bankGet s.r k = 0) ∧ s.hdrFlags = 0 ∧ s.hdrLen = 0 ∧
  s.parsed = ⟨0, false, false, 0, 0, 0, 0⟩ ∧ s.xs.toReal = 0 ∧ s.xf.toReal = 0 ∧ (∀ k : Fin 16, s.ev[k].toReal = 0) ∧
  s.status = 0 ∧
  s.cfg.fs = none ∧ s.cfg.baud = none ∧ s.cfg.kind = none ∧ s.cfg.fMark = none ∧ s.cfg.fSpace = none ∧
  s.cfg.bps = none ∧ (∀ k : Fin 16, s.cfg.tone[k] = none) ∧ s.cfg.gfskAlpha = none ∧ s.cfg.npre = none ∧
  s.cfg.ntones = 0 ∧ s.cfg.minFrameBits = 80 ∧ s.cfg.flagAdvance = 8 ∧
  s.gtz.s1.toReal = 0 ∧ s.gtz.s2.toReal = 0 ∧ s.gtz.coeff = none ∧
  s.nrziEncLevel = true ∧ s.nrziDecPrev = true ∧ s.crcReg = 0xFFFF ∧
  (∀ k : Fin 32, s.rsSyn[k] = 0) ∧ (∀ k : Fin 32, s.rsPar[k] = 0) ∧ s.tablesReady = true ∧
  s.pending = [] ∧ s.openTick = 0

/-- The machine's invariant holds after reset. -/
def Obligations.ResetInv : Prop := State.Inv State.reset

/-- Every step keeps the invariant: the tables stay ready (10_state.md rule R26), `STATUS` holds a code the block
writes (60_exceptions.md rule R300), the one-bit and two-bit `P_` registers are the fields of `P_FLAGS` (10_state.md rule R13),
and every real register keeps its normal form (log 1). -/
def Obligations.StepKeepsInv : Prop := ∀ s t : State, s.Inv → step s = .next t → t.Inv

/-- Every command ends with a status code of 0 to 6 (60_exceptions.md rule R300), whatever the state. -/
def Obligations.EveryCommandEnds : Prop :=
  ∀ (w : U32) (s : State), ∃ t, issue w s = .next t ∧ t.status.toNat ≤ 6

/-- No operation reads `STATUS` (10_state.md rule R16). -/
def Obligations.StatusNotRead : Prop :=
  ∀ (i : Instr) (s : State) (code : Byte), exec i (withStatus code s) = exec i s

/-- Which operations, by their `OP`, may change each piece of state: operand registers and `SB` are changed by no
operation but `SYS.RESET` (10_state.md rule R12), configuration registers by `SYS.LOADP` (rule R17), and each unit,
list and result register only by the operations that its rule names (rules R11, R13, R19 to R23,
70_reset_and_hazards.md rule R334). That an operation keeps the pending host actions and the tick is log 6. -/
def Obligations.WhoWritesWhat : Prop :=
  ∀ (i : Instr) (s t : State), exec i s = .next t →
    let by_ (ops : List Nat) : Prop := (opField (encode i)).toNat ∈ ops
    (t.sb ≠ s.sb → by_ [0x02]) ∧ (t.a ≠ s.a → by_ [0x02]) ∧ (t.xs ≠ s.xs → by_ [0x02]) ∧ (t.xf ≠ s.xf → by_ [0x02]) ∧
    (t.hdrFlags ≠ s.hdrFlags → by_ [0x02]) ∧ (t.hdrLen ≠ s.hdrLen → by_ [0x02]) ∧
    (t.cfg ≠ s.cfg → by_ [0x02, 0x03]) ∧ (t.tablesReady ≠ s.tablesReady → by_ [0x01, 0x02]) ∧
    (t.gtz ≠ s.gtz → by_ [0x02, 0x10, 0x11, 0x12, 0x13, 0x15, 0x20, 0x21, 0x42, 0x43]) ∧
    (t.ev ≠ s.ev → by_ [0x02, 0x14, 0x15, 0x20, 0x21, 0x42, 0x43]) ∧
    (t.nrziEncLevel ≠ s.nrziEncLevel → by_ [0x02, 0x50, 0x51, 0x53]) ∧
    (t.nrziDecPrev ≠ s.nrziDecPrev → by_ [0x02, 0x50, 0x52, 0x54]) ∧
    (t.crcReg ≠ s.crcReg → by_ [0x02, 0x70, 0x71, 0x72, 0x73, 0x80, 0x81, 0x82, 0x84, 0x85, 0x86]) ∧
    (t.rsSyn ≠ s.rsSyn → by_ [0x02, 0x73, 0xA1, 0xA2, 0xA4]) ∧ (t.rsPar ≠ s.rsPar → by_ [0x02, 0x72, 0xA0, 0xA3]) ∧
    (t.parsed ≠ s.parsed → by_ [0x02, 0x71, 0x73]) ∧
    (t.fp ≠ s.fp → by_ [0x02, 0x65, 0x66]) ∧ (t.fq ≠ s.fq → by_ [0x02, 0x06, 0x66]) ∧
    (t.r ≠ s.r → by_ [0x02, 0x03, 0x04, 0x05, 0x06, 0x20, 0x21, 0x30, 0x40, 0x41, 0x42, 0x43, 0x51, 0x52, 0x61, 0x62, 0x63,
      0x64, 0x65, 0x66, 0x70, 0x71, 0x72, 0x73, 0x83, 0x84, 0x85, 0x86, 0x90, 0x91, 0x92, 0x93, 0x94, 0xA1, 0xA2, 0xA3,
      0xA4]) ∧
    (t.bb ≠ s.bb → by_ [0x02, 0x04, 0x21, 0x30, 0x41, 0x43, 0x53, 0x54, 0x60, 0x62, 0x63, 0x64]) ∧
    (t.yb ≠ s.yb → by_ [0x02, 0x05, 0x06, 0x40, 0x61, 0x70, 0x71, 0x72, 0x73, 0x85, 0xA0, 0xA2, 0xA3, 0xA4]) ∧
    t.pending = s.pending ∧ t.openTick = s.openTick

/-- A status other than `OK` comes with a write in three operations only, and with the writes named there; in every
other case nothing but `STATUS` changed (60_exceptions.md rule R304). -/
def Obligations.FailureKeepsState : Prop :=
  ∀ (i : Instr) (s t : State), exec i s = .next t → t.status ≠ 0 →
    t = withStatus t.status s ∨
    (∃ src dst, i = .frmParse src dst ∧ t.status = 2 ∧ (∀ k, k ≠ dst → ybRead k t = ybRead k s) ∧
      (∀ k, k ≠ 0 → bankGet t.r k = bankGet s.r k) ∧
      t = { s with parsed := t.parsed, yb := t.yb, r := t.r, crcReg := t.crcReg, status := 2 }) ∨
    (∃ src dst, i = .frmDecode src dst ∧ t.status.toNat ∈ [1, 2, 3] ∧
      t = { s with parsed := t.parsed, crcReg := t.crcReg, status := t.status }) ∨
    (∃ src dst, i = .rsDecb src dst ∧ t.status = 3 ∧ t = { s with rsSyn := t.rsSyn, status := 3 })

/-! ## System operations -/

/-- `SYS.NOP` writes `STATUS` only; the all-zero word is legal and the all-ones word is not (46_system.md rule R250). -/
def Obligations.SysNop : Prop :=
  (∀ s : State, exec .sysNop s = .next (withStatus 0 s)) ∧ decode 0 = .ok .sysNop ∧ wordLegal 0xFFFFFFFF = false

/-- `SYS.INIT` writes `STATUS` only, since the tables are ready (46_system.md rule R251); in a state that no run
reaches it also makes them ready (log 8). `SYS.RESET` and the reset input leave the reset state, whatever the state was (46_system.md
rule R252, 70_reset_and_hazards.md rule R330); the host's pending actions and the model's tick go on (log 6). -/
def Obligations.SysInitReset : Prop :=
  ∀ s : State, exec .sysInit s = .next { s with tablesReady := true, status := 0 } ∧
    exec .sysReset s = .next { State.reset with pending := s.pending, openTick := s.openTick } ∧
    hostAct .resetInput s = .next { State.reset with pending := s.pending, openTick := s.openTick }

/-- `SYS.LOADP` copies the ROM entry of the profile id: the kind by id, the fields the kind uses with a value that does not
depend on the state, the others `unconfigured` (46_system.md rule R254, 10_state.md rule R18, 30_encoding.md rule R62).
Which fields count as used, with the tones below `NTONES` and `NTONES` up to 16 among them, is log 7. -/
def Obligations.SysLoadp : Prop :=
  ∀ (id : Sel), ∃ e : ProfileEntry,
    e.kind = (if id = 1 then .mfsk else if id = 3 then .gfsk else .afsk) ∧ e.baud.isSome ∧ e.npre.isSome ∧
    (id = 1 → e.fMark = none ∧ e.fSpace = none ∧ e.gfskAlpha = none ∧ (∃ b, e.bps = some b ∧ 1 ≤ b ∧ b ≤ 4) ∧
      e.ntones ≤ 16 ∧ ∀ k : Fin 16, k.val < e.ntones → e.tone[k].isSome) ∧
    (id ≠ 1 → e.fMark.isSome ∧ e.fSpace.isSome ∧ e.bps = none ∧ e.ntones = 0 ∧ ∀ k : Fin 16, e.tone[k] = none) ∧
    (id = 3 ↔ e.gfskAlpha.isSome) ∧
    ∀ s : State, ∃ t, exec (.sysLoadp id) s = .next t ∧ RWritten [(0, id.setWidth 32)] s t ∧
      t.cfg = { s.cfg with
        kind := some e.kind, baud := e.baud, fMark := e.fMark, fSpace := e.fSpace, bps := e.bps, ntones := e.ntones,
        tone := e.tone, gfskAlpha := e.gfskAlpha, npre := e.npre } ∧
      t = { s with cfg := t.cfg, r := t.r, status := 0 }

/-- `SYS.MOVB` and `SYS.MOVY` copy a buffer and leave its length in `R0` (46_system.md rules R255, R256). A count below `2^32` is
left as it is (rule R258); a larger one leaves a free value (log 3). -/
def Obligations.SysMove : Prop :=
  (∀ (tick : Nat) (k : Sel) (n : Nat), n < 2 ^ 32 → (countWord tick k n).toNat = n) ∧
  ∀ (src dst : Sel) (s : State),
    (∃ t, exec (.sysMovb src dst) s = .next t ∧ BbWritten dst (bbRead src s) s t ∧
      RWritten [(0, countWord s.openTick 0 (bbRead src s).length)] s t ∧ t = { s with bb := t.bb, r := t.r, status := 0 }) ∧
    (∃ t, exec (.sysMovy src dst) s = .next t ∧ YbWritten dst (ybRead src s) s t ∧
      RWritten [(0, countWord s.openTick 0 (ybRead src s).length)] s t ∧ t = { s with yb := t.yb, r := t.r, status := 0 })

/-- `SYS.FQPOP` takes the first record of `FQ`, or ends with `NONE` (46_system.md rule R257). -/
def Obligations.SysFqpop : Prop :=
  ∀ (dst : Sel) (s : State),
    (s.fq = [] → exec (.sysFqpop dst) s = .next (withStatus 1 s)) ∧
    (∀ item rest, s.fq = item :: rest → ∃ t, exec (.sysFqpop dst) s = .next t ∧ t.fq = rest ∧
      YbWritten dst item.bytes s t ∧
      RWritten [(0, countWord s.openTick 0 item.start), (1, countWord s.openTick 1 item.stop),
        (2, countWord s.openTick 2 rest.length)] s t ∧
      t = { s with fq := t.fq, yb := t.yb, r := t.r, status := 0 })

/-! ## The Goertzel unit -/

/-- The record of operations that the machine takes computes over the real numbers that its numbers are (00_scope.md
rules R6, R7; the representation is log 1): arithmetic, cosine and sine, the normal form in which registers hold numbers, and
numbers that are a named real, of which nothing is known. -/
def Obligations.ExactArithmetic : Prop :=
  (∀ x y : ExactReal, (numerics.add x y).toReal = x.toReal + y.toReal ∧
    (numerics.sub x y).toReal = x.toReal - y.toReal ∧ (numerics.mul x y).toReal = x.toReal * y.toReal) ∧
  (∀ (q : ℚ) (x : ExactReal), (numerics.scale q x).toReal = q * x.toReal ∧ (numerics.ofRat q).toReal = q) ∧
  (∀ x y : LinearReal, (numerics.frequencyAdd x y).toReal = x.toReal + y.toReal ∧
    (∀ q : ℚ, (numerics.frequencyScale q x).toReal = q * x.toReal) ∧ (numerics.ofFrequency x).toReal = x.toReal) ∧
  (∀ x : LinearReal, (numerics.cosTurn x).toReal = Real.cos (2 * Real.pi * x.toReal) ∧
    (numerics.sinTurn x).toReal = Real.sin (2 * Real.pi * x.toReal)) ∧
  (∀ x : ExactReal, x.norm.toReal = x.toReal ∧ x.norm.Normal) ∧
  (∀ x : LinearReal, x.norm.toReal = x.toReal ∧ x.norm.Normal ∧ (numerics.ofFrequency x).Normal) ∧
  (∀ x y : ExactReal, x.Normal → y.Normal →
    (numerics.add x y).Normal ∧ (numerics.sub x y).Normal ∧ (numerics.mul x y).Normal) ∧
  (∀ x : LinearReal, x.Normal → (numerics.cosTurn x).Normal ∧ (numerics.sinTurn x).Normal) ∧
  (∀ n : Nat, (ExactReal.plus 1 [n] (.ofRat 0) .zero).Normal ∧
    (ExactReal.plus 1 [n] (.ofRat 0) .zero).toReal = Config.reals.value n ∧
    (LinearReal.mk 0 [(n, 1)]).Normal ∧ (LinearReal.mk 0 [(n, 1)]).toReal = Config.reals.value n)

/-- The sign that the model takes for a number is the sign of the real number it is, and two numbers compare as the real
numbers do (00_scope.md rules R6, R7, 92_eei_decisions.md D6; how signs are found is log 2). -/
def Obligations.SignExact : Prop :=
  (∀ x : ExactReal, (numerics.sign x = 1 ↔ 0 < x.toReal) ∧ (numerics.sign x = 0 ↔ x.toReal = 0) ∧
    (numerics.sign x = -1 ↔ x.toReal < 0)) ∧
  ∀ x y : ExactReal, (numerics.le x y = true ↔ x.toReal ≤ y.toReal) ∧ (numerics.lt x y = true ↔ x.toReal < y.toReal)

/-- `GTZ.SETF` loads `2 * cos(2 * pi * XF / FS)`, or ends with `CONFIG` while `FS` is unconfigured or, since its reader checks
`FS >= 1`, 0 (10_state.md rule R17, log 4); `GTZ.SETC` loads `XF` itself; both keep the state. `GTZ.CLR` zeroes the state and
keeps the coefficient (40_goertzel.md rules R90, R92 to R94). -/
def Obligations.GtzLoad : Prop :=
  ∀ s : State, (s.cfg.fs = none ∨ s.cfg.fs = some 0 → exec .gtzSetf s = .next (withStatus 4 s)) ∧
    (∀ fs, s.cfg.fs = some fs → 0 < fs → ∃ t c, exec .gtzSetf s = .next t ∧ t.gtz = ⟨some c, s.gtz.s1, s.gtz.s2⟩ ∧
      c.toReal = realCoeff s.xf.toReal fs ∧ t = { s with gtz := t.gtz, status := 0 }) ∧
    (∃ t c, exec .gtzSetc s = .next t ∧ t.gtz = ⟨some c, s.gtz.s1, s.gtz.s2⟩ ∧ c.toReal = s.xf.toReal ∧
      t = { s with gtz := t.gtz, status := 0 }) ∧
    (∃ t z, exec .gtzClr s = .next t ∧ t.gtz = ⟨s.gtz.coeff, z, z⟩ ∧ z.toReal = 0 ∧
      t = { s with gtz := t.gtz, status := 0 })

/-- `GTZ.STEP` makes one step of the recurrence with the sample `XS`; `GTZ.ENERGY` leaves `S1^2 + S2^2 - COEFF*S1*S2` in `EV[0]` and
keeps the unit; both end with `CONFIG` while no coefficient is loaded (40_goertzel.md rules R91, R95, R96). -/
def Obligations.GtzStepEnergy : Prop :=
  ∀ s : State,
    (s.gtz.coeff = none → exec .gtzStep s = .next (withStatus 4 s) ∧ exec .gtzEnergy s = .next (withStatus 4 s)) ∧
    ∀ c, s.gtz.coeff = some c →
      (∃ t, exec .gtzStep s = .next t ∧ t.gtz.coeff = some c ∧
        t.gtz.s1.toReal = s.xs.toReal + c.toReal * s.gtz.s1.toReal - s.gtz.s2.toReal ∧ t.gtz.s2 = s.gtz.s1 ∧
        t = { s with gtz := t.gtz, status := 0 }) ∧
      (∃ t e, exec .gtzEnergy s = .next t ∧ EvWritten [e] s t ∧
        e.toReal = s.gtz.s1.toReal * s.gtz.s1.toReal + s.gtz.s2.toReal * s.gtz.s2.toReal -
          c.toReal * s.gtz.s1.toReal * s.gtz.s2.toReal ∧
        t = { s with ev := t.ev, status := 0 })

/-- `GTZ.WIN` runs the recurrence over `SB[A0 .. A0+A1)` from `(0, 0)`, the sum computed without wrap-around, and leaves
the state and the energy (40_goertzel.md rules R91, R97). -/
def Obligations.GtzWin : Prop :=
  ∀ s : State, let start := (bankGet s.a 0).toNat; let count := (bankGet s.a 1).toNat
    (s.gtz.coeff = none ∨ s.sb.length < start + count → exec .gtzWin s = .next (withStatus 4 s)) ∧
    ∀ c, s.gtz.coeff = some c → start + count ≤ s.sb.length →
      let st := realRun c.toReal (((s.sb.drop start).take count).map ExactReal.toReal)
      ∃ t e, exec .gtzWin s = .next t ∧ t.gtz.coeff = some c ∧ GoertzelHolds t.gtz c.toReal st ∧ EvWritten [e] s t ∧
        e.toReal = realEnergy c.toReal st ∧ t = { s with gtz := t.gtz, ev := t.ev, status := 0 }

/-- The energy of a window at a frequency is the squared magnitude of its discrete-time Fourier sum there
(40_goertzel.md rules R90, R91). -/
def Obligations.GoertzelIsFourier : Prop :=
  ∀ (f : LinearReal) (fs : Nat) (xs : List ExactReal), 0 < fs →
    (goertzelWindow numerics (goertzelCoeff numerics f fs) xs).toReal =
      ‖∑ n : Fin xs.length,
        ((xs.get n).toReal : ℂ) * Complex.exp (-Complex.I * (2 * Real.pi * f.toReal / (fs : ℝ) * (n.val : ℝ) : ℝ))‖ ^ 2

/-! ## Demodulators -/

/-- `AFSK.SYM`: level, energies and the Goertzel unit after one window, or `CONFIG` (41_demodulators.md rules R113, R115,
R116, 40_goertzel.md rule R98). -/
def Obligations.AfskSym : Prop :=
  ∀ s : State, let start := (bankGet s.a 0).toNat
    (∀ fs sps fm fsp, SymReady s.cfg fs sps → s.cfg.fMark = some fm → s.cfg.fSpace = some fsp →
      start + sps ≤ s.sb.length →
      let xs := (s.sb.drop start).take sps
      ∃ t em es level, exec .afskSym s = .next t ∧ RWritten [(0, bitWord level)] s t ∧ EvWritten [em, es] s t ∧
        em.toReal = realWindow fm.toReal fs xs ∧ es.toReal = realWindow fsp.toReal fs xs ∧ AfskLevel fm fsp fs xs level ∧
        GoertzelHolds t.gtz (realCoeff fsp.toReal fs) (realState fsp.toReal fs xs) ∧
        t = { s with r := t.r, ev := t.ev, gtz := t.gtz, status := 0 }) ∧
    ((¬ ∃ fs sps fm fsp, SymReady s.cfg fs sps ∧ s.cfg.fMark = some fm ∧ s.cfg.fSpace = some fsp ∧
      start + sps ≤ s.sb.length) → exec .afskSym s = .next (withStatus 4 s))

/-- Ties favour mark: equal mark and space frequencies give AFSK level 1 for every window, an all-zero window gives AFSK level 1, and
a silent waveform gives GFSK level 1 in every window (41_demodulators.md rules R115, R123). -/
def Obligations.TiesFavourMark : Prop :=
  (∀ (xs : List ExactReal) (fm fsp : LinearReal) (fs : Nat), fm.toReal = fsp.toReal →
    (afskSymbol numerics xs fm fsp fs).level = true) ∧
  (∀ (n : Nat) (fm fsp : LinearReal) (fs : Nat),
    (afskSymbol numerics (List.replicate n .zero) fm fsp fs).level = true) ∧
  (∀ (n off : Nat) (c : GfskConfig LinearReal ExactReal),
    ∀ level ∈ gfskDemod numerics (List.replicate n .zero) off c, level = true)

/-- `AFSK.DEMOD`: one level for each whole symbol window from `A0` on, decided from that window alone; `EV[0]`, `EV[1]` and the
Goertzel unit as the last window leaves them, or unchanged when there is none (41_demodulators.md rules R114, R117,
40_goertzel.md rule R98). -/
def Obligations.AfskDemod : Prop :=
  ∀ (dst : Sel) (s : State), let off := (bankGet s.a 0).toNat
    (∀ fs sps fm fsp, SymReady s.cfg fs sps → s.cfg.fMark = some fm → s.cfg.fSpace = some fsp →
      let count := if s.sb.length < off then 0 else (s.sb.length - off) / sps
      let window := fun k => (s.sb.drop (off + k * sps)).take sps
      ∃ t out, exec (.afskDemod dst) s = .next t ∧ BbWritten dst out s t ∧ out.length = count ∧
        RWritten [(0, countWord s.openTick 0 count)] s t ∧
        (∀ k, k < count → AfskLevel fm fsp fs (window k) (out.getD k false)) ∧
        (count = 0 → t.ev = s.ev ∧ t.gtz = s.gtz) ∧
        (0 < count → GoertzelHolds t.gtz (realCoeff fsp.toReal fs) (realState fsp.toReal fs (window (count - 1))) ∧
          ∃ em es, EvWritten [em, es] s t ∧ em.toReal = realWindow fm.toReal fs (window (count - 1)) ∧
            es.toReal = realWindow fsp.toReal fs (window (count - 1))) ∧
        t = { s with bb := t.bb, r := t.r, ev := t.ev, gtz := t.gtz, status := 0 }) ∧
    ((¬ ∃ fs sps fm fsp, SymReady s.cfg fs sps ∧ s.cfg.fMark = some fm ∧ s.cfg.fSpace = some fsp) →
      exec (.afskDemod dst) s = .next (withStatus 4 s))

/-- `GFSK.DEMOD`: one level for each whole symbol window, in `BB[B]`, or `CONFIG`; no energy and no Goertzel state is
written (41_demodulators.md rules R114, R121, R122). Symbol `k` has level 1 exactly when `GfskMark` says so over the real
numbers: oscillator at `fc * n / fs` turns at the index `n` in the waveform, `fc` the midpoint; filters that start at 0 at the
offset and run on from window to window; the `atan2` phase advances of the window averaged and held against 0 by the order of
mark and space, a tie giving 1 (rule R120). -/
def Obligations.GfskDemod : Prop :=
  ∀ (dst : Sel) (s : State), let off := (bankGet s.a 0).toNat
    (∀ fs sps fm fsp alpha, GfskReady s.cfg fs sps fm fsp alpha →
      let count := if s.sb.length < off then 0 else (s.sb.length - off) / sps
      ∃ t out, exec (.gfskDemod dst) s = .next t ∧ BbWritten dst out s t ∧ out.length = count ∧
        (∀ k, k < count → (out.getD k false = true ↔
          GfskMark fm.toReal fsp.toReal alpha.toReal fs sps off (s.sb.map ExactReal.toReal) k)) ∧
        RWritten [(0, countWord s.openTick 0 count)] s t ∧ t = { s with bb := t.bb, r := t.r, status := 0 }) ∧
    ((¬ ∃ fs sps fm fsp alpha, GfskReady s.cfg fs sps fm fsp alpha) →
      exec (.gfskDemod dst) s = .next (withStatus 4 s))

/-- One sample of the discriminator over the reals: mixing, the single-pole low-pass, and the direction of the phase
advance that is added to the symbol's sum (41_demodulators.md rule R120). -/
def Obligations.GfskSample : Prop :=
  ∀ (alpha : ExactReal) (turn : LinearReal) (f : IQ ExactReal) (p : PhaseSum) (x : ExactReal),
    let st := gfskSample numerics alpha (f, p) x turn
    let i := x.toReal * Real.cos (2 * Real.pi * turn.toReal)
    let q := -(x.toReal * Real.sin (2 * Real.pi * turn.toReal))
    st.1.i.toReal = f.i.toReal + alpha.toReal * (i - f.i.toReal) ∧
    st.1.q.toReal = f.q.toReal + alpha.toReal * (q - f.q.toReal) ∧
    ∃ dot cross, st.2 = phaseAdd p dot cross ∧
      dot.toReal = st.1.i.toReal * f.i.toReal + st.1.q.toReal * f.q.toReal ∧
      cross.toReal = f.i.toReal * st.1.q.toReal - st.1.i.toReal * f.q.toReal

/-- The exact sum of phase advances (log 10): adding a direction adds its `atan2` angle, `atan2(0, 0)` taken as 0, and the
sum's sign is the sign of the real sum (41_demodulators.md rule R120). -/
def Obligations.PhaseSumExact : Prop :=
  (∀ (p : PhaseSum) (dot cross : ExactReal),
    let n := phaseAdd p dot cross
    (p.re.toReal ≠ 0 ∨ p.im.toReal ≠ 0) →
    phaseValue n = phaseValue p + realAngle dot.toReal cross.toReal ∧ (n.re.toReal ≠ 0 ∨ n.im.toReal ≠ 0)) ∧
  (∀ p : PhaseSum,
    (phaseSign p = 1 ↔ 0 < phaseValue p) ∧ (phaseSign p = 0 ↔ phaseValue p = 0) ∧
    (phaseSign p = -1 ↔ phaseValue p < 0)) ∧
  phaseValue phaseZero = 0 ∧ (phaseZero.re.toReal ≠ 0 ∨ phaseZero.im.toReal ≠ 0)

/-- `MFSK.MAP` and `MFSK.UNMAP`: bits to tone indices, one in a byte, and back, a short last group padded with zeros, or
`CONFIG`; unmapping a mapping gives the bits back, followed by the padding zeros (41_demodulators.md rules R126 to R129). -/
def Obligations.MfskMapUnmap : Prop :=
  (∀ (bits : List Bit) (b : Nat), 1 ≤ b →
    mfskUnmap (mfskMap bits b) b = bits ++ List.replicate ((bits.length + b - 1) / b * b - bits.length) false) ∧
  ∀ (src dst : Sel) (s : State),
    (∀ b, s.cfg.bps = some b → 1 ≤ b → b ≤ 4 →
      (∃ t out, exec (.mfskMap src dst) s = .next t ∧ YbWritten dst out s t ∧
        out.length = ((bbRead src s).length + b - 1) / b ∧
        (∀ g, g < out.length → (out.getD g 0).toNat < 2 ^ b ∧
          ∀ j, j < b → (out.getD g 0).getLsbD j = (bbRead src s).getD (g * b + j) false) ∧
        RWritten [(0, countWord s.openTick 0 out.length)] s t ∧ t = { s with yb := t.yb, r := t.r, status := 0 }) ∧
      ((∀ y ∈ ybRead src s, y.toNat < 2 ^ b) →
        ∃ t out, exec (.mfskUnmap src dst) s = .next t ∧ BbWritten dst out s t ∧
          out.length = (ybRead src s).length * b ∧
          (∀ g j, g < (ybRead src s).length → j < b →
            out.getD (g * b + j) false = ((ybRead src s).getD g 0).getLsbD j) ∧
          RWritten [(0, countWord s.openTick 0 out.length)] s t ∧ t = { s with bb := t.bb, r := t.r, status := 0 }) ∧
      ((∃ y ∈ ybRead src s, 2 ^ b ≤ y.toNat) → exec (.mfskUnmap src dst) s = .next (withStatus 4 s))) ∧
    ((¬ ∃ b, s.cfg.bps = some b ∧ 1 ≤ b ∧ b ≤ 4) →
      exec (.mfskMap src dst) s = .next (withStatus 4 s) ∧ exec (.mfskUnmap src dst) s = .next (withStatus 4 s))

/-- `MFSK.SYM`: the best tone, the energies of the first `2^BPS` tones and the Goertzel unit after one window, or `CONFIG`
(41_demodulators.md rules R113, R126, R130, 40_goertzel.md rule R98). That `NTONES` above 16 ends with `CONFIG` is
10_state.md rule R17 (log 14). -/
def Obligations.MfskSym : Prop :=
  ∀ s : State, let start := (bankGet s.a 0).toNat
    (∀ fs sps b tones, MfskReady s.cfg fs sps b tones → start + sps ≤ s.sb.length →
      let xs := (s.sb.drop start).take sps
      ∃ t es best, exec .mfskSym s = .next t ∧ es.map ExactReal.toReal = tones.map (fun f => realWindow f.toReal fs xs) ∧
        BestIndex es best ∧ best < 2 ^ b ∧ RWritten [(0, countWord s.openTick 0 best)] s t ∧ EvWritten es s t ∧
        GoertzelHolds t.gtz (realCoeff (tones.getLastD (.ofRat 0)).toReal fs) (realState (tones.getLastD (.ofRat 0)).toReal fs xs) ∧
        t = { s with r := t.r, ev := t.ev, gtz := t.gtz, status := 0 }) ∧
    ((¬ ∃ fs sps b tones, MfskReady s.cfg fs sps b tones ∧ start + sps ≤ s.sb.length) →
      exec .mfskSym s = .next (withStatus 4 s))

/-- `MFSK.DEMOD`: the bits of the best tone of each whole symbol window, least significant first; `EV` and the Goertzel
unit as the last window leaves them, or unchanged when there is none (41_demodulators.md rules R114, R127, R131,
40_goertzel.md rule R98). That `NTONES` above 16 ends with `CONFIG` is 10_state.md rule R17 (log 14). -/
def Obligations.MfskDemod : Prop :=
  ∀ (dst : Sel) (s : State), let off := (bankGet s.a 0).toNat
    (∀ fs sps b tones, MfskReady s.cfg fs sps b tones →
      let count := if s.sb.length < off then 0 else (s.sb.length - off) / sps
      let window := fun k => (s.sb.drop (off + k * sps)).take sps
      ∃ t out, exec (.mfskDemod dst) s = .next t ∧ BbWritten dst out s t ∧ out.length = count * b ∧
        RWritten [(0, countWord s.openTick 0 count)] s t ∧
        (∀ k, k < count → ∃ es best, es.map ExactReal.toReal = tones.map (fun f => realWindow f.toReal fs (window k)) ∧
          BestIndex es best ∧ best < 2 ^ b ∧ ∀ j, j < b → out.getD (k * b + j) false = best.testBit j) ∧
        (count = 0 → t.ev = s.ev ∧ t.gtz = s.gtz) ∧
        (0 < count → GoertzelHolds t.gtz (realCoeff (tones.getLastD (.ofRat 0)).toReal fs)
            (realState (tones.getLastD (.ofRat 0)).toReal fs (window (count - 1))) ∧
          ∃ es, EvWritten es s t ∧ es.map ExactReal.toReal = tones.map fun f => realWindow f.toReal fs (window (count - 1))) ∧
        t = { s with bb := t.bb, r := t.r, ev := t.ev, gtz := t.gtz, status := 0 }) ∧
    ((¬ ∃ fs sps b tones, MfskReady s.cfg fs sps b tones) →
      exec (.mfskDemod dst) s = .next (withStatus 4 s))

/-! ## NRZI and HDLC -/

/-- `NRZI.CLR` sets both levels to 1; `NRZI.ENCB` flips the encoder's level on a 0 and holds it on a 1;
`NRZI.DECB` gives 1 when the level equals the one before it (42_line_coding_hdlc.md rules R140 to R144). -/
def Obligations.NrziSteps : Prop :=
  ∀ (x : Bit) (s : State),
    exec .nrziClr s = .next { s with nrziEncLevel := true, nrziDecPrev := true, status := 0 } ∧
    (∃ t, exec (.nrziEncb x) s = .next t ∧ t.nrziEncLevel = (if x then s.nrziEncLevel else !s.nrziEncLevel) ∧
      RWritten [(0, bitWord t.nrziEncLevel)] s t ∧
      t = { s with nrziEncLevel := t.nrziEncLevel, r := t.r, status := 0 }) ∧
    (∃ t, exec (.nrziDecb x) s = .next t ∧ t.nrziDecPrev = x ∧ RWritten [(0, bitWord (x == s.nrziDecPrev))] s t ∧
      t = { s with nrziDecPrev := x, r := t.r, status := 0 })

/-- `NRZI.ENC` and `NRZI.DEC` code a whole buffer from level 1, one bit for one bit, and leave the last level; decoding an encoded buffer
gives its bits back, which rule R141 derives (42_line_coding_hdlc.md rules R140, R141, R145, R146). -/
def Obligations.NrziBuffers : Prop :=
  ∀ (src dst : Sel) (s : State), let bits := bbRead src s
    (∃ t out, exec (.nrziEnc src dst) s = .next t ∧ BbWritten dst out s t ∧ out.length = bits.length ∧
      (∀ i, i < bits.length → out.getD i false =
        (if bits.getD i false then (true :: out).getD i false else !((true :: out).getD i false))) ∧
      t.nrziEncLevel = out.getLastD true ∧ t = { s with bb := t.bb, nrziEncLevel := t.nrziEncLevel, status := 0 } ∧
      ∀ c, ∃ u, exec (.nrziDec dst c) t = .next u ∧ bbRead c u = bits) ∧
    (∃ t out, exec (.nrziDec src dst) s = .next t ∧ BbWritten dst out s t ∧ out.length = bits.length ∧
      (∀ i, i < bits.length → out.getD i false = (bits.getD i false == (true :: bits).getD i false)) ∧
      t.nrziDecPrev = bits.getLastD true ∧ t = { s with bb := t.bb, nrziDecPrev := t.nrziDecPrev, status := 0 })

/-- `HDLC.UNPACK` turns each byte into eight bits and `HDLC.PACK` each eight bits into a byte, least significant bit
first; the bits left over are dropped and counted in `R0` (20_memory.md rules R44, R45, 42_line_coding_hdlc.md rules
R150, R151). -/
def Obligations.HdlcPacking : Prop :=
  ∀ (src dst : Sel) (s : State),
    (∃ t out, exec (.hdlcUnpack src dst) s = .next t ∧ BbWritten dst out s t ∧
      out.length = 8 * (ybRead src s).length ∧
      (∀ j k, j < (ybRead src s).length → k < 8 → out.getD (8 * j + k) false = ((ybRead src s).getD j 0).getLsbD k) ∧
      t = { s with bb := t.bb, status := 0 }) ∧
    (∃ t out, exec (.hdlcPack src dst) s = .next t ∧ YbWritten dst out s t ∧
      out.length = (bbRead src s).length / 8 ∧
      (∀ j k, j < out.length → k < 8 → (out.getD j 0).getLsbD k = (bbRead src s).getD (8 * j + k) false) ∧
      RWritten [(0, BitVec.ofNat 32 ((bbRead src s).length % 8))] s t ∧ t = { s with yb := t.yb, r := t.r, status := 0 })

/-- `HDLC.STUFF` and `HDLC.DESTUFF` write the stuffed and the destuffed bits and count in `R0` the zeros inserted and
dropped. Stuffed bits hold the same ones, never six of them in a row and never five at the end, so every fifth one in a row is followed by a
zero and the flag never occurs; destuffing them gives the bits back. Destuffing any bits drops a bit exactly when it is 0 and
the five bits before it are ones, and keeps the ones (42_line_coding_hdlc.md rules R148, R149, R152, R153). -/
def Obligations.HdlcStuffing : Prop :=
  (∀ bits : List Bit, ¬ List.replicate 6 true <:+: stuff bits ∧ ¬ List.replicate 5 true <:+ stuff bits ∧
    (stuff bits).filter id = bits.filter id ∧ destuff (stuff bits) = bits) ∧
  (∀ bits : List Bit,
    let dropped := fun i => bits.getD i false = false ∧ 5 ≤ i ∧ (bits.drop (i - 5)).take 5 = List.replicate 5 true
    destuff bits = ((List.range bits.length).filter fun i => !decide (dropped i)).map (fun i => bits.getD i false) ∧
      (destuff bits).filter id = bits.filter id) ∧
  ∀ (src dst : Sel) (s : State), let bits := bbRead src s
    (∃ t out, exec (.hdlcStuff src dst) s = .next t ∧ BbWritten dst out s t ∧ out = stuff bits ∧
      bits.length ≤ out.length ∧ RWritten [(0, countWord s.openTick 0 (out.length - bits.length))] s t ∧
      t = { s with bb := t.bb, r := t.r, status := 0 }) ∧
    (∃ t out, exec (.hdlcDestuff src dst) s = .next t ∧ BbWritten dst out s t ∧ out = destuff bits ∧
      out.length ≤ bits.length ∧ RWritten [(0, countWord s.openTick 0 (bits.length - out.length))] s t ∧
      t = { s with bb := t.bb, r := t.r, status := 0 })

/-- `HDLC.FRAME` builds `NPRE` preamble flags, an opening flag, the stuffed body and a closing flag
(30_encoding.md rule R63, 42_line_coding_hdlc.md rule R154). -/
def Obligations.HdlcFrame : Prop :=
  ∀ (src dst : Sel) (s : State), (s.cfg.npre = none → exec (.hdlcFrame src dst) s = .next (withStatus 4 s)) ∧
    ∀ npre, s.cfg.npre = some npre → ∃ t out, exec (.hdlcFrame src dst) s = .next t ∧ BbWritten dst out s t ∧
      (let flag := [false, true, true, true, true, true, true, false]
       out = (List.replicate (npre + 1) flag).flatten ++ stuff (unpackLsb (ybRead src s)) ++ flag) ∧
      out.length = 8 * (npre + 2) + 8 * (ybRead src s).length +
        ((stuff (unpackLsb (ybRead src s))).length - 8 * (ybRead src s).length) ∧
      RWritten [(0, countWord s.openTick 0 out.length)] s t ∧ t = { s with bb := t.bb, r := t.r, status := 0 }

/-- `HDLC.FLAGS`: every position found is a flag, two of them are at least `FLAG_ADVANCE` apart, and every flag of the bit
sequence begins within `FLAG_ADVANCE` of one found; or `CONFIG` (42_line_coding_hdlc.md rule R155). -/
def Obligations.HdlcFlags : Prop :=
  ∀ (src : Sel) (s : State), let bits := bbRead src s; let adv := s.cfg.flagAdvance
    let isFlag := fun i => (bits.drop i).take 8 = [false, true, true, true, true, true, true, false]
    (adv ≠ 7 ∧ adv ≠ 8 → exec (.hdlcFlags src) s = .next (withStatus 4 s)) ∧
    (adv = 7 ∨ adv = 8 → ∃ t, exec (.hdlcFlags src) s = .next t ∧
      (∀ p ∈ t.fp, isFlag p) ∧ t.fp.Pairwise (fun p q => p + adv ≤ q) ∧
      (∀ i, isFlag i → ∃ p ∈ t.fp, p ≤ i ∧ i < p + adv) ∧
      RWritten [(0, countWord s.openTick 0 t.fp.length)] s t ∧ t = { s with fp := t.fp, r := t.r, status := 0 })

/-- `HDLC.EXTRACT`: the flag positions, and for each consecutive pair of them whose raw length is at least
`MIN_FRAME_BITS` the record of the destuffed and packed bits between; or `CONFIG` (42_line_coding_hdlc.md rule R156,
20_memory.md rule R57). That two flags that share a bit, with `FLAG_ADVANCE` 7, have an empty slice between them, of raw length 0,
is log 13. -/
def Obligations.HdlcExtract : Prop :=
  ∀ (src : Sel) (s : State), let bits := bbRead src s; let adv := s.cfg.flagAdvance
    (adv ≠ 7 ∧ adv ≠ 8 → exec (.hdlcExtract src) s = .next (withStatus 4 s)) ∧
    (adv = 7 ∨ adv = 8 → ∃ t, exec (.hdlcExtract src) s = .next t ∧ t.fp = findFlags bits adv ∧
      t.fq = (((t.fp.zip (t.fp.drop 1)).filter fun p => decide (s.cfg.minFrameBits ≤ p.2 - (p.1 + 8))).map fun p =>
        ⟨p.1, p.2 + 8, packLsb (destuff ((bits.drop (p.1 + 8)).take (p.2 - (p.1 + 8))))⟩) ∧
      RWritten [(0, countWord s.openTick 0 t.fq.length), (1, countWord s.openTick 1 t.fp.length)] s t ∧
      t = { s with fp := t.fp, fq := t.fq, r := t.r, status := 0 })

/-- The round trip through the flag search, the stuffing and the line code, which 42_line_coding_hdlc.md rule R157 derives
from R148, R149, R154 to R156. -/
def Obligations.HdlcRoundTrip : Prop :=
  ∀ (f : List Byte) (npre adv minbits : Nat), adv = 7 ∨ adv = 8 → minbits ≤ 8 * f.length →
    (∃ rest item, (extractFrames (hdlcBuild f npre) adv minbits).2 = rest ++ [item] ∧ item.bytes = f ∧
      (1 ≤ minbits → rest = [])) ∧
    nrziDec true (nrziEnc true (hdlcBuild f npre)) = hdlcBuild f npre

/-! ## CRC and frames -/

/-- `CRC.CLR`, `CRC.BIT`, `CRC.BYTE` and `CRC.FINAL`: the register, and its complement in `R0` (43_crc_frame.md rules R171
to R175). A byte's step is eight bit steps, least significant bit first, as rule R171 derives. -/
def Obligations.CrcSteps : Prop :=
  ∀ (x : Bit) (y : Byte) (s : State),
    exec .crcClr s = .next { s with crcReg := 0xFFFF, status := 0 } ∧
    exec (.crcBit x) s = .next { s with
      crcReg := if (s.crcReg.getLsbD 0 != x) = true then (s.crcReg >>> 1) ^^^ 0x8408 else s.crcReg >>> 1, status := 0 } ∧
    (∃ t, exec (.crcByte y) s = .next t ∧ t.crcReg = (unpackLsb [y]).foldl crcBit s.crcReg ∧
      t = { s with crcReg := t.crcReg, status := 0 }) ∧
    (∃ t, exec .crcFinal s = .next t ∧ RWritten [(0, (~~~s.crcReg).setWidth 32)] s t ∧ t = { s with r := t.r, status := 0 })

/-- `CRC.GEN`, `CRC.APPEND` and `CRC.CHK` (43_crc_frame.md rules R176 to R179, 20_memory.md rule R43). -/
def Obligations.CrcBuffers : Prop :=
  ∀ (src dst : Sel) (s : State), let d := ybRead src s; let c := crc16x25 d
    (∃ t, exec (.crcGen src) s = .next t ∧ RWritten [(0, c.setWidth 32)] s t ∧ t.crcReg = ~~~c ∧
      t = { s with r := t.r, crcReg := t.crcReg, status := 0 }) ∧
    (∃ t, exec (.crcAppend src dst) s = .next t ∧
      YbWritten dst (d ++ [BitVec.ofNat 8 (c.toNat % 256), BitVec.ofNat 8 (c.toNat / 256)]) s t ∧
      RWritten [(0, c.setWidth 32)] s t ∧ t.crcReg = ~~~c ∧
      t = { s with yb := t.yb, r := t.r, crcReg := t.crcReg, status := 0 }) ∧
    (d.length < 2 → exec (.crcChk src) s = .next (withStatus 1 s)) ∧
    (∀ body lo hi, d = body ++ [lo, hi] → ∃ t, exec (.crcChk src) s = .next t ∧
      (let stored : U16 := BitVec.ofNat 16 (lo.toNat + 256 * hi.toNat)
       RWritten [(0, if crc16x25 body = stored then 1 else 0), (1, stored.setWidth 32), (2, (crc16x25 body).setWidth 32)] s t) ∧
      t.crcReg = ~~~(crc16x25 body) ∧ t = { s with r := t.r, crcReg := t.crcReg, status := 0 })

/-- The CRC of a byte sequence is the CRC of its bits in stream order; the source's reference vector; an appended trailer checks as good;
and folding data and trailer from `0xFFFF` leaves `0xF0B8` exactly when the trailer matches (43_crc_frame.md rules R170, R171, R178, R179,
20_memory.md rule R47). -/
def Obligations.CrcLaws : Prop :=
  (∀ bytes : List Byte, crc16x25 bytes = ~~~((unpackLsb bytes).foldl crcBit 0xFFFF)) ∧
  crc16x25 [0x31, 0x32, 0x33, 0x34, 0x35, 0x36, 0x37, 0x38, 0x39] = 0x906E ∧
  (∀ (a b : Sel) (s : State), ∃ t u, exec (.crcAppend a b) s = .next t ∧ exec (.crcChk b) t = .next u ∧
    bankGet u.r 0 = 1) ∧
  (∀ (d : List Byte) (lo hi : Byte),
    crcRun (d ++ [lo, hi]) = 0xF0B8 ↔ (crc16x25 d).toNat = lo.toNat + 256 * hi.toNat)

/-- `FRM.BUILD`: magic, version, FLAGS with bits 7:4 zero, big-endian LEN, the area, little-endian CRC (30_encoding.md rules R60, R61,
20_memory.md rules R42, R43, 43_crc_frame.md rules R176, R181, R182). -/
def Obligations.FrmBuild : Prop :=
  ∀ (src dst : Sel) (s : State),
    let h : List Byte := [0x51, 0x52, 0x41, 0x31, 0x01, BitVec.ofNat 8 (s.hdrFlags.toNat % 16),
      BitVec.ofNat 8 (s.hdrLen.toNat / 256), BitVec.ofNat 8 (s.hdrLen.toNat % 256)]
    let c := crc16x25 (h ++ ybRead src s)
    ∃ t, exec (.frmBuild src dst) s = .next t ∧
      YbWritten dst (h ++ ybRead src s ++ [BitVec.ofNat 8 (c.toNat % 256), BitVec.ofNat 8 (c.toNat / 256)]) s t ∧
      RWritten [(0, c.setWidth 32)] s t ∧ t.crcReg = ~~~c ∧ t = { s with yb := t.yb, r := t.r, crcReg := t.crcReg, status := 0 }

/-- `FRM.PARSE`: `NONE` on a short frame, a wrong magic or a wrong version; else the fields, the area and the CRC comparison as
`OK` or `INTEGRITY` (43_crc_frame.md rules R176, R183, 30_encoding.md rules R60, R61). -/
def Obligations.FrmParse : Prop :=
  ∀ (src dst : Sel) (s : State), let f := ybRead src s
    (f.length < 10 ∨ f.take 4 ≠ [0x51, 0x52, 0x41, 0x31] ∨ f.getD 4 0 ≠ 0x01 →
      exec (.frmParse src dst) s = .next (withStatus 1 s)) ∧
    (∀ (flags l1 l0 lo hi : Byte) (area : List Byte),
      f = [0x51, 0x52, 0x41, 0x31, 0x01, flags, l1, l0] ++ area ++ [lo, hi] →
      let stored : U16 := BitVec.ofNat 16 (lo.toNat + 256 * hi.toNat)
      let computed := crc16x25 ([0x51, 0x52, 0x41, 0x31, 0x01, flags, l1, l0] ++ area)
      ∃ t, exec (.frmParse src dst) s = .next t ∧
        t.parsed = ⟨flags, flags.getLsbD 0, flags.getLsbD 1, BitVec.ofNat 2 (flags.toNat / 4),
          BitVec.ofNat 16 (256 * l1.toNat + l0.toNat), stored, computed⟩ ∧
        YbWritten dst area s t ∧ RWritten [(0, countWord s.openTick 0 area.length)] s t ∧ t.crcReg = ~~~computed ∧
        t.status = (if computed = stored then 0 else 2) ∧
        t = { s with parsed := t.parsed, yb := t.yb, r := t.r, crcReg := t.crcReg, status := t.status })

/-- `FRM.ENCODE`: the frame of a payload, LEN its length before FEC, the area in Reed-Solomon blocks when the FEC bit is set; `CONFIG` for
a payload over 65535 bytes (43_crc_frame.md rules R176, R184, 30_encoding.md rule R66). With FEC off, and with FEC on and
an empty payload, `RS.PAR` keeps its value (log 12). -/
def Obligations.FrmEncode : Prop :=
  ∀ (src dst : Sel) (s : State), let p := ybRead src s; let fec := s.hdrFlags.getLsbD 1
    (65535 < p.length → exec (.frmEncode src dst) s = .next (withStatus 4 s)) ∧
    (p.length ≤ 65535 →
      let area := if fec then rsEncode p else p
      let frame := buildFrame s.hdrFlags (BitVec.ofNat 16 p.length) area
      let c := frameCrc s.hdrFlags (BitVec.ofNat 16 p.length) area
      ∃ t, exec (.frmEncode src dst) s = .next t ∧ YbWritten dst frame s t ∧
        area.length = (if fec then 255 * ((p.length + 222) / 223) else p.length) ∧
        RWritten [(0, c.setWidth 32), (1, BitVec.ofNat 32 area.length)] s t ∧ t.crcReg = ~~~c ∧
        (fec = false ∨ p = [] → t.rsPar = s.rsPar) ∧
        (fec = true → p ≠ [] → t.rsPar.toList = (frame.drop (frame.length - 34)).take 32) ∧
        t = { s with yb := t.yb, r := t.r, crcReg := t.crcReg, rsPar := t.rsPar, status := 0 })

/-- The order of checks of `FRM.DECODE` with FEC off: a frame that does not parse ends with `NONE` and writes nothing; LEN against the area
with `NONE`; the CRC with `INTEGRITY`, both with the `P_` registers written; else the payload is the area (43_crc_frame.md rules
R185, R186). That `RS.SYN` keeps its value where no block was decoded is log 11. -/
def Obligations.FrmDecodePlain : Prop :=
  ∀ (src dst : Sel) (s : State), let f := ybRead src s
    (parseFrame f = none → exec (.frmDecode src dst) s = .next (withStatus 1 s)) ∧
    (∀ r, parseFrame f = some r → r.flags.getLsbD 1 = false →
      ∃ t, exec (.frmDecode src dst) s = .next t ∧ t.parsed = parsedRegs r ∧ t.crcReg = ~~~r.computed ∧
        (r.area.length ≠ r.len.toNat →
          t = { s with parsed := t.parsed, crcReg := t.crcReg, status := 1 }) ∧
        (r.area.length = r.len.toNat → r.computed ≠ r.stored →
          t = { s with parsed := t.parsed, crcReg := t.crcReg, status := 2 }) ∧
        (r.area.length = r.len.toNat → r.computed = r.stored → YbWritten dst r.area s t ∧
          RWritten [(0, BitVec.ofNat 32 r.area.length), (1, 0)] s t ∧
          t = { s with parsed := t.parsed, crcReg := t.crcReg, yb := t.yb, r := t.r, status := 0 }))

/-- `FRM.DECODE` with FEC on: the block decoder runs on every block also when the CRC already matches; then the CRC over the corrected area
decides when the first one did not match (43_crc_frame.md rules R185, R186). `CRC.REG` holds the complement of the last CRC
computed (rule R176): the parse's, unless it did not match and the CRC over the corrected area was computed after it (which one is the
last is log 11). -/
def Obligations.FrmDecodeFec : Prop :=
  ∀ (src dst : Sel) (s : State) (r : ParsedFrame), let f := ybRead src s
    parseFrame f = some r → r.flags.getLsbD 1 = true →
    ∃ t, exec (.frmDecode src dst) s = .next t ∧ t.parsed = parsedRegs r ∧
      (r.area.length ≠ 255 * ((r.len.toNat + 222) / 223) → t.crcReg = ~~~r.computed ∧
        t = { s with parsed := t.parsed, crcReg := t.crcReg, status := 1 }) ∧
      (r.area.length = 255 * ((r.len.toNat + 222) / 223) →
        ((∃ b ∈ codeBlocks r.area, rsCorrectBlock b = none) → t.crcReg = ~~~r.computed ∧
          t = { s with parsed := t.parsed, crcReg := t.crcReg, status := 3 }) ∧
        (∀ cs, (codeBlocks r.area).map rsCorrectBlock = cs.map some →
          t.crcReg = ~~~(if r.computed = r.stored then r.computed else crc16x25 (f.take 8 ++ cs.flatten)) ∧
          (r.computed ≠ r.stored → crc16x25 (f.take 8 ++ cs.flatten) ≠ r.stored →
            t = { s with parsed := t.parsed, crcReg := t.crcReg, status := 2 }) ∧
          (r.computed = r.stored ∨ crc16x25 (f.take 8 ++ cs.flatten) = r.stored →
            YbWritten dst (((cs.map fun c => c.take 223).flatten).take r.len.toNat) s t ∧
            RWritten [(0, BitVec.ofNat 32 r.len.toNat),
              (1, countWord s.openTick 1 (List.zipWith diffCount (codeBlocks r.area) cs).sum)] s t ∧
            (codeBlocks r.area = [] → t.rsSyn = s.rsSyn) ∧
            (∀ b, (codeBlocks r.area).getLast? = some b → t.rsSyn.toList = rsSyndromes b) ∧
            t = { s with parsed := t.parsed, crcReg := t.crcReg, yb := t.yb, r := t.r, rsSyn := t.rsSyn, status := 0 })))

/-- A frame built by `FRM.ENCODE` from any payload of at most 65535 bytes decodes to that payload, with FEC off and with FEC on, with no byte
changed and the header's fields as they were given (43_crc_frame.md rules R184, R185, 30_encoding.md rules R60, R61, R66). -/
def Obligations.FrameRoundTrip : Prop :=
  ∀ (a b c : Sel) (s : State), (ybRead a s).length ≤ 65535 →
    ∃ t u, exec (.frmEncode a b) s = .next t ∧ exec (.frmDecode b c) t = .next u ∧ u.status = 0 ∧
      ybRead c u = ybRead a s ∧ (bankGet u.r 0).toNat = (ybRead a s).length ∧ bankGet u.r 1 = 0 ∧
      u.parsed.flags.toNat = s.hdrFlags.toNat % 16 ∧ u.parsed.profile = flagProfile s.hdrFlags ∧
      u.parsed.len.toNat = (ybRead a s).length

/-! ## GF(256) and Reed-Solomon -/

/-- The field operations: addition is exclusive or; the product is the polynomial product modulo `0x11D`; an inverse multiplies to 1; `EXP` and
`LOG` read their tables; `GF.INV #0` and `GF.LOG #0` end with `DOMAIN` (44_gf256.md rules R200, R202 to R208; that the product is the shift-and-add one and that an inverse
multiplies to 1 is derived by rule R203). -/
def Obligations.GfOperations : Prop :=
  ∀ (a b : Byte) (i : BitVec 9) (s : State),
    (∃ t, exec (.gfAdd a b) s = .next t ∧ RWritten [(0, (a ^^^ b).setWidth 32)] s t ∧ t = { s with r := t.r, status := 0 }) ∧
    (∃ t, exec (.gfMul a b) s = .next t ∧ RWritten [(0, (shiftAddMul a b 8).setWidth 32)] s t ∧
      t = { s with r := t.r, status := 0 }) ∧
    exec (.gfInv 0) s = .next (withStatus 6 s) ∧
    (a ≠ 0 → ∃ t inv, exec (.gfInv a) s = .next t ∧ shiftAddMul a inv 8 = 1 ∧ RWritten [(0, inv.setWidth 32)] s t ∧
      t = { s with r := t.r, status := 0 }) ∧
    (∃ t, exec (.gfExp i) s = .next t ∧ RWritten [(0, (expEntry i.toNat).setWidth 32)] s t ∧
      t = { s with r := t.r, status := 0 }) ∧
    exec (.gfLog 0) s = .next (withStatus 6 s) ∧
    (a ≠ 0 → ∃ t n, exec (.gfLog a) s = .next t ∧ n < 255 ∧ expEntry n = a ∧ RWritten [(0, BitVec.ofNat 32 n)] s t ∧
      t = { s with r := t.r, status := 0 })

/-- The tables: `EXP[0] = 1`, each entry up to 254 is 2 times the one before it, entry `i` repeats at `i + 255`; `LOG` inverts `EXP`; `GEN` is
the product of `x + alpha^i` for i = 0 to 31 (44_gf256.md rules R201, R202, 45_reed_solomon.md rule R221). -/
def Obligations.Tables : Prop :=
  expEntry 0 = 1 ∧
  (∀ i, i < 254 → expEntry (i + 1) = (expEntry i <<< 1) ^^^ (if (expEntry i).getLsbD 7 then 0x1D else 0)) ∧
  (∀ i, expEntry (i + 255) = expEntry i) ∧ (∀ i, i < 255 → logEntry (expEntry i) = i) ∧
  genTable = (List.range 32).foldl (fun g i => polyAdd (0 :: g) (g.map (gfMul (expEntry i)))) [1]

/-- The laws of the field (44_gf256.md rule R203). -/
def Obligations.GfField : Prop :=
  ∀ a b c : Byte,
    gfMul a b = shiftAddMul a b 8 ∧ gfMul a b = gfMul b a ∧ gfMul (gfMul a b) c = gfMul a (gfMul b c) ∧
    gfMul a (gfAdd b c) = gfAdd (gfMul a b) (gfMul a c) ∧ gfAdd a a = 0 ∧ gfMul a 1 = a ∧ gfMul a 0 = 0 ∧
    (a ≠ 0 → gfMul a (gfInv a) = 1)

/-- `RS.ENCB`, `RS.ENC`: data and parity, block by block; `CONFIG` for a block that is not 223 bytes (45_reed_solomon.md rules R224, R225,
R232). -/
def Obligations.RsEncoders : Prop :=
  ∀ (src dst : Sel) (s : State), let d := ybRead src s; let blocks := (d.length + 222) / 223
    (d.length ≠ 223 → exec (.rsEncb src dst) s = .next (withStatus 4 s)) ∧
    (d.length = 223 → ∃ t par, exec (.rsEncb src dst) s = .next t ∧ par = rsParity d ∧ par.length = 32 ∧
      YbWritten dst (d ++ par) s t ∧ t.rsPar.toList = par ∧ t = { s with yb := t.yb, rsPar := t.rsPar, status := 0 }) ∧
    (∃ t out, exec (.rsEnc src dst) s = .next t ∧ YbWritten dst out s t ∧ out.length = 255 * blocks ∧
      (∀ k, k < blocks → (out.drop (255 * k)).take 255 =
        let data := (d.drop (223 * k)).take 223
        let padded := data ++ List.replicate (223 - data.length) 0
        padded ++ rsParity padded) ∧
      RWritten [(0, countWord s.openTick 0 blocks)] s t ∧ (d = [] → t.rsPar = s.rsPar) ∧
      (d ≠ [] → t.rsPar.toList = out.drop (out.length - 32)) ∧
      t = { s with yb := t.yb, r := t.r, rsPar := t.rsPar, status := 0 })

/-- An encoded block is a codeword: data of 223 bytes followed by 32 parity bytes has all 32 syndromes zero (45_reed_solomon.md rules R220, R224,
R226). -/
def Obligations.RsEncodedIsCodeword : Prop :=
  ∀ d : List Byte, d.length = 223 →
    (rsEncodeBlock d).length = 255 ∧ rsSyndromes (rsEncodeBlock d) = List.replicate 32 0

/-- `RS.SYN`: the syndromes of a 255-byte block, the block read as a polynomial whose first byte is the highest coefficient, and whether
one is not zero; else `CONFIG` (45_reed_solomon.md rules R226, R227, 30_encoding.md rule R65). -/
def Obligations.RsSyndrome : Prop :=
  ∀ (src : Sel) (s : State), let r := ybRead src s
    (r.length ≠ 255 → exec (.rsSyn src) s = .next (withStatus 4 s)) ∧
    (r.length = 255 → ∃ t, exec (.rsSyn src) s = .next t ∧
      (∀ i : Fin 32, t.rsSyn[i] =
        (List.range 255).foldl (fun acc j => gfAdd acc (gfMul (r.getD j 0) (gfPow (expEntry i.val) (254 - j)))) 0) ∧
      RWritten [(0, if ∀ i : Fin 32, t.rsSyn[i] = 0 then 0 else 1)] s t ∧
      t = { s with r := t.r, rsSyn := t.rsSyn, status := 0 })

/-- What the block decoder returns is a codeword that differs from the block in at most sixteen bytes, and a codeword is returned as it is
(45_reed_solomon.md rules R228, R229). -/
def Obligations.RsCorrectSound : Prop :=
  ∀ r : List Byte, r.length = 255 →
    (∀ c, rsCorrectBlock r = some c → c.length = 255 ∧ rsSyndromes c = List.replicate 32 0 ∧ diffCount c r ≤ 16) ∧
    (rsSyndromes r = List.replicate 32 0 → rsCorrectBlock r = some r)

/-- Any pattern of up to sixteen wrong bytes is corrected: a codeword within sixteen positions of a block is what the decoder
returns, in particular the encoded block that was sent; and the decoder fails exactly when no codeword lies within sixteen
positions (45_reed_solomon.md rules R228, R229). -/
def Obligations.RsCorrectsErrors : Prop :=
  (∀ r c : List Byte, r.length = 255 → c.length = 255 → rsSyndromes c = List.replicate 32 0 → diffCount c r ≤ 16 →
    rsCorrectBlock r = some c) ∧
  (∀ d r : List Byte, d.length = 223 → r.length = 255 → diffCount (rsEncodeBlock d) r ≤ 16 →
    rsCorrectBlock r = some (rsEncodeBlock d)) ∧
  (∀ r : List Byte, r.length = 255 →
    (rsCorrectBlock r = none ↔
      ¬ ∃ c : List Byte, c.length = 255 ∧ rsSyndromes c = List.replicate 32 0 ∧ diffCount c r ≤ 16))

/-- `RS.DECB`: the corrected data and the counts of corrected bytes, the syndromes as received; `FEC_UNCORRECTABLE` with the syndromes alone written;
`CONFIG` for a wrong length (45_reed_solomon.md rules R230, R231). -/
def Obligations.RsDecodeBlock : Prop :=
  ∀ (src dst : Sel) (s : State), let r := ybRead src s
    (r.length ≠ 255 → exec (.rsDecb src dst) s = .next (withStatus 4 s)) ∧
    (r.length = 255 →
      (rsCorrectBlock r = none → ∃ t, exec (.rsDecb src dst) s = .next t ∧ t.rsSyn.toList = rsSyndromes r ∧
        t = { s with rsSyn := t.rsSyn, status := 3 }) ∧
      (∀ c, rsCorrectBlock r = some c → ∃ t, exec (.rsDecb src dst) s = .next t ∧ YbWritten dst (c.take 223) s t ∧
        RWritten [(0, BitVec.ofNat 32 (((List.range 255).filter fun j => c.getD j 0 != r.getD j 0).length)),
          (1, BitVec.ofNat 32 (((List.range 255).filter fun j => decide (223 ≤ j) && c.getD j 0 != r.getD j 0).length))] s t ∧
        t.rsSyn.toList = rsSyndromes r ∧ t = { s with yb := t.yb, r := t.r, rsSyn := t.rsSyn, status := 0 }))

/-- `RS.DEC`: `NONE` for a length that is not a multiple of 255; `FEC_UNCORRECTABLE` when a block fails, with nothing else written; else the data
of the corrected blocks joined, the number of blocks and of bytes changed, and the last block's syndromes (45_reed_solomon.md rule R233). -/
def Obligations.RsDecodeArea : Prop :=
  ∀ (src dst : Sel) (s : State), let area := ybRead src s
    (area.length % 255 ≠ 0 → exec (.rsDec src dst) s = .next (withStatus 1 s)) ∧
    (∀ bs : List (List Byte), area = bs.flatten → (∀ b ∈ bs, b.length = 255) →
      ((∃ b ∈ bs, rsCorrectBlock b = none) → exec (.rsDec src dst) s = .next (withStatus 3 s)) ∧
      (∀ cs, bs.map rsCorrectBlock = cs.map some → ∃ t, exec (.rsDec src dst) s = .next t ∧
        YbWritten dst ((cs.map fun c => c.take 223).flatten) s t ∧
        RWritten [(0, countWord s.openTick 0 bs.length),
          (1, countWord s.openTick 1 (List.zipWith diffCount bs cs).sum)] s t ∧
        (bs = [] → t.rsSyn = s.rsSyn) ∧ (∀ b, bs.getLast? = some b → t.rsSyn.toList = rsSyndromes b) ∧
        t = { s with yb := t.yb, r := t.r, rsSyn := t.rsSyn, status := 0 }))
end

