-- ==== Sys2Proof/Laws/Numerics.lean ====
section
/-!
SUPPORT. What the base operations of the exact reals do: the record the machine takes, frequencies and angles, the order of
terms, folding an angle, and adding one term, which adds its real value and keeps the normal form.
-/

namespace Sys2Proof

/-! ## The record that the machine takes -/

@[simp] theorem numerics_frequencyAdd : numerics.frequencyAdd = LinearReal.add := rfl

@[simp] theorem numerics_frequencyScale : numerics.frequencyScale = LinearReal.scale := rfl

@[simp] theorem numerics_ofFrequency : numerics.ofFrequency = LinearReal.toExact := rfl

@[simp] theorem numerics_ofRat : numerics.ofRat = ExactReal.ofRat := rfl

@[simp] theorem numerics_add : numerics.add = ExactReal.add := rfl

@[simp] theorem numerics_sub : numerics.sub = ExactReal.sub := rfl

@[simp] theorem numerics_mul : numerics.mul = ExactReal.mul := rfl

@[simp] theorem numerics_scale : numerics.scale = ExactReal.scale := rfl

@[simp] theorem numerics_cosTurn : numerics.cosTurn = LinearReal.cosTurn := rfl

@[simp] theorem numerics_sinTurn : numerics.sinTurn = LinearReal.sinTurn := rfl

@[simp] theorem numerics_sign : numerics.sign = ExactReal.sign := rfl

@[simp] theorem numerics_phaseZero : numerics.phaseZero = Sys2Proof.phaseZero := rfl

@[simp] theorem numerics_phaseAdd : numerics.phaseAdd = Sys2Proof.phaseAdd := rfl

@[simp] theorem numerics_phaseSign : numerics.phaseSign = Sys2Proof.phaseSign := rfl

@[simp] theorem numerics_zero : numerics.zero = ExactReal.zero := rfl

theorem numerics_le (x y : ExactReal) : numerics.le x y = decide (0 ≤ (ExactReal.sub y x).sign) := rfl

theorem numerics_lt (x y : ExactReal) : numerics.lt x y = decide (0 < (ExactReal.sub y x).sign) := rfl

/-! ## Frequencies and angles -/

@[simp] theorem linear_ofRat_toReal (q : ℚ) : (LinearReal.ofRat q).toReal = q := by
  simp [LinearReal.toReal, LinearReal.valueWith, LinearReal.ofRat]

theorem linear_toReal_rational {x : LinearReal} (h : x.named = []) : x.toReal = x.rational :=
  LinearReal.valueWith_rational _ h

/-- The real number that multiples of named reals add up to. -/
noncomputable def namedSum (ms : List (Nat × ℚ)) : ℝ := (ms.map fun p => (p.2 : ℝ) * Config.reals.value p.1).sum

theorem linear_toReal (x : LinearReal) : x.toReal = x.rational + namedSum x.named := rfl

@[simp] theorem namedSum_nil : namedSum [] = 0 := rfl

@[simp] theorem namedSum_cons (n : Nat) (q : ℚ) (ms : List (Nat × ℚ)) :
    namedSum ((n, q) :: ms) = q * Config.reals.value n + namedSum ms := by simp [namedSum]

@[simp] theorem namedSum_negNamed (ms : List (Nat × ℚ)) : namedSum (negNamed ms) = -namedSum ms := by
  induction ms with
  | nil => simp [negNamed]
  | cons p ms ih =>
    obtain ⟨n, q⟩ := p
    simp only [negNamed, List.map_cons, namedSum_cons] at ih ⊢
    rw [ih]; push_cast; ring

/-- Adding a multiple of a named real adds its value. -/
theorem addNamed_sum (n : Nat) (q : ℚ) (ms : List (Nat × ℚ)) :
    namedSum (addNamed n q ms) = q * Config.reals.value n + namedSum ms := by
  induction ms with
  | nil => simp only [addNamed]; split <;> simp_all
  | cons p ms ih =>
    obtain ⟨m, r⟩ := p
    simp only [addNamed]
    split
    · rename_i h
      subst h
      split
      · rename_i hz
        have : (q : ℝ) + r = 0 := by exact_mod_cast hz
        rw [namedSum_cons, ← add_assoc, ← add_mul, this]; ring
      · simp only [namedSum_cons]; push_cast; ring
    · split
      · split <;> simp_all
      · simp only [namedSum_cons, ih]; ring

/-- Adding a rational multiple of a frequency or an angle. -/
theorem linear_addScaled_toReal (q : ℚ) (x acc : LinearReal) : (x.addScaled q acc).toReal = acc.toReal + q * x.toReal := by
  have h : namedSum (x.named.foldr (fun p ms => addNamed p.1 (q * p.2) ms) acc.named) =
      namedSum acc.named + q * namedSum x.named := by
    induction x.named with
    | nil => simp
    | cons p ms ih =>
      obtain ⟨n, r⟩ := p
      simp only [List.foldr_cons, addNamed_sum, ih, namedSum_cons]
      push_cast
      ring
  simp only [linear_toReal, LinearReal.addScaled, h]
  push_cast
  ring

@[simp] theorem linear_add_toReal (x y : LinearReal) : (x.add y).toReal = x.toReal + y.toReal := by
  simp [LinearReal.add, linear_addScaled_toReal]

@[simp] theorem linear_sub_toReal (x y : LinearReal) : (x.sub y).toReal = x.toReal - y.toReal := by
  simp [LinearReal.sub, linear_addScaled_toReal, sub_eq_add_neg]

@[simp] theorem linear_scale_toReal (q : ℚ) (x : LinearReal) : (x.scale q).toReal = q * x.toReal := by
  simp [LinearReal.scale, linear_addScaled_toReal]

@[simp] theorem linear_norm_toReal (x : LinearReal) : x.norm.toReal = x.toReal := by simp [LinearReal.norm]

/-- The names of multiples in which one has been added: that one's and the others'. -/
theorem addNamed_names {n : Nat} {q : ℚ} {ms : List (Nat × ℚ)} {p : Nat × ℚ} (h : p ∈ addNamed n q ms) :
    p.1 = n ∨ ∃ u ∈ ms, p.1 = u.1 := by
  induction ms with
  | nil => simp only [addNamed] at h; split at h <;> simp_all
  | cons u ms ih =>
    obtain ⟨m, r⟩ := u
    simp only [addNamed] at h
    split at h
    · split at h
      · exact .inr ⟨p, List.mem_cons_of_mem _ h, rfl⟩
      · rcases List.mem_cons.mp h with rfl | h
        · exact .inl rfl
        · exact .inr ⟨p, List.mem_cons_of_mem _ h, rfl⟩
    · split at h
      · split at h
        · exact .inr ⟨p, h, rfl⟩
        · rcases List.mem_cons.mp h with rfl | h
          · exact .inl rfl
          · exact .inr ⟨p, h, rfl⟩
      · rcases List.mem_cons.mp h with rfl | h
        · exact .inr ⟨(m, r), List.mem_cons_self .., rfl⟩
        · rcases ih h with h | ⟨v, hv, h⟩
          · exact .inl h
          · exact .inr ⟨v, List.mem_cons_of_mem _ hv, h⟩

/-- What the normal form of multiples with a first one says. -/
theorem normalNamed_cons {n : Nat} {q : ℚ} {ms : List (Nat × ℚ)} :
    normalNamed ((n, q) :: ms) = true ↔ q ≠ 0 ∧ (∀ p ∈ ms, n < p.1) ∧ normalNamed ms = true := by
  simp [normalNamed, and_assoc]

/-- Adding a multiple of a named real keeps the normal form. -/
theorem addNamed_normal (n : Nat) (q : ℚ) {ms : List (Nat × ℚ)} (h : normalNamed ms = true) :
    normalNamed (addNamed n q ms) = true := by
  induction ms with
  | nil =>
    simp only [addNamed]
    split
    · rfl
    · rename_i hq; exact normalNamed_cons.mpr ⟨hq, by simp, rfl⟩
  | cons p ms ih =>
    obtain ⟨m, r⟩ := p
    obtain ⟨h1, h2, h3⟩ := normalNamed_cons.mp h
    simp only [addNamed]
    split
    · rename_i hn
      subst hn
      split
      · exact h3
      · rename_i hz; exact normalNamed_cons.mpr ⟨hz, h2, h3⟩
    · rename_i hn
      split
      · rename_i hlt
        split
        · exact h
        · rename_i hq
          refine normalNamed_cons.mpr ⟨hq, fun u hu => ?_, h⟩
          rcases List.mem_cons.mp hu with rfl | hu
          · exact hlt
          · exact hlt.trans (h2 u hu)
      · rename_i hlt
        refine normalNamed_cons.mpr ⟨h1, fun u hu => ?_, ih h3⟩
        rcases addNamed_names hu with e | ⟨v, hv, e⟩
        · omega
        · exact e ▸ h2 v hv

theorem linear_addScaled_normal (q : ℚ) (x : LinearReal) {acc : LinearReal} (h : acc.Normal) : (x.addScaled q acc).Normal := by
  simp only [LinearReal.Normal, LinearReal.addScaled]
  induction x.named with
  | nil => exact h
  | cons p ms ih => exact addNamed_normal _ _ ih

theorem linear_ofRat_normal (q : ℚ) : (LinearReal.ofRat q).Normal := rfl

theorem linear_add_normal {x : LinearReal} (y : LinearReal) (h : x.Normal) : (x.add y).Normal :=
  linear_addScaled_normal _ _ h

theorem linear_sub_normal {x : LinearReal} (y : LinearReal) (h : x.Normal) : (x.sub y).Normal :=
  linear_addScaled_normal _ _ h

theorem linear_scale_normal (q : ℚ) (x : LinearReal) : (x.scale q).Normal :=
  linear_addScaled_normal _ _ (linear_ofRat_normal 0)

theorem linear_norm_normal (x : LinearReal) : x.norm.Normal := linear_scale_normal _ _

/-! ## The order of terms -/

/-- The names of a term, followed by others, are read back. -/
theorem namesCode_inj {a b : List Nat} {k l : List ℚ} (h : namesCode a ++ k = namesCode b ++ l) : a = b ∧ k = l := by
  simp only [namesCode, List.cons_append, List.cons.injEq, Nat.cast_inj] at h
  obtain ⟨h1, h2⟩ := List.append_inj h.2 (by simpa using h.1)
  exact ⟨List.map_injective_iff.mpr (fun _ _ e => Nat.cast_injective e) h1, h2⟩

theorem multiplesCode_inj {a b : List (Nat × ℚ)} (h : multiplesCode a = multiplesCode b) : a = b := by
  induction a generalizing b with
  | nil => cases b with
    | nil => rfl
    | cons p b => simp [multiplesCode] at h
  | cons p a ih => cases b with
    | nil => simp [multiplesCode] at h
    | cons r b =>
      simp only [multiplesCode, List.cons.injEq, Nat.cast_inj] at h
      rw [Prod.ext h.1 h.2.1, ih h.2.2]

/-- Terms of one key have the same names and the same angle. -/
theorem termKey_inj {a b : List Nat} {t u : LinearReal} (h : termKey a t = termKey b u) : a = b ∧ t = u := by
  obtain ⟨rfl, h1⟩ := namesCode_inj h
  simp only [List.cons.injEq] at h1
  cases t
  cases u
  simp only [LinearReal.mk.injEq]
  exact ⟨trivial, h1.1, multiplesCode_inj h1.2⟩

theorem lexLt_irrefl (a : List ℚ) : lexLt a a = false := by
  induction a with
  | nil => rfl
  | cons x a ih => simpa [lexLt] using ih

theorem lexLt_trans {a b c : List ℚ} (h1 : lexLt a b = true) (h2 : lexLt b c = true) : lexLt a c = true := by
  induction a generalizing b c with
  | nil =>
    cases b with
    | nil => simp [lexLt] at h1
    | cons y b => cases c with
      | nil => simp [lexLt] at h2
      | cons z c => rfl
  | cons x a ih =>
    cases b with
    | nil => simp [lexLt] at h1
    | cons y b =>
      cases c with
      | nil => simp [lexLt] at h2
      | cons z c =>
        simp only [lexLt] at h1 h2 ⊢
        by_cases hxy : x = y
        · subst hxy
          by_cases hxz : x = z
          · subst hxz; simp at h1 h2 ⊢; exact ih h1 h2
          · simp [hxz] at h2 ⊢; exact h2
        · simp only [hxy, if_false, decide_eq_true_eq] at h1
          by_cases hyz : y = z
          · subst hyz; simp [hxy]; exact h1
          · simp only [hyz, if_false, decide_eq_true_eq] at h2
            have h := h1.trans h2
            simp [h.ne]; exact h

/-- Of two different lists one comes first. -/
theorem lexLt_total {a b : List ℚ} (h : lexLt a b = false) (hne : a ≠ b) : lexLt b a = true := by
  induction a generalizing b with
  | nil =>
    cases b with
    | nil => exact absurd rfl hne
    | cons y b => simp [lexLt] at h
  | cons x a ih =>
    cases b with
    | nil => rfl
    | cons y b =>
      simp only [lexLt] at h ⊢
      by_cases hxy : x = y
      · subst hxy
        simp only [if_true] at h ⊢
        exact ih h fun e => hne (by rw [e])
      · simp only [hxy, if_false, decide_eq_false_iff_not, not_lt] at h
        simp only [Ne.symm hxy, if_false, decide_eq_true_eq]
        exact lt_of_le_of_ne h (Ne.symm hxy)

/-! ## Folding an angle -/

@[simp] theorem toReal_zero : ExactReal.zero.toReal = 0 := rfl

theorem toReal_plus (c : ℚ) (names : List Nat) (t : LinearReal) (r : ExactReal) :
    (ExactReal.plus c names t r).toReal =
      (c : ℝ) * (names.map Config.reals.value).prod * Real.cos (2 * Real.pi * t.toReal) + r.toReal := rfl

/-- A rational term is the rational number. -/
@[simp] theorem toReal_rational (q : ℚ) (r : ExactReal) : (ExactReal.plus q [] (.ofRat 0) r).toReal = q + r.toReal := by
  simp [toReal_plus]

@[simp] theorem toReal_ofRat (q : ℚ) : (ExactReal.ofRat q).toReal = q := by
  unfold ExactReal.ofRat
  split <;> simp_all

theorem foldRational_cos (q : ℚ) :
    ((foldRational q).2 : ℝ) * Real.cos (2 * Real.pi * (foldRational q).1.toReal) = Real.cos (2 * Real.pi * (q : ℝ)) := by
  rw [← foldAngle_cos q]
  simp only [foldRational]
  split
  · rename_i h
    rw [h, show 2 * Real.pi * ((1 / 4 : ℚ) : ℝ) = Real.pi / 2 by push_cast; ring, Real.cos_pi_div_two]
    simp
  · split
    · rename_i h
      rw [h, show 2 * Real.pi * ((1 / 6 : ℚ) : ℝ) = Real.pi / 3 by push_cast; ring, Real.cos_pi_div_three]
      split <;> norm_num
    · split <;> simp

theorem foldMixed_cos (q : ℚ) (ms : List (Nat × ℚ)) :
    ((foldMixed q ms).2 : ℝ) * Real.cos (2 * Real.pi * (foldMixed q ms).1.toReal) =
      Real.cos (2 * Real.pi * (q + namedSum ms)) := by
  have key : ∀ (p : ℚ) (x : ℝ), Real.cos (2 * Real.pi * (((p - p.floor : ℚ) : ℝ) + x)) =
      Real.cos (2 * Real.pi * (p + x)) := by
    intro p x
    rw [show ((p - p.floor : ℚ) : ℝ) + x = (p + x : ℝ) - p.floor by push_cast; ring, cos_turn_sub_int]
  have half : ∀ (p : ℚ) (x : ℝ), -Real.cos (2 * Real.pi * (((p - p.floor - 1 / 2 : ℚ) : ℝ) + x)) =
      Real.cos (2 * Real.pi * (p + x)) := by
    intro p x
    rw [← key p x, show ((p - p.floor - 1 / 2 : ℚ) : ℝ) + x = (((p - p.floor : ℚ) : ℝ) + x) - 1 / 2 by push_cast; ring,
      cos_turn_sub_half, neg_neg]
  simp only [foldMixed]
  by_cases hf : leadNegative ms = true
  · simp only [hf, if_true]
    rw [show (q : ℝ) + namedSum ms = -(((-q : ℚ) : ℝ) + namedSum (negNamed ms)) by simp; ring, cos_turn_neg]
    split
    · rw [← half (-q)]; simp [linear_toReal]
    · rw [← key (-q)]; simp [linear_toReal]
  · simp only [hf, Bool.false_eq_true, if_false]
    split
    · rw [← half q]; simp [linear_toReal]
    · rw [← key q]; simp [linear_toReal]

/-- Folding an angle keeps its cosine, up to the factor. -/
theorem foldTurn_cos (t : LinearReal) :
    ((foldTurn t).2 : ℝ) * Real.cos (2 * Real.pi * (foldTurn t).1.toReal) = Real.cos (2 * Real.pi * t.toReal) := by
  simp only [foldTurn]
  split
  · rename_i h
    rw [foldRational_cos, linear_toReal_rational h]
  · rw [foldMixed_cos, linear_toReal]

/-! ## The normal form -/

/-- What the normal form of a number with a first term says. -/
theorem normal_plus {c : ℚ} {names : List Nat} {t : LinearReal} {r : ExactReal} :
    (ExactReal.plus c names t r).Normal ↔
      c ≠ 0 ∧ mulNames names [] = names ∧ t.Normal ∧ foldTurn t = (t, 1) ∧ keyBelow (termKey names t) r = true ∧
        r.Normal := by
  simp [ExactReal.Normal, ExactReal.normal, and_assoc]

theorem zero_normal : ExactReal.zero.Normal := rfl

theorem negNamed_normal {ms : List (Nat × ℚ)} (h : normalNamed ms = true) : normalNamed (negNamed ms) = true := by
  induction ms with
  | nil => rfl
  | cons p ms ih =>
    obtain ⟨n, q⟩ := p
    obtain ⟨h1, h2, h3⟩ := normalNamed_cons.mp h
    refine normalNamed_cons.mpr ⟨neg_ne_zero.mpr h1, fun u hu => ?_, ih h3⟩
    obtain ⟨v, hv, rfl⟩ := List.mem_map.mp hu
    exact h2 v hv

theorem floor_of_range {q : ℚ} (h0 : 0 ≤ q) (h1 : q < 1) : q.floor = 0 := by
  have h2 : q.floor < 1 := Rat.floor_lt_iff.mpr (by simpa using h1)
  have h3 : 0 ≤ q.floor := Rat.le_floor_iff.mpr (by simpa using h0)
  omega

theorem foldAngle_self {q : ℚ} (h0 : 0 ≤ q) (h1 : q ≤ 1 / 4) : foldAngle q = (q, false) := by
  have hh : foldHalf q = q := by
    simp only [foldHalf, floor_of_range h0 (by linarith : q < 1), Int.cast_zero, sub_zero]
    rw [if_neg (by linarith)]
  simp only [foldAngle, hh]
  rw [if_neg (by linarith)]

theorem foldTurn_ofRat {q : ℚ} (h0 : 0 ≤ q) (h1 : q < 1 / 4) (h2 : q ≠ 1 / 6) :
    foldTurn (.ofRat q) = (.ofRat q, 1) := by
  simp only [foldTurn, LinearReal.ofRat, if_true, foldRational, foldAngle_self h0 h1.le]
  rw [if_neg h1.ne, if_neg h2]
  rfl

theorem foldTurn_zero : foldTurn (.ofRat 0) = (.ofRat 0, 1) := foldTurn_ofRat le_rfl (by norm_num) (by norm_num)

theorem ofRat_normal (q : ℚ) : (ExactReal.ofRat q).Normal := by
  unfold ExactReal.ofRat
  split
  · rfl
  · rename_i h
    exact normal_plus.mpr ⟨h, rfl, rfl, foldTurn_zero, rfl, rfl⟩

/-- An angle already folded: a rational in `[0, 1/2)` and multiples of named reals, the first of them positive. -/
theorem foldTurn_mixed {q : ℚ} {ms : List (Nat × ℚ)} (h0 : 0 ≤ q) (h1 : q < 1 / 2) (hl : leadNegative ms = false)
    (hne : ms ≠ []) : foldTurn ⟨q, ms⟩ = (⟨q, ms⟩, 1) := by
  simp only [foldTurn, hne, if_false, foldMixed, hl, Bool.false_eq_true, floor_of_range h0 (by linarith : q < 1),
    Int.cast_zero, sub_zero]
  rw [if_neg (by linarith)]

/-- Folding an angle with named reals gives a folded angle in normal form. -/
theorem foldMixed_normal {q : ℚ} {ms : List (Nat × ℚ)} (hm : normalNamed ms = true) (hne : ms ≠ []) :
    (foldMixed q ms).1.Normal ∧ foldTurn (foldMixed q ms).1 = ((foldMixed q ms).1, 1) := by
  have go : ∀ (p : ℚ) (ns : List (Nat × ℚ)), ns ≠ [] → leadNegative ns = false →
      (1 / 2 ≤ p - p.floor → foldTurn ⟨p - p.floor - 1 / 2, ns⟩ = (⟨p - p.floor - 1 / 2, ns⟩, 1)) ∧
      (¬ 1 / 2 ≤ p - p.floor → foldTurn ⟨p - p.floor, ns⟩ = (⟨p - p.floor, ns⟩, 1)) := by
    intro p ns hn hl
    have h0 : (0 : ℚ) ≤ p - p.floor := by have := Rat.floor_le p; linarith
    have h1 : p - p.floor < 1 := by
      have := Rat.lt_floor_add_one p
      push_cast at this
      linarith
    exact ⟨fun h => foldTurn_mixed (by linarith) (by linarith) hl hn,
      fun h => foldTurn_mixed h0 (not_le.mp h) hl hn⟩
  have hl : ∀ ns : List (Nat × ℚ), leadNegative ns = true → leadNegative (negNamed ns) = false := by
    intro ns h
    cases ns with
    | nil => rfl
    | cons p ns =>
      simp only [leadNegative, decide_eq_true_eq] at h
      simp only [negNamed, List.map_cons, leadNegative, decide_eq_false_iff_not, not_lt]
      linarith
  have hz : negNamed ms ≠ [] := by simpa [negNamed] using hne
  simp only [foldMixed]
  by_cases hf : leadNegative ms = true
  · obtain ⟨a, b⟩ := go (-q) (negNamed ms) hz (hl ms hf)
    simp only [hf, if_true]
    split
    · rename_i h; exact ⟨negNamed_normal hm, a h⟩
    · rename_i h; exact ⟨negNamed_normal hm, b h⟩
  · have hf := eq_false_of_ne_true hf
    obtain ⟨a, b⟩ := go q ms hne hf
    simp only [hf, Bool.false_eq_true, if_false]
    split
    · rename_i h; exact ⟨hm, a h⟩
    · rename_i h; exact ⟨hm, b h⟩

/-- Folding an angle in normal form gives a folded angle in normal form, unless its cosine is 0. -/
theorem foldTurn_normal {t : LinearReal} (ht : t.Normal) (h : (foldTurn t).2 ≠ 0) :
    (foldTurn t).1.Normal ∧ foldTurn (foldTurn t).1 = ((foldTurn t).1, 1) := by
  by_cases hn : t.named = []
  · have e : foldTurn t = foldRational t.rational := if_pos hn
    rw [e] at h ⊢
    obtain ⟨h0, h1⟩ := foldAngle_range t.rational
    simp only [foldRational] at h ⊢
    split at h
    · exact absurd rfl h
    · rename_i h4
      rw [if_neg h4]
      split
      · exact ⟨rfl, foldTurn_zero⟩
      · rename_i h6
        exact ⟨rfl, foldTurn_ofRat h0 (lt_of_le_of_ne h1 h4) h6⟩
  · have e : foldTurn t = foldMixed t.rational t.named := if_neg hn
    rw [e]
    exact foldMixed_normal ht hn

/-! ## Adding a term -/

/-- Inserting a term adds its real value. -/
theorem insertTerm_toReal (c : ℚ) (names : List Nat) (t : LinearReal) (x : ExactReal) :
    (insertTerm c names t x).toReal =
      (c : ℝ) * (names.map Config.reals.value).prod * Real.cos (2 * Real.pi * t.toReal) + x.toReal := by
  induction x with
  | zero => rfl
  | plus d ms u r ih =>
    simp only [insertTerm]
    split
    · rename_i h
      obtain ⟨rfl, rfl⟩ := h
      split
      · rename_i hz
        have : (c : ℝ) + d = 0 := by exact_mod_cast hz
        rw [toReal_plus, ← add_assoc, ← add_mul, ← add_mul, this]
        ring
      · simp only [toReal_plus]; push_cast; ring
    · split
      · rfl
      · simp only [toReal_plus, ih]; ring

/-- An inserted term comes where its key says. -/
theorem keyBelow_insertTerm {k : List ℚ} {c : ℚ} {names : List Nat} {t : LinearReal} {x : ExactReal}
    (hk : lexLt k (termKey names t) = true) (hx : keyBelow k x = true) (hn : x.Normal) :
    keyBelow k (insertTerm c names t x) = true := by
  cases x with
  | zero => exact hk
  | plus d ms u r =>
    simp only [insertTerm]
    split
    · split
      · obtain ⟨-, -, -, -, h5, -⟩ := normal_plus.mp hn
        cases r with
        | zero => rfl
        | plus => exact lexLt_trans hx h5
      · exact hx
    · split
      · exact hk
      · exact hx

/-- Inserting a folded term keeps the normal form. -/
theorem insertTerm_normal {c : ℚ} {names : List Nat} {t : LinearReal} {x : ExactReal} (hc : c ≠ 0) (hs : mulNames names [] = names)
    (ht : t.Normal) (hf : foldTurn t = (t, 1)) (hx : x.Normal) : (insertTerm c names t x).Normal := by
  induction x with
  | zero => exact normal_plus.mpr ⟨hc, hs, ht, hf, rfl, rfl⟩
  | plus d ms u r ih =>
    obtain ⟨h1, h2, h3, h4, h5, h6⟩ := normal_plus.mp hx
    simp only [insertTerm]
    split
    · split
      · exact h6
      · rename_i hz; exact normal_plus.mpr ⟨hz, h2, h3, h4, h5, h6⟩
    · rename_i hne
      split
      · rename_i hlt; exact normal_plus.mpr ⟨hc, hs, ht, hf, hlt, hx⟩
      · rename_i hlt
        have hk := lexLt_total (Bool.not_eq_true _ ▸ hlt) fun e => hne (termKey_inj e)
        exact normal_plus.mpr ⟨h1, h2, h3, h4, keyBelow_insertTerm hk h5 h6, ih h6⟩

/-- Adding a term adds its real value. -/
theorem addTerm_toReal (x : ExactReal) (c : ℚ) (names : List Nat) (t : LinearReal) :
    (x.addTerm c names t).toReal =
      (c : ℝ) * (names.map Config.reals.value).prod * Real.cos (2 * Real.pi * t.toReal) + x.toReal := by
  have h : (c : ℝ) * (names.map Config.reals.value).prod * Real.cos (2 * Real.pi * t.toReal) =
      ((c * (foldTurn t).2 : ℚ) : ℝ) * (names.map Config.reals.value).prod *
        Real.cos (2 * Real.pi * (foldTurn t).1.toReal) := by
    rw [← foldTurn_cos t]; push_cast; ring
  rw [h]
  simp only [ExactReal.addTerm]
  split
  · rename_i hz; rw [hz]; simp
  · exact insertTerm_toReal ..

/-- Adding a term with an angle in normal form and its names in order keeps the normal form. -/
theorem addTerm_normal {x : ExactReal} {c : ℚ} {names : List Nat} {t : LinearReal} (hx : x.Normal)
    (hs : mulNames names [] = names) (ht : t.Normal) : (x.addTerm c names t).Normal := by
  simp only [ExactReal.addTerm]
  split
  · exact hx
  · rename_i hz
    obtain ⟨h1, h2⟩ := foldTurn_normal ht (right_ne_zero_of_mul hz)
    exact insertTerm_normal hz hs h1 h2 hx

/-- A product's names are in order. -/
theorem mulNames_sorted (a b : List Nat) : mulNames (mulNames a b) [] = mulNames a b := by
  simp only [mulNames, List.append_nil]
  exact (List.pairwise_insertionSort _ _).insertionSort_eq

/-- The named reals of a product multiply. -/
theorem mulNames_prod (a b : List Nat) :
    ((mulNames a b).map Config.reals.value).prod = (a.map Config.reals.value).prod * (b.map Config.reals.value).prod := by
  rw [← List.prod_append, ← List.map_append]
  exact ((List.perm_insertionSort _ _).map _).prod_eq

end Sys2Proof
end

