-- ==== Sys2Proof/Laws/State.lean ====
section
/-!
SUPPORT. One lemma per field of State and per named update, each true by rfl.
-/

namespace Sys2Proof.Machine

/-! ### bbWrite -/

@[simp] theorem bbWrite_sb (k : Sel) (bits : List Bit) (s : State) : (bbWrite k bits s).sb = s.sb := rfl
@[simp] theorem bbWrite_bb (k : Sel) (bits : List Bit) (s : State) : (bbWrite k bits s).bb = bankSet s.bb k bits := rfl
@[simp] theorem bbWrite_yb (k : Sel) (bits : List Bit) (s : State) : (bbWrite k bits s).yb = s.yb := rfl
@[simp] theorem bbWrite_fp (k : Sel) (bits : List Bit) (s : State) : (bbWrite k bits s).fp = s.fp := rfl
@[simp] theorem bbWrite_fq (k : Sel) (bits : List Bit) (s : State) : (bbWrite k bits s).fq = s.fq := rfl
@[simp] theorem bbWrite_a (k : Sel) (bits : List Bit) (s : State) : (bbWrite k bits s).a = s.a := rfl
@[simp] theorem bbWrite_xs (k : Sel) (bits : List Bit) (s : State) : (bbWrite k bits s).xs = s.xs := rfl
@[simp] theorem bbWrite_xf (k : Sel) (bits : List Bit) (s : State) : (bbWrite k bits s).xf = s.xf := rfl
@[simp] theorem bbWrite_hdrFlags (k : Sel) (bits : List Bit) (s : State) : (bbWrite k bits s).hdrFlags = s.hdrFlags := rfl
@[simp] theorem bbWrite_hdrLen (k : Sel) (bits : List Bit) (s : State) : (bbWrite k bits s).hdrLen = s.hdrLen := rfl
@[simp] theorem bbWrite_r (k : Sel) (bits : List Bit) (s : State) : (bbWrite k bits s).r = s.r := rfl
@[simp] theorem bbWrite_ev (k : Sel) (bits : List Bit) (s : State) : (bbWrite k bits s).ev = s.ev := rfl
@[simp] theorem bbWrite_parsed (k : Sel) (bits : List Bit) (s : State) : (bbWrite k bits s).parsed = s.parsed := rfl
@[simp] theorem bbWrite_status (k : Sel) (bits : List Bit) (s : State) : (bbWrite k bits s).status = s.status := rfl
@[simp] theorem bbWrite_cfg (k : Sel) (bits : List Bit) (s : State) : (bbWrite k bits s).cfg = s.cfg := rfl
@[simp] theorem bbWrite_gtz (k : Sel) (bits : List Bit) (s : State) : (bbWrite k bits s).gtz = s.gtz := rfl
@[simp] theorem bbWrite_nrziEncLevel (k : Sel) (bits : List Bit) (s : State) : (bbWrite k bits s).nrziEncLevel = s.nrziEncLevel := rfl
@[simp] theorem bbWrite_nrziDecPrev (k : Sel) (bits : List Bit) (s : State) : (bbWrite k bits s).nrziDecPrev = s.nrziDecPrev := rfl
@[simp] theorem bbWrite_crcReg (k : Sel) (bits : List Bit) (s : State) : (bbWrite k bits s).crcReg = s.crcReg := rfl
@[simp] theorem bbWrite_rsSyn (k : Sel) (bits : List Bit) (s : State) : (bbWrite k bits s).rsSyn = s.rsSyn := rfl
@[simp] theorem bbWrite_rsPar (k : Sel) (bits : List Bit) (s : State) : (bbWrite k bits s).rsPar = s.rsPar := rfl
@[simp] theorem bbWrite_tablesReady (k : Sel) (bits : List Bit) (s : State) : (bbWrite k bits s).tablesReady = s.tablesReady := rfl
@[simp] theorem bbWrite_pending (k : Sel) (bits : List Bit) (s : State) : (bbWrite k bits s).pending = s.pending := rfl
@[simp] theorem bbWrite_openTick (k : Sel) (bits : List Bit) (s : State) : (bbWrite k bits s).openTick = s.openTick := rfl

/-! ### ybWrite -/

@[simp] theorem ybWrite_sb (k : Sel) (bytes : List Byte) (s : State) : (ybWrite k bytes s).sb = s.sb := rfl
@[simp] theorem ybWrite_bb (k : Sel) (bytes : List Byte) (s : State) : (ybWrite k bytes s).bb = s.bb := rfl
@[simp] theorem ybWrite_yb (k : Sel) (bytes : List Byte) (s : State) : (ybWrite k bytes s).yb = bankSet s.yb k bytes := rfl
@[simp] theorem ybWrite_fp (k : Sel) (bytes : List Byte) (s : State) : (ybWrite k bytes s).fp = s.fp := rfl
@[simp] theorem ybWrite_fq (k : Sel) (bytes : List Byte) (s : State) : (ybWrite k bytes s).fq = s.fq := rfl
@[simp] theorem ybWrite_a (k : Sel) (bytes : List Byte) (s : State) : (ybWrite k bytes s).a = s.a := rfl
@[simp] theorem ybWrite_xs (k : Sel) (bytes : List Byte) (s : State) : (ybWrite k bytes s).xs = s.xs := rfl
@[simp] theorem ybWrite_xf (k : Sel) (bytes : List Byte) (s : State) : (ybWrite k bytes s).xf = s.xf := rfl
@[simp] theorem ybWrite_hdrFlags (k : Sel) (bytes : List Byte) (s : State) : (ybWrite k bytes s).hdrFlags = s.hdrFlags := rfl
@[simp] theorem ybWrite_hdrLen (k : Sel) (bytes : List Byte) (s : State) : (ybWrite k bytes s).hdrLen = s.hdrLen := rfl
@[simp] theorem ybWrite_r (k : Sel) (bytes : List Byte) (s : State) : (ybWrite k bytes s).r = s.r := rfl
@[simp] theorem ybWrite_ev (k : Sel) (bytes : List Byte) (s : State) : (ybWrite k bytes s).ev = s.ev := rfl
@[simp] theorem ybWrite_parsed (k : Sel) (bytes : List Byte) (s : State) : (ybWrite k bytes s).parsed = s.parsed := rfl
@[simp] theorem ybWrite_status (k : Sel) (bytes : List Byte) (s : State) : (ybWrite k bytes s).status = s.status := rfl
@[simp] theorem ybWrite_cfg (k : Sel) (bytes : List Byte) (s : State) : (ybWrite k bytes s).cfg = s.cfg := rfl
@[simp] theorem ybWrite_gtz (k : Sel) (bytes : List Byte) (s : State) : (ybWrite k bytes s).gtz = s.gtz := rfl
@[simp] theorem ybWrite_nrziEncLevel (k : Sel) (bytes : List Byte) (s : State) : (ybWrite k bytes s).nrziEncLevel = s.nrziEncLevel := rfl
@[simp] theorem ybWrite_nrziDecPrev (k : Sel) (bytes : List Byte) (s : State) : (ybWrite k bytes s).nrziDecPrev = s.nrziDecPrev := rfl
@[simp] theorem ybWrite_crcReg (k : Sel) (bytes : List Byte) (s : State) : (ybWrite k bytes s).crcReg = s.crcReg := rfl
@[simp] theorem ybWrite_rsSyn (k : Sel) (bytes : List Byte) (s : State) : (ybWrite k bytes s).rsSyn = s.rsSyn := rfl
@[simp] theorem ybWrite_rsPar (k : Sel) (bytes : List Byte) (s : State) : (ybWrite k bytes s).rsPar = s.rsPar := rfl
@[simp] theorem ybWrite_tablesReady (k : Sel) (bytes : List Byte) (s : State) : (ybWrite k bytes s).tablesReady = s.tablesReady := rfl
@[simp] theorem ybWrite_pending (k : Sel) (bytes : List Byte) (s : State) : (ybWrite k bytes s).pending = s.pending := rfl
@[simp] theorem ybWrite_openTick (k : Sel) (bytes : List Byte) (s : State) : (ybWrite k bytes s).openTick = s.openTick := rfl

/-! ### setR -/

@[simp] theorem setR_sb (k : Sel) (v : U32) (s : State) : (setR k v s).sb = s.sb := rfl
@[simp] theorem setR_bb (k : Sel) (v : U32) (s : State) : (setR k v s).bb = s.bb := rfl
@[simp] theorem setR_yb (k : Sel) (v : U32) (s : State) : (setR k v s).yb = s.yb := rfl
@[simp] theorem setR_fp (k : Sel) (v : U32) (s : State) : (setR k v s).fp = s.fp := rfl
@[simp] theorem setR_fq (k : Sel) (v : U32) (s : State) : (setR k v s).fq = s.fq := rfl
@[simp] theorem setR_a (k : Sel) (v : U32) (s : State) : (setR k v s).a = s.a := rfl
@[simp] theorem setR_xs (k : Sel) (v : U32) (s : State) : (setR k v s).xs = s.xs := rfl
@[simp] theorem setR_xf (k : Sel) (v : U32) (s : State) : (setR k v s).xf = s.xf := rfl
@[simp] theorem setR_hdrFlags (k : Sel) (v : U32) (s : State) : (setR k v s).hdrFlags = s.hdrFlags := rfl
@[simp] theorem setR_hdrLen (k : Sel) (v : U32) (s : State) : (setR k v s).hdrLen = s.hdrLen := rfl
@[simp] theorem setR_r (k : Sel) (v : U32) (s : State) : (setR k v s).r = bankSet s.r k v := rfl
@[simp] theorem setR_ev (k : Sel) (v : U32) (s : State) : (setR k v s).ev = s.ev := rfl
@[simp] theorem setR_parsed (k : Sel) (v : U32) (s : State) : (setR k v s).parsed = s.parsed := rfl
@[simp] theorem setR_status (k : Sel) (v : U32) (s : State) : (setR k v s).status = s.status := rfl
@[simp] theorem setR_cfg (k : Sel) (v : U32) (s : State) : (setR k v s).cfg = s.cfg := rfl
@[simp] theorem setR_gtz (k : Sel) (v : U32) (s : State) : (setR k v s).gtz = s.gtz := rfl
@[simp] theorem setR_nrziEncLevel (k : Sel) (v : U32) (s : State) : (setR k v s).nrziEncLevel = s.nrziEncLevel := rfl
@[simp] theorem setR_nrziDecPrev (k : Sel) (v : U32) (s : State) : (setR k v s).nrziDecPrev = s.nrziDecPrev := rfl
@[simp] theorem setR_crcReg (k : Sel) (v : U32) (s : State) : (setR k v s).crcReg = s.crcReg := rfl
@[simp] theorem setR_rsSyn (k : Sel) (v : U32) (s : State) : (setR k v s).rsSyn = s.rsSyn := rfl
@[simp] theorem setR_rsPar (k : Sel) (v : U32) (s : State) : (setR k v s).rsPar = s.rsPar := rfl
@[simp] theorem setR_tablesReady (k : Sel) (v : U32) (s : State) : (setR k v s).tablesReady = s.tablesReady := rfl
@[simp] theorem setR_pending (k : Sel) (v : U32) (s : State) : (setR k v s).pending = s.pending := rfl
@[simp] theorem setR_openTick (k : Sel) (v : U32) (s : State) : (setR k v s).openTick = s.openTick := rfl

/-! ### setCount -/

@[simp] theorem setCount_sb (k : Sel) (n : Nat) (s : State) : (setCount k n s).sb = s.sb := rfl
@[simp] theorem setCount_bb (k : Sel) (n : Nat) (s : State) : (setCount k n s).bb = s.bb := rfl
@[simp] theorem setCount_yb (k : Sel) (n : Nat) (s : State) : (setCount k n s).yb = s.yb := rfl
@[simp] theorem setCount_fp (k : Sel) (n : Nat) (s : State) : (setCount k n s).fp = s.fp := rfl
@[simp] theorem setCount_fq (k : Sel) (n : Nat) (s : State) : (setCount k n s).fq = s.fq := rfl
@[simp] theorem setCount_a (k : Sel) (n : Nat) (s : State) : (setCount k n s).a = s.a := rfl
@[simp] theorem setCount_xs (k : Sel) (n : Nat) (s : State) : (setCount k n s).xs = s.xs := rfl
@[simp] theorem setCount_xf (k : Sel) (n : Nat) (s : State) : (setCount k n s).xf = s.xf := rfl
@[simp] theorem setCount_hdrFlags (k : Sel) (n : Nat) (s : State) : (setCount k n s).hdrFlags = s.hdrFlags := rfl
@[simp] theorem setCount_hdrLen (k : Sel) (n : Nat) (s : State) : (setCount k n s).hdrLen = s.hdrLen := rfl
@[simp] theorem setCount_r (k : Sel) (n : Nat) (s : State) : (setCount k n s).r = bankSet s.r k (countWord s.openTick k n) := rfl
@[simp] theorem setCount_ev (k : Sel) (n : Nat) (s : State) : (setCount k n s).ev = s.ev := rfl
@[simp] theorem setCount_parsed (k : Sel) (n : Nat) (s : State) : (setCount k n s).parsed = s.parsed := rfl
@[simp] theorem setCount_status (k : Sel) (n : Nat) (s : State) : (setCount k n s).status = s.status := rfl
@[simp] theorem setCount_cfg (k : Sel) (n : Nat) (s : State) : (setCount k n s).cfg = s.cfg := rfl
@[simp] theorem setCount_gtz (k : Sel) (n : Nat) (s : State) : (setCount k n s).gtz = s.gtz := rfl
@[simp] theorem setCount_nrziEncLevel (k : Sel) (n : Nat) (s : State) : (setCount k n s).nrziEncLevel = s.nrziEncLevel := rfl
@[simp] theorem setCount_nrziDecPrev (k : Sel) (n : Nat) (s : State) : (setCount k n s).nrziDecPrev = s.nrziDecPrev := rfl
@[simp] theorem setCount_crcReg (k : Sel) (n : Nat) (s : State) : (setCount k n s).crcReg = s.crcReg := rfl
@[simp] theorem setCount_rsSyn (k : Sel) (n : Nat) (s : State) : (setCount k n s).rsSyn = s.rsSyn := rfl
@[simp] theorem setCount_rsPar (k : Sel) (n : Nat) (s : State) : (setCount k n s).rsPar = s.rsPar := rfl
@[simp] theorem setCount_tablesReady (k : Sel) (n : Nat) (s : State) : (setCount k n s).tablesReady = s.tablesReady := rfl
@[simp] theorem setCount_pending (k : Sel) (n : Nat) (s : State) : (setCount k n s).pending = s.pending := rfl
@[simp] theorem setCount_openTick (k : Sel) (n : Nat) (s : State) : (setCount k n s).openTick = s.openTick := rfl

/-! ### setStatus -/

@[simp] theorem setStatus_sb (x : Status) (s : State) : (setStatus x s).sb = s.sb := rfl
@[simp] theorem setStatus_bb (x : Status) (s : State) : (setStatus x s).bb = s.bb := rfl
@[simp] theorem setStatus_yb (x : Status) (s : State) : (setStatus x s).yb = s.yb := rfl
@[simp] theorem setStatus_fp (x : Status) (s : State) : (setStatus x s).fp = s.fp := rfl
@[simp] theorem setStatus_fq (x : Status) (s : State) : (setStatus x s).fq = s.fq := rfl
@[simp] theorem setStatus_a (x : Status) (s : State) : (setStatus x s).a = s.a := rfl
@[simp] theorem setStatus_xs (x : Status) (s : State) : (setStatus x s).xs = s.xs := rfl
@[simp] theorem setStatus_xf (x : Status) (s : State) : (setStatus x s).xf = s.xf := rfl
@[simp] theorem setStatus_hdrFlags (x : Status) (s : State) : (setStatus x s).hdrFlags = s.hdrFlags := rfl
@[simp] theorem setStatus_hdrLen (x : Status) (s : State) : (setStatus x s).hdrLen = s.hdrLen := rfl
@[simp] theorem setStatus_r (x : Status) (s : State) : (setStatus x s).r = s.r := rfl
@[simp] theorem setStatus_ev (x : Status) (s : State) : (setStatus x s).ev = s.ev := rfl
@[simp] theorem setStatus_parsed (x : Status) (s : State) : (setStatus x s).parsed = s.parsed := rfl
@[simp] theorem setStatus_status (x : Status) (s : State) : (setStatus x s).status = statusCode x := rfl
@[simp] theorem setStatus_cfg (x : Status) (s : State) : (setStatus x s).cfg = s.cfg := rfl
@[simp] theorem setStatus_gtz (x : Status) (s : State) : (setStatus x s).gtz = s.gtz := rfl
@[simp] theorem setStatus_nrziEncLevel (x : Status) (s : State) : (setStatus x s).nrziEncLevel = s.nrziEncLevel := rfl
@[simp] theorem setStatus_nrziDecPrev (x : Status) (s : State) : (setStatus x s).nrziDecPrev = s.nrziDecPrev := rfl
@[simp] theorem setStatus_crcReg (x : Status) (s : State) : (setStatus x s).crcReg = s.crcReg := rfl
@[simp] theorem setStatus_rsSyn (x : Status) (s : State) : (setStatus x s).rsSyn = s.rsSyn := rfl
@[simp] theorem setStatus_rsPar (x : Status) (s : State) : (setStatus x s).rsPar = s.rsPar := rfl
@[simp] theorem setStatus_tablesReady (x : Status) (s : State) : (setStatus x s).tablesReady = s.tablesReady := rfl
@[simp] theorem setStatus_pending (x : Status) (s : State) : (setStatus x s).pending = s.pending := rfl
@[simp] theorem setStatus_openTick (x : Status) (s : State) : (setStatus x s).openTick = s.openTick := rfl

/-! ### setCrc -/

@[simp] theorem setCrc_sb (v : U16) (s : State) : (setCrc v s).sb = s.sb := rfl
@[simp] theorem setCrc_bb (v : U16) (s : State) : (setCrc v s).bb = s.bb := rfl
@[simp] theorem setCrc_yb (v : U16) (s : State) : (setCrc v s).yb = s.yb := rfl
@[simp] theorem setCrc_fp (v : U16) (s : State) : (setCrc v s).fp = s.fp := rfl
@[simp] theorem setCrc_fq (v : U16) (s : State) : (setCrc v s).fq = s.fq := rfl
@[simp] theorem setCrc_a (v : U16) (s : State) : (setCrc v s).a = s.a := rfl
@[simp] theorem setCrc_xs (v : U16) (s : State) : (setCrc v s).xs = s.xs := rfl
@[simp] theorem setCrc_xf (v : U16) (s : State) : (setCrc v s).xf = s.xf := rfl
@[simp] theorem setCrc_hdrFlags (v : U16) (s : State) : (setCrc v s).hdrFlags = s.hdrFlags := rfl
@[simp] theorem setCrc_hdrLen (v : U16) (s : State) : (setCrc v s).hdrLen = s.hdrLen := rfl
@[simp] theorem setCrc_r (v : U16) (s : State) : (setCrc v s).r = s.r := rfl
@[simp] theorem setCrc_ev (v : U16) (s : State) : (setCrc v s).ev = s.ev := rfl
@[simp] theorem setCrc_parsed (v : U16) (s : State) : (setCrc v s).parsed = s.parsed := rfl
@[simp] theorem setCrc_status (v : U16) (s : State) : (setCrc v s).status = s.status := rfl
@[simp] theorem setCrc_cfg (v : U16) (s : State) : (setCrc v s).cfg = s.cfg := rfl
@[simp] theorem setCrc_gtz (v : U16) (s : State) : (setCrc v s).gtz = s.gtz := rfl
@[simp] theorem setCrc_nrziEncLevel (v : U16) (s : State) : (setCrc v s).nrziEncLevel = s.nrziEncLevel := rfl
@[simp] theorem setCrc_nrziDecPrev (v : U16) (s : State) : (setCrc v s).nrziDecPrev = s.nrziDecPrev := rfl
@[simp] theorem setCrc_crcReg (v : U16) (s : State) : (setCrc v s).crcReg = v := rfl
@[simp] theorem setCrc_rsSyn (v : U16) (s : State) : (setCrc v s).rsSyn = s.rsSyn := rfl
@[simp] theorem setCrc_rsPar (v : U16) (s : State) : (setCrc v s).rsPar = s.rsPar := rfl
@[simp] theorem setCrc_tablesReady (v : U16) (s : State) : (setCrc v s).tablesReady = s.tablesReady := rfl
@[simp] theorem setCrc_pending (v : U16) (s : State) : (setCrc v s).pending = s.pending := rfl
@[simp] theorem setCrc_openTick (v : U16) (s : State) : (setCrc v s).openTick = s.openTick := rfl

/-! ### setGoertzel -/

@[simp] theorem setGoertzel_sb (c x y : ExactReal) (s : State) : (setGoertzel c x y s).sb = s.sb := rfl
@[simp] theorem setGoertzel_bb (c x y : ExactReal) (s : State) : (setGoertzel c x y s).bb = s.bb := rfl
@[simp] theorem setGoertzel_yb (c x y : ExactReal) (s : State) : (setGoertzel c x y s).yb = s.yb := rfl
@[simp] theorem setGoertzel_fp (c x y : ExactReal) (s : State) : (setGoertzel c x y s).fp = s.fp := rfl
@[simp] theorem setGoertzel_fq (c x y : ExactReal) (s : State) : (setGoertzel c x y s).fq = s.fq := rfl
@[simp] theorem setGoertzel_a (c x y : ExactReal) (s : State) : (setGoertzel c x y s).a = s.a := rfl
@[simp] theorem setGoertzel_xs (c x y : ExactReal) (s : State) : (setGoertzel c x y s).xs = s.xs := rfl
@[simp] theorem setGoertzel_xf (c x y : ExactReal) (s : State) : (setGoertzel c x y s).xf = s.xf := rfl
@[simp] theorem setGoertzel_hdrFlags (c x y : ExactReal) (s : State) : (setGoertzel c x y s).hdrFlags = s.hdrFlags := rfl
@[simp] theorem setGoertzel_hdrLen (c x y : ExactReal) (s : State) : (setGoertzel c x y s).hdrLen = s.hdrLen := rfl
@[simp] theorem setGoertzel_r (c x y : ExactReal) (s : State) : (setGoertzel c x y s).r = s.r := rfl
@[simp] theorem setGoertzel_ev (c x y : ExactReal) (s : State) : (setGoertzel c x y s).ev = s.ev := rfl
@[simp] theorem setGoertzel_parsed (c x y : ExactReal) (s : State) : (setGoertzel c x y s).parsed = s.parsed := rfl
@[simp] theorem setGoertzel_status (c x y : ExactReal) (s : State) : (setGoertzel c x y s).status = s.status := rfl
@[simp] theorem setGoertzel_cfg (c x y : ExactReal) (s : State) : (setGoertzel c x y s).cfg = s.cfg := rfl
@[simp] theorem setGoertzel_gtz (c x y : ExactReal) (s : State) : (setGoertzel c x y s).gtz = ⟨some c, x, y⟩ := rfl
@[simp] theorem setGoertzel_nrziEncLevel (c x y : ExactReal) (s : State) : (setGoertzel c x y s).nrziEncLevel = s.nrziEncLevel := rfl
@[simp] theorem setGoertzel_nrziDecPrev (c x y : ExactReal) (s : State) : (setGoertzel c x y s).nrziDecPrev = s.nrziDecPrev := rfl
@[simp] theorem setGoertzel_crcReg (c x y : ExactReal) (s : State) : (setGoertzel c x y s).crcReg = s.crcReg := rfl
@[simp] theorem setGoertzel_rsSyn (c x y : ExactReal) (s : State) : (setGoertzel c x y s).rsSyn = s.rsSyn := rfl
@[simp] theorem setGoertzel_rsPar (c x y : ExactReal) (s : State) : (setGoertzel c x y s).rsPar = s.rsPar := rfl
@[simp] theorem setGoertzel_tablesReady (c x y : ExactReal) (s : State) : (setGoertzel c x y s).tablesReady = s.tablesReady := rfl
@[simp] theorem setGoertzel_pending (c x y : ExactReal) (s : State) : (setGoertzel c x y s).pending = s.pending := rfl
@[simp] theorem setGoertzel_openTick (c x y : ExactReal) (s : State) : (setGoertzel c x y s).openTick = s.openTick := rfl

/-! ### setEnergies -/

@[simp] theorem setEnergies_sb (es : List ExactReal) (s : State) : (setEnergies es s).sb = s.sb := rfl
@[simp] theorem setEnergies_bb (es : List ExactReal) (s : State) : (setEnergies es s).bb = s.bb := rfl
@[simp] theorem setEnergies_yb (es : List ExactReal) (s : State) : (setEnergies es s).yb = s.yb := rfl
@[simp] theorem setEnergies_fp (es : List ExactReal) (s : State) : (setEnergies es s).fp = s.fp := rfl
@[simp] theorem setEnergies_fq (es : List ExactReal) (s : State) : (setEnergies es s).fq = s.fq := rfl
@[simp] theorem setEnergies_a (es : List ExactReal) (s : State) : (setEnergies es s).a = s.a := rfl
@[simp] theorem setEnergies_xs (es : List ExactReal) (s : State) : (setEnergies es s).xs = s.xs := rfl
@[simp] theorem setEnergies_xf (es : List ExactReal) (s : State) : (setEnergies es s).xf = s.xf := rfl
@[simp] theorem setEnergies_hdrFlags (es : List ExactReal) (s : State) : (setEnergies es s).hdrFlags = s.hdrFlags := rfl
@[simp] theorem setEnergies_hdrLen (es : List ExactReal) (s : State) : (setEnergies es s).hdrLen = s.hdrLen := rfl
@[simp] theorem setEnergies_r (es : List ExactReal) (s : State) : (setEnergies es s).r = s.r := rfl
@[simp] theorem setEnergies_ev (es : List ExactReal) (s : State) : (setEnergies es s).ev = evWrite es s.ev := rfl
@[simp] theorem setEnergies_parsed (es : List ExactReal) (s : State) : (setEnergies es s).parsed = s.parsed := rfl
@[simp] theorem setEnergies_status (es : List ExactReal) (s : State) : (setEnergies es s).status = s.status := rfl
@[simp] theorem setEnergies_cfg (es : List ExactReal) (s : State) : (setEnergies es s).cfg = s.cfg := rfl
@[simp] theorem setEnergies_gtz (es : List ExactReal) (s : State) : (setEnergies es s).gtz = s.gtz := rfl
@[simp] theorem setEnergies_nrziEncLevel (es : List ExactReal) (s : State) : (setEnergies es s).nrziEncLevel = s.nrziEncLevel := rfl
@[simp] theorem setEnergies_nrziDecPrev (es : List ExactReal) (s : State) : (setEnergies es s).nrziDecPrev = s.nrziDecPrev := rfl
@[simp] theorem setEnergies_crcReg (es : List ExactReal) (s : State) : (setEnergies es s).crcReg = s.crcReg := rfl
@[simp] theorem setEnergies_rsSyn (es : List ExactReal) (s : State) : (setEnergies es s).rsSyn = s.rsSyn := rfl
@[simp] theorem setEnergies_rsPar (es : List ExactReal) (s : State) : (setEnergies es s).rsPar = s.rsPar := rfl
@[simp] theorem setEnergies_tablesReady (es : List ExactReal) (s : State) : (setEnergies es s).tablesReady = s.tablesReady := rfl
@[simp] theorem setEnergies_pending (es : List ExactReal) (s : State) : (setEnergies es s).pending = s.pending := rfl
@[simp] theorem setEnergies_openTick (es : List ExactReal) (s : State) : (setEnergies es s).openTick = s.openTick := rfl

/-! ### setSyndromes -/

@[simp] theorem setSyndromes_sb (xs : List Byte) (s : State) : (setSyndromes xs s).sb = s.sb := rfl
@[simp] theorem setSyndromes_bb (xs : List Byte) (s : State) : (setSyndromes xs s).bb = s.bb := rfl
@[simp] theorem setSyndromes_yb (xs : List Byte) (s : State) : (setSyndromes xs s).yb = s.yb := rfl
@[simp] theorem setSyndromes_fp (xs : List Byte) (s : State) : (setSyndromes xs s).fp = s.fp := rfl
@[simp] theorem setSyndromes_fq (xs : List Byte) (s : State) : (setSyndromes xs s).fq = s.fq := rfl
@[simp] theorem setSyndromes_a (xs : List Byte) (s : State) : (setSyndromes xs s).a = s.a := rfl
@[simp] theorem setSyndromes_xs (xs : List Byte) (s : State) : (setSyndromes xs s).xs = s.xs := rfl
@[simp] theorem setSyndromes_xf (xs : List Byte) (s : State) : (setSyndromes xs s).xf = s.xf := rfl
@[simp] theorem setSyndromes_hdrFlags (xs : List Byte) (s : State) : (setSyndromes xs s).hdrFlags = s.hdrFlags := rfl
@[simp] theorem setSyndromes_hdrLen (xs : List Byte) (s : State) : (setSyndromes xs s).hdrLen = s.hdrLen := rfl
@[simp] theorem setSyndromes_r (xs : List Byte) (s : State) : (setSyndromes xs s).r = s.r := rfl
@[simp] theorem setSyndromes_ev (xs : List Byte) (s : State) : (setSyndromes xs s).ev = s.ev := rfl
@[simp] theorem setSyndromes_parsed (xs : List Byte) (s : State) : (setSyndromes xs s).parsed = s.parsed := rfl
@[simp] theorem setSyndromes_status (xs : List Byte) (s : State) : (setSyndromes xs s).status = s.status := rfl
@[simp] theorem setSyndromes_cfg (xs : List Byte) (s : State) : (setSyndromes xs s).cfg = s.cfg := rfl
@[simp] theorem setSyndromes_gtz (xs : List Byte) (s : State) : (setSyndromes xs s).gtz = s.gtz := rfl
@[simp] theorem setSyndromes_nrziEncLevel (xs : List Byte) (s : State) : (setSyndromes xs s).nrziEncLevel = s.nrziEncLevel := rfl
@[simp] theorem setSyndromes_nrziDecPrev (xs : List Byte) (s : State) : (setSyndromes xs s).nrziDecPrev = s.nrziDecPrev := rfl
@[simp] theorem setSyndromes_crcReg (xs : List Byte) (s : State) : (setSyndromes xs s).crcReg = s.crcReg := rfl
@[simp] theorem setSyndromes_rsSyn (xs : List Byte) (s : State) : (setSyndromes xs s).rsSyn = bytes32 xs := rfl
@[simp] theorem setSyndromes_rsPar (xs : List Byte) (s : State) : (setSyndromes xs s).rsPar = s.rsPar := rfl
@[simp] theorem setSyndromes_tablesReady (xs : List Byte) (s : State) : (setSyndromes xs s).tablesReady = s.tablesReady := rfl
@[simp] theorem setSyndromes_pending (xs : List Byte) (s : State) : (setSyndromes xs s).pending = s.pending := rfl
@[simp] theorem setSyndromes_openTick (xs : List Byte) (s : State) : (setSyndromes xs s).openTick = s.openTick := rfl

/-! ### setParity -/

@[simp] theorem setParity_sb (xs : List Byte) (s : State) : (setParity xs s).sb = s.sb := rfl
@[simp] theorem setParity_bb (xs : List Byte) (s : State) : (setParity xs s).bb = s.bb := rfl
@[simp] theorem setParity_yb (xs : List Byte) (s : State) : (setParity xs s).yb = s.yb := rfl
@[simp] theorem setParity_fp (xs : List Byte) (s : State) : (setParity xs s).fp = s.fp := rfl
@[simp] theorem setParity_fq (xs : List Byte) (s : State) : (setParity xs s).fq = s.fq := rfl
@[simp] theorem setParity_a (xs : List Byte) (s : State) : (setParity xs s).a = s.a := rfl
@[simp] theorem setParity_xs (xs : List Byte) (s : State) : (setParity xs s).xs = s.xs := rfl
@[simp] theorem setParity_xf (xs : List Byte) (s : State) : (setParity xs s).xf = s.xf := rfl
@[simp] theorem setParity_hdrFlags (xs : List Byte) (s : State) : (setParity xs s).hdrFlags = s.hdrFlags := rfl
@[simp] theorem setParity_hdrLen (xs : List Byte) (s : State) : (setParity xs s).hdrLen = s.hdrLen := rfl
@[simp] theorem setParity_r (xs : List Byte) (s : State) : (setParity xs s).r = s.r := rfl
@[simp] theorem setParity_ev (xs : List Byte) (s : State) : (setParity xs s).ev = s.ev := rfl
@[simp] theorem setParity_parsed (xs : List Byte) (s : State) : (setParity xs s).parsed = s.parsed := rfl
@[simp] theorem setParity_status (xs : List Byte) (s : State) : (setParity xs s).status = s.status := rfl
@[simp] theorem setParity_cfg (xs : List Byte) (s : State) : (setParity xs s).cfg = s.cfg := rfl
@[simp] theorem setParity_gtz (xs : List Byte) (s : State) : (setParity xs s).gtz = s.gtz := rfl
@[simp] theorem setParity_nrziEncLevel (xs : List Byte) (s : State) : (setParity xs s).nrziEncLevel = s.nrziEncLevel := rfl
@[simp] theorem setParity_nrziDecPrev (xs : List Byte) (s : State) : (setParity xs s).nrziDecPrev = s.nrziDecPrev := rfl
@[simp] theorem setParity_crcReg (xs : List Byte) (s : State) : (setParity xs s).crcReg = s.crcReg := rfl
@[simp] theorem setParity_rsSyn (xs : List Byte) (s : State) : (setParity xs s).rsSyn = s.rsSyn := rfl
@[simp] theorem setParity_rsPar (xs : List Byte) (s : State) : (setParity xs s).rsPar = bytes32 xs := rfl
@[simp] theorem setParity_tablesReady (xs : List Byte) (s : State) : (setParity xs s).tablesReady = s.tablesReady := rfl
@[simp] theorem setParity_pending (xs : List Byte) (s : State) : (setParity xs s).pending = s.pending := rfl
@[simp] theorem setParity_openTick (xs : List Byte) (s : State) : (setParity xs s).openTick = s.openTick := rfl

/-! ### leaveParsed -/

@[simp] theorem leaveParsed_sb (p : ParsedFrame) (s : State) : (leaveParsed p s).sb = s.sb := rfl
@[simp] theorem leaveParsed_bb (p : ParsedFrame) (s : State) : (leaveParsed p s).bb = s.bb := rfl
@[simp] theorem leaveParsed_yb (p : ParsedFrame) (s : State) : (leaveParsed p s).yb = s.yb := rfl
@[simp] theorem leaveParsed_fp (p : ParsedFrame) (s : State) : (leaveParsed p s).fp = s.fp := rfl
@[simp] theorem leaveParsed_fq (p : ParsedFrame) (s : State) : (leaveParsed p s).fq = s.fq := rfl
@[simp] theorem leaveParsed_a (p : ParsedFrame) (s : State) : (leaveParsed p s).a = s.a := rfl
@[simp] theorem leaveParsed_xs (p : ParsedFrame) (s : State) : (leaveParsed p s).xs = s.xs := rfl
@[simp] theorem leaveParsed_xf (p : ParsedFrame) (s : State) : (leaveParsed p s).xf = s.xf := rfl
@[simp] theorem leaveParsed_hdrFlags (p : ParsedFrame) (s : State) : (leaveParsed p s).hdrFlags = s.hdrFlags := rfl
@[simp] theorem leaveParsed_hdrLen (p : ParsedFrame) (s : State) : (leaveParsed p s).hdrLen = s.hdrLen := rfl
@[simp] theorem leaveParsed_r (p : ParsedFrame) (s : State) : (leaveParsed p s).r = s.r := rfl
@[simp] theorem leaveParsed_ev (p : ParsedFrame) (s : State) : (leaveParsed p s).ev = s.ev := rfl
@[simp] theorem leaveParsed_parsed (p : ParsedFrame) (s : State) : (leaveParsed p s).parsed = parsedRegs p := rfl
@[simp] theorem leaveParsed_status (p : ParsedFrame) (s : State) : (leaveParsed p s).status = s.status := rfl
@[simp] theorem leaveParsed_cfg (p : ParsedFrame) (s : State) : (leaveParsed p s).cfg = s.cfg := rfl
@[simp] theorem leaveParsed_gtz (p : ParsedFrame) (s : State) : (leaveParsed p s).gtz = s.gtz := rfl
@[simp] theorem leaveParsed_nrziEncLevel (p : ParsedFrame) (s : State) : (leaveParsed p s).nrziEncLevel = s.nrziEncLevel := rfl
@[simp] theorem leaveParsed_nrziDecPrev (p : ParsedFrame) (s : State) : (leaveParsed p s).nrziDecPrev = s.nrziDecPrev := rfl
@[simp] theorem leaveParsed_crcReg (p : ParsedFrame) (s : State) : (leaveParsed p s).crcReg = p.computed ^^^ 0xFFFF := rfl
@[simp] theorem leaveParsed_rsSyn (p : ParsedFrame) (s : State) : (leaveParsed p s).rsSyn = s.rsSyn := rfl
@[simp] theorem leaveParsed_rsPar (p : ParsedFrame) (s : State) : (leaveParsed p s).rsPar = s.rsPar := rfl
@[simp] theorem leaveParsed_tablesReady (p : ParsedFrame) (s : State) : (leaveParsed p s).tablesReady = s.tablesReady := rfl
@[simp] theorem leaveParsed_pending (p : ParsedFrame) (s : State) : (leaveParsed p s).pending = s.pending := rfl
@[simp] theorem leaveParsed_openTick (p : ParsedFrame) (s : State) : (leaveParsed p s).openTick = s.openTick := rfl

/-! ### setCfg -/

@[simp] theorem setCfg_sb (c : Cfg) (s : State) : (setCfg c s).sb = s.sb := rfl
@[simp] theorem setCfg_bb (c : Cfg) (s : State) : (setCfg c s).bb = s.bb := rfl
@[simp] theorem setCfg_yb (c : Cfg) (s : State) : (setCfg c s).yb = s.yb := rfl
@[simp] theorem setCfg_fp (c : Cfg) (s : State) : (setCfg c s).fp = s.fp := rfl
@[simp] theorem setCfg_fq (c : Cfg) (s : State) : (setCfg c s).fq = s.fq := rfl
@[simp] theorem setCfg_a (c : Cfg) (s : State) : (setCfg c s).a = s.a := rfl
@[simp] theorem setCfg_xs (c : Cfg) (s : State) : (setCfg c s).xs = s.xs := rfl
@[simp] theorem setCfg_xf (c : Cfg) (s : State) : (setCfg c s).xf = s.xf := rfl
@[simp] theorem setCfg_hdrFlags (c : Cfg) (s : State) : (setCfg c s).hdrFlags = s.hdrFlags := rfl
@[simp] theorem setCfg_hdrLen (c : Cfg) (s : State) : (setCfg c s).hdrLen = s.hdrLen := rfl
@[simp] theorem setCfg_r (c : Cfg) (s : State) : (setCfg c s).r = s.r := rfl
@[simp] theorem setCfg_ev (c : Cfg) (s : State) : (setCfg c s).ev = s.ev := rfl
@[simp] theorem setCfg_parsed (c : Cfg) (s : State) : (setCfg c s).parsed = s.parsed := rfl
@[simp] theorem setCfg_status (c : Cfg) (s : State) : (setCfg c s).status = s.status := rfl
@[simp] theorem setCfg_cfg (c : Cfg) (s : State) : (setCfg c s).cfg = c := rfl
@[simp] theorem setCfg_gtz (c : Cfg) (s : State) : (setCfg c s).gtz = s.gtz := rfl
@[simp] theorem setCfg_nrziEncLevel (c : Cfg) (s : State) : (setCfg c s).nrziEncLevel = s.nrziEncLevel := rfl
@[simp] theorem setCfg_nrziDecPrev (c : Cfg) (s : State) : (setCfg c s).nrziDecPrev = s.nrziDecPrev := rfl
@[simp] theorem setCfg_crcReg (c : Cfg) (s : State) : (setCfg c s).crcReg = s.crcReg := rfl
@[simp] theorem setCfg_rsSyn (c : Cfg) (s : State) : (setCfg c s).rsSyn = s.rsSyn := rfl
@[simp] theorem setCfg_rsPar (c : Cfg) (s : State) : (setCfg c s).rsPar = s.rsPar := rfl
@[simp] theorem setCfg_tablesReady (c : Cfg) (s : State) : (setCfg c s).tablesReady = s.tablesReady := rfl
@[simp] theorem setCfg_pending (c : Cfg) (s : State) : (setCfg c s).pending = s.pending := rfl
@[simp] theorem setCfg_openTick (c : Cfg) (s : State) : (setCfg c s).openTick = s.openTick := rfl

/-! ### takeAction -/

@[simp] theorem takeAction_sb (rest : List HostAction) (s : State) : (takeAction rest s).sb = s.sb := rfl
@[simp] theorem takeAction_bb (rest : List HostAction) (s : State) : (takeAction rest s).bb = s.bb := rfl
@[simp] theorem takeAction_yb (rest : List HostAction) (s : State) : (takeAction rest s).yb = s.yb := rfl
@[simp] theorem takeAction_fp (rest : List HostAction) (s : State) : (takeAction rest s).fp = s.fp := rfl
@[simp] theorem takeAction_fq (rest : List HostAction) (s : State) : (takeAction rest s).fq = s.fq := rfl
@[simp] theorem takeAction_a (rest : List HostAction) (s : State) : (takeAction rest s).a = s.a := rfl
@[simp] theorem takeAction_xs (rest : List HostAction) (s : State) : (takeAction rest s).xs = s.xs := rfl
@[simp] theorem takeAction_xf (rest : List HostAction) (s : State) : (takeAction rest s).xf = s.xf := rfl
@[simp] theorem takeAction_hdrFlags (rest : List HostAction) (s : State) : (takeAction rest s).hdrFlags = s.hdrFlags := rfl
@[simp] theorem takeAction_hdrLen (rest : List HostAction) (s : State) : (takeAction rest s).hdrLen = s.hdrLen := rfl
@[simp] theorem takeAction_r (rest : List HostAction) (s : State) : (takeAction rest s).r = s.r := rfl
@[simp] theorem takeAction_ev (rest : List HostAction) (s : State) : (takeAction rest s).ev = s.ev := rfl
@[simp] theorem takeAction_parsed (rest : List HostAction) (s : State) : (takeAction rest s).parsed = s.parsed := rfl
@[simp] theorem takeAction_status (rest : List HostAction) (s : State) : (takeAction rest s).status = s.status := rfl
@[simp] theorem takeAction_cfg (rest : List HostAction) (s : State) : (takeAction rest s).cfg = s.cfg := rfl
@[simp] theorem takeAction_gtz (rest : List HostAction) (s : State) : (takeAction rest s).gtz = s.gtz := rfl
@[simp] theorem takeAction_nrziEncLevel (rest : List HostAction) (s : State) : (takeAction rest s).nrziEncLevel = s.nrziEncLevel := rfl
@[simp] theorem takeAction_nrziDecPrev (rest : List HostAction) (s : State) : (takeAction rest s).nrziDecPrev = s.nrziDecPrev := rfl
@[simp] theorem takeAction_crcReg (rest : List HostAction) (s : State) : (takeAction rest s).crcReg = s.crcReg := rfl
@[simp] theorem takeAction_rsSyn (rest : List HostAction) (s : State) : (takeAction rest s).rsSyn = s.rsSyn := rfl
@[simp] theorem takeAction_rsPar (rest : List HostAction) (s : State) : (takeAction rest s).rsPar = s.rsPar := rfl
@[simp] theorem takeAction_tablesReady (rest : List HostAction) (s : State) : (takeAction rest s).tablesReady = s.tablesReady := rfl
@[simp] theorem takeAction_pending (rest : List HostAction) (s : State) : (takeAction rest s).pending = rest := rfl
@[simp] theorem takeAction_openTick (rest : List HostAction) (s : State) : (takeAction rest s).openTick = s.openTick + 1 := rfl

/-! ### pushCommand -/

@[simp] theorem pushCommand_sb (w : U32) (s : State) : (pushCommand w s).sb = s.sb := rfl
@[simp] theorem pushCommand_bb (w : U32) (s : State) : (pushCommand w s).bb = s.bb := rfl
@[simp] theorem pushCommand_yb (w : U32) (s : State) : (pushCommand w s).yb = s.yb := rfl
@[simp] theorem pushCommand_fp (w : U32) (s : State) : (pushCommand w s).fp = s.fp := rfl
@[simp] theorem pushCommand_fq (w : U32) (s : State) : (pushCommand w s).fq = s.fq := rfl
@[simp] theorem pushCommand_a (w : U32) (s : State) : (pushCommand w s).a = s.a := rfl
@[simp] theorem pushCommand_xs (w : U32) (s : State) : (pushCommand w s).xs = s.xs := rfl
@[simp] theorem pushCommand_xf (w : U32) (s : State) : (pushCommand w s).xf = s.xf := rfl
@[simp] theorem pushCommand_hdrFlags (w : U32) (s : State) : (pushCommand w s).hdrFlags = s.hdrFlags := rfl
@[simp] theorem pushCommand_hdrLen (w : U32) (s : State) : (pushCommand w s).hdrLen = s.hdrLen := rfl
@[simp] theorem pushCommand_r (w : U32) (s : State) : (pushCommand w s).r = s.r := rfl
@[simp] theorem pushCommand_ev (w : U32) (s : State) : (pushCommand w s).ev = s.ev := rfl
@[simp] theorem pushCommand_parsed (w : U32) (s : State) : (pushCommand w s).parsed = s.parsed := rfl
@[simp] theorem pushCommand_status (w : U32) (s : State) : (pushCommand w s).status = s.status := rfl
@[simp] theorem pushCommand_cfg (w : U32) (s : State) : (pushCommand w s).cfg = s.cfg := rfl
@[simp] theorem pushCommand_gtz (w : U32) (s : State) : (pushCommand w s).gtz = s.gtz := rfl
@[simp] theorem pushCommand_nrziEncLevel (w : U32) (s : State) : (pushCommand w s).nrziEncLevel = s.nrziEncLevel := rfl
@[simp] theorem pushCommand_nrziDecPrev (w : U32) (s : State) : (pushCommand w s).nrziDecPrev = s.nrziDecPrev := rfl
@[simp] theorem pushCommand_crcReg (w : U32) (s : State) : (pushCommand w s).crcReg = s.crcReg := rfl
@[simp] theorem pushCommand_rsSyn (w : U32) (s : State) : (pushCommand w s).rsSyn = s.rsSyn := rfl
@[simp] theorem pushCommand_rsPar (w : U32) (s : State) : (pushCommand w s).rsPar = s.rsPar := rfl
@[simp] theorem pushCommand_tablesReady (w : U32) (s : State) : (pushCommand w s).tablesReady = s.tablesReady := rfl
@[simp] theorem pushCommand_pending (w : U32) (s : State) : (pushCommand w s).pending = .command w :: s.pending := rfl
@[simp] theorem pushCommand_openTick (w : U32) (s : State) : (pushCommand w s).openTick = s.openTick := rfl

end Sys2Proof.Machine
end

