-- ==== Sys2Proof/Laws/Ops.lean ====
section
/-!
SUPPORT. What each shared operation can do, said once: banks, buffers, result registers, energies, the ends of
an operation, the configuration checks of Machine/Operands.lean, and the range of the best tone.
-/

namespace Sys2Proof.Machine

/-! ## Banks, buffers and result registers -/

/-- A selector is one of the four. -/
theorem sel_cases (k : Sel) : k = 0 ∨ k = 1 ∨ k = 2 ∨ k = 3 := by
  have h := k.isLt
  simp only [← BitVec.toNat_inj]
  simp
  omega

/-- Reading a bank after one register of it was replaced. -/
theorem bankGet_bankSet {α : Type} (x : Four α) (k j : Sel) (v : α) :
    bankGet (bankSet x k v) j = if j = k then v else bankGet x j := by
  rcases sel_cases k with rfl | rfl | rfl | rfl <;> rcases sel_cases j with rfl | rfl | rfl | rfl <;> rfl

@[simp] theorem bankGet_bankSet_same {α : Type} (x : Four α) (k : Sel) (v : α) :
    bankGet (bankSet x k v) k = v := by rw [bankGet_bankSet, if_pos rfl]

theorem bankGet_bankSet_ne {α : Type} (x : Four α) {k j : Sel} (v : α) (h : j ≠ k) :
    bankGet (bankSet x k v) j = bankGet x j := by rw [bankGet_bankSet, if_neg h]

/-- Two banks that read alike under every selector are equal. -/
theorem bank_ext {α : Type} {x y : Four α} (h : ∀ k, bankGet x k = bankGet y k) : x = y := by
  cases x; cases y
  have h0 := h 0
  have h1 := h 1
  have h2 := h 2
  have h3 := h 3
  simp only [bankGet] at h0 h1 h2 h3
  exact (Four.mk.injEq ..).mpr ⟨h0, h1, h2, h3⟩

theorem bbRead_bbWrite (k j : Sel) (bits : List Bit) (s : State) :
    bbRead j (bbWrite k bits s) = if j = k then bits else bbRead j s := bankGet_bankSet ..

theorem ybRead_ybWrite (k j : Sel) (bytes : List Byte) (s : State) :
    ybRead j (ybWrite k bytes s) = if j = k then bytes else ybRead j s := bankGet_bankSet ..

theorem setR_read (k j : Sel) (v : U32) (s : State) :
    bankGet (setR k v s).r j = if j = k then v else bankGet s.r j := bankGet_bankSet ..

theorem countWord_of_lt {n : Nat} (tick : Nat) (k : Sel) (h : n < 2 ^ 32) :
    countWord tick k n = BitVec.ofNat 32 n := if_pos h

theorem setCount_read (k j : Sel) (n : Nat) (s : State) :
    bankGet (setCount k n s).r j = if j = k then countWord s.openTick k n else bankGet s.r j :=
  bankGet_bankSet ..

/-! ## The ends of an operation -/

@[simp] theorem endWith_eq (x : Status) (s : State) :
    endWith x s = .next { s with status := statusCode x } := rfl

@[simp] theorem raise_eq (x : Status) (s : State) :
    raise x s = .next { s with status := statusCode x } := rfl

theorem statusCode_le (x : Status) : (statusCode x).toNat ≤ 6 := by cases x <;> decide

/-! ## Energies and the Reed-Solomon registers -/

theorem evWrite_get (es : List ExactReal) (ev : Vector ExactReal 16) (k : Nat) (h : k < 16) :
    (evWrite es ev)[k] = es.getD k ev[k] := by
  simp only [evWrite, Vector.getElem_mk, List.getElem_toArray, List.getElem_take]
  by_cases hk : k < es.length
  · rw [List.getElem_append_left hk, List.getD_eq_getElem _ _ hk]
  · rw [List.getElem_append_right (by omega), List.getD_eq_default _ _ (by omega)]
    simp only [List.getElem_drop, Vector.getElem_toList]
    congr 1
    omega

theorem bytes32_toList {xs : List Byte} (h : xs.length = 32) : (bytes32 xs).toList = xs := by
  simp [bytes32, Vector.toList, ← h]

theorem leaveSyndromes_eq (bs : List (List Byte)) (s : State) :
    leaveSyndromes bs s =
      { s with rsSyn := match bs.getLast? with | none => s.rsSyn | some b => bytes32 (rsSyndromes b) } := by
  unfold leaveSyndromes
  cases bs.getLast? <;> rfl

theorem leaveParity_eq (ds : List (List Byte)) (s : State) :
    leaveParity ds s =
      { s with rsPar := match ds.getLast? with | none => s.rsPar | some d => bytes32 (rsParity d) } := by
  unfold leaveParity
  cases ds.getLast? <;> rfl

theorem leaveAfsk_eq (x : AfskResult ExactReal) (s : State) :
    leaveAfsk x s = { s with gtz := ⟨some x.coeff, x.final.1, x.final.2⟩, ev := evWrite [x.mark, x.space] s.ev } := rfl

theorem leaveMfsk_eq (x : MfskResult ExactReal) (s : State) :
    leaveMfsk x s = { s with gtz := ⟨some x.coeff, x.final.1, x.final.2⟩, ev := evWrite x.energies s.ev } := rfl

theorem leaveParsed_eq (r : ParsedFrame) (s : State) :
    leaveParsed r s = { s with parsed := parsedRegs r, crcReg := r.computed ^^^ 0xFFFF } := rfl

/-! ## Configuration checks -/

/-- When `sym_config` succeeds, and with what. -/
theorem symConfig_eq_some {c : Cfg} {y : SymConfig} :
    symConfig c = some y ↔
      ∃ fs baud, c.fs = some fs ∧ c.baud = some baud ∧ 1 ≤ fs ∧ 1 ≤ baud ∧ fs % baud = 0 ∧ y = ⟨fs, fs / baud⟩ := by
  unfold symConfig
  cases hf : c.fs with
  | none => simp
  | some fs =>
    cases hb : c.baud with
    | none => simp
    | some baud =>
      simp only [Option.some.injEq]
      constructor
      · intro h
        split at h
        · cases h
        · split at h
          · cases h
          · rename_i h1 h2
            cases h
            exact ⟨fs, baud, rfl, rfl, by omega, by omega, by simpa using h2, rfl⟩
      · rintro ⟨_, _, rfl, rfl, h1, h2, h3, rfl⟩
        rw [if_neg (by omega), if_neg (by omega)]

theorem bpsConfig_eq_some {c : Cfg} {b : Nat} : bpsConfig c = some b ↔ c.bps = some b ∧ 1 ≤ b ∧ b ≤ 4 := by
  unfold bpsConfig
  cases c.bps with
  | none => simp
  | some x =>
    simp only [Option.some.injEq]
    constructor
    · intro h
      split at h
      · cases h
      · cases h; exact ⟨rfl, by omega, by omega⟩
    · rintro ⟨rfl, h1, h2⟩
      rw [if_neg (by omega)]

theorem afskConfig_eq_some {c : Cfg} {x : AfskConfig LinearReal} :
    afskConfig c = some x ↔ symConfig c = some x.sym ∧ c.fMark = some x.mark ∧ c.fSpace = some x.space := by
  unfold afskConfig
  cases symConfig c <;> cases c.fMark <;> cases c.fSpace <;> simp
  constructor
  · rintro rfl; exact ⟨rfl, rfl, rfl⟩
  · rintro ⟨rfl, rfl, rfl⟩; rfl

theorem gfskConfig_eq_some {c : Cfg} {x : GfskConfig LinearReal ExactReal} :
    gfskConfig c = some x ↔
      symConfig c = some x.sym ∧ c.fMark = some x.mark ∧ c.fSpace = some x.space ∧ c.gfskAlpha = some x.alpha ∧
        (ExactReal.sub x.mark.toExact x.space.toExact).sign ≠ 0 ∧ 0 < x.alpha.sign ∧
        0 ≤ (ExactReal.sub (ExactReal.ofRat 1) x.alpha).sign := by
  unfold gfskConfig
  cases symConfig c <;> cases c.fMark <;> cases c.fSpace <;> cases c.gfskAlpha <;> simp only [reduceCtorEq, false_and, and_false,
    Option.some.injEq, Numerics.le, decide_eq_true_eq]
  constructor
  · intro h
    split at h
    · cases h; exact ⟨rfl, rfl, rfl, rfl, by assumption⟩
    · cases h
  · rintro ⟨rfl, rfl, rfl, rfl, h⟩; exact if_pos h

theorem allConfigured_eq_some {α : Type} {xs : List (Option α)} {ys : List α} :
    allConfigured xs = some ys ↔ xs = ys.map some := by
  induction xs generalizing ys with
  | nil => cases ys <;> simp [allConfigured]
  | cons x xs ih =>
    cases x with
    | none => cases ys <;> simp [allConfigured]
    | some x =>
      simp only [allConfigured]
      cases h : allConfigured xs with
      | none =>
        simp only [reduceCtorEq, false_iff]
        intro e
        cases ys with
        | nil => simp at e
        | cons y ys =>
          simp only [List.map_cons, List.cons.injEq] at e
          rw [ih.mpr e.2] at h
          cases h
      | some zs =>
        have hz := ih.mp h
        cases ys with
        | nil => simp
        | cons y ys =>
          simp only [Option.some.injEq, List.cons.injEq, List.map_cons, hz]
          constructor
          · rintro ⟨rfl, rfl⟩; exact ⟨rfl, rfl⟩
          · rintro ⟨rfl, e⟩
            exact ⟨rfl, List.map_injective_iff.mpr (Option.some_injective _) e⟩

theorem mfskConfig_eq_some {c : Cfg} {x : MfskConfig LinearReal} :
    mfskConfig c = some x ↔
      symConfig c = some x.sym ∧ bpsConfig c = some x.bps ∧ 2 ^ x.bps ≤ c.ntones ∧ c.ntones ≤ 16 ∧
        c.tone.toList.take (2 ^ x.bps) = x.tones.map some := by
  unfold mfskConfig
  rw [← allConfigured_eq_some]
  cases symConfig c with
  | none => simp
  | some y =>
    cases bpsConfig c with
    | none => simp
    | some b =>
      simp only [Option.some.injEq]
      constructor
      · intro h
        split at h
        · cases h
        · split at h
          · rename_i h1 _ _ h2
            cases h
            exact ⟨rfl, rfl, Nat.not_lt.mp fun h => h1 (.inl h), Nat.not_lt.mp fun h => h1 (.inr h), h2⟩
          · cases h
      · rintro ⟨rfl, rfl, h1, h16, h2⟩
        have h1 : ¬ (c.ntones < 2 ^ x.bps ∨ 16 < c.ntones) := by omega
        have h2 : allConfigured (c.tone.toList.take (2 ^ x.bps)) = some x.tones := h2
        rw [if_neg h1, h2]

/-! ## Windows -/

theorem slice_length {α : Type} (xs : List α) {i j : Nat} (h : j ≤ xs.length) : (slice xs i j).length = j - i := by
  simp [slice]; omega

theorem symWindows_length {α : Type} (xs : List α) (off sps : Nat) :
    (symWindows xs off sps).length = windowCount xs.length off sps := by simp [symWindows]

/-! ## The best tone -/

/-- The scan for the best tone ends at the best tone so far or at one of the tones scanned. -/
theorem bestFrom_eq {ρ α φ : Type} (N : Numerics ρ α φ) (i best : Nat) (e : α) (us : List α) :
    bestFrom N i best e us = best ∨ (i ≤ bestFrom N i best e us ∧ bestFrom N i best e us < i + us.length) := by
  induction us generalizing i best e with
  | nil => exact .inl rfl
  | cons u us ih =>
    simp only [bestFrom, List.length_cons]
    split
    · rcases ih (i + 1) i u with h | h <;> omega
    · rcases ih (i + 1) best e with h | h <;> omega

/-- The best tone is one of the tones, whatever the number system. -/
theorem bestTone_lt {ρ α φ : Type} (N : Numerics ρ α φ) {es : List α} (h : es ≠ []) : bestTone N es < es.length := by
  cases es with
  | nil => exact absurd rfl h
  | cons e es =>
    simp only [bestTone, List.length_cons]
    rcases bestFrom_eq N 1 0 e es with h | h <;> omega

end Sys2Proof.Machine
end

