-- ==== Sys2Proof/Laws/PerInstr.lean ====
section
/-!
SUPPORT. Per instruction: the encoding of every operation is a legal command word (spec/30_encoding.md rules R71,
R73, R78), one lemma per constructor.
-/

namespace Sys2Proof.Laws

/-- The value of a command word from its four fields. -/
theorem commandWord_toNat (o a b c : Byte) :
    (commandWord o a b c).toNat = o.toNat * 0x1000000 + a.toNat * 0x10000 + b.toNat * 0x100 + c.toNat := by
  have ha := a.isLt
  have hb := b.isLt
  have hc := c.isLt
  unfold commandWord
  simp only [BitVec.toNat_append]
  rw [← Nat.shiftLeft_add_eq_or_of_lt (by omega : c.toNat < 2 ^ 8),
    ← Nat.shiftLeft_add_eq_or_of_lt (by omega : b.toNat < 2 ^ 8),
    ← Nat.shiftLeft_add_eq_or_of_lt (by omega : a.toNat < 2 ^ 8)]
  simp only [Nat.shiftLeft_eq]
  omega

/-- The fields of a command word. -/
theorem fieldsOf_commandWord (o a b c : Byte) :
    fieldsOf (commandWord o a b c) = ⟨o.toNat, a.toNat, b.toNat, c.toNat⟩ := by
  have ho := o.isLt
  have ha := a.isLt
  have hb := b.isLt
  have hc := c.isLt
  unfold fieldsOf
  rw [commandWord_toNat]
  simp only [Fields.mk.injEq]
  refine ⟨?_, ?_, ?_, ?_⟩ <;> omega

theorem selField_le (x : Sel) : (selField x).toNat ≤ 3 := by
  have := x.isLt
  simp [selField]
  omega

theorem bitField_le (x : Bit) : (bitField x).toNat ≤ 1 := by cases x <;> decide

theorem legal_of_allows {o a b c : Byte} {f : Format} (h : opcodeMap.lookup o.toNat = some f)
    (hf : f.allows ⟨o.toNat, a.toNat, b.toNat, c.toNat⟩ = true) : wordLegal (commandWord o a b c) = true := by
  unfold wordLegal
  rw [fieldsOf_commandWord]
  simp only [h, hf]

/-- Every format allows the fields its operations are encoded with. -/
theorem allows_Z (o : Nat) : Format.Z.allows ⟨o, (0 : Byte).toNat, (0 : Byte).toNat, (0 : Byte).toNat⟩ = true := rfl

theorem allows_S (o : Nat) (a : Sel) :
    Format.S.allows ⟨o, (selField a).toNat, (0 : Byte).toNat, (0 : Byte).toNat⟩ = true := by
  simp [Format.allows, selField_le]

theorem allows_D (o : Nat) (b : Sel) :
    Format.D.allows ⟨o, (0 : Byte).toNat, (selField b).toNat, (0 : Byte).toNat⟩ = true := by
  simp [Format.allows, selField_le]

theorem allows_SD (o : Nat) (a b : Sel) :
    Format.SD.allows ⟨o, (selField a).toNat, (selField b).toNat, (0 : Byte).toNat⟩ = true := by
  simp [Format.allows, selField_le]

theorem allows_I8 (o : Nat) (n : Byte) :
    Format.I8.allows ⟨o, (0 : Byte).toNat, (0 : Byte).toNat, n.toNat⟩ = true := by simp [Format.allows]

theorem allows_I2 (o : Nat) (p : Sel) :
    Format.I2.allows ⟨o, (0 : Byte).toNat, (0 : Byte).toNat, (selField p).toNat⟩ = true := by
  simp [Format.allows, selField_le]

theorem allows_I1 (o : Nat) (x : Bit) :
    Format.I1.allows ⟨o, (0 : Byte).toNat, (0 : Byte).toNat, (bitField x).toNat⟩ = true := by
  simp [Format.allows, bitField_le]

theorem allows_II (o : Nat) (x y : Byte) :
    Format.II.allows ⟨o, (0 : Byte).toNat, x.toNat, y.toNat⟩ = true := by simp [Format.allows]

theorem allows_I9 (o : Nat) (x : Bit) (y : Byte) :
    Format.I9.allows ⟨o, (0 : Byte).toNat, (bitField x).toNat, y.toNat⟩ = true := by
  simp [Format.allows, bitField_le]

namespace EncodingLegal

/-- The command word of an operation is legal. -/
def Statement (i : Instr) : Prop := wordLegal (encode i) = true

theorem sysNop : Statement (.sysNop) := legal_of_allows (f := .Z) rfl (allows_Z ..)

theorem sysInit : Statement (.sysInit) := legal_of_allows (f := .Z) rfl (allows_Z ..)

theorem sysReset : Statement (.sysReset) := legal_of_allows (f := .Z) rfl (allows_Z ..)

theorem sysLoadp (id : Sel) : Statement (.sysLoadp id) := legal_of_allows (f := .I2) rfl (allows_I2 ..)

theorem sysMovb (src dst : Sel) : Statement (.sysMovb src dst) := legal_of_allows (f := .SD) rfl (allows_SD ..)

theorem sysMovy (src dst : Sel) : Statement (.sysMovy src dst) := legal_of_allows (f := .SD) rfl (allows_SD ..)

theorem sysFqpop (dst : Sel) : Statement (.sysFqpop dst) := legal_of_allows (f := .D) rfl (allows_D ..)

theorem gtzSetf : Statement (.gtzSetf) := legal_of_allows (f := .Z) rfl (allows_Z ..)

theorem gtzSetc : Statement (.gtzSetc) := legal_of_allows (f := .Z) rfl (allows_Z ..)

theorem gtzClr : Statement (.gtzClr) := legal_of_allows (f := .Z) rfl (allows_Z ..)

theorem gtzStep : Statement (.gtzStep) := legal_of_allows (f := .Z) rfl (allows_Z ..)

theorem gtzEnergy : Statement (.gtzEnergy) := legal_of_allows (f := .Z) rfl (allows_Z ..)

theorem gtzWin : Statement (.gtzWin) := legal_of_allows (f := .Z) rfl (allows_Z ..)

theorem afskSym : Statement (.afskSym) := legal_of_allows (f := .Z) rfl (allows_Z ..)

theorem afskDemod (dst : Sel) : Statement (.afskDemod dst) := legal_of_allows (f := .D) rfl (allows_D ..)

theorem gfskDemod (dst : Sel) : Statement (.gfskDemod dst) := legal_of_allows (f := .D) rfl (allows_D ..)

theorem mfskMap (src dst : Sel) : Statement (.mfskMap src dst) := legal_of_allows (f := .SD) rfl (allows_SD ..)

theorem mfskUnmap (src dst : Sel) : Statement (.mfskUnmap src dst) := legal_of_allows (f := .SD) rfl (allows_SD ..)

theorem mfskSym : Statement (.mfskSym) := legal_of_allows (f := .Z) rfl (allows_Z ..)

theorem mfskDemod (dst : Sel) : Statement (.mfskDemod dst) := legal_of_allows (f := .D) rfl (allows_D ..)

theorem nrziClr : Statement (.nrziClr) := legal_of_allows (f := .Z) rfl (allows_Z ..)

theorem nrziEncb (bit : Bit) : Statement (.nrziEncb bit) := legal_of_allows (f := .I1) rfl (allows_I1 ..)

theorem nrziDecb (bit : Bit) : Statement (.nrziDecb bit) := legal_of_allows (f := .I1) rfl (allows_I1 ..)

theorem nrziEnc (src dst : Sel) : Statement (.nrziEnc src dst) := legal_of_allows (f := .SD) rfl (allows_SD ..)

theorem nrziDec (src dst : Sel) : Statement (.nrziDec src dst) := legal_of_allows (f := .SD) rfl (allows_SD ..)

theorem hdlcUnpack (src dst : Sel) : Statement (.hdlcUnpack src dst) := legal_of_allows (f := .SD) rfl (allows_SD ..)

theorem hdlcPack (src dst : Sel) : Statement (.hdlcPack src dst) := legal_of_allows (f := .SD) rfl (allows_SD ..)

theorem hdlcStuff (src dst : Sel) : Statement (.hdlcStuff src dst) := legal_of_allows (f := .SD) rfl (allows_SD ..)

theorem hdlcDestuff (src dst : Sel) : Statement (.hdlcDestuff src dst) := legal_of_allows (f := .SD) rfl (allows_SD ..)

theorem hdlcFrame (src dst : Sel) : Statement (.hdlcFrame src dst) := legal_of_allows (f := .SD) rfl (allows_SD ..)

theorem hdlcFlags (src : Sel) : Statement (.hdlcFlags src) := legal_of_allows (f := .S) rfl (allows_S ..)

theorem hdlcExtract (src : Sel) : Statement (.hdlcExtract src) := legal_of_allows (f := .S) rfl (allows_S ..)

theorem frmBuild (src dst : Sel) : Statement (.frmBuild src dst) := legal_of_allows (f := .SD) rfl (allows_SD ..)

theorem frmParse (src dst : Sel) : Statement (.frmParse src dst) := legal_of_allows (f := .SD) rfl (allows_SD ..)

theorem frmEncode (src dst : Sel) : Statement (.frmEncode src dst) := legal_of_allows (f := .SD) rfl (allows_SD ..)

theorem frmDecode (src dst : Sel) : Statement (.frmDecode src dst) := legal_of_allows (f := .SD) rfl (allows_SD ..)

theorem crcClr : Statement (.crcClr) := legal_of_allows (f := .Z) rfl (allows_Z ..)

theorem crcBit (bit : Bit) : Statement (.crcBit bit) := legal_of_allows (f := .I1) rfl (allows_I1 ..)

theorem crcByte (imm : Byte) : Statement (.crcByte imm) := legal_of_allows (f := .I8) rfl (allows_I8 ..)

theorem crcFinal : Statement (.crcFinal) := legal_of_allows (f := .Z) rfl (allows_Z ..)

theorem crcGen (src : Sel) : Statement (.crcGen src) := legal_of_allows (f := .S) rfl (allows_S ..)

theorem crcAppend (src dst : Sel) : Statement (.crcAppend src dst) := legal_of_allows (f := .SD) rfl (allows_SD ..)

theorem crcChk (src : Sel) : Statement (.crcChk src) := legal_of_allows (f := .S) rfl (allows_S ..)

theorem gfAdd (a b : Byte) : Statement (.gfAdd a b) := legal_of_allows (f := .II) rfl (allows_II ..)

theorem gfMul (a b : Byte) : Statement (.gfMul a b) := legal_of_allows (f := .II) rfl (allows_II ..)

theorem gfInv (imm : Byte) : Statement (.gfInv imm) := legal_of_allows (f := .I8) rfl (allows_I8 ..)

theorem gfExp (index : BitVec 9) : Statement (.gfExp index) := legal_of_allows (f := .I9) rfl (allows_I9 ..)

theorem gfLog (imm : Byte) : Statement (.gfLog imm) := legal_of_allows (f := .I8) rfl (allows_I8 ..)

theorem rsEncb (src dst : Sel) : Statement (.rsEncb src dst) := legal_of_allows (f := .SD) rfl (allows_SD ..)

theorem rsSyn (src : Sel) : Statement (.rsSyn src) := legal_of_allows (f := .S) rfl (allows_S ..)

theorem rsDecb (src dst : Sel) : Statement (.rsDecb src dst) := legal_of_allows (f := .SD) rfl (allows_SD ..)

theorem rsEnc (src dst : Sel) : Statement (.rsEnc src dst) := legal_of_allows (f := .SD) rfl (allows_SD ..)

theorem rsDec (src dst : Sel) : Statement (.rsDec src dst) := legal_of_allows (f := .SD) rfl (allows_SD ..)

end EncodingLegal

end Sys2Proof.Laws
end

