-- ==== Sys2Proof/Tests/Slice0.lean ====
section
/-!
SUPPORT. Tests on fixed values, each one step on a small state, and a witness for the hypotheses of each
statement. The expected results are those of spec/95_test_vectors.md (vector numbers V<n>, P<n> below), of the examples in the
rules named, or written out from the encoding tables of spec/30_encoding.md.
-/

set_option Elab.async false

namespace Sys2Proof.Tests

open Sys2Proof.Machine

/-! ## Helpers -/

/-- The step of an operation reaches a next state with the property given. -/
def ends (i : Instr) (s : State) (p : State → Bool) : Bool :=
  match exec i s with
  | .next t => p t
  | .fault _ => false
  | .refused _ => false

/-- A bit list from the digits of a number, the last digit first; `n` digits in base ten, each 0 or 1, written as
the spec prints them. -/
def bitsOf : Nat → Nat → List Bit
  | 0, _ => []
  | n + 1, d => bitsOf n (d / 10) ++ [d % 10 == 1]

/-- A sample, a frequency or a coefficient that is a rational number. -/
abbrev num (q : ℚ) : ExactReal := ExactReal.ofRat q

/-- A rational number as a frequency. -/
abbrev freq (q : ℚ) : LinearReal := LinearReal.ofRat q

/-- `c * cos(2*pi*q)` for an angle in the first quadrant. -/
def cosine (c q : ℚ) : ExactReal := .plus c [] (freq q) .zero

def windowM : List ExactReal := [num 0, num 1, num 0, num (-1), num 0, num 1, num 0, num (-1)]
def windowS : List ExactReal := [num 1, num (-1), num 1, num (-1), num 1, num (-1), num 1, num (-1)]
def windowD : List ExactReal := List.replicate 8 (num 1)

/-- The AFSK configuration of V14: `SPS = 8`, mark coefficient 0, space coefficient -2. -/
def afskState (sb : List ExactReal) (a0 : U32) : State :=
  { State.reset with
    sb := sb, a := ⟨a0, 8, 0, 0⟩, gtz := ⟨some (num 0), num 0, num 0⟩,
    cfg := { State.reset.cfg with fs := some 8000, baud := some 1000, fMark := some (freq 2000), fSpace := some (freq 4000) } }

/-- The GFSK configuration of V41, with filter coefficient 1. -/
def gfskState (sb : List ExactReal) : State :=
  { State.reset with
    sb := sb,
    cfg := { State.reset.cfg with
      fs := some 8000, baud := some 1000, fMark := some (freq 1000), fSpace := some (freq 3000), gfskAlpha := some (num 1) } }

/-- The four tones of V17. -/
def tones : List LinearReal := [freq 0, freq 2000, freq 4000, freq (4000 / 3)]

/-- The MFSK configuration of V17. -/
def mfskState (sb : List ExactReal) : State :=
  { State.reset with
    sb := sb,
    cfg := { State.reset.cfg with
      fs := some 8000, baud := some 1000, bps := some 2, ntones := 4,
      tone := (((Vector.replicate 16 none).set 0 (some (freq 0))).set 1 (some (freq 2000))).set 2
        (some (freq 4000)) |>.set 3 (some (freq (4000 / 3))) } }

/-- A state with one byte buffer filled, one bit buffer filled and a header. -/
def dataState (bytes : List Byte) (bits : List Bit) (flags : Byte) (len : U16) : State :=
  { State.reset with yb := ⟨bytes, [], [], []⟩, bb := ⟨bits, [], [], []⟩, hdrFlags := flags, hdrLen := len }

def ascii : List Byte := [0x31, 0x32, 0x33, 0x34, 0x35, 0x36, 0x37, 0x38, 0x39]

/-- V20, the frame of payload "hi". -/
def frameHi : List Byte := [0x51, 0x52, 0x41, 0x31, 0x01, 0x00, 0x00, 0x02, 0x68, 0x69, 0x6B, 0x07]

/-- V21, the 128 bits of that frame with two preamble flags. -/
def bitsHi : List Bit :=
  bitsOf 48 011111100111111001111110100010100100101010000010 ++ bitsOf 40 1000110010000000000000000000000001000000 ++
    bitsOf 40 0001011010010110110101101110000001111110

/-- The last row of data of V33, byte j is j, and its parity. -/
def rampData : List Byte := (List.range 223).map (BitVec.ofNat 8)

def rampParity : List Byte :=
  [0x41, 0x84, 0x11, 0x83, 0xB1, 0x1F, 0xDB, 0x53, 0x74, 0x21, 0x93, 0x96, 0x96, 0xCD, 0xA7, 0x0E,
   0x1D, 0xB5, 0xC8, 0x66, 0x84, 0xAF, 0x22, 0x25, 0x64, 0xB8, 0x9C, 0xC6, 0x06, 0x9F, 0x17, 0x2E]

/-- The codeword of V33 with byte 10 xor-ed with FF, and its syndromes (V34). -/
def rampDamaged : List Byte := (rampData ++ rampParity).set 10 0xF5

def rampSyndromes : List Byte :=
  [0xFF, 0xC6, 0x92, 0x2A, 0x5C, 0x3B, 0xBD, 0x43, 0x7F, 0x1E, 0xBE, 0x50, 0x77, 0x9D, 0x75, 0x74,
   0x8E, 0x7D, 0xF7, 0x45, 0x59, 0x0E, 0xA5, 0xDB, 0x3F, 0x72, 0xA8, 0x6D, 0xEC, 0xCE, 0x11, 0xE1]

/-- V37: a block that is nearer to another codeword than to the one that was sent. -/
def miscorrected : List Byte :=
  List.replicate 222 0 ++
    [0x01, 0x74, 0x40, 0x34, 0xAE, 0x36, 0x7E, 0x10, 0xC2, 0xA2, 0x21, 0x21, 0x9D, 0xB0, 0xC5, 0xE1, 0x0C] ++
    List.replicate 16 0

/-! ## Words (V50, V51 and the tables of 30_encoding.md) -/

theorem test_decode_sys :
    decode 0x00000000 = .ok .sysNop ∧
    decode 0x01000000 = .ok .sysInit ∧
    decode 0x02000000 = .ok .sysReset ∧
    decode 0x03000003 = .ok (.sysLoadp 3) ∧
    decode 0x04010000 = .ok (.sysMovb 1 0) ∧
    decode 0x05000300 = .ok (.sysMovy 0 3) ∧
    decode 0x06000100 = .ok (.sysFqpop 1) := by decide

theorem test_decode_gtz :
    decode 0x10000000 = .ok .gtzSetf ∧
    decode 0x11000000 = .ok .gtzSetc ∧
    decode 0x12000000 = .ok .gtzClr ∧
    decode 0x13000000 = .ok .gtzStep ∧
    decode 0x14000000 = .ok .gtzEnergy ∧
    decode 0x15000000 = .ok .gtzWin := by decide

theorem test_decode_demodulators :
    decode 0x20000000 = .ok .afskSym ∧
    decode 0x21000200 = .ok (.afskDemod 2) ∧
    decode 0x30000000 = .ok (.gfskDemod 0) ∧
    decode 0x40010200 = .ok (.mfskMap 1 2) ∧
    decode 0x41020100 = .ok (.mfskUnmap 2 1) ∧
    decode 0x42000000 = .ok .mfskSym ∧
    decode 0x43000300 = .ok (.mfskDemod 3) := by decide

theorem test_decode_nrzi :
    decode 0x50000000 = .ok .nrziClr ∧
    decode 0x51000001 = .ok (.nrziEncb true) ∧
    decode 0x52000000 = .ok (.nrziDecb false) ∧
    decode 0x53000100 = .ok (.nrziEnc 0 1) ∧
    decode 0x54020300 = .ok (.nrziDec 2 3) := by decide

theorem test_decode_hdlc :
    decode 0x60030200 = .ok (.hdlcUnpack 3 2) ∧
    decode 0x61000100 = .ok (.hdlcPack 0 1) ∧
    decode 0x62010200 = .ok (.hdlcStuff 1 2) ∧
    decode 0x63020000 = .ok (.hdlcDestuff 2 0) ∧
    decode 0x64010000 = .ok (.hdlcFrame 1 0) ∧
    decode 0x65020000 = .ok (.hdlcFlags 2) ∧
    decode 0x66030000 = .ok (.hdlcExtract 3) := by decide

theorem test_decode_frm :
    decode 0x70000100 = .ok (.frmBuild 0 1) ∧
    decode 0x71010200 = .ok (.frmParse 1 2) ∧
    decode 0x72000100 = .ok (.frmEncode 0 1) ∧
    decode 0x73020300 = .ok (.frmDecode 2 3) := by decide

theorem test_decode_crc :
    decode 0x80000000 = .ok .crcClr ∧
    decode 0x81000001 = .ok (.crcBit true) ∧
    decode 0x82000031 = .ok (.crcByte 0x31) ∧
    decode 0x83000000 = .ok .crcFinal ∧
    decode 0x84010000 = .ok (.crcGen 1) ∧
    decode 0x85000300 = .ok (.crcAppend 0 3) ∧
    decode 0x86020000 = .ok (.crcChk 2) := by decide

theorem test_decode_gf :
    decode 0x900053CA = .ok (.gfAdd 0x53 0xCA) ∧
    decode 0x910053CA = .ok (.gfMul 0x53 0xCA) ∧
    decode 0x92000053 = .ok (.gfInv 0x53) ∧
    decode 0x930001FF = .ok (.gfExp 511) ∧
    decode 0x9400001D = .ok (.gfLog 0x1D) := by decide

theorem test_decode_rs :
    decode 0xA0000100 = .ok (.rsEncb 0 1) ∧
    decode 0xA1010000 = .ok (.rsSyn 1) ∧
    decode 0xA2010200 = .ok (.rsDecb 1 2) ∧
    decode 0xA3030100 = .ok (.rsEnc 3 1) ∧
    decode 0xA4020000 = .ok (.rsDec 2 0) := by decide

/-- One ill-formed word for each check of `wordLegal`, each refused by the decoder under the name of the check (V51). -/
theorem test_illegal_words :
    decode 0xFFFFFFFF = .error .unassignedOp ∧ decode 0x07000000 = .error .unassignedOp ∧
    decode 0x16000000 = .error .unassignedOp ∧ decode 0x95000000 = .error .unassignedOp ∧
    decode 0xA5000000 = .error .unassignedOp ∧ decode 0x00000001 = .error .unusedField ∧
    decode 0x65000100 = .error .unusedField ∧ decode 0x21010200 = .error .unusedField ∧
    decode 0x53000101 = .error .unusedField ∧ decode 0x53040000 = .error .selectorRange ∧
    decode 0x53000400 = .error .selectorRange ∧ decode 0x65040000 = .error .selectorRange ∧
    decode 0x21000400 = .error .selectorRange ∧ decode 0x82010031 = .error .unusedField ∧
    decode 0x03000004 = .error .immediateRange ∧ decode 0x51000002 = .error .immediateRange ∧
    decode 0x91010000 = .error .unusedField ∧ decode 0x93000200 = .error .immediateRange ∧
    decode 0x93010000 = .error .unusedField := by decide

theorem test_illegal_words_refused :
    [0xFFFFFFFF, 0x07000000, 0x16000000, 0x95000000, 0xA5000000, 0x00000001, 0x65000100, 0x21010200, 0x53000101, 0x53040000,
      0x53000400, 0x65040000, 0x21000400, 0x82010031, 0x03000004, 0x51000002, 0x91010000, 0x93000200, 0x93010000].all
      (fun w => !wordLegal w) = true := by decide

/-- P6: an illegal word leaves 5 in `STATUS`; the next command overwrites it. -/
theorem test_step_illegal :
    (match step (State.reset.withFetchWord 32 0x53040000) with
      | .next t => t.status == 5 && t.pending == []
      | _ => false) = true := by decide +kernel

/-! ## One step of each operation -/

/-- R250: after a failing command `SYS.NOP` sets `STATUS` back and changes nothing else. -/
theorem test_sys_nop :
    ends .sysNop { State.reset with status := 6 } (fun t => t == State.reset) = true := by decide +kernel

/-- R251. -/
theorem test_sys_init :
    ends .sysInit State.reset (fun t => t == State.reset) = true := by decide +kernel

/-- R252. -/
theorem test_sys_reset :
    ends .sysReset (afskState windowM 0) (fun t => t == State.reset) = true := by decide +kernel

/-- R254. -/
theorem test_sys_loadp :
    ends (.sysLoadp 3) State.reset (fun t => t.cfg.kind == some .gfsk && bankGet t.r 0 == 3 && t.cfg.fs == none) = true := by decide +kernel

/-- R255. -/
theorem test_sys_movb :
    ends (.sysMovb 0 2) (dataState [] (bitsOf 4 0110) 0 0) (fun t => bbRead 2 t == bitsOf 4 0110 && bankGet t.r 0 == 4) = true := by decide +kernel

/-- R256. -/
theorem test_sys_movy :
    ends (.sysMovy 0 3) (dataState ascii [] 0 0) (fun t => ybRead 3 t == ascii && bankGet t.r 0 == 9) = true := by decide +kernel

/-- R257. -/
theorem test_sys_fqpop :
    ends (.sysFqpop 1) { State.reset with fq := [⟨16, 128, frameHi⟩] }
      (fun t => ybRead 1 t == frameHi && t.r == ⟨16, 128, 0, 0⟩ && t.fq == []) = true := by decide +kernel

/-- P6. -/
theorem test_sys_fqpop_empty :
    ends (.sysFqpop 0) State.reset (fun t => t == { State.reset with status := 1 }) = true := by decide +kernel

/-- V10: the coefficient at fs/6 is 1. -/
theorem test_gtz_setf :
    ends .gtzSetf { afskState [] 0 with xf := freq (4000 / 3) } (fun t => t.gtz.coeff == some (num 1)) = true := by decide +kernel

/-- V13, and R17: a sample rate of 0. -/
theorem test_gtz_setf_config :
    ends .gtzSetf State.reset (fun t => t == { State.reset with status := 4 }) = true ∧
    ends .gtzSetf { State.reset with cfg := { State.reset.cfg with fs := some 0 } } (fun t => t.status == 4) = true := by decide +kernel

/-- R93: the coefficient of `fs/8`, which is not rational. -/
theorem test_gtz_setc :
    ends .gtzSetc { State.reset with xf := ⟨1 / 2, [(7, 2)]⟩ }
      (fun t => t.gtz == ⟨some (.plus (1 / 2) [] (freq 0) (.plus 2 [7] (freq 0) .zero)), num 0, num 0⟩) = true := by decide +kernel

/-- R94. -/
theorem test_gtz_clr :
    ends .gtzClr { State.reset with gtz := ⟨some (num 1), num 3, num 4⟩ }
      (fun t => t.gtz == ⟨some (num 1), num 0, num 0⟩) = true := by decide +kernel

/-- V11: the third step of the impulse at coefficient 1. -/
theorem test_gtz_step :
    ends .gtzStep { State.reset with gtz := ⟨some (num 1), num 1, num 1⟩, xs := num 0 }
      (fun t => t.gtz == ⟨some (num 1), num 0, num 1⟩) = true := by decide +kernel

/-- R96. -/
theorem test_gtz_energy :
    ends .gtzEnergy { State.reset with gtz := ⟨some (num 0), num (-4), num 0⟩ }
      (fun t => t.ev[0] == num 16 && t.gtz == ⟨some (num 0), num (-4), num 0⟩) = true := by decide +kernel

/-- V12: window M at coefficient -2. -/
theorem test_gtz_win :
    ends .gtzWin { afskState windowM 0 with gtz := ⟨some (num (-2)), num 9, num 9⟩ }
      (fun t => t.gtz == ⟨some (num (-2)), num 4, num (-4)⟩ && t.ev[0] == num 0) = true := by decide +kernel

/-- V13: a window that does not lie inside `SB`. -/
theorem test_gtz_win_outside :
    ends .gtzWin (afskState windowM 1) (fun t => t == { afskState windowM 1 with status := 4 }) = true := by decide +kernel

/-- V14: window S. -/
theorem test_afsk_sym :
    ends .afskSym (afskState windowS 0) (fun t => bankGet t.r 0 == 0 && t.ev[0] == num 0 && t.ev[1] == num 64) = true := by decide +kernel

/-- V14: window D, a tie. -/
theorem test_afsk_sym_tie :
    ends .afskSym (afskState windowD 0) (fun t => bankGet t.r 0 == 1 && t.ev[0] == num 0 && t.ev[1] == num 0) = true := by decide +kernel

/-- V15, the first two symbols. -/
theorem test_afsk_demod :
    ends (.afskDemod 0) (afskState (windowM ++ windowS) 0)
      (fun t => bbRead 0 t == [true, false] && bankGet t.r 0 == 2 && t.ev[0] == num 0 && t.ev[1] == num 64) = true := by decide +kernel

/-- V15: an offset beyond the waveform. -/
theorem test_afsk_demod_beyond :
    ends (.afskDemod 0) (afskState windowM 9) (fun t => bbRead 0 t == [] && bankGet t.r 0 == 0 && t.status == 0) = true := by decide +kernel

/-- V41: sixteen zero samples. -/
theorem test_gfsk_demod :
    ends (.gfskDemod 0) (gfskState (List.replicate 16 (num 0))) (fun t => bbRead 0 t == [true, true] && bankGet t.r 0 == 2) = true := by decide +kernel

/-- V41: the first two symbols of the waveform, an eighth of a turn and then three eighths per sample. -/
def gfskWave : List ExactReal :=
  (List.range 9).map (fun k => LinearReal.sinTurn (freq (k / 8))) ++ (List.range 7).map fun k => LinearReal.sinTurn (freq (3 * (k + 1) / 8))

/-- V41: the levels of the first two symbols, filter coefficient 1. -/
theorem test_gfsk_demod_wave :
    ends (.gfskDemod 1) (gfskState gfskWave) (fun t => bbRead 1 t == [true, false]) = true := by decide +kernel

/-- V16. -/
theorem test_mfsk_map :
    ends (.mfskMap 0 1) { mfskState [] with bb := ⟨bitsOf 7 0110111, [], [], []⟩ }
      (fun t => ybRead 1 t == [2, 1, 3, 1] && bankGet t.r 0 == 4) = true := by decide +kernel

/-- V16. -/
theorem test_mfsk_unmap :
    ends (.mfskUnmap 0 1) { mfskState [] with yb := ⟨[2, 1, 3, 1], [], [], []⟩ }
      (fun t => bbRead 1 t == bitsOf 8 01101110 && bankGet t.r 0 == 8) = true := by decide +kernel

/-- V16: an index that is not a tone. -/
theorem test_mfsk_unmap_index :
    ends (.mfskUnmap 0 1) { mfskState [] with yb := ⟨[2, 4], [], [], []⟩ } (fun t => t.status == 4 && bbRead 1 t == []) = true := by decide +kernel

/-- V17: window S. -/
theorem test_mfsk_sym :
    ends .mfskSym (mfskState windowS)
      (fun t => bankGet t.r 0 == 2 && t.ev.toList.take 5 == [num 0, num 0, num 64, num 1, num 0]) = true := by decide +kernel

/-- R17: `NTONES` above 16. -/
theorem test_mfsk_sym_ntones :
    ends .mfskSym { mfskState windowS with cfg := { (mfskState []).cfg with ntones := 17 } } (fun t => t.status == 4) = true := by decide +kernel

/-- V17: windows D and M. -/
theorem test_mfsk_demod :
    ends (.mfskDemod 1) (mfskState (windowD ++ windowM))
      (fun t => bbRead 1 t == [false, false, true, false] && bankGet t.r 0 == 2 &&
        t.ev.toList.take 4 == [num 0, num 16, num 0, num 3]) = true := by decide +kernel

/-- R142. -/
theorem test_nrzi_clr :
    ends .nrziClr { State.reset with nrziEncLevel := false, nrziDecPrev := false } (fun t => t == State.reset) = true := by decide +kernel

/-- V18: the second `NRZI.ENCB #0` after reset. -/
theorem test_nrzi_encb :
    ends (.nrziEncb false) { State.reset with nrziEncLevel := false } (fun t => bankGet t.r 0 == 1 && t.nrziEncLevel) = true := by decide +kernel

/-- R144. -/
theorem test_nrzi_decb :
    ends (.nrziDecb false) State.reset (fun t => bankGet t.r 0 == 0 && !t.nrziDecPrev) = true := by decide +kernel

/-- R145. -/
theorem test_nrzi_enc :
    ends (.nrziEnc 0 1) (dataState [] (bitsOf 8 01111110) 0 0)
      (fun t => bbRead 1 t == bitsOf 8 00000001 && t.nrziEncLevel) = true := by decide +kernel

/-- R141, source and destination the same buffer. -/
theorem test_nrzi_dec :
    ends (.nrziDec 0 0) (dataState [] (bitsOf 4 0000) 0 0) (fun t => bbRead 0 t == bitsOf 4 0111 && !t.nrziDecPrev) = true := by decide +kernel

/-- R150. -/
theorem test_hdlc_unpack :
    ends (.hdlcUnpack 0 1) (dataState [0xA5] [] 0 0) (fun t => bbRead 1 t == bitsOf 8 10100101) = true := by decide +kernel

/-- R151. -/
theorem test_hdlc_pack :
    ends (.hdlcPack 0 1) (dataState [] (bitsOf 11 10100101011) 0 0) (fun t => ybRead 1 t == [0xA5] && bankGet t.r 0 == 3) = true := by decide +kernel

/-- R152. -/
theorem test_hdlc_stuff :
    ends (.hdlcStuff 0 1) (dataState [] (List.replicate 16 true) 0 0)
      (fun t => bbRead 1 t == bitsOf 19 1111101111101111101 && bankGet t.r 0 == 3) = true := by decide +kernel

/-- R149: seven ones pass, the zero after them is dropped. -/
theorem test_hdlc_destuff :
    ends (.hdlcDestuff 0 1) (dataState [] (bitsOf 8 11111101) 0 0)
      (fun t => bbRead 1 t == List.replicate 7 true && bankGet t.r 0 == 1) = true := by decide +kernel

/-- V21. -/
theorem test_hdlc_frame :
    ends (.hdlcFrame 0 0) { dataState frameHi [] 0 0 with cfg := { State.reset.cfg with npre := some 2 } }
      (fun t => bbRead 0 t == bitsHi && bankGet t.r 0 == 128) = true := by decide +kernel

/-- V23: a shared zero at the default advance. -/
theorem test_hdlc_flags :
    ends (.hdlcFlags 0) (dataState [] (bitsOf 15 011111101111110) 0 0) (fun t => t.fp == [0] && bankGet t.r 0 == 1) = true := by decide +kernel

/-- V23: a shared zero at advance 7. -/
theorem test_hdlc_flags_seven :
    ends (.hdlcFlags 0) { dataState [] (bitsOf 15 011111101111110) 0 0 with
        cfg := { State.reset.cfg with flagAdvance := 7 } } (fun t => t.fp == [0, 7]) = true := by decide +kernel

/-- R156. -/
theorem test_hdlc_extract :
    ends (.hdlcExtract 0) (dataState [] bitsHi 0 0)
      (fun t => t.fp == [0, 8, 16, 120] && t.fq == [⟨16, 128, frameHi⟩] && t.r == ⟨1, 4, 0, 0⟩) = true := by decide +kernel

/-- V6: `HDR_FLAGS = 0xFC` is written as 0x0C. -/
theorem test_frm_build :
    ends (.frmBuild 0 1) (dataState [0xFF, 0xFF] [] 0xFC 2)
      (fun t => ybRead 1 t == [0x51, 0x52, 0x41, 0x31, 0x01, 0x0C, 0x00, 0x02, 0xFF, 0xFF, 0xB1, 0xD5]) = true := by decide +kernel

/-- R183: the last byte changed. -/
theorem test_frm_parse :
    ends (.frmParse 0 1) (dataState [0x51, 0x52, 0x41, 0x31, 0x01, 0x0C, 0x00, 0x02, 0xFF, 0xFF, 0xB1, 0xD4] [] 0 0)
      (fun t => t.parsed == ⟨0x0C, false, false, 3, 2, 0xD4B1, 0xD5B1⟩ && ybRead 1 t == [0xFF, 0xFF] && t.status == 2) = true := by decide +kernel

/-- V25: a wrong first byte. -/
theorem test_frm_parse_magic :
    ends (.frmParse 0 1) (dataState (frameHi.set 0 0x50) [] 0 0) (fun t => t.status == 1 && ybRead 1 t == []) = true := by decide +kernel

/-- P2. -/
theorem test_frm_encode :
    ends (.frmEncode 0 1) (dataState [0x68, 0x69] [] 0 0) (fun t => ybRead 1 t == frameHi && t.r == ⟨0x076B, 2, 0, 0⟩) = true := by decide +kernel

/-- P2. -/
theorem test_frm_decode :
    ends (.frmDecode 0 3) (dataState frameHi [] 0 0)
      (fun t => ybRead 3 t == [0x68, 0x69] && t.r == ⟨2, 0, 0, 0⟩ && t.crcReg == 0xF894 && t.status == 0) = true := by decide +kernel

/-- P6. -/
theorem test_frm_decode_integrity :
    ends (.frmDecode 0 1) (dataState (frameHi.set 11 0x06) [] 0 0)
      (fun t => t.status == 2 && t.parsed.crcStored == 0x066B && t.parsed.crcCalc == 0x076B && ybRead 1 t == []) = true := by decide +kernel

/-- R172. -/
theorem test_crc_clr :
    ends .crcClr { State.reset with crcReg := 0 } (fun t => t == State.reset) = true := by decide +kernel

/-- R173. -/
theorem test_crc_bit :
    ends (.crcBit false) State.reset (fun t => t.crcReg == 0xFBF7) = true := by decide +kernel

/-- V5. -/
theorem test_crc_byte :
    ends (.crcByte 0x32) { State.reset with crcReg := 0x2F8D } (fun t => t.crcReg == 0x4D53) = true := by decide +kernel

/-- P1. -/
theorem test_crc_final :
    ends .crcFinal { State.reset with crcReg := 0x6F91 } (fun t => bankGet t.r 0 == 0x906E && t.crcReg == 0x6F91) = true := by decide +kernel

/-- V1, P1. -/
theorem test_crc_gen :
    ends (.crcGen 0) (dataState ascii [] 0 0) (fun t => bankGet t.r 0 == 0x906E && t.crcReg == 0x6F91) = true := by decide +kernel

/-- V5. -/
theorem test_crc_append :
    ends (.crcAppend 0 0) (dataState ascii [] 0 0) (fun t => ybRead 0 t == ascii ++ [0x6E, 0x90]) = true := by decide +kernel

/-- V5: a wrong trailer. -/
theorem test_crc_chk :
    ends (.crcChk 0) (dataState (ascii ++ [0x6E, 0x91]) [] 0 0) (fun t => t.r == ⟨0, 0x916E, 0x906E, 0⟩) = true := by decide +kernel

/-- V5: one byte. -/
theorem test_crc_chk_short :
    ends (.crcChk 0) (dataState [0x6E] [] 0 0) (fun t => t.status == 1 && t.r == ⟨0, 0, 0, 0⟩) = true := by decide +kernel

/-- V30. -/
theorem test_gf_add :
    ends (.gfAdd 0x53 0xCA) State.reset (fun t => bankGet t.r 0 == 0x99) = true := by decide +kernel

/-- V30. -/
theorem test_gf_mul :
    ends (.gfMul 0x57 0x83) State.reset (fun t => bankGet t.r 0 == 0x31) = true := by decide +kernel

/-- V30. -/
theorem test_gf_inv :
    ends (.gfInv 0xCA) State.reset (fun t => bankGet t.r 0 == 0x62) = true := by decide +kernel

/-- P6. -/
theorem test_gf_inv_zero :
    ends (.gfInv 0) State.reset (fun t => t == { State.reset with status := 6 }) = true := by decide +kernel

/-- V30. -/
theorem test_gf_exp :
    ends (.gfExp 256) State.reset (fun t => bankGet t.r 0 == 0x02) = true := by decide +kernel

/-- V30. -/
theorem test_gf_log :
    ends (.gfLog 0x8E) State.reset (fun t => bankGet t.r 0 == 254) = true := by decide +kernel

/-- V30. -/
theorem test_gf_log_zero :
    ends (.gfLog 0) State.reset (fun t => t.status == 6 && bankGet t.r 0 == 0) = true := by decide +kernel

/-- V33, the fourth row. -/
theorem test_rs_encb :
    ends (.rsEncb 0 1) (dataState rampData [] 0 0)
      (fun t => ybRead 1 t == rampData ++ rampParity && t.rsPar.toList == rampParity) = true := by decide +kernel

/-- V33: a 222-byte buffer. -/
theorem test_rs_encb_short :
    ends (.rsEncb 0 1) (dataState (rampData.drop 1) [] 0 0) (fun t => t.status == 4 && ybRead 1 t == []) = true := by decide +kernel

/-- R227. -/
theorem test_rs_syn :
    ends (.rsSyn 0) (dataState rampDamaged [] 0 0) (fun t => t.rsSyn.toList == rampSyndromes && bankGet t.r 0 == 1) = true := by decide +kernel

/-- V34: one error. -/
theorem test_rs_decb :
    ends (.rsDecb 0 1) (dataState rampDamaged [] 0 0)
      (fun t => ybRead 1 t == rampData && t.r == ⟨1, 0, 0, 0⟩ && t.rsSyn.toList == rampSyndromes) = true := by decide +kernel

/-- V37: a block decoded to another codeword than the one sent. -/
theorem test_rs_decb_other_codeword :
    ends (.rsDecb 0 1) (dataState miscorrected [] 0 0)
      (fun t => t.status == 0 && t.r == ⟨16, 16, 0, 0⟩ && ybRead 1 t == List.replicate 222 0 ++ [1]) = true := by decide +kernel

/-- V33, the second row. -/
theorem test_rs_enc :
    ends (.rsEnc 0 1) (dataState (List.replicate 222 0 ++ [1]) [] 0 0)
      (fun t => (ybRead 1 t).drop 223 == (genTable.take 32).reverse && bankGet t.r 0 == 1) = true := by decide +kernel

/-- V38. -/
theorem test_rs_enc_empty :
    ends (.rsEnc 0 1) (dataState [] [] 0 0) (fun t => ybRead 1 t == [] && bankGet t.r 0 == 0 && t.status == 0) = true := by decide +kernel

/-- V34, R233. -/
theorem test_rs_dec :
    ends (.rsDec 0 1) (dataState rampDamaged [] 0 0) (fun t => ybRead 1 t == rampData && t.r == ⟨1, 1, 0, 0⟩) = true := by decide +kernel

/-- V38: 254 bytes. -/
theorem test_rs_dec_length :
    ends (.rsDec 0 1) (dataState (rampDamaged.drop 1) [] 0 0) (fun t => t.status == 1 && ybRead 1 t == []) = true := by decide +kernel

/-! ## Witnesses: the hypotheses of each statement are met

Each theorem is named after its statement in Certificates/Slice0/Obligations.lean. -/

theorem witness_EncodeDecode : decode 0xA4030300 = .ok (.rsDec 3 3) ∧ decode 0x00000000 = .ok .sysNop := by decide

theorem witness_IllegalWords :
    wordLegal 0x53030300 = true ∧ wordLegal 0x93000200 = false ∧ wordLegal 0x930001FF = true ∧
      wordLegal 0xFFFFFFFF = false := by decide

theorem witness_StepRunsCommand :
    (State.reset.withFetchWord 32 0x53000100).pending = .command 0x53000100 :: [] ∧
      decode 0x53000100 = .ok (.nrziEnc 0 1) := by decide +kernel

theorem witness_HostTurns :
    State.reset.pending = [] ∧ { State.reset with pending := [.setFs 8000] }.pending = .setFs 8000 :: [] := ⟨rfl, rfl⟩

/-- The invariant holds in the reset state with one host action pending. -/
theorem inv_pending (acts : List HostAction) : State.Inv { State.reset with pending := acts } := by
  constructor <;> simp [State.reset, ExactReal.Normal, ExactReal.normal, LinearReal.Normal, normalNamed, flagGzip, flagFec, flagProfile]

theorem witness_StepKeepsInv :
    ∃ t, State.Inv { State.reset with pending := [.command 0x13000000] } ∧
      step { State.reset with pending := [.command 0x13000000] } = .next t := ⟨_, inv_pending _, rfl⟩

theorem witness_WhoWritesWhat :
    ends .gtzSetc { State.reset with xf := freq 1 } (fun t => t.gtz != State.reset.gtz) = true ∧
    ends .crcFinal State.reset (fun t => t.crcReg == State.reset.crcReg) = true := by decide +kernel

theorem witness_FailureKeepsState :
    ends .gtzStep State.reset (fun t => t.status != 0) = true ∧
    ends (.frmParse 0 1) (dataState (frameHi.set 11 0x06) [] 0 0) (fun t => t.status != 0) = true ∧
    ends (.frmDecode 0 1) (dataState (frameHi.set 11 0x06) [] 0 0) (fun t => t.status != 0) = true ∧
    ends (.frmDecode 0 1) (dataState (frameHi.set 7 0x03) [] 0 0) (fun t => t.status == 1 && t.parsed.len == 3) = true := by
  decide +kernel

theorem witness_SysLoadp : (1 : Sel) = 1 ∧ (0 : Sel) ≠ 1 ∧ (3 : Sel) = 3 := by decide

theorem witness_SysMove : 2 ^ 32 - 1 < 2 ^ 32 := by decide

theorem witness_SysFqpop :
    State.reset.fq = [] ∧ { State.reset with fq := [⟨16, 128, frameHi⟩] }.fq = ⟨16, 128, frameHi⟩ :: [] := ⟨rfl, rfl⟩

theorem witness_ExactArithmetic :
    (cosine 2 (1 / 8)).Normal ∧ (num (-1)).Normal ∧ (⟨1 / 3, [(2, 1), (5, -1)]⟩ : LinearReal).Normal := by decide +kernel

/-- Signs of sums of cosines: `1 - cos(pi/4)`, and the two of a pentagon, `1 + 2*cos(72) + 2*cos(144) = 0` in degrees. -/
theorem test_sign :
    (ExactReal.plus 1 [] (freq 0) (cosine (-1) (1 / 8))).sign = 1 ∧
      (ExactReal.plus (-1) [] (freq 0) (cosine 1 (1 / 8))).sign = -1 ∧
      (ExactReal.plus 1 [] (freq 0) (.plus 2 [] (freq (1 / 5)) (cosine (-2) (1 / 10)))).sign = 0 := by decide +kernel

/-- V12 scaled by any real number, given as a named one: the energies differ by 16 times its square, and the level is 1. -/
theorem test_level_named :
    (afskSymbol numerics (windowM.map fun x => ExactReal.mul (.plus 1 [0] (freq 0) .zero) x) (freq 2000) (freq 4000) 8000).level =
      true := by
  have h : (afskSymbol numerics (windowM.map fun x => ExactReal.mul (.plus 1 [0] (freq 0) .zero) x) (freq 2000) (freq 4000)
      8000).level = decide (0 ≤ (ExactReal.plus 16 [0, 0] (freq 0) .zero).sign) := by
    have e : ∀ x y : ExactReal, numerics.le x y = decide (0 ≤ (ExactReal.sub y x).sign) := numerics_le
    simp only [afskSymbol, e]
    congr 3
    decide +kernel
  rw [h, decide_eq_true_eq]
  have hs : (ExactReal.plus 16 [0, 0] (freq 0) .zero).sign = Config.reals.sign (.plus 16 [0, 0] (freq 0) .zero) := rfl
  rw [hs]
  rcases Config.reals.right (.plus 16 [0, 0] (freq 0) .zero) with h | h | h
  · omega
  · omega
  · have := h.2
    simp [ExactReal.valueWith, LinearReal.valueWith, freq, LinearReal.ofRat] at this
    nlinarith [sq_nonneg (Config.reals.value 0)]

theorem witness_GtzLoad :
    State.reset.cfg.fs = none ∧ { State.reset.cfg with fs := some 1 }.fs = some 1 ∧ 0 < 1 ∧
      { State.reset.cfg with fs := some 0 }.fs = some 0 := ⟨rfl, rfl, by decide, rfl⟩

theorem witness_GtzStepEnergy : State.reset.gtz.coeff = none ∧ (afskState [] 0).gtz.coeff = some (num 0) := ⟨rfl, rfl⟩

theorem witness_GtzWin :
    (afskState windowM 0).gtz.coeff = some (num 0) ∧
    (bankGet (afskState windowM 0).a 0).toNat + (bankGet (afskState windowM 0).a 1).toNat = (afskState windowM 0).sb.length ∧
    (afskState windowM 1).sb.length < (bankGet (afskState windowM 1).a 0).toNat + (bankGet (afskState windowM 1).a 1).toNat ∧
    State.reset.gtz.coeff = none := by decide

theorem witness_GoertzelIsFourier : 0 < 1 := by decide

theorem symReady_afsk (sb : List ExactReal) (a0 : U32) : SymReady (afskState sb a0).cfg 8000 8 :=
  ⟨1000, rfl, rfl, by decide, by decide, by decide, by decide⟩

theorem witness_AfskSym :
    SymReady (afskState windowM 0).cfg 8000 8 ∧ (afskState windowM 0).cfg.fMark = some (freq 2000) ∧
    (afskState windowM 0).cfg.fSpace = some (freq 4000) ∧
    (bankGet (afskState windowM 0).a 0).toNat + 8 ≤ (afskState windowM 0).sb.length :=
  ⟨symReady_afsk _ _, rfl, rfl, by decide⟩

/-- The window one sample beyond the end, and the reset state, fall under the `CONFIG` clause of `AFSK.SYM`. -/
theorem witness_AfskSym_config :
    (¬ ∃ fs sps fm fsp, SymReady (afskState windowM 1).cfg fs sps ∧ (afskState windowM 1).cfg.fMark = some fm ∧
      (afskState windowM 1).cfg.fSpace = some fsp ∧
      (bankGet (afskState windowM 1).a 0).toNat + sps ≤ (afskState windowM 1).sb.length) := by
  rintro ⟨fs, sps, fm, fsp, ⟨baud, h1, h2, -, -, -, h6⟩, -, -, h⟩
  cases h1
  cases h2
  subst h6
  exact absurd h (by decide)

theorem witness_AfskDemod :
    (¬ ∃ fs sps fm fsp, SymReady State.reset.cfg fs sps ∧ State.reset.cfg.fMark = some fm ∧
      State.reset.cfg.fSpace = some fsp) ∧
    SymReady (afskState (windowM ++ windowS) 0).cfg 8000 8 ∧
    0 < ((afskState (windowM ++ windowS) 0).sb.length - (bankGet (afskState (windowM ++ windowS) 0).a 0).toNat) / 8 ∧
    (afskState windowM 9).sb.length < (bankGet (afskState windowM 9).a 0).toNat := by
  refine ⟨?_, symReady_afsk _ _, by decide, by decide⟩
  rintro ⟨fs, sps, fm, fsp, ⟨baud, h1, -⟩, -⟩
  cases h1

theorem gfskReady (sb : List ExactReal) : GfskReady (gfskState sb).cfg 8000 8 (freq 1000) (freq 3000) (num 1) :=
  ⟨⟨1000, rfl, rfl, by decide, by decide, by decide, by decide⟩, rfl, rfl, rfl, by norm_num [freq], by norm_num [num],
    by norm_num [num]⟩

/-- A constant and then the highest frequency, which the oscillator turns back and then forth by a quarter turn a sample: the
levels are 1 and 0. -/
theorem witness_GfskDemod :
    GfskReady (gfskState (windowD ++ windowS)).cfg 8000 8 (freq 1000) (freq 3000) (num 1) ∧
    gfskDemod numerics (windowD ++ windowS) 0 ⟨⟨8000, 8⟩, freq 1000, freq 3000, num 1⟩ = [true, false] :=
  ⟨gfskReady _, by decide +kernel⟩

/-- The reset state, and equal frequencies, fall under the `CONFIG` clause of `GFSK.DEMOD`. -/
theorem witness_GfskDemod_config :
    (¬ ∃ fs sps fm fsp alpha, GfskReady State.reset.cfg fs sps fm fsp alpha) ∧
    ¬ ∃ fs sps fm fsp alpha, GfskReady { (gfskState []).cfg with fSpace := some (freq 1000) } fs sps fm fsp alpha := by
  refine ⟨?_, ?_⟩
  · rintro ⟨fs, sps, fm, fsp, alpha, ⟨baud, h1, -⟩, -⟩
    cases h1
  · rintro ⟨fs, sps, fm, fsp, alpha, -, h1, h2, -, h4, -⟩
    cases h1
    cases h2
    exact h4 rfl

/-- Twice the direction of half a turn: the sum of the angles is a whole turn. -/
theorem witness_PhaseSumExact :
    let p : PhaseSum := ⟨0, num (-1), num 0⟩
    (p.re.toReal ≠ 0 ∨ p.im.toReal ≠ 0) ∧ phaseAdd p (num (-1)) (num 0) = ⟨1, num 1, num 0⟩ :=
  ⟨Or.inl (by norm_num [num]), by decide +kernel⟩

theorem witness_TiesFavourMark :
    (freq 2000).toReal = (freq 2000).toReal ∧
    true ∈ gfskDemod numerics (List.replicate 16 ExactReal.zero) 0 ⟨⟨8000, 8⟩, freq 1000, freq 3000, num 1⟩ :=
  ⟨rfl, by decide +kernel⟩

theorem witness_MfskMapUnmap :
    (mfskState []).cfg.bps = some 2 ∧ { State.reset.cfg with bps := some 1 }.bps = some 1 ∧
    { State.reset.cfg with bps := some 4 }.bps = some 4 ∧ (∀ y ∈ ([3] : List Byte), y.toNat < 2 ^ 2) ∧
    (∃ y ∈ ([4] : List Byte), 2 ^ 2 ≤ y.toNat) ∧
    (¬ ∃ b, State.reset.cfg.bps = some b ∧ 1 ≤ b ∧ b ≤ 4) ∧
    (¬ ∃ b, { State.reset.cfg with bps := some 5 }.bps = some b ∧ 1 ≤ b ∧ b ≤ 4) := by
  refine ⟨rfl, rfl, rfl, by decide, by decide, ?_, ?_⟩
  · rintro ⟨b, h, -⟩; cases h
  · rintro ⟨b, h, h1, h2⟩; cases h; omega

theorem mfskReady (sb : List ExactReal) : MfskReady (mfskState sb).cfg 8000 8 2 tones :=
  ⟨⟨1000, rfl, rfl, by decide, by decide, by decide, by decide⟩, rfl, by decide, by decide, Nat.le_refl 4, show 4 ≤ 16 by decide, by
    show (((((Vector.replicate 16 none).set 0 (some (freq 0))).set 1 (some (freq 2000))).set 2 (some (freq 4000))).set 3
      (some (freq (4000 / 3)))).toList.take (2 ^ 2) = tones.map some
    decide +kernel⟩

theorem witness_MfskSym :
    MfskReady (mfskState windowD).cfg 8000 8 2 tones ∧
    (bankGet (mfskState windowD).a 0).toNat + 8 ≤ (mfskState windowD).sb.length ∧
    ¬ ∃ fs sps b tones, MfskReady State.reset.cfg fs sps b tones ∧
      (bankGet State.reset.a 0).toNat + sps ≤ State.reset.sb.length := by
  refine ⟨mfskReady _, by decide, ?_⟩
  rintro ⟨fs, sps, b, ts, ⟨⟨baud, h1, -⟩, -⟩, -⟩
  cases h1

theorem witness_MfskDemod :
    MfskReady (mfskState (windowD ++ windowM)).cfg 8000 8 2 tones ∧
    0 < ((mfskState (windowD ++ windowM)).sb.length - (bankGet (mfskState (windowD ++ windowM)).a 0).toNat) / 8 ∧
    ((mfskState []).sb.length - (bankGet (mfskState []).a 0).toNat) / 8 = 0 ∧
    ¬ ∃ fs sps b tones, MfskReady State.reset.cfg fs sps b tones := by
  refine ⟨mfskReady _, by decide, by decide, ?_⟩
  rintro ⟨fs, sps, b, ts, ⟨baud, h1, -⟩, -⟩
  cases h1

theorem witness_NrziBuffers : 0 < (bbRead 0 (dataState [] [true] 0 0)).length := by decide

theorem witness_HdlcPacking :
    0 < (ybRead 0 (dataState [0xA5] [] 0 0)).length ∧ 7 < 8 ∧
      0 < (packLsb (bbRead 0 (dataState [] (bitsOf 8 10100101) 0 0))).length := by decide

theorem witness_HdlcFrame : State.reset.cfg.npre = none ∧ { State.reset.cfg with npre := some 0 }.npre = some 0 := ⟨rfl, rfl⟩

theorem witness_HdlcFlags :
    State.reset.cfg.flagAdvance = 8 ∧ { State.reset.cfg with flagAdvance := 7 }.flagAdvance = 7 ∧
    ({ State.reset.cfg with flagAdvance := 6 }.flagAdvance ≠ 7 ∧ { State.reset.cfg with flagAdvance := 6 }.flagAdvance ≠ 8) ∧
    (bitsHi.drop 120).take 8 = [false, true, true, true, true, true, true, false] := by decide

theorem witness_HdlcExtract :
    State.reset.cfg.flagAdvance = 8 ∧ { State.reset.cfg with flagAdvance := 7 }.flagAdvance = 7 ∧
    ({ State.reset.cfg with flagAdvance := 9 }.flagAdvance ≠ 7 ∧
      { State.reset.cfg with flagAdvance := 9 }.flagAdvance ≠ 8) := by decide

theorem witness_HdlcRoundTrip : (7 = 7 ∨ 7 = 8) ∧ (8 = 7 ∨ 8 = 8) ∧ 96 ≤ 8 * frameHi.length ∧ 1 ≤ 96 := by decide

theorem witness_CrcBuffers :
    (ybRead 0 (dataState [0x6E] [] 0 0)).length < 2 ∧ ybRead 0 (dataState [0x6E, 0x90] [] 0 0) = [] ++ [0x6E, 0x90] := by
  decide

theorem witness_FrmParse :
    (frameHi.take 9).length < 10 ∧ (frameHi.set 3 0x32).take 4 ≠ [0x51, 0x52, 0x41, 0x31] ∧
    (frameHi.set 4 0x02).getD 4 0 ≠ 0x01 ∧
    frameHi = [0x51, 0x52, 0x41, 0x31, 0x01, 0x00, 0x00, 0x02] ++ [0x68, 0x69] ++ [0x6B, 0x07] := by decide

theorem witness_FrmEncode :
    (ybRead 0 (dataState (List.replicate 65535 0) [] 0 0)).length ≤ 65535 ∧
    65535 < (ybRead 0 (dataState (List.replicate 65536 0) [] 0 0)).length ∧ (0x02 : Byte).getLsbD 1 = true ∧
    (0x0D : Byte).getLsbD 1 = false := by
  refine ⟨(List.length_replicate ..).le, (List.length_replicate ..).symm.le, by decide, by decide⟩

/-- What `parse_frame` gives for V20 with one byte of the trailer or of LEN changed. -/
theorem witness_FrmDecodePlain :
    parseFrame (frameHi.take 9) = none ∧
    parseFrame frameHi = some ⟨0, 2, [0x68, 0x69], 0x076B, 0x076B⟩ ∧
    parseFrame (frameHi.set 11 0x06) = some ⟨0, 2, [0x68, 0x69], 0x066B, 0x076B⟩ ∧
    ((parseFrame (frameHi.set 7 0x03)).map fun r => (r.flags, r.len, r.area)) = some (0, 3, [0x68, 0x69]) := by
  decide +kernel

/-- The header of a frame with FEC and LEN 2 or, with LEN 0, no block. -/
def fecHeader (len : Byte) : List Byte := [0x51, 0x52, 0x41, 0x31, 0x01, 0x02, 0x00, len]

/-- The block of V24. -/
def fecBlock : List Byte :=
  [0x68, 0x69] ++ List.replicate 221 0 ++
    [0x7C, 0x56, 0xA5, 0x3D, 0xAE, 0x3D, 0x6D, 0x85, 0x7C, 0x6D, 0x41, 0x1E, 0x70, 0x49, 0xD9, 0xB9,
     0xFB, 0x6D, 0x43, 0x60, 0x05, 0xAF, 0xF2, 0xD5, 0x82, 0xEC, 0xC2, 0x51, 0x37, 0xA9, 0x7D, 0xF9]

/-- A block of 255 bytes that cannot be corrected. -/
def failBlock : List Byte := List.replicate 224 0 ++ (List.range 31).map (BitVec.ofNat 8)

/-- The frame of V24, one with a block that fails, and one with a short area. -/
theorem witness_FrmDecodeFec :
    (parseFrame (fecHeader 2 ++ fecBlock ++ [0xA9, 0x1E])).map (fun r => (r.flags, r.len, r.area)) = some (2, 2, fecBlock) ∧
    (codeBlocks fecBlock).map rsCorrectBlock = [fecBlock].map some ∧
    fecBlock.length = 255 * ((2 + 222) / 223) ∧ (fecBlock.drop 1).length ≠ 255 * ((2 + 222) / 223) ∧
    codeBlocks failBlock = [failBlock] ∧ failBlock.length = 255 ∧ rsCorrectBlock failBlock = none := by decide +kernel

/-- A frame with FEC and no block, its trailer right and wrong. -/
theorem witness_FrmDecodeFec_crc :
    parseFrame (fecHeader 0 ++ [0x5D, 0x09]) = some ⟨2, 0, [], 0x095D, 0x095D⟩ ∧
    (parseFrame (fecHeader 0 ++ [0x5D, 0xFF])).map (fun r => r.computed == r.stored) = some false ∧
    (codeBlocks []).map rsCorrectBlock = ([] : List (List Byte)).map some ∧
    crc16x25 ((fecHeader 0 ++ [0x5D, 0xFF]).take 8 ++ ([] : List (List Byte)).flatten) ≠ 0xFF5D ∧
    ([] : List Byte).length = 255 * ((0 + 222) / 223) := by decide +kernel

theorem witness_FrameRoundTrip : (ybRead 0 (dataState ascii [] 0x02 0)).length ≤ 65535 := by decide +kernel

theorem witness_GfOperations : (0xFF : Byte) ≠ 0 ∧ (0x01 : Byte) ≠ 0 := by decide

theorem witness_GfField : (0x53 : Byte) ≠ 0 := by decide

theorem witness_Tables : 253 < 254 ∧ 254 < 255 := by decide

theorem witness_RsEncoders :
    (ybRead 0 (dataState (rampData.drop 1) [] 0 0)).length ≠ 223 ∧ (ybRead 0 (dataState rampData [] 0 0)).length = 223 ∧
    0 < (rampData.length + 222) / 223 ∧ ybRead 0 (dataState [] [] 0 0) = [] ∧ rampData ≠ [] := by decide +kernel

theorem witness_RsEncodedIsCodeword : rampData.length = 223 := by decide +kernel

theorem witness_RsSyndrome :
    (ybRead 0 (dataState rampDamaged [] 0 0)).length = 255 ∧ (ybRead 0 (dataState (rampDamaged.drop 1) [] 0 0)).length ≠ 255 := by
  decide +kernel

theorem witness_RsCorrectSound :
    (List.replicate 255 (0 : Byte)).length = 255 ∧ rsCorrectBlock (List.replicate 255 0) = some (List.replicate 255 0) ∧
      rsSyndromes (List.replicate 255 0) = List.replicate 32 0 := by decide +kernel

/-- A zero block with sixteen wrong bytes, and a block that no codeword is near. -/
theorem witness_RsCorrectsErrors :
    (List.replicate 239 (0 : Byte) ++ List.replicate 16 1).length = 255 ∧ (List.replicate 255 (0 : Byte)).length = 255 ∧
    rsSyndromes (List.replicate 255 0) = List.replicate 32 0 ∧
    diffCount (List.replicate 255 0) (List.replicate 239 (0 : Byte) ++ List.replicate 16 1) = 16 ∧
    (List.replicate 223 (0 : Byte)).length = 223 ∧
    diffCount (rsEncodeBlock (List.replicate 223 0)) (List.replicate 239 (0 : Byte) ++ List.replicate 16 1) = 16 ∧
    rsCorrectBlock failBlock = none := by
  refine ⟨by decide +kernel, by decide +kernel, by decide +kernel, by decide +kernel, by decide +kernel, by decide +kernel,
    witness_FrmDecodeFec.2.2.2.2.2.2⟩

/-- A block too far from every codeword, one that corrects, and a wrong length. -/
theorem witness_RsDecodeBlock :
    (failBlock.length = 255 ∧ rsCorrectBlock failBlock = none) ∧
    (rsCorrectBlock (List.replicate 255 0) = some (List.replicate 255 0) ∧ (failBlock.drop 1).length ≠ 255) :=
  ⟨witness_FrmDecodeFec.2.2.2.2.2, by decide +kernel⟩

theorem witness_RsDecodeArea :
    [(0 : Byte)].length % 255 ≠ 0 ∧ ([] : List Byte) = ([] : List (List Byte)).flatten ∧
    [List.replicate 255 (0 : Byte)].map rsCorrectBlock = [List.replicate 255 (0 : Byte)].map some ∧
    [List.replicate 255 (0 : Byte)].getLast? = some (List.replicate 255 0) := by decide +kernel

theorem witness_RsDecodeArea_failure :
    failBlock = [failBlock].flatten ∧ (∀ b ∈ [failBlock], b.length = 255) ∧ ∃ b ∈ [failBlock], rsCorrectBlock b = none :=
  ⟨by decide +kernel, by simpa using witness_FrmDecodeFec.2.2.2.2.2.1,
    failBlock, List.mem_singleton.mpr rfl, witness_FrmDecodeFec.2.2.2.2.2.2⟩

end Sys2Proof.Tests
end

/-! # The number system of the machine (00_scope.md rules R6, R7): arithmetic and order are those of the reals -/

namespace Sys2Proof

/-! ## The value of one term -/

/-- The real number that one term of a number is: its coefficient times its named reals times the cosine of its angle. -/
noncomputable def termValue (c : ℚ) (names : List Nat) (t : LinearReal) : ℝ :=
  (c : ℝ) * (names.map Config.reals.value).prod * Real.cos (2 * Real.pi * t.toReal)

/-- The value of a number is that of its first term and that of the rest. -/
theorem plus_toReal (c : ℚ) (names : List Nat) (t : LinearReal) (r : ExactReal) :
    (ExactReal.plus c names t r).toReal = termValue c names t + r.toReal := toReal_plus ..

/-- Adding a term adds its value. -/
theorem addTerm_termValue (x : ExactReal) (c : ℚ) (names : List Nat) (t : LinearReal) :
    (x.addTerm c names t).toReal = termValue c names t + x.toReal := addTerm_toReal ..

theorem termValue_mul_left (q c : ℚ) (names : List Nat) (t : LinearReal) :
    termValue (q * c) names t = q * termValue c names t := by
  simp only [termValue, Rat.cast_mul]; ring

/-- A term whose angle is zero has no cosine factor. -/
@[simp] theorem termValue_angle_zero (c : ℚ) (names : List Nat) :
    termValue c names (.ofRat 0) = c * (names.map Config.reals.value).prod := by
  simp [termValue]

/-- Bringing the names and the angle of a term into normal form keeps its value. -/
theorem termValue_norm (c : ℚ) (names : List Nat) (t : LinearReal) :
    termValue c (mulNames names []) t.norm = termValue c names t := by
  simp [termValue, mulNames_prod]

/-- Where one of two angles is zero, the product of two terms is one term. -/
theorem termValue_mul_of_zero (c d : ℚ) (names ms : List Nat) {t u : LinearReal} (h : t = .ofRat 0 ∨ u = .ofRat 0) :
    termValue (c * d) (mulNames names ms) (t.add u) = termValue c names t * termValue d ms u := by
  rcases h with rfl | rfl <;>
  · simp only [termValue, mulNames_prod, linear_add_toReal, linear_ofRat_toReal, Rat.cast_zero, zero_add, add_zero,
      mul_zero, Real.cos_zero, Rat.cast_mul]
    ring

/-- The product of two terms is half the sum of the terms with the sum and the difference of their angles. -/
theorem termValue_mul (c d : ℚ) (names ms : List Nat) (t u : LinearReal) :
    termValue (c * d / 2) (mulNames names ms) (t.sub u) + termValue (c * d / 2) (mulNames names ms) (t.add u) =
      termValue c names t * termValue d ms u := by
  have hcos := Real.two_mul_cos_mul_cos (2 * Real.pi * t.toReal) (2 * Real.pi * u.toReal)
  rw [← mul_sub, ← mul_add] at hcos
  simp only [termValue, mulNames_prod, linear_add_toReal, linear_sub_toReal, Rat.cast_div, Rat.cast_mul, Rat.cast_ofNat]
  rw [← mul_add, ← hcos]
  ring

/-! ## The values of results -/

/-- The normal form of a number is the same real number. -/
@[simp] theorem norm_toReal (x : ExactReal) : x.norm.toReal = x.toReal := by
  induction x with
  | zero => rfl
  | plus c names t r ih => rw [ExactReal.norm, addTerm_termValue, termValue_norm, ih, plus_toReal]

@[simp] theorem add_toReal (x y : ExactReal) : (x.add y).toReal = x.toReal + y.toReal := by
  induction x generalizing y with
  | zero => simp [ExactReal.add]
  | plus c names t r ih => rw [ExactReal.add, ih, addTerm_termValue, plus_toReal]; ring

/-- Adding a rational multiple of a number adds that multiple of its value. -/
theorem addScaled_toReal (q : ℚ) (x acc : ExactReal) : (x.addScaled q acc).toReal = acc.toReal + q * x.toReal := by
  induction x generalizing acc with
  | zero => simp [ExactReal.addScaled]
  | plus c names t r ih =>
    rw [ExactReal.addScaled, ih, addTerm_termValue, termValue_mul_left, plus_toReal]; ring

@[simp] theorem scale_toReal (q : ℚ) (x : ExactReal) : (x.scale q).toReal = q * x.toReal := by
  simp [ExactReal.scale, addScaled_toReal]

@[simp] theorem sub_toReal (x y : ExactReal) : (x.sub y).toReal = x.toReal - y.toReal := by
  simp [ExactReal.sub, addScaled_toReal, sub_eq_add_neg]

/-- Adding the product of two terms adds the product of their values. -/
theorem addProduct_toReal (acc : ExactReal) (c : ℚ) (names : List Nat) (t : LinearReal) (d : ℚ) (ms : List Nat)
    (u : LinearReal) :
    (acc.addProduct c names t d ms u).toReal = acc.toReal + termValue c names t * termValue d ms u := by
  unfold ExactReal.addProduct
  split
  · rename_i h
    rw [addTerm_termValue, termValue_mul_of_zero _ _ _ _ h, add_comm]
  · rw [addTerm_termValue, addTerm_termValue, ← add_assoc, termValue_mul, add_comm]

/-- Adding the product of a term and a number. -/
theorem addMulTerm_toReal (c : ℚ) (names : List Nat) (t : LinearReal) (y acc : ExactReal) :
    (ExactReal.addMulTerm c names t y acc).toReal = acc.toReal + termValue c names t * y.toReal := by
  induction y generalizing acc with
  | zero => simp [ExactReal.addMulTerm]
  | plus d ms u r ih => rw [ExactReal.addMulTerm, ih, addProduct_toReal, plus_toReal]; ring

/-- Adding the product of two numbers. -/
theorem addMul_toReal (x y acc : ExactReal) : (x.addMul y acc).toReal = acc.toReal + x.toReal * y.toReal := by
  induction x generalizing acc with
  | zero => simp [ExactReal.addMul]
  | plus c names t r ih => rw [ExactReal.addMul, ih, addMulTerm_toReal, plus_toReal]; ring

@[simp] theorem mul_toReal (x y : ExactReal) : (x.mul y).toReal = x.toReal * y.toReal := by
  simp [ExactReal.mul, addMul_toReal]

/-- A frequency as a number is the same real number. -/
@[simp] theorem toExact_toReal (x : LinearReal) : x.toExact.toReal = x.toReal := by
  have named_toReal : ∀ ms : List (Nat × ℚ),
      (ms.foldr (fun p y => y.addTerm p.2 [p.1] (.ofRat 0)) (ExactReal.ofRat x.rational)).toReal =
        x.rational + namedSum ms := by
    intro ms
    induction ms with
    | nil => simp
    | cons p ms ih =>
      rw [List.foldr_cons, addTerm_termValue, ih, termValue_angle_zero, List.map_singleton, List.prod_singleton,
        namedSum_cons]
      ring
  exact named_toReal x.named

@[simp] theorem cosTurn_toReal (x : LinearReal) : x.cosTurn.toReal = Real.cos (2 * Real.pi * x.toReal) := by
  simp [LinearReal.cosTurn, addTerm_termValue, termValue]

/-- The cosine of a quarter turn less is the sine. -/
@[simp] theorem sinTurn_toReal (x : LinearReal) : x.sinTurn.toReal = Real.sin (2 * Real.pi * x.toReal) := by
  have angle : 2 * Real.pi * (x.toReal - ((1 / 4 : ℚ) : ℝ)) = 2 * Real.pi * x.toReal - Real.pi / 2 := by
    push_cast; ring
  rw [LinearReal.sinTurn, cosTurn_toReal, linear_sub_toReal, linear_ofRat_toReal, angle, Real.cos_sub_pi_div_two]

/-! ## The normal form of results -/

theorem norm_normal (x : ExactReal) : x.norm.Normal := by
  induction x with
  | zero => exact zero_normal
  | plus c names t r ih => exact addTerm_normal ih (mulNames_sorted names []) (linear_norm_normal t)

theorem add_normal {x y : ExactReal} (hx : x.Normal) (hy : y.Normal) : (x.add y).Normal := by
  induction x generalizing y with
  | zero => exact hy
  | plus c names t r ih =>
    obtain ⟨-, hnames, ht, -, -, hr⟩ := normal_plus.mp hx
    exact ih hr (addTerm_normal hy hnames ht)

theorem addScaled_normal (q : ℚ) {x acc : ExactReal} (hx : x.Normal) (hacc : acc.Normal) :
    (x.addScaled q acc).Normal := by
  induction x generalizing acc with
  | zero => exact hacc
  | plus c names t r ih =>
    obtain ⟨-, hnames, ht, -, -, hr⟩ := normal_plus.mp hx
    exact ih hr (addTerm_normal hacc hnames ht)

theorem scale_normal (q : ℚ) {x : ExactReal} (hx : x.Normal) : (x.scale q).Normal :=
  addScaled_normal q hx zero_normal

theorem sub_normal {x y : ExactReal} (hx : x.Normal) (hy : y.Normal) : (x.sub y).Normal :=
  addScaled_normal (-1) hy hx

/-- The names of a product are put in order, so only the angle of the first term has to be in normal form. -/
theorem addProduct_normal {acc : ExactReal} (c : ℚ) (names : List Nat) {t : LinearReal} (d : ℚ) (ms : List Nat)
    (u : LinearReal) (hacc : acc.Normal) (ht : t.Normal) : (acc.addProduct c names t d ms u).Normal := by
  have hnames := mulNames_sorted names ms
  have hsum := addTerm_normal (c := c * d / 2) hacc hnames (linear_add_normal u ht)
  unfold ExactReal.addProduct
  split
  · exact addTerm_normal hacc hnames (linear_add_normal u ht)
  · exact addTerm_normal hsum hnames (linear_sub_normal u ht)

theorem addMulTerm_normal (c : ℚ) (names : List Nat) {t : LinearReal} (y : ExactReal) {acc : ExactReal} (hacc : acc.Normal)
    (ht : t.Normal) : (ExactReal.addMulTerm c names t y acc).Normal := by
  induction y generalizing acc with
  | zero => exact hacc
  | plus d ms u r ih => exact ih (addProduct_normal c names d ms u hacc ht)

theorem addMul_normal {x acc : ExactReal} (y : ExactReal) (hx : x.Normal) (hacc : acc.Normal) : (x.addMul y acc).Normal := by
  induction x generalizing acc with
  | zero => exact hacc
  | plus c names t r ih =>
    obtain ⟨-, -, ht, -, -, hr⟩ := normal_plus.mp hx
    exact ih hr (addMulTerm_normal c names y hacc ht)

/-- A product is in normal form when its first factor is: the terms of the second are only read. -/
theorem mul_normal {x : ExactReal} (y : ExactReal) (hx : x.Normal) : (x.mul y).Normal :=
  addMul_normal y hx zero_normal

theorem toExact_normal (x : LinearReal) : x.toExact.Normal := by
  unfold LinearReal.toExact
  induction x.named with
  | nil => exact ofRat_normal x.rational
  | cons p ms ih => exact addTerm_normal ih rfl (linear_ofRat_normal 0)

theorem cosTurn_normal {x : LinearReal} (hx : x.Normal) : x.cosTurn.Normal := addTerm_normal zero_normal rfl hx

theorem sinTurn_normal {x : LinearReal} (hx : x.Normal) : x.sinTurn.Normal := cosTurn_normal (linear_sub_normal _ hx)

/-! ## Named reals -/

/-- A named real as a number is in normal form and is the real number of its name. -/
theorem namedNumber_normal_toReal (n : Nat) :
    (ExactReal.plus 1 [n] (.ofRat 0) .zero).Normal ∧
      (ExactReal.plus 1 [n] (.ofRat 0) .zero).toReal = Config.reals.value n :=
  ⟨normal_plus.mpr ⟨one_ne_zero, rfl, linear_ofRat_normal 0, foldTurn_zero, rfl, zero_normal⟩, by simp [plus_toReal]⟩

/-- A named real as a frequency is in normal form and is the real number of its name. -/
theorem namedFrequency_normal_toReal (n : Nat) :
    (LinearReal.mk 0 [(n, 1)]).Normal ∧ (LinearReal.mk 0 [(n, 1)]).toReal = Config.reals.value n :=
  ⟨normalNamed_cons.mpr ⟨one_ne_zero, by simp, rfl⟩, by simp [linear_toReal]⟩

/-! ## Signs and comparisons -/

/-- A sign of a real number determines where the real number lies, and is determined by it. -/
theorem SignIs.iffs {a : Int} {r : ℝ} (h : SignIs a r) : (a = 1 ↔ 0 < r) ∧ (a = 0 ↔ r = 0) ∧ (a = -1 ↔ r < 0) := by
  rcases h with ⟨rfl, hr⟩ | ⟨rfl, hr⟩ | ⟨rfl, hr⟩
  · simp [hr, hr.ne', hr.le]
  · simp [hr]
  · simp [hr, hr.ne, hr.le]

theorem SignIs.nonneg_iff {a : Int} {r : ℝ} (h : SignIs a r) : 0 ≤ a ↔ 0 ≤ r := by
  rcases h with ⟨rfl, hr⟩ | ⟨rfl, hr⟩ | ⟨rfl, hr⟩
  · simp [hr.le]
  · simp [hr]
  · simp [hr]

theorem SignIs.pos_iff {a : Int} {r : ℝ} (h : SignIs a r) : 0 < a ↔ 0 < r := by
  rcases h with ⟨rfl, hr⟩ | ⟨rfl, hr⟩ | ⟨rfl, hr⟩
  · simp [hr]
  · simp [hr]
  · simp [hr.le]

/-- The sign of a number is that of the real number it is: computed when the number has no names in it, given with the named
reals when it has. -/
theorem sign_right (x : ExactReal) : SignIs x.sign x.toReal := by
  unfold ExactReal.sign
  split
  · rename_i hfree
    rw [ExactReal.toReal, ExactReal.valueWith_nameFree _ hfree]
    exact exactSign_right _
  · exact Config.reals.right x

theorem numerics_le_iff (x y : ExactReal) : numerics.le x y = true ↔ x.toReal ≤ y.toReal := by
  rw [numerics_le, decide_eq_true_iff, (sign_right _).nonneg_iff, sub_toReal, sub_nonneg]

theorem numerics_lt_iff (x y : ExactReal) : numerics.lt x y = true ↔ x.toReal < y.toReal := by
  rw [numerics_lt, decide_eq_true_iff, (sign_right _).pos_iff, sub_toReal, sub_pos]

/-! ## The obligations -/

/-- Settles O19: each operation adds, by recursion on the terms of its operands, terms whose values and normal forms
`addTerm_toReal` and `addTerm_normal` give. -/
theorem exactArithmetic : Obligations.ExactArithmetic := by
  refine ⟨fun x y => ⟨add_toReal x y, sub_toReal x y, mul_toReal x y⟩,
    fun q x => ⟨scale_toReal q x, toReal_ofRat q⟩,
    fun x y => ⟨linear_add_toReal x y, fun q => linear_scale_toReal q x, toExact_toReal x⟩,
    fun x => ⟨cosTurn_toReal x, sinTurn_toReal x⟩,
    fun x => ⟨norm_toReal x, norm_normal x⟩,
    fun x => ⟨linear_norm_toReal x, linear_norm_normal x, toExact_normal x⟩,
    fun x y hx hy => ⟨add_normal hx hy, sub_normal hx hy, mul_normal y hx⟩,
    fun x hx => ⟨cosTurn_normal hx, sinTurn_normal hx⟩, fun n => ?_⟩
  obtain ⟨hnum, hnumValue⟩ := namedNumber_normal_toReal n
  obtain ⟨hfreq, hfreqValue⟩ := namedFrequency_normal_toReal n
  exact ⟨hnum, hnumValue, hfreq, hfreqValue⟩

/-- Settles O20: the sign taken is right (`sign_right`), and a comparison is the sign of a difference, which is exact. -/
theorem signExact : Obligations.SignExact :=
  ⟨fun x => (sign_right x).iffs, fun x y => ⟨numerics_le_iff x y, numerics_lt_iff x y⟩⟩

end Sys2Proof

/-! # State (10_state.md): what operations write, what every step keeps, and the units that rest on it -/

namespace Sys2Proof.Machine

-- Elaborated one after another, as the tests are: all these short lemmas at once take more threads than the memory limit allows.
set_option Elab.async false

/-! ## The pieces of state -/

/-- The pieces of the state other than `STATUS`, which every operation writes (60_exceptions.md rule R300). -/
inductive Place where
  | sb | bb | yb | fp | fq
  | a | xs | xf | hdrFlags | hdrLen
  | r | ev | parsed | cfg | gtz
  | nrziEncLevel | nrziDecPrev | crcReg | rsSyn | rsPar
  | tablesReady | pending | openTick
deriving DecidableEq

/-- A piece of state is the same in two states. -/
def Place.Same (s t : State) : Place → Prop
  | .sb => t.sb = s.sb
  | .bb => t.bb = s.bb
  | .yb => t.yb = s.yb
  | .fp => t.fp = s.fp
  | .fq => t.fq = s.fq
  | .a => t.a = s.a
  | .xs => t.xs = s.xs
  | .xf => t.xf = s.xf
  | .hdrFlags => t.hdrFlags = s.hdrFlags
  | .hdrLen => t.hdrLen = s.hdrLen
  | .r => t.r = s.r
  | .ev => t.ev = s.ev
  | .parsed => t.parsed = s.parsed
  | .cfg => t.cfg = s.cfg
  | .gtz => t.gtz = s.gtz
  | .nrziEncLevel => t.nrziEncLevel = s.nrziEncLevel
  | .nrziDecPrev => t.nrziDecPrev = s.nrziDecPrev
  | .crcReg => t.crcReg = s.crcReg
  | .rsSyn => t.rsSyn = s.rsSyn
  | .rsPar => t.rsPar = s.rsPar
  | .tablesReady => t.tablesReady = s.tablesReady
  | .pending => t.pending = s.pending
  | .openTick => t.openTick = s.openTick

theorem Place.Same.trans {s t u : State} {p : Place} (h : p.Same s t) (h' : p.Same t u) : p.Same s u := by
  cases p <;> exact Eq.trans h' h

/-- Between two states nothing but the pieces listed and `STATUS` changed. -/
def Within (ps : List Place) (s t : State) : Prop := ∀ p, p ∉ ps → p.Same s t

/-- Between two states nothing but one piece and `STATUS` changed. -/
abbrev Only (p : Place) (s t : State) : Prop := Within [p] s t

namespace Within

variable {ps : List Place} {s t u : State}

protected theorem refl : Within ps s s := by
  intro p _
  cases p <;> rfl

theorem mono {qs : List Place} (h : Within ps s t) (hsub : ps ⊆ qs) : Within qs s t :=
  fun p hp => h p fun hm => hp (hsub hm)

theorem trans (h : Within ps s t) (h' : Within ps t u) : Within ps s u :=
  fun p hp => (h p hp).trans (h' p hp)

/-- A write to one more piece, among those allowed. -/
theorem then_only {q : Place} (h : Within ps s t) (h' : Only q t u) (hq : q ∈ ps) : Within ps s u :=
  h.trans (h'.mono (by simpa using hq))

end Within

/-! ## One rule per write

Each `only_` lemma says what writing one field keeps; the rules in `Within` lift it to the model's named writes, so that the rule
for an operation reads like its definition. -/

section

variable (s : State)

theorem only_bb (v : Four (List Bit)) : Only .bb s { s with bb := v } := by
  intro p hp; cases p <;> simp_all [Place.Same]

theorem only_yb (v : Four (List Byte)) : Only .yb s { s with yb := v } := by
  intro p hp; cases p <;> simp_all [Place.Same]

theorem only_fp (v : List Nat) : Only .fp s { s with fp := v } := by
  intro p hp; cases p <;> simp_all [Place.Same]

theorem only_fq (v : List FrameRec) : Only .fq s { s with fq := v } := by
  intro p hp; cases p <;> simp_all [Place.Same]

theorem only_r (v : Four U32) : Only .r s { s with r := v } := by
  intro p hp; cases p <;> simp_all [Place.Same]

theorem only_ev (v : Vector ExactReal 16) : Only .ev s { s with ev := v } := by
  intro p hp; cases p <;> simp_all [Place.Same]

theorem only_parsed (v : Parsed) : Only .parsed s { s with parsed := v } := by
  intro p hp; cases p <;> simp_all [Place.Same]

theorem only_cfg (v : Cfg) : Only .cfg s { s with cfg := v } := by
  intro p hp; cases p <;> simp_all [Place.Same]

theorem only_gtz (v : Goertzel) : Only .gtz s { s with gtz := v } := by
  intro p hp; cases p <;> simp_all [Place.Same]

theorem only_nrziEncLevel (v : Bit) : Only .nrziEncLevel s { s with nrziEncLevel := v } := by
  intro p hp; cases p <;> simp_all [Place.Same]

theorem only_nrziDecPrev (v : Bit) : Only .nrziDecPrev s { s with nrziDecPrev := v } := by
  intro p hp; cases p <;> simp_all [Place.Same]

theorem only_crcReg (v : U16) : Only .crcReg s { s with crcReg := v } := by
  intro p hp; cases p <;> simp_all [Place.Same]

theorem only_rsSyn (v : Vector Byte 32) : Only .rsSyn s { s with rsSyn := v } := by
  intro p hp; cases p <;> simp_all [Place.Same]

theorem only_rsPar (v : Vector Byte 32) : Only .rsPar s { s with rsPar := v } := by
  intro p hp; cases p <;> simp_all [Place.Same]

theorem only_tablesReady (v : Bool) : Only .tablesReady s { s with tablesReady := v } := by
  intro p hp; cases p <;> simp_all [Place.Same]

end

namespace Within

variable {ps : List Place} {s t : State}

theorem bbWrite {k : Sel} {bits : List Bit} (h : Within ps s t) (hm : .bb ∈ ps := by simp) :
    Within ps s (bbWrite k bits t) := h.then_only (only_bb t _) hm

theorem ybWrite {k : Sel} {bytes : List Byte} (h : Within ps s t) (hm : .yb ∈ ps := by simp) :
    Within ps s (ybWrite k bytes t) := h.then_only (only_yb t _) hm

theorem setR {k : Sel} {v : U32} (h : Within ps s t) (hm : .r ∈ ps := by simp) : Within ps s (setR k v t) :=
  h.then_only (only_r t _) hm

theorem setCount {k : Sel} {n : Nat} (h : Within ps s t) (hm : .r ∈ ps := by simp) : Within ps s (setCount k n t) :=
  h.setR hm

theorem setCrc {v : U16} (h : Within ps s t) (hm : .crcReg ∈ ps := by simp) : Within ps s (setCrc v t) :=
  h.then_only (only_crcReg t v) hm

theorem setSyndromes {xs : List Byte} (h : Within ps s t) (hm : .rsSyn ∈ ps := by simp) :
    Within ps s (setSyndromes xs t) := h.then_only (only_rsSyn t _) hm

theorem setParity {xs : List Byte} (h : Within ps s t) (hm : .rsPar ∈ ps := by simp) : Within ps s (setParity xs t) :=
  h.then_only (only_rsPar t _) hm

theorem setEnergies {es : List ExactReal} (h : Within ps s t) (hm : .ev ∈ ps := by simp) :
    Within ps s (setEnergies es t) := h.then_only (only_ev t _) hm

theorem setGoertzel {c s1 s2 : ExactReal} (h : Within ps s t) (hm : .gtz ∈ ps := by simp) :
    Within ps s (setGoertzel c s1 s2 t) := h.then_only (only_gtz t _) hm

theorem leaveAfsk {x : AfskResult ExactReal} (h : Within ps s t) (hg : .gtz ∈ ps := by simp) (he : .ev ∈ ps := by simp) :
    Within ps s (leaveAfsk x t) := (h.setGoertzel hg).setEnergies he

theorem leaveMfsk {x : MfskResult ExactReal} (h : Within ps s t) (hg : .gtz ∈ ps := by simp) (he : .ev ∈ ps := by simp) :
    Within ps s (leaveMfsk x t) := (h.setGoertzel hg).setEnergies he

theorem leaveParsed {x : ParsedFrame} (h : Within ps s t) (hp : .parsed ∈ ps := by simp)
    (hc : .crcReg ∈ ps := by simp) : Within ps s (leaveParsed x t) := (h.then_only (only_parsed t _) hp).setCrc hc

theorem leaveSyndromes {bs : List (List Byte)} (h : Within ps s t) (hm : .rsSyn ∈ ps := by simp) :
    Within ps s (leaveSyndromes bs t) := by
  unfold Machine.leaveSyndromes
  split
  · exact h
  · exact h.setSyndromes hm

theorem leaveParity {ds : List (List Byte)} (h : Within ps s t) (hm : .rsPar ∈ ps := by simp) :
    Within ps s (leaveParity ds t) := by
  unfold Machine.leaveParity
  split
  · exact h
  · exact h.setParity hm

end Within

/-- An operation that began in `s` ends with a status code, and with writes to nothing but the pieces listed. -/
def EndsWithin (ps : List Place) (s : State) (o : Host.Outcome State Fault Refusal) : Prop :=
  ∃ x t, o = endWith x t ∧ Within ps s t

namespace EndsWithin

variable {ps : List Place} {s t : State} {x : Status}

theorem endWith (h : Within ps s t) : EndsWithin ps s (endWith x t) := ⟨x, t, rfl, h⟩

theorem raise : EndsWithin ps s (raise x s) := ⟨x, s, rfl, .refl⟩

/-- The next state is within the pieces listed, and its `STATUS` is a code of rule R300. -/
theorem next {o : Host.Outcome State Fault Refusal} (h : EndsWithin ps s o) (ho : o = .next t) :
    Within ps s t ∧ t.status.toNat ≤ 6 := by
  obtain ⟨x, u, rfl, hu⟩ := h
  cases ho
  refine ⟨hu.trans fun p _ => ?_, statusCode_le x⟩
  cases p <;> rfl

end EndsWithin

/-! ## What each operation writes -/

/-- The pieces of state that an operation may write besides `STATUS`. -/
def writes : Instr → List Place
  | .sysNop => []
  | .sysInit => [.tablesReady]
  | .sysReset =>
    [.sb, .bb, .yb, .fp, .fq, .a, .xs, .xf, .hdrFlags, .hdrLen, .r, .ev, .parsed, .cfg, .gtz, .nrziEncLevel, .nrziDecPrev,
      .crcReg, .rsSyn, .rsPar, .tablesReady]
  | .sysLoadp _ => [.cfg, .r]
  | .sysFqpop _ => [.fq, .yb, .r]
  | .gtzSetf | .gtzSetc | .gtzClr | .gtzStep => [.gtz]
  | .gtzEnergy => [.ev]
  | .gtzWin => [.gtz, .ev]
  | .afskSym | .mfskSym => [.r, .gtz, .ev]
  | .afskDemod _ | .mfskDemod _ => [.bb, .r, .gtz, .ev]
  | .sysMovb .. | .gfskDemod _ | .mfskUnmap .. | .hdlcStuff .. | .hdlcDestuff .. | .hdlcFrame .. => [.bb, .r]
  | .sysMovy .. | .mfskMap .. | .hdlcPack .. => [.yb, .r]
  | .nrziClr => [.nrziEncLevel, .nrziDecPrev]
  | .nrziEncb _ => [.nrziEncLevel, .r]
  | .nrziDecb _ => [.nrziDecPrev, .r]
  | .nrziEnc .. => [.bb, .nrziEncLevel]
  | .nrziDec .. => [.bb, .nrziDecPrev]
  | .hdlcUnpack .. => [.bb]
  | .hdlcFlags _ => [.fp, .r]
  | .hdlcExtract _ => [.fp, .fq, .r]
  | .frmBuild .. | .crcAppend .. => [.yb, .r, .crcReg]
  | .frmParse .. => [.yb, .r, .parsed, .crcReg]
  | .frmEncode .. => [.yb, .r, .crcReg, .rsPar]
  | .frmDecode .. => [.yb, .r, .parsed, .crcReg, .rsSyn]
  | .crcClr | .crcBit _ | .crcByte _ => [.crcReg]
  | .crcGen _ | .crcChk _ => [.r, .crcReg]
  | .crcFinal | .gfAdd .. | .gfMul .. | .gfInv _ | .gfExp _ | .gfLog _ => [.r]
  | .rsEncb .. => [.yb, .rsPar]
  | .rsSyn _ => [.r, .rsSyn]
  | .rsDecb .. | .rsDec .. => [.yb, .r, .rsSyn]
  | .rsEnc .. => [.yb, .r, .rsPar]

section

variable (src dst : Sel) (s : State)

/-! ### System operations and the Goertzel unit -/

theorem sysInit_endsWithin : EndsWithin [.tablesReady] s (execSysInit s) := by
  unfold execSysInit
  split
  · exact .endWith .refl
  · exact .endWith (only_tablesReady s true)

/-- A reset keeps the pending host actions and the tick (log 6). -/
theorem sysReset_endsWithin : EndsWithin (writes .sysReset) s (execSysReset s) := by
  refine .endWith fun p hp => ?_
  cases p <;> simp [writes] at hp <;> rfl

theorem sysLoadp_endsWithin (id : Sel) : EndsWithin [.cfg, .r] s (execSysLoadp id s) :=
  .endWith ((only_cfg s _).mono (by simp)).setR

theorem sysMovb_endsWithin : EndsWithin [.bb, .r] s (execSysMovb src dst s) :=
  .endWith Within.refl.bbWrite.setCount

theorem sysMovy_endsWithin : EndsWithin [.yb, .r] s (execSysMovy src dst s) :=
  .endWith Within.refl.ybWrite.setCount

theorem sysFqpop_endsWithin : EndsWithin [.fq, .yb, .r] s (execSysFqpop dst s) := by
  unfold execSysFqpop
  split
  · exact .raise
  · exact .endWith ((only_fq s _).mono (by simp)).ybWrite.setCount.setCount.setCount

theorem gtzSetf_endsWithin : EndsWithin [.gtz] s (execGtzSetf s) := by
  unfold execGtzSetf
  split
  · exact .raise
  · split
    · exact .raise
    · exact .endWith (only_gtz s _)

theorem gtzStep_endsWithin : EndsWithin [.gtz] s (execGtzStep s) := by
  unfold execGtzStep
  split
  · exact .raise
  · exact .endWith (only_gtz s _)

theorem gtzEnergy_endsWithin : EndsWithin [.ev] s (execGtzEnergy s) := by
  unfold execGtzEnergy
  split
  · exact .raise
  · exact .endWith (only_ev s _)

theorem gtzWin_endsWithin : EndsWithin [.gtz, .ev] s (execGtzWin s) := by
  unfold execGtzWin
  split
  · exact .raise
  · dsimp only
    split
    · exact .raise
    · exact .endWith Within.refl.setGoertzel.setEnergies

/-! ### Demodulators -/

theorem afskSym_endsWithin : EndsWithin [.r, .gtz, .ev] s (execAfskSym s) := by
  unfold execAfskSym
  split
  · exact .raise
  · dsimp only
    split
    · exact .raise
    · exact .endWith Within.refl.leaveAfsk.setR

theorem afskDemod_endsWithin : EndsWithin [.bb, .r, .gtz, .ev] s (execAfskDemod dst s) := by
  unfold execAfskDemod
  split
  · exact .raise
  · dsimp only
    split
    · exact .endWith Within.refl.bbWrite.setCount
    · exact .endWith Within.refl.bbWrite.setCount.leaveAfsk

theorem gfskDemod_endsWithin : EndsWithin [.bb, .r] s (execGfskDemod dst s) := by
  unfold execGfskDemod
  split
  · exact .raise
  · exact .endWith Within.refl.bbWrite.setCount

theorem mfskMap_endsWithin : EndsWithin [.yb, .r] s (execMfskMap src dst s) := by
  unfold execMfskMap
  split
  · exact .raise
  · exact .endWith Within.refl.ybWrite.setCount

theorem mfskUnmap_endsWithin : EndsWithin [.bb, .r] s (execMfskUnmap src dst s) := by
  unfold execMfskUnmap
  split
  · exact .raise
  · dsimp only
    split
    · exact .raise
    · exact .endWith Within.refl.bbWrite.setCount

theorem mfskSym_endsWithin : EndsWithin [.r, .gtz, .ev] s (execMfskSym s) := by
  unfold execMfskSym
  split
  · exact .raise
  · dsimp only
    split
    · exact .raise
    · exact .endWith Within.refl.leaveMfsk.setCount

theorem mfskDemod_endsWithin : EndsWithin [.bb, .r, .gtz, .ev] s (execMfskDemod dst s) := by
  unfold execMfskDemod
  split
  · exact .raise
  · dsimp only
    split
    · exact .endWith Within.refl.bbWrite.setCount
    · exact .endWith Within.refl.bbWrite.setCount.leaveMfsk

/-! ### NRZI and HDLC -/

theorem nrziClr_endsWithin : EndsWithin [.nrziEncLevel, .nrziDecPrev] s (execNrziClr s) :=
  .endWith (((only_nrziEncLevel s true).mono (by simp)).then_only (only_nrziDecPrev _ true) (by simp))

theorem nrziEncb_endsWithin (bit : Bit) : EndsWithin [.nrziEncLevel, .r] s (execNrziEncb bit s) :=
  .endWith ((only_nrziEncLevel s _).mono (by simp)).setR

theorem nrziDecb_endsWithin (bit : Bit) : EndsWithin [.nrziDecPrev, .r] s (execNrziDecb bit s) :=
  .endWith ((only_nrziDecPrev s bit).mono (by simp)).setR

theorem nrziEnc_endsWithin : EndsWithin [.bb, .nrziEncLevel] s (execNrziEnc src dst s) :=
  .endWith (Within.refl.bbWrite.then_only (only_nrziEncLevel _ _) (by simp))

theorem nrziDec_endsWithin : EndsWithin [.bb, .nrziDecPrev] s (execNrziDec src dst s) :=
  .endWith (Within.refl.bbWrite.then_only (only_nrziDecPrev _ _) (by simp))

theorem hdlcPack_endsWithin : EndsWithin [.yb, .r] s (execHdlcPack src dst s) :=
  .endWith Within.refl.ybWrite.setCount

theorem hdlcStuff_endsWithin : EndsWithin [.bb, .r] s (execHdlcStuff src dst s) :=
  .endWith Within.refl.bbWrite.setCount

theorem hdlcDestuff_endsWithin : EndsWithin [.bb, .r] s (execHdlcDestuff src dst s) :=
  .endWith Within.refl.bbWrite.setCount

theorem hdlcFrame_endsWithin : EndsWithin [.bb, .r] s (execHdlcFrame src dst s) := by
  unfold execHdlcFrame
  split
  · exact .raise
  · exact .endWith Within.refl.bbWrite.setCount

theorem hdlcFlags_endsWithin : EndsWithin [.fp, .r] s (execHdlcFlags src s) := by
  unfold execHdlcFlags
  split
  · exact .endWith ((only_fp s _).mono (by simp)).setCount
  · exact .raise

theorem within_lists (pos : List Nat) (recs : List FrameRec) :
    Within [.fp, .fq, .r] s { s with fp := pos, fq := recs } :=
  ((only_fp s pos).mono (by simp)).then_only (only_fq _ recs) (by simp)

theorem hdlcExtract_endsWithin : EndsWithin [.fp, .fq, .r] s (execHdlcExtract src s) := by
  unfold execHdlcExtract
  split
  · exact .endWith (within_lists s _ _).setCount.setCount
  · exact .raise

/-! ### Frames and CRC -/

theorem frmBuild_endsWithin : EndsWithin [.yb, .r, .crcReg] s (execFrmBuild src dst s) :=
  .endWith Within.refl.ybWrite.setR.setCrc

theorem frmParse_endsWithin : EndsWithin [.yb, .r, .parsed, .crcReg] s (execFrmParse src dst s) := by
  unfold execFrmParse
  split
  · exact .raise
  · exact .endWith Within.refl.leaveParsed.ybWrite.setCount

theorem frmEncode_endsWithin : EndsWithin [.yb, .r, .crcReg, .rsPar] s (execFrmEncode src dst s) := by
  unfold execFrmEncode
  dsimp only
  split
  · exact .raise
  · split
    · exact .endWith Within.refl.ybWrite.setR.setCount.leaveParity.setCrc
    · exact .endWith Within.refl.ybWrite.setR.setCount.setCrc

theorem frmDecode_endsWithin : EndsWithin [.yb, .r, .parsed, .crcReg, .rsSyn] s (execFrmDecode src dst s) := by
  unfold execFrmDecode
  dsimp only
  split
  · exact .raise
  · split
    · exact .endWith Within.refl.leaveParsed.setCrc
    · exact .endWith Within.refl.leaveParsed.setCrc.ybWrite.setCount.setCount.leaveSyndromes

theorem crcGen_endsWithin : EndsWithin [.r, .crcReg] s (execCrcGen src s) :=
  .endWith Within.refl.setR.setCrc

theorem crcAppend_endsWithin : EndsWithin [.yb, .r, .crcReg] s (execCrcAppend src dst s) :=
  .endWith Within.refl.ybWrite.setR.setCrc

theorem crcChk_endsWithin : EndsWithin [.r, .crcReg] s (execCrcChk src s) := by
  unfold execCrcChk
  dsimp only
  split
  · exact .raise
  · exact .endWith Within.refl.setR.setR.setR.setCrc

/-! ### GF(256) and Reed-Solomon -/

theorem gfInv_endsWithin (imm : Byte) : EndsWithin [.r] s (execGfInv imm s) := by
  unfold execGfInv
  split
  · exact .raise
  · exact .endWith Within.refl.setR

theorem gfLog_endsWithin (imm : Byte) : EndsWithin [.r] s (execGfLog imm s) := by
  unfold execGfLog
  split
  · exact .raise
  · exact .endWith Within.refl.setR

theorem rsEncb_endsWithin : EndsWithin [.yb, .rsPar] s (execRsEncb src dst s) := by
  unfold execRsEncb
  dsimp only
  split
  · exact .raise
  · exact .endWith Within.refl.ybWrite.setParity

theorem rsSyn_endsWithin : EndsWithin [.r, .rsSyn] s (execRsSyn src s) := by
  unfold execRsSyn
  dsimp only
  split
  · exact .raise
  · exact .endWith Within.refl.setSyndromes.setR

theorem rsDecb_endsWithin : EndsWithin [.yb, .r, .rsSyn] s (execRsDecb src dst s) := by
  unfold execRsDecb
  dsimp only
  split
  · exact .raise
  · split
    · exact .endWith Within.refl.setSyndromes
    · exact .endWith Within.refl.setSyndromes.ybWrite.setCount.setCount

theorem rsEnc_endsWithin : EndsWithin [.yb, .r, .rsPar] s (execRsEnc src dst s) :=
  .endWith Within.refl.ybWrite.setCount.leaveParity

theorem rsDec_endsWithin : EndsWithin [.yb, .r, .rsSyn] s (execRsDec src dst s) := by
  unfold execRsDec
  dsimp only
  split
  · exact .raise
  · split
    · exact .raise
    · exact .endWith Within.refl.ybWrite.setCount.setCount.leaveSyndromes

end

/-- Every operation ends with a status code and writes to nothing else than `writes` lists. -/
theorem exec_endsWithin (i : Instr) (s : State) : EndsWithin (writes i) s (exec i s) := by
  cases i with
  | sysNop => exact .endWith .refl
  | sysInit => exact sysInit_endsWithin s
  | sysReset => exact sysReset_endsWithin s
  | sysLoadp id => exact sysLoadp_endsWithin s id
  | sysMovb src dst => exact sysMovb_endsWithin src dst s
  | sysMovy src dst => exact sysMovy_endsWithin src dst s
  | sysFqpop dst => exact sysFqpop_endsWithin dst s
  | gtzSetf => exact gtzSetf_endsWithin s
  | gtzSetc => exact .endWith (only_gtz s _)
  | gtzClr => exact .endWith (only_gtz s _)
  | gtzStep => exact gtzStep_endsWithin s
  | gtzEnergy => exact gtzEnergy_endsWithin s
  | gtzWin => exact gtzWin_endsWithin s
  | afskSym => exact afskSym_endsWithin s
  | afskDemod dst => exact afskDemod_endsWithin dst s
  | gfskDemod dst => exact gfskDemod_endsWithin dst s
  | mfskMap src dst => exact mfskMap_endsWithin src dst s
  | mfskUnmap src dst => exact mfskUnmap_endsWithin src dst s
  | mfskSym => exact mfskSym_endsWithin s
  | mfskDemod dst => exact mfskDemod_endsWithin dst s
  | nrziClr => exact nrziClr_endsWithin s
  | nrziEncb bit => exact nrziEncb_endsWithin s bit
  | nrziDecb bit => exact nrziDecb_endsWithin s bit
  | nrziEnc src dst => exact nrziEnc_endsWithin src dst s
  | nrziDec src dst => exact nrziDec_endsWithin src dst s
  | hdlcUnpack src dst => exact .endWith (only_bb s _)
  | hdlcPack src dst => exact hdlcPack_endsWithin src dst s
  | hdlcStuff src dst => exact hdlcStuff_endsWithin src dst s
  | hdlcDestuff src dst => exact hdlcDestuff_endsWithin src dst s
  | hdlcFrame src dst => exact hdlcFrame_endsWithin src dst s
  | hdlcFlags src => exact hdlcFlags_endsWithin src s
  | hdlcExtract src => exact hdlcExtract_endsWithin src s
  | frmBuild src dst => exact frmBuild_endsWithin src dst s
  | frmParse src dst => exact frmParse_endsWithin src dst s
  | frmEncode src dst => exact frmEncode_endsWithin src dst s
  | frmDecode src dst => exact frmDecode_endsWithin src dst s
  | crcClr => exact .endWith (only_crcReg s _)
  | crcBit bit => exact .endWith (only_crcReg s _)
  | crcByte imm => exact .endWith (only_crcReg s _)
  | crcFinal => exact .endWith (only_r s _)
  | crcGen src => exact crcGen_endsWithin src s
  | crcAppend src dst => exact crcAppend_endsWithin src dst s
  | crcChk src => exact crcChk_endsWithin src s
  | gfAdd a b => exact .endWith (only_r s _)
  | gfMul a b => exact .endWith (only_r s _)
  | gfInv imm => exact gfInv_endsWithin s imm
  | gfExp index => exact .endWith (only_r s _)
  | gfLog imm => exact gfLog_endsWithin s imm
  | rsEncb src dst => exact rsEncb_endsWithin src dst s
  | rsSyn src => exact rsSyn_endsWithin src s
  | rsDecb src dst => exact rsDecb_endsWithin src dst s
  | rsEnc src dst => exact rsEnc_endsWithin src dst s
  | rsDec src dst => exact rsDec_endsWithin src dst s

/-! ## Who writes what -/

/-- The `OP`s of the operations that may write each piece of state (rules R11 to R13, R17, R19 to R23). -/
def Place.ops : Place → List Nat
  | .sb | .a | .xs | .xf | .hdrFlags | .hdrLen => [0x02]
  | .cfg => [0x02, 0x03]
  | .tablesReady => [0x01, 0x02]
  | .gtz => [0x02, 0x10, 0x11, 0x12, 0x13, 0x15, 0x20, 0x21, 0x42, 0x43]
  | .ev => [0x02, 0x14, 0x15, 0x20, 0x21, 0x42, 0x43]
  | .nrziEncLevel => [0x02, 0x50, 0x51, 0x53]
  | .nrziDecPrev => [0x02, 0x50, 0x52, 0x54]
  | .crcReg => [0x02, 0x70, 0x71, 0x72, 0x73, 0x80, 0x81, 0x82, 0x84, 0x85, 0x86]
  | .rsSyn => [0x02, 0x73, 0xA1, 0xA2, 0xA4]
  | .rsPar => [0x02, 0x72, 0xA0, 0xA3]
  | .parsed => [0x02, 0x71, 0x73]
  | .fp => [0x02, 0x65, 0x66]
  | .fq => [0x02, 0x06, 0x66]
  | .r =>
    [0x02, 0x03, 0x04, 0x05, 0x06, 0x20, 0x21, 0x30, 0x40, 0x41, 0x42, 0x43, 0x51, 0x52, 0x61, 0x62, 0x63, 0x64, 0x65, 0x66,
      0x70, 0x71, 0x72, 0x73, 0x83, 0x84, 0x85, 0x86, 0x90, 0x91, 0x92, 0x93, 0x94, 0xA1, 0xA2, 0xA3, 0xA4]
  | .bb => [0x02, 0x04, 0x21, 0x30, 0x41, 0x43, 0x53, 0x54, 0x60, 0x62, 0x63, 0x64]
  | .yb => [0x02, 0x05, 0x06, 0x40, 0x61, 0x70, 0x71, 0x72, 0x73, 0x85, 0xA0, 0xA2, 0xA3, 0xA4]
  | .pending | .openTick => []

theorem opField_commandWord (op a b c : Byte) : opField (commandWord op a b c) = op := by
  have hb := b.isLt
  have hc := c.isLt
  have ha := a.isLt
  apply BitVec.eq_of_toNat_eq
  rw [opField, BitVec.extractLsb'_toNat, Laws.commandWord_toNat, Nat.shiftRight_eq_div_pow]
  omega

/-- The operations that `writes` lists for a piece of state are those whose `OP` is listed for it. -/
theorem op_mem_of_writes (i : Instr) : ∀ p ∈ writes i, (opField (encode i)).toNat ∈ p.ops := by
  cases i <;> simp [writes, encode, opField_commandWord, Place.ops]

/-- An operation that changed a piece of state has one of the `OP`s listed for it. -/
theorem op_mem_of_changed {i : Instr} {s t : State} (h : exec i s = .next t) {p : Place} (hp : ¬ p.Same s t) :
    (opField (encode i)).toNat ∈ p.ops := by
  obtain ⟨hw, -⟩ := (exec_endsWithin i s).next h
  exact op_mem_of_writes i p (by_contra fun hn => hp (hw p hn))

/-- Settles O12: a changed piece is one that the operation may write (`exec_endsWithin`), and the `OP`s of the operations that
may write it are those listed (`op_mem_of_writes`). -/
theorem whoWritesWhat : Obligations.WhoWritesWhat := by
  intro i s t h
  have changed := fun p => op_mem_of_changed h (p := p)
  refine ⟨changed .sb, changed .a, changed .xs, changed .xf, changed .hdrFlags, changed .hdrLen, changed .cfg,
    changed .tablesReady, changed .gtz, changed .ev, changed .nrziEncLevel, changed .nrziDecPrev, changed .crcReg,
    changed .rsSyn, changed .rsPar, changed .parsed, changed .fp, changed .fq, changed .r, changed .bb, changed .yb,
    by_contra fun hn => ?_, by_contra fun hn => ?_⟩
  · simpa [Place.ops] using changed .pending hn
  · simpa [Place.ops] using changed .openTick hn

/-! ## STATUS is not read -/

/-- Settles O11: an operation reads the fields other than `STATUS` and its end overwrites `STATUS`, so both sides are one term once
the four operations that may keep `RS.SYN` or `RS.PAR` are written as one update (`leaveSyndromes_eq`, `leaveParity_eq`). -/
theorem statusNotRead : Obligations.StatusNotRead := by
  intro i s code
  cases i with
  | frmEncode src dst =>
    simp only [exec, execFrmEncode, leaveParity_eq]
    cases h : flagFec s.hdrFlags <;> simp only [withStatus, h] <;> rfl
  | frmDecode src dst => simp only [exec, execFrmDecode, leaveSyndromes_eq]; rfl
  | rsEnc src dst => simp only [exec, execRsEnc, leaveParity_eq]; rfl
  | rsDec src dst => simp only [exec, execRsDec, leaveSyndromes_eq]; rfl
  | _ => rfl

/-! ## The Goertzel unit: values and normal forms (40_goertzel.md rules R90, R91) -/

section

variable {c : ExactReal} {st : ExactReal × ExactReal} {xs : List ExactReal}

theorem goertzelCoeff_toReal (f : LinearReal) (fs : Nat) :
    (goertzelCoeff numerics f fs).toReal = realCoeff f.toReal fs := by
  have hturn : (1 / (fs : ℝ)) * f.toReal = f.toReal / fs := by ring
  simp [goertzelCoeff, realCoeff, ← hturn]

/-- A state of the Goertzel unit, read as real numbers. -/
noncomputable def pairValue (st : ExactReal × ExactReal) : ℝ × ℝ := (st.1.toReal, st.2.toReal)

theorem goertzelStep_toReal (c : ExactReal) (st : ExactReal × ExactReal) (x : ExactReal) :
    pairValue (goertzelStep numerics c st x) = realStep c.toReal (pairValue st) x.toReal := by
  simp [goertzelStep, realStep, pairValue]

theorem goertzelEnergy_toReal (c : ExactReal) (st : ExactReal × ExactReal) :
    (goertzelEnergy numerics c st).toReal = realEnergy c.toReal (pairValue st) := by
  simp [goertzelEnergy, realEnergy, pairValue, mul_assoc]

theorem goertzelRun_toReal (c : ExactReal) (xs : List ExactReal) :
    pairValue (goertzelRun numerics c xs) = realRun c.toReal (xs.map ExactReal.toReal) := by
  have run : ∀ st, pairValue (xs.foldl (goertzelStep numerics c) st) =
      (xs.map ExactReal.toReal).foldl (realStep c.toReal) (pairValue st) := by
    induction xs with
    | nil => intro st; rfl
    | cons x xs ih => intro st; rw [List.foldl_cons, ih, goertzelStep_toReal, List.map_cons, List.foldl_cons]
  exact run _

theorem goertzelWindow_toReal (f : LinearReal) (fs : Nat) (xs : List ExactReal) :
    (goertzelWindow numerics (goertzelCoeff numerics f fs) xs).toReal = realWindow f.toReal fs xs := by
  rw [goertzelWindow, goertzelEnergy_toReal, goertzelRun_toReal, goertzelCoeff_toReal]; rfl

/-- Both numbers of a state of the Goertzel unit are in normal form. -/
def PairNormal (st : ExactReal × ExactReal) : Prop := st.1.Normal ∧ st.2.Normal

theorem goertzelCoeff_normal (f : LinearReal) (fs : Nat) : (goertzelCoeff numerics f fs).Normal :=
  scale_normal 2 (cosTurn_normal (linear_scale_normal _ f))

theorem goertzelStep_normal {x : ExactReal} (hc : c.Normal) (hst : PairNormal st) (hx : x.Normal) :
    PairNormal (goertzelStep numerics c st x) :=
  ⟨sub_normal (add_normal hx (mul_normal _ hc)) hst.2, hst.1⟩

theorem goertzelEnergy_normal (hc : c.Normal) (hst : PairNormal st) : (goertzelEnergy numerics c st).Normal :=
  sub_normal (add_normal (mul_normal _ hst.1) (mul_normal _ hst.2)) (mul_normal _ hc)

theorem goertzelRun_normal (hc : c.Normal) (hxs : ∀ x ∈ xs, x.Normal) : PairNormal (goertzelRun numerics c xs) :=
  List.foldlRecOn xs (goertzelStep numerics c) ⟨zero_normal, zero_normal⟩
    fun _ hst x hx => goertzelStep_normal hc hst (hxs x hx)

theorem goertzelWindow_normal (hc : c.Normal) (hxs : ∀ x ∈ xs, x.Normal) : (goertzelWindow numerics c xs).Normal :=
  goertzelEnergy_normal hc (goertzelRun_normal hc hxs)

end

/-! ## Samples of a window are samples of the waveform -/

theorem mem_of_mem_slice {α : Type} {xs : List α} {i j : Nat} {x : α} (h : x ∈ slice xs i j) : x ∈ xs :=
  List.mem_of_mem_drop (List.mem_of_mem_take h)

theorem mem_of_mem_symWindows {α : Type} {xs w : List α} {off sps : Nat} (hw : w ∈ symWindows xs off sps) {x : α}
    (hx : x ∈ w) : x ∈ xs := by
  obtain ⟨k, -, rfl⟩ := List.mem_map.mp hw
  exact mem_of_mem_slice hx

/-! ## The invariant -/

/-- The real numbers of configuration registers are in normal form. -/
structure Cfg.RealsNormal (c : Cfg) : Prop where
  mark : ∀ x, c.fMark = some x → x.Normal
  space : ∀ x, c.fSpace = some x → x.Normal
  tones : ∀ (k : Fin 16) (x : LinearReal), c.tone[k] = some x → x.Normal
  alpha : ∀ x, c.gfskAlpha = some x → x.Normal

/-- The pieces of state that the invariant speaks of, besides `STATUS`. -/
def invPlaces : List Place := [.sb, .xs, .xf, .ev, .parsed, .cfg, .gtz, .tablesReady]

namespace State.Inv

variable {s t : State}

/-- Writes to pieces that the invariant does not speak of keep it. -/
theorem of_within {ps : List Place} (hs : s.Inv) (h : Within ps s t) (hps : ∀ p ∈ ps, p ∉ invPlaces)
    (hstatus : t.status.toNat ≤ 6) : t.Inv := by
  have same : ∀ p ∈ invPlaces, p.Same s t := fun p hp => h p fun hm => hps p hm hp
  have hsb : t.sb = s.sb := same .sb (by decide)
  have hxs : t.xs = s.xs := same .xs (by decide)
  have hxf : t.xf = s.xf := same .xf (by decide)
  have hev : t.ev = s.ev := same .ev (by decide)
  have hparsed : t.parsed = s.parsed := same .parsed (by decide)
  have hcfg : t.cfg = s.cfg := same .cfg (by decide)
  have hgtz : t.gtz = s.gtz := same .gtz (by decide)
  have htables : t.tablesReady = s.tablesReady := same .tablesReady (by decide)
  constructor
  case status => exact hstatus
  all_goals simp only [hsb, hxs, hxf, hev, hparsed, hcfg, hgtz, htables]
  exacts [hs.tables, hs.gzip, hs.fec, hs.profile, hs.samples, hs.sample, hs.operand, hs.mark, hs.space, hs.tones, hs.alpha,
    hs.energies, hs.coeff, hs.state1, hs.state2]

theorem setStatus (hs : s.Inv) (x : Status) : (setStatus x s).Inv := { hs with status := statusCode_le x }

/-- An operation that ends in a state with the invariant leaves it. -/
theorem endWith (hs : s.Inv) {x : Status} (h : Machine.endWith x s = .next t) : t.Inv := by
  cases h
  exact hs.setStatus x

theorem setR (hs : s.Inv) (k : Sel) (v : U32) : (setR k v s).Inv :=
  hs.of_within Within.refl.setR (ps := [.r]) (by decide) hs.status

theorem setGoertzel (hs : s.Inv) {c : ExactReal} {st : ExactReal × ExactReal} (hc : c.Normal) (hst : PairNormal st) :
    (setGoertzel c st.1 st.2 s).Inv :=
  { hs with
    coeff := fun _ h => by cases h; exact hc
    state1 := hst.1
    state2 := hst.2 }

theorem setEnergies (hs : s.Inv) {es : List ExactReal} (hes : ∀ e ∈ es, e.Normal) : (setEnergies es s).Inv :=
  { hs with
    energies := fun k => by
      change (evWrite es s.ev)[k.val].Normal
      rw [evWrite_get _ _ _ k.isLt, List.getD_eq_getElem?_getD]
      cases h : es[k.val]? with
      | none => exact hs.energies k
      | some e => exact hes e (List.mem_of_getElem? h) }

theorem leaveAfsk (hs : s.Inv) {xs : List ExactReal} (hxs : ∀ x ∈ xs, x.Normal) (fm fsp : LinearReal) (fs : Nat) :
    (leaveAfsk (afskSymbol numerics xs fm fsp fs) s).Inv := by
  have hmark := goertzelWindow_normal (goertzelCoeff_normal fm fs) hxs
  have hc := goertzelCoeff_normal fsp fs
  have hst := goertzelRun_normal hc hxs
  refine (hs.setGoertzel hc hst).setEnergies fun e he => ?_
  rcases List.mem_pair.mp he with rfl | rfl
  · exact hmark
  · exact goertzelEnergy_normal hc hst

theorem leaveMfsk (hs : s.Inv) {xs : List ExactReal} (hxs : ∀ x ∈ xs, x.Normal) (tones : List LinearReal) (fs : Nat) :
    (leaveMfsk (mfskSymbol numerics xs tones fs) s).Inv := by
  have hcs : ∀ c ∈ tones.map fun f => goertzelCoeff numerics f fs, c.Normal := by
    simp only [List.mem_map]
    rintro _ ⟨f, -, rfl⟩
    exact goertzelCoeff_normal f fs
  have hlast : ((tones.map fun f => goertzelCoeff numerics f fs).getLastD numerics.zero).Normal := by
    rw [List.getLastD_eq_getLast?]
    cases h : (tones.map fun f => goertzelCoeff numerics f fs).getLast? with
    | none => exact zero_normal
    | some c => exact hcs c (List.mem_of_getLast? h)
  refine (hs.setGoertzel hlast (goertzelRun_normal hlast hxs)).setEnergies fun e he => ?_
  obtain ⟨c, hc, rfl⟩ := List.mem_map.mp he
  exact goertzelWindow_normal (hcs c hc) hxs

theorem leaveParsed (hs : s.Inv) (r : ParsedFrame) : (leaveParsed r s).Inv :=
  { hs with gzip := rfl, fec := rfl, profile := rfl }

/-! ### Reset and profiles -/

theorem reset : State.reset.Inv where
  tables := rfl
  status := by decide
  gzip := by decide
  fec := by decide
  profile := by decide
  samples := by simp [State.reset]
  sample := zero_normal
  operand := rfl
  mark := by simp [State.reset]
  space := by simp [State.reset]
  tones := by simp [State.reset]
  alpha := by simp [State.reset]
  energies := fun k => by simpa [State.reset] using zero_normal
  coeff := by simp [State.reset]
  state1 := zero_normal
  state2 := zero_normal

theorem resetBlock (s : State) : (resetBlock s).Inv := { reset with }

theorem cfg (hs : s.Inv) : s.cfg.RealsNormal := ⟨hs.mark, hs.space, hs.tones, hs.alpha⟩

theorem setCfg (hs : s.Inv) {c : Cfg} (hc : c.RealsNormal) : (setCfg c s).Inv :=
  { hs with mark := hc.mark, space := hc.space, tones := hc.tones, alpha := hc.alpha }

end State.Inv

theorem linear_normal_of_some_norm {x y : LinearReal} (h : some x.norm = some y) : y.Normal := by
  cases h
  exact linear_norm_normal x

theorem normal_of_some_norm {x y : ExactReal} (h : some x.norm = some y) : y.Normal := by
  cases h
  exact norm_normal x

/-- Every tone of a profile's entry is in normal form. -/
theorem romTones_normal (p : Profile) (k : Fin 16) {x : LinearReal} (h : (romTones p)[k] = some x) : x.Normal := by
  simp only [romTones, Fin.getElem_fin, Vector.getElem_mapFinIdx] at h
  split at h
  · exact linear_normal_of_some_norm h
  · obtain ⟨y, -, rfl⟩ := Option.map_eq_some_iff.mp h
    exact linear_norm_normal y

/-- Every real number of a profile's entry is in normal form. -/
theorem loadProfile_realsNormal (p : Profile) (c : Cfg) : (loadProfile (profileRom p) c).RealsNormal := by
  unfold loadProfile profileRom
  cases profileKind p with
  | afsk =>
    exact ⟨fun _ => linear_normal_of_some_norm, fun _ => linear_normal_of_some_norm, fun _ _ h => by simp at h, nofun⟩
  | gfsk =>
    exact ⟨fun _ => linear_normal_of_some_norm, fun _ => linear_normal_of_some_norm, fun _ _ h => by simp at h,
      fun _ => normal_of_some_norm⟩
  | mfsk => exact ⟨nofun, nofun, fun k _ => romTones_normal p k, nofun⟩

/-! ## Operations keep the invariant -/

section

variable {s t : State} (hs : s.Inv)

include hs

theorem execGtzSetf_inv (h : execGtzSetf s = .next t) : t.Inv := by
  unfold execGtzSetf at h
  split at h
  · exact hs.endWith h
  · split at h
    · exact hs.endWith h
    · rename_i fs _ _
      have hu : State.Inv { s with gtz := { s.gtz with coeff := some (goertzelCoeff numerics s.xf fs) } } :=
        { hs with coeff := fun _ h => by cases h; exact goertzelCoeff_normal s.xf fs }
      exact hu.endWith h

theorem execGtzSetc_inv (h : execGtzSetc s = .next t) : t.Inv := by
  have hu : State.Inv { s with gtz := { s.gtz with coeff := some s.xf.toExact } } :=
    { hs with coeff := fun _ h => by cases h; exact toExact_normal s.xf }
  exact hu.endWith h

theorem execGtzClr_inv (h : execGtzClr s = .next t) : t.Inv := by
  have hu : State.Inv { s with gtz := { s.gtz with s1 := .zero, s2 := .zero } } :=
    { hs with state1 := zero_normal, state2 := zero_normal }
  exact hu.endWith h

theorem execGtzStep_inv (h : execGtzStep s = .next t) : t.Inv := by
  unfold execGtzStep at h
  split at h
  · exact hs.endWith h
  · rename_i c hc
    have hst : PairNormal (goertzelStep numerics c (s.gtz.s1, s.gtz.s2) s.xs) :=
      goertzelStep_normal (hs.coeff c hc) ⟨hs.state1, hs.state2⟩ hs.sample
    exact (hs.setGoertzel (hs.coeff c hc) hst).endWith h

theorem execGtzEnergy_inv (h : execGtzEnergy s = .next t) : t.Inv := by
  unfold execGtzEnergy at h
  split at h
  · exact hs.endWith h
  · rename_i c hc
    have he := goertzelEnergy_normal (hs.coeff c hc) (st := (s.gtz.s1, s.gtz.s2)) ⟨hs.state1, hs.state2⟩
    exact (hs.setEnergies (by simpa using he)).endWith h

theorem slice_samples_normal (i j : Nat) : ∀ x ∈ slice s.sb i j, x.Normal :=
  fun x hx => hs.samples x (mem_of_mem_slice hx)

theorem execGtzWin_inv (h : execGtzWin s = .next t) : t.Inv := by
  unfold execGtzWin at h
  split at h
  · exact hs.endWith h
  · rename_i c hc
    dsimp only at h
    split at h
    · exact hs.endWith h
    · have hst := goertzelRun_normal (hs.coeff c hc)
        (slice_samples_normal hs (bankGet s.a 0).toNat ((bankGet s.a 0).toNat + (bankGet s.a 1).toNat))
      have he := goertzelEnergy_normal (hs.coeff c hc) hst
      exact ((hs.setGoertzel (hs.coeff c hc) hst).setEnergies (by simpa using he)).endWith h

theorem execAfskSym_inv (h : execAfskSym s = .next t) : t.Inv := by
  unfold execAfskSym at h
  split at h
  · exact hs.endWith h
  · dsimp only at h
    split at h
    · exact hs.endWith h
    · exact ((hs.leaveAfsk (slice_samples_normal hs _ _) _ _ _).setR _ _).endWith h

theorem execMfskSym_inv (h : execMfskSym s = .next t) : t.Inv := by
  unfold execMfskSym at h
  split at h
  · exact hs.endWith h
  · dsimp only at h
    split at h
    · exact hs.endWith h
    · exact ((hs.leaveMfsk (slice_samples_normal hs _ _) _ _).setR _ _).endWith h

theorem writeBits_inv (dst k : Sel) (bits : List Bit) (n : Nat) : (setCount k n (bbWrite dst bits s)).Inv :=
  hs.of_within (ps := [.bb, .r]) Within.refl.bbWrite.setCount (by decide) hs.status

theorem execAfskDemod_inv (dst : Sel) (h : execAfskDemod dst s = .next t) : t.Inv := by
  unfold execAfskDemod at h
  split at h
  · exact hs.endWith h
  · dsimp only at h
    split at h
    · exact (writeBits_inv hs ..).endWith h
    · rename_i hx
      obtain ⟨w, hw, rfl⟩ := List.mem_map.mp (List.mem_of_getLast? hx)
      have hwn : ∀ x ∈ w, x.Normal := fun x hx => hs.samples x (mem_of_mem_symWindows hw hx)
      exact ((writeBits_inv hs ..).leaveAfsk hwn _ _ _).endWith h

theorem execMfskDemod_inv (dst : Sel) (h : execMfskDemod dst s = .next t) : t.Inv := by
  unfold execMfskDemod at h
  split at h
  · exact hs.endWith h
  · dsimp only at h
    split at h
    · exact (writeBits_inv hs ..).endWith h
    · rename_i hx
      obtain ⟨w, hw, rfl⟩ := List.mem_map.mp (List.mem_of_getLast? hx)
      have hwn : ∀ x ∈ w, x.Normal := fun x hx => hs.samples x (mem_of_mem_symWindows hw hx)
      exact ((writeBits_inv hs ..).leaveMfsk hwn _ _).endWith h

theorem execFrmParse_inv (src dst : Sel) (h : execFrmParse src dst s = .next t) : t.Inv := by
  unfold execFrmParse at h
  split at h
  · exact hs.endWith h
  · refine State.Inv.endWith ?_ h
    exact (hs.leaveParsed _).of_within (ps := [.yb, .r]) Within.refl.ybWrite.setCount (by decide) hs.status

theorem execFrmDecode_inv (src dst : Sel) (h : execFrmDecode src dst s = .next t) : t.Inv := by
  unfold execFrmDecode at h
  dsimp only at h
  split at h
  · exact hs.endWith h
  · rename_i r _
    have hp := hs.leaveParsed r
    split at h
    · refine State.Inv.endWith ?_ h
      exact hp.of_within (ps := [.crcReg]) Within.refl.setCrc (by decide) hp.status
    · refine State.Inv.endWith ?_ h
      refine hp.of_within (ps := [.crcReg, .yb, .r, .rsSyn])
        Within.refl.setCrc.ybWrite.setCount.setCount.leaveSyndromes (by decide) ?_
      rw [leaveSyndromes_eq]
      exact hp.status

theorem execSysInit_inv (h : execSysInit s = .next t) : t.Inv := by
  unfold execSysInit at h
  rw [if_pos hs.tables] at h
  exact hs.endWith h

theorem execSysLoadp_inv (id : Sel) (h : execSysLoadp id s = .next t) : t.Inv :=
  ((hs.setCfg (loadProfile_realsNormal _ s.cfg)).setR _ _).endWith h

/-- Every operation keeps the invariant. -/
theorem exec_inv (i : Instr) (h : exec i s = .next t) : t.Inv := by
  obtain ⟨hw, hstatus⟩ := (exec_endsWithin i s).next h
  cases i with
  | sysInit => exact execSysInit_inv hs h
  | sysReset => exact (State.Inv.resetBlock s).endWith h
  | sysLoadp id => exact execSysLoadp_inv hs id h
  | gtzSetf => exact execGtzSetf_inv hs h
  | gtzSetc => exact execGtzSetc_inv hs h
  | gtzClr => exact execGtzClr_inv hs h
  | gtzStep => exact execGtzStep_inv hs h
  | gtzEnergy => exact execGtzEnergy_inv hs h
  | gtzWin => exact execGtzWin_inv hs h
  | afskSym => exact execAfskSym_inv hs h
  | afskDemod dst => exact execAfskDemod_inv hs dst h
  | mfskSym => exact execMfskSym_inv hs h
  | mfskDemod dst => exact execMfskDemod_inv hs dst h
  | frmParse src dst => exact execFrmParse_inv hs src dst h
  | frmDecode src dst => exact execFrmDecode_inv hs src dst h
  | _ => exact hs.of_within hw (by simp [writes, invPlaces]) hstatus

theorem issue_inv (w : U32) (h : issue w s = .next t) : t.Inv := by
  unfold issue at h
  split at h
  · exact hs.endWith h
  · exact exec_inv hs _ h

theorem hostAct_inv (act : HostAction) (h : hostAct act s = .next t) : t.Inv := by
  have hc := hs.cfg
  cases act with
  | command w => exact issue_inv hs w h
  | resetInput => cases h; exact .resetBlock s
  | setXs v => cases h; exact { hs with sample := norm_normal v }
  | setXf v => cases h; exact { hs with operand := linear_norm_normal v }
  | setFMark v => cases h; exact hs.setCfg { hc with mark := fun _ => linear_normal_of_some_norm }
  | setFSpace v => cases h; exact hs.setCfg { hc with space := fun _ => linear_normal_of_some_norm }
  | setGfskAlpha v => cases h; exact hs.setCfg { hc with alpha := fun _ => normal_of_some_norm }
  | setTone k v =>
    cases h
    refine hs.setCfg { hc with tones := fun j x hx => ?_ }
    simp only [Fin.getElem_fin, Vector.getElem_set] at hx
    split at hx
    · exact linear_normal_of_some_norm hx
    · exact hc.tones j x hx
  | loadSb xs =>
    cases h
    refine { hs with samples := fun x hx => ?_ }
    obtain ⟨y, -, rfl⟩ := List.mem_map.mp hx
    exact norm_normal y
  | _ => cases h; exact { hs with }

end

/-- Settles O9: every action of the host keeps the invariant (`hostAct_inv`). An operation that writes no piece the invariant speaks
of keeps it by its frame (`State.Inv.of_within`); the others write numbers in normal form. -/
theorem stepKeepsInv : Obligations.StepKeepsInv := by
  intro s t hs h
  unfold step hostTurn at h
  split at h
  · cases h; exact hs
  · exact hostAct_inv (s := takeAction _ s) { hs with } _ h

/-! ## What a state holds after a write, in the terms of the statements -/

theorem bbWritten_of_eq {dst : Sel} {out : List Bit} {s t : State} (h : t.bb = bankSet s.bb dst out) :
    BbWritten dst out s t := by
  simp only [BbWritten, bbRead, h]
  exact ⟨bankGet_bankSet_same .., fun k hk => bankGet_bankSet_ne _ _ hk⟩

theorem ybWritten_of_eq {dst : Sel} {out : List Byte} {s t : State} (h : t.yb = bankSet s.yb dst out) :
    YbWritten dst out s t := by
  simp only [YbWritten, ybRead, h]
  exact ⟨bankGet_bankSet_same .., fun k hk => bankGet_bankSet_ne _ _ hk⟩

theorem rWritten_of_eq {k : Sel} {v : U32} {s t : State} (h : t.r = bankSet s.r k v) : RWritten [(k, v)] s t := by
  simp only [RWritten, h, List.mem_singleton, forall_eq]
  exact ⟨bankGet_bankSet_same .., fun j hj => bankGet_bankSet_ne _ _ (Ne.symm hj)⟩

theorem evWritten_of_eq {es : List ExactReal} {s t : State} (h : t.ev = evWrite es s.ev) : EvWritten es s t := by
  intro k
  rw [h]
  exact evWrite_get es s.ev k.val k.isLt

/-! ## The host's turns and reset (10_state.md rules R10 to R12, R17, R27) -/

/-- Settles O5: the turn of a command word that decodes is the run of its operation. -/
theorem stepRunsCommand : Obligations.StepRunsCommand := by
  intro s w i rest hp hd
  simp only [step, hostTurn, hp, hostAct, issue, hd]

/-- Writing one tone changes that tone only. -/
theorem setTone_spec (s : State) (k : Fin 16) (v : LinearReal) :
    ∃ t x, hostAct (.setTone k v) s = .next t ∧ t.cfg.tone[k] = some x ∧ x.toReal = v.toReal ∧
      (∀ j : Fin 16, j ≠ k → t.cfg.tone[j] = s.cfg.tone[j]) ∧
      t = { s with cfg := { s.cfg with tone := t.cfg.tone } } := by
  refine ⟨_, v.norm, rfl, by simp [setCfg], linear_norm_toReal v, fun j hj => ?_, rfl⟩
  have hne : k.val ≠ j.val := fun h => hj (Fin.ext h.symm)
  simp [setCfg, Vector.getElem_set_ne, hne]

/-- Settles O6, one case per kind of host action: a write is one update, and the normal form keeps the real number. -/
theorem hostTurns : Obligations.HostTurns := by
  refine ⟨?idle, ?turn, ?a, ?xs, ?xf, ?hdrFlags, ?hdrLen, ?fs, ?baud, ?kind, ?fMark, ?fSpace, ?bps, ?ntones, setTone_spec,
    ?alpha, ?npre, ?minFrameBits, ?flagAdvance, ?sb, ?bb, ?yb, ?fp, ?fq⟩
  case idle => intro s hp; simp only [step, hostTurn, hp]
  case turn => intro s act rest hp; simp only [step, hostTurn, hp]
  case a => exact fun s k v => ⟨_, rfl, bankGet_bankSet_same .., fun _ hj => bankGet_bankSet_ne _ _ hj, rfl⟩
  case xs => exact fun s v => ⟨_, rfl, norm_toReal v, rfl⟩
  case xf => exact fun s v => ⟨_, rfl, linear_norm_toReal v, rfl⟩
  case fMark | fSpace => exact fun s v => ⟨v.norm, rfl, linear_norm_toReal v⟩
  case alpha => exact fun s v => ⟨v.norm, rfl, norm_toReal v⟩
  case sb => exact fun s xs => ⟨_, rfl, by simp, rfl⟩
  case bb => exact fun s k bits => ⟨_, rfl, bbWritten_of_eq rfl, rfl⟩
  case yb => exact fun s k bytes => ⟨_, rfl, ybWritten_of_eq rfl, rfl⟩
  case hdrFlags | hdrLen | fs | baud | kind | bps | ntones | npre | minFrameBits | flagAdvance | fp | fq =>
    exact fun _ _ => rfl

/-- Settles O7: the fields of the reset state are read off; a bank of equal registers reads alike under every selector. -/
theorem resetTable : Obligations.ResetTable := by
  have banks : ∀ {α : Type} (x : α) (k : Sel), bankGet ⟨x, x, x, x⟩ k = x := by
    intro α x k
    rcases sel_cases k with rfl | rfl | rfl | rfl <;> rfl
  simp [Obligations.ResetTable, State.reset, bbRead, ybRead, banks, linear_toReal]

/-- Settles O8. -/
theorem resetInv : Obligations.ResetInv := .reset

/-! ## Loading the Goertzel unit (40_goertzel.md rules R92 to R94) -/

/-- Settles O21: the coefficient loaded is that of rule R90 by `goertzelCoeff_toReal`. -/
theorem gtzLoad : Obligations.GtzLoad := by
  intro s
  refine ⟨fun h => ?_, fun fs hfs hpos => ?_, ?_, ?_⟩
  · rcases h with h | h <;> simp only [exec, execGtzSetf, h] <;> rfl
  · have hpos : ¬ fs < 1 := by omega
    refine ⟨{ s with gtz := ⟨some (goertzelCoeff numerics s.xf fs), s.gtz.s1, s.gtz.s2⟩, status := 0 }, _, ?_, rfl,
      goertzelCoeff_toReal s.xf fs, rfl⟩
    simp only [exec, execGtzSetf, hfs, if_neg hpos]
    rfl
  · exact ⟨_, s.xf.toExact, rfl, rfl, toExact_toReal s.xf, rfl⟩
  · exact ⟨_, .zero, rfl, rfl, rfl, rfl⟩

/-! ## Configurations and windows -/

/-- The checks of rule R113 accept what `sym_config` answers. -/
theorem symReady_iff {c : Cfg} {fs sps : Nat} : SymReady c fs sps ↔ symConfig c = some ⟨fs, sps⟩ := by
  simp only [symConfig_eq_some, SymReady, SymConfig.mk.injEq]
  constructor
  · rintro ⟨baud, hfs, hbaud, h1, h2, hmod, hsps⟩
    exact ⟨fs, baud, hfs, hbaud, h1, h2, hmod, rfl, hsps⟩
  · rintro ⟨_, baud, hfs, hbaud, h1, h2, hmod, rfl, hsps⟩
    exact ⟨baud, hfs, hbaud, h1, h2, hmod, hsps⟩

/-- The checks of rules R113, R126 and R17 accept what `mfsk_config` answers. -/
theorem mfskReady_iff {c : Cfg} {fs sps b : Nat} {tones : List LinearReal} :
    MfskReady c fs sps b tones ↔ mfskConfig c = some ⟨⟨fs, sps⟩, b, tones⟩ := by
  simp only [MfskReady, mfskConfig_eq_some, symReady_iff, bpsConfig_eq_some, and_assoc]

/-- As many tones are used as a symbol has values. -/
theorem MfskReady.tones_length {c : Cfg} {fs sps b : Nat} {tones : List LinearReal} (h : MfskReady c fs sps b tones) :
    tones.length = 2 ^ b := by
  obtain ⟨-, -, -, -, hlow, hhigh, htones⟩ := h
  have hlen := congrArg List.length htones
  simp only [List.length_take, Vector.length_toList, List.length_map] at hlen
  omega

theorem MfskReady.tones_ne_nil {c : Cfg} {fs sps b : Nat} {tones : List LinearReal} (h : MfskReady c fs sps b tones) :
    tones ≠ [] :=
  List.ne_nil_of_length_pos (h.tones_length ▸ Nat.two_pow_pos b)

theorem slice_add {α : Type} (xs : List α) (i n : Nat) : slice xs i (i + n) = (xs.drop i).take n := by
  simp [slice]

/-- The symbol window of number `k` (rule R114). -/
theorem symWindows_getElem? {α : Type} (xs : List α) {off sps k : Nat} (hk : k < windowCount xs.length off sps) :
    (symWindows xs off sps)[k]? = some ((xs.drop (off + k * sps)).take sps) := by
  have hstop : off + (k + 1) * sps = off + k * sps + sps := by ring
  simp [symWindows, hk, hstop, slice_add]

/-! ## The best tone (41_demodulators.md rule R130) -/

/-- The energy `e` at index `best` is a greatest one, and every one before it is smaller. -/
def IsBest (es : List ExactReal) (best : Nat) (e : ExactReal) : Prop :=
  es[best]? = some e ∧ (∀ u ∈ es, u.toReal ≤ e.toReal) ∧ ∀ u ∈ es.take best, u.toReal < e.toReal

/-- A later energy that is greater becomes the best one. -/
theorem IsBest.append_greater {es : List ExactReal} {best : Nat} {e u : ExactReal} (h : IsBest es best e)
    (hu : e.toReal < u.toReal) : IsBest (es ++ [u]) es.length u := by
  obtain ⟨-, hmax, -⟩ := h
  have hless : ∀ v ∈ es, v.toReal < u.toReal := fun v hv => (hmax v hv).trans_lt hu
  refine ⟨by simp, fun v hv => ?_, by simpa using hless⟩
  rcases List.mem_append.mp hv with hv | hv
  · exact (hless v hv).le
  · rw [List.mem_singleton.mp hv]

/-- A later energy that is not greater leaves the best one. -/
theorem IsBest.append_le {es : List ExactReal} {best : Nat} {e u : ExactReal} (h : IsBest es best e)
    (hu : u.toReal ≤ e.toReal) : IsBest (es ++ [u]) best e := by
  obtain ⟨hget, hmax, hfirst⟩ := h
  obtain ⟨hlt, -⟩ := List.getElem?_eq_some_iff.mp hget
  refine ⟨by rw [List.getElem?_append_left hlt, hget], fun v hv => ?_, ?_⟩
  · rcases List.mem_append.mp hv with hv | hv
    · exact hmax v hv
    · rw [List.mem_singleton.mp hv]; exact hu
  · rwa [List.take_append_of_le_length hlt.le]

/-- The scan of `bestTone` goes from the best of the energies before it to the best of all. -/
theorem bestFrom_best {es us : List ExactReal} {best : Nat} {e : ExactReal} (h : IsBest es best e) :
    BestIndex (es ++ us) (bestFrom numerics es.length best e us) := by
  induction us generalizing es best e with
  | nil => rw [List.append_nil]; exact ⟨e, h⟩
  | cons u us ih =>
    have hlen : es.length + 1 = (es ++ [u]).length := by simp
    rw [bestFrom, List.append_cons, hlen]
    split
    · rename_i hlt
      exact ih (h.append_greater ((numerics_lt_iff e u).mp hlt))
    · rename_i hge
      exact ih (h.append_le (not_lt.mp fun hlt => hge ((numerics_lt_iff e u).mpr hlt)))

theorem bestTone_best {es : List ExactReal} (h : es ≠ []) : BestIndex es (bestTone numerics es) := by
  cases es with
  | nil => exact absurd rfl h
  | cons e es => exact bestFrom_best (es := [e]) ⟨rfl, by simp, by simp⟩

/-! ## One MFSK symbol (rule R130) -/

section

variable (xs : List ExactReal) (tones : List LinearReal) (fs : Nat)

theorem mfskSymbol_energies_toReal :
    (mfskSymbol numerics xs tones fs).energies.map ExactReal.toReal = tones.map fun f => realWindow f.toReal fs xs := by
  simp only [mfskSymbol, List.map_map]
  exact List.map_congr_left fun f _ => goertzelWindow_toReal f fs xs

theorem mfskSymbol_energies_length : (mfskSymbol numerics xs tones fs).energies.length = tones.length := by
  simp [mfskSymbol]

variable {tones}

theorem mfskSymbol_best (h : tones ≠ []) :
    BestIndex (mfskSymbol numerics xs tones fs).energies (mfskSymbol numerics xs tones fs).best :=
  bestTone_best (by simpa [mfskSymbol] using h)

theorem mfskSymbol_best_lt (h : tones ≠ []) : (mfskSymbol numerics xs tones fs).best < tones.length := by
  rw [← mfskSymbol_energies_length xs tones fs]
  exact bestTone_lt numerics (by simpa [mfskSymbol] using h)

/-- The last tone's coefficient is left in the Goertzel unit. -/
theorem mfskSymbol_coeff (h : tones ≠ []) :
    (mfskSymbol numerics xs tones fs).coeff = goertzelCoeff numerics (tones.getLastD (.ofRat 0)) fs := by
  simp only [mfskSymbol, List.getLastD_eq_getLast?, List.getLast?_map, List.getLast?_eq_some_getLast h, Option.map_some,
    Option.getD_some]

theorem mfskSymbol_final_toReal (h : tones ≠ []) :
    pairValue (mfskSymbol numerics xs tones fs).final = realState (tones.getLastD (.ofRat 0)).toReal fs xs := by
  change pairValue (goertzelRun numerics (mfskSymbol numerics xs tones fs).coeff xs) = _
  rw [goertzelRun_toReal, mfskSymbol_coeff xs fs h, goertzelCoeff_toReal, realState]

/-- The Goertzel unit is left as the last tone's run leaves it (40_goertzel.md rule R98). -/
theorem leaveMfsk_goertzelHolds (s : State) (h : tones ≠ []) :
    GoertzelHolds (leaveMfsk (mfskSymbol numerics xs tones fs) s).gtz
      (realCoeff (tones.getLastD (.ofRat 0)).toReal fs) (realState (tones.getLastD (.ofRat 0)).toReal fs xs) := by
  have hcoeff := (congrArg ExactReal.toReal (mfskSymbol_coeff xs fs h)).trans (goertzelCoeff_toReal ..)
  have hfinal := mfskSymbol_final_toReal xs fs h
  exact ⟨⟨_, rfl, hcoeff⟩, congrArg Prod.fst hfinal, congrArg Prod.snd hfinal⟩

end

/-- Settles O32: with an accepted configuration the window is run by `mfskSymbol`, whose energies, best tone and last run the lemmas
above give; `mfskReady_iff` says when the configuration is accepted. -/
theorem mfskSym : Obligations.MfskSym := by
  intro s start
  constructor
  · intro fs sps b tones hready hlen xs
    have hne := hready.tones_ne_nil
    set x := mfskSymbol numerics xs tones fs with hx
    refine ⟨setStatus .ok (setCount 0 x.best (leaveMfsk x s)), x.energies, x.best, ?_, mfskSymbol_energies_toReal xs tones fs,
      mfskSymbol_best xs fs hne, hready.tones_length ▸ mfskSymbol_best_lt xs fs hne, rWritten_of_eq rfl, evWritten_of_eq rfl,
      leaveMfsk_goertzelHolds xs fs s hne, rfl⟩
    have hwindow : ¬ s.sb.length < start + sps := by omega
    simp only [exec, execMfskSym, mfskReady_iff.mp hready]
    rw [if_neg hwindow, slice_add]
    rfl
  · intro hnot
    simp only [exec, execMfskSym]
    split
    · rfl
    · rename_i c hc
      rw [if_pos]
      · rfl
      · by_contra hlen
        exact hnot ⟨_, _, _, _, mfskReady_iff.mpr hc, not_lt.mp hlen⟩

/-! ## MFSK.DEMOD (rules R114, R127, R131) -/

theorem indexBits_length (b n : Nat) : (indexBits b n).length = b := by simp [indexBits]

theorem mfskUnmap_cons (n : Nat) (ns : List Nat) (b : Nat) : mfskUnmap (n :: ns) b = indexBits b n ++ mfskUnmap ns b := rfl

theorem mfskUnmap_length (ns : List Nat) (b : Nat) : (mfskUnmap ns b).length = ns.length * b := by
  induction ns with
  | nil => simp [mfskUnmap]
  | cons n ns ih => rw [mfskUnmap_cons, List.length_append, indexBits_length, ih, List.length_cons]; ring

/-- Bit `j` of the group of the index of number `k`. -/
theorem mfskUnmap_getD {ns : List Nat} {b k j n : Nat} (hk : ns[k]? = some n) (hj : j < b) :
    (mfskUnmap ns b).getD (k * b + j) false = n.testBit j := by
  induction ns generalizing k with
  | nil => simp at hk
  | cons m ns ih =>
    rw [mfskUnmap_cons]
    cases k with
    | zero =>
      obtain rfl : m = n := by simpa using hk
      rw [List.getD_append _ _ _ _ (by simpa [indexBits_length] using hj)]
      simp [indexBits, hj]
    | succ k =>
      have hpos : (k + 1) * b + j = b + (k * b + j) := by ring
      rw [List.getD_append_right _ _ _ _ (by rw [indexBits_length]; omega), indexBits_length, hpos, Nat.add_sub_cancel_left]
      exact ih (by simpa using hk)

section

variable (xs : List ExactReal) (off : Nat) (c : MfskConfig LinearReal)

theorem mfskSymbols_length : (mfskSymbols numerics xs off c).length = windowCount xs.length off c.sym.sps := by
  simp [mfskSymbols, symWindows_length]

variable {xs off c} {k : Nat}

theorem mfskSymbols_getElem? (hk : k < windowCount xs.length off c.sym.sps) :
    (mfskSymbols numerics xs off c)[k]? =
      some (mfskSymbol numerics ((xs.drop (off + k * c.sym.sps)).take c.sym.sps) c.tones c.sym.fs) := by
  rw [mfskSymbols, List.getElem?_map, symWindows_getElem? xs hk, Option.map_some]

/-- The bits of symbol `k` are those of the best tone of its window. -/
theorem mfskDemod_symbol (hk : k < windowCount xs.length off c.sym.sps) (hne : c.tones ≠ []) :
    ∃ es best, es.map ExactReal.toReal =
        c.tones.map (fun f => realWindow f.toReal c.sym.fs ((xs.drop (off + k * c.sym.sps)).take c.sym.sps)) ∧
      BestIndex es best ∧ best < c.tones.length ∧
      ∀ j, j < c.bps → (mfskDemod numerics xs off c).getD (k * c.bps + j) false = best.testBit j := by
  refine ⟨_, _, mfskSymbol_energies_toReal .., mfskSymbol_best _ _ hne, mfskSymbol_best_lt _ _ hne, fun j hj => ?_⟩
  exact mfskUnmap_getD (by rw [List.getElem?_map, mfskSymbols_getElem? hk, Option.map_some]) hj

theorem mfskDemod_length : (mfskDemod numerics xs off c).length = windowCount xs.length off c.sym.sps * c.bps := by
  rw [mfskDemod, mfskUnmap_length, List.length_map, mfskSymbols_length]

end

section

variable {dst : Sel} {s : State} {c : MfskConfig LinearReal}

/-- The state in which `MFSK.DEMOD` has written its bits and their symbols' count. -/
def mfskBitsWritten (dst : Sel) (s : State) (c : MfskConfig LinearReal) : State :=
  let off := (bankGet s.a 0).toNat
  setCount 0 (windowCount s.sb.length off c.sym.sps) (bbWrite dst (mfskDemod numerics s.sb off c) s)

theorem execMfskDemod_of_none (hc : mfskConfig s.cfg = some c)
    (h0 : windowCount s.sb.length (bankGet s.a 0).toNat c.sym.sps = 0) :
    execMfskDemod dst s = endWith .ok (mfskBitsWritten dst s c) := by
  have hlen := mfskSymbols_length s.sb (bankGet s.a 0).toNat c
  have hnil : mfskSymbols numerics s.sb (bankGet s.a 0).toNat c = [] := by
    rw [← List.length_eq_zero_iff, hlen, h0]
  simp only [execMfskDemod, hc, mfskBitsWritten, mfskDemod, ← hlen, hnil]
  rfl

theorem execMfskDemod_of_last (hc : mfskConfig s.cfg = some c) {count : Nat}
    (hcount : windowCount s.sb.length (bankGet s.a 0).toNat c.sym.sps = count) (hpos : 0 < count) :
    let window := (s.sb.drop ((bankGet s.a 0).toNat + (count - 1) * c.sym.sps)).take c.sym.sps
    execMfskDemod dst s =
      endWith .ok (leaveMfsk (mfskSymbol numerics window c.tones c.sym.fs) (mfskBitsWritten dst s c)) := by
  intro window
  have hlen := mfskSymbols_length s.sb (bankGet s.a 0).toNat c
  have hlast : (mfskSymbols numerics s.sb (bankGet s.a 0).toNat c).getLast? =
      some (mfskSymbol numerics window c.tones c.sym.fs) := by
    rw [List.getLast?_eq_getElem?, hlen, hcount]
    exact mfskSymbols_getElem? (by omega)
  simp only [execMfskDemod, hc, hlast, mfskBitsWritten, mfskDemod, ← hlen]

end

end Sys2Proof.Machine

namespace Sys2Proof

open Machine

/-- Settles O33: the bits are those of `mfskDemod_symbol` window by window, and the last window, if there is one, leaves `EV` and the
Goertzel unit as `leaveMfsk` does. -/
theorem mfskDemod : Obligations.MfskDemod := by
  intro dst s off
  constructor
  · intro fs sps b tones hready count window
    have hne := hready.tones_ne_nil
    have hc := mfskReady_iff.mp hready
    let c : MfskConfig LinearReal := ⟨⟨fs, sps⟩, b, tones⟩
    let u := mfskBitsWritten dst s c
    have hlen := mfskDemod_length (xs := s.sb) (off := off) (c := c)
    have hsymbols := fun k (hk : k < count) => hready.tones_length ▸ mfskDemod_symbol (c := c) hk hne
    rcases Nat.eq_zero_or_pos count with h0 | hpos
    · exact ⟨setStatus .ok u, _, execMfskDemod_of_none hc h0, bbWritten_of_eq rfl, hlen, rWritten_of_eq rfl, hsymbols,
        fun _ => ⟨rfl, rfl⟩, fun hpos => absurd h0 hpos.ne', rfl⟩
    · exact ⟨setStatus .ok (leaveMfsk _ u), _, execMfskDemod_of_last hc rfl hpos, bbWritten_of_eq rfl, hlen,
        rWritten_of_eq rfl, hsymbols, fun h0 => absurd h0 hpos.ne',
        fun _ => ⟨leaveMfsk_goertzelHolds _ fs u hne, _, evWritten_of_eq rfl, mfskSymbol_energies_toReal ..⟩, rfl⟩
  · intro hnot
    simp only [exec, execMfskDemod]
    split
    · rfl
    · rename_i c hc
      exact absurd ⟨_, _, _, _, mfskReady_iff.mpr hc⟩ hnot

end Sys2Proof

/-! # Command words (30_encoding.md part B, rules R70 to R73, R78) -/

namespace Sys2Proof

open Laws Machine

set_option Elab.async false

/-! ## The fields of a command word -/

/-- A command word is made of its four fields (rule R70). -/
theorem commandWord_fields (w : U32) : commandWord (opField w) (aField w) (bField w) (cField w) = w := by
  apply BitVec.eq_of_toNat_eq
  rw [commandWord_toNat]
  simp only [opField, aField, bField, cField, BitVec.extractLsb'_toNat, Nat.shiftRight_eq_div_pow]
  have hw := w.isLt
  omega

theorem fieldsOf_eq (w : U32) :
    fieldsOf w = ⟨(opField w).toNat, (aField w).toNat, (bField w).toNat, (cField w).toNat⟩ := by
  rw [← fieldsOf_commandWord, commandWord_fields]

section

variable (o a b c : Byte)

theorem commandWord_fields_toNat :
    (aField (commandWord o a b c)).toNat = a.toNat ∧ (bField (commandWord o a b c)).toNat = b.toNat ∧
      (cField (commandWord o a b c)).toNat = c.toNat := by
  have h := fieldsOf_eq (commandWord o a b c)
  rw [fieldsOf_commandWord, Fields.mk.injEq] at h
  obtain ⟨-, ha, hb, hc⟩ := h
  exact ⟨ha.symm, hb.symm, hc.symm⟩

@[simp] theorem aField_commandWord : aField (commandWord o a b c) = a := by
  obtain ⟨ha, -, -⟩ := commandWord_fields_toNat o a b c
  exact BitVec.eq_of_toNat_eq ha

@[simp] theorem bField_commandWord : bField (commandWord o a b c) = b := by
  obtain ⟨-, hb, -⟩ := commandWord_fields_toNat o a b c
  exact BitVec.eq_of_toNat_eq hb

@[simp] theorem cField_commandWord : cField (commandWord o a b c) = c := by
  obtain ⟨-, -, hc⟩ := commandWord_fields_toNat o a b c
  exact BitVec.eq_of_toNat_eq hc

end

/-! ## Operands in their fields (rules R71, R72) -/

/-- A field holds a selector when its value is at most 3. -/
theorem exists_selField_iff {f : Byte} : (∃ x, f = selField x) ↔ f.toNat ≤ 3 := by
  constructor
  · rintro ⟨x, rfl⟩
    exact selField_le x
  · intro h
    refine ⟨f.setWidth 2, BitVec.eq_of_toNat_eq ?_⟩
    simp only [selField, BitVec.toNat_setWidth]
    omega

theorem setWidth_selField (x : Sel) : (selField x).setWidth 2 = x := by
  apply BitVec.eq_of_toNat_eq
  have hx := x.isLt
  simp only [selField, BitVec.toNat_setWidth]
  omega

theorem exists_bitField_iff {f : Byte} : (∃ x, f = bitField x) ↔ f.toNat ≤ 1 := by
  constructor
  · rintro ⟨x, rfl⟩
    exact bitField_le x
  · intro h
    rcases Nat.le_one_iff_eq_zero_or_eq_one.mp h with h | h
    · exact ⟨false, BitVec.eq_of_toNat_eq h⟩
    · exact ⟨true, BitVec.eq_of_toNat_eq h⟩

@[simp] theorem getLsbD_bitField (x : Bit) : (bitField x).getLsbD 0 = x := by cases x <;> rfl

/-- A selector is read exactly from the field that holds it. -/
theorem selector_eq_ok {f : Byte} {x : Sel} : selector f = .ok x ↔ f = selField x := by
  unfold selector
  constructor
  · intro h
    split at h
    · rename_i hle
      obtain ⟨y, rfl⟩ := exists_selField_iff.mpr hle
      rw [setWidth_selField, Except.ok.injEq] at h
      rw [h]
    · cases h
  · rintro rfl
    rw [if_pos (selField_le x), setWidth_selField]

/-- The highest bit of an index, in its field. -/
theorem bitField_index (n : BitVec 9) : (bitField (n.getLsbD 8)).toNat = n.toNat / 256 := by
  have hn := n.isLt
  have hbit : n.getLsbD 8 = decide (n.toNat / 256 % 2 = 1) := Nat.testBit_eq_decide_div_mod_eq
  rw [hbit]
  rcases (by omega : n.toNat / 256 = 0 ∨ n.toNat / 256 = 1) with h | h <;> rw [h] <;> rfl

/-- The index of an `I9` immediate is read from its two fields (rule R72) and has them. -/
theorem index_of_fields (n : BitVec 9) :
    BitVec.ofNat 9 ((bitField (n.getLsbD 8)).toNat * 256 + (n.setWidth 8).toNat) = n := by
  apply BitVec.eq_of_toNat_eq
  rw [bitField_index]
  simp only [BitVec.toNat_ofNat, BitVec.toNat_setWidth]
  omega

theorem fields_of_index {b : Byte} (hb : b.toNat ≤ 1) (c : Byte) :
    bitField ((BitVec.ofNat 9 (b.toNat * 256 + c.toNat)).getLsbD 8) = b ∧
      (BitVec.ofNat 9 (b.toNat * 256 + c.toNat)).setWidth 8 = c := by
  have hc := c.isLt
  constructor <;> apply BitVec.eq_of_toNat_eq
  · rw [bitField_index, BitVec.toNat_ofNat]
    omega
  · simp only [BitVec.toNat_setWidth, BitVec.toNat_ofNat]
    omega

/-! ## What each format reads (rule R71) -/

section

variable {w : U32} {i : Instr}

theorem decodeZ_eq_ok {j : Instr} : decodeZ w j = .ok i ↔ (aField w = 0 ∧ bField w = 0 ∧ cField w = 0) ∧ j = i := by
  unfold decodeZ
  split <;> simp_all

theorem decodeS_eq_ok {k : Sel → Instr} :
    decodeS w k = .ok i ↔ ∃ a, (aField w = selField a ∧ bField w = 0 ∧ cField w = 0) ∧ k a = i := by
  simp only [← selector_eq_ok]
  unfold decodeS
  split
  · cases selector (aField w) <;> simp_all
  · simp_all

theorem decodeD_eq_ok {k : Sel → Instr} :
    decodeD w k = .ok i ↔ ∃ b, (aField w = 0 ∧ bField w = selField b ∧ cField w = 0) ∧ k b = i := by
  simp only [← selector_eq_ok]
  unfold decodeD
  split
  · cases selector (bField w) <;> simp_all
  · simp_all

theorem decodeSD_eq_ok {k : Sel → Sel → Instr} :
    decodeSD w k = .ok i ↔
      ∃ a b, (aField w = selField a ∧ bField w = selField b ∧ cField w = 0) ∧ k a b = i := by
  simp only [← selector_eq_ok]
  unfold decodeSD
  split
  · cases selector (aField w) <;> cases selector (bField w) <;> simp_all
  · simp_all

theorem decodeI8_eq_ok {k : Byte → Instr} :
    decodeI8 w k = .ok i ↔ ∃ n, (aField w = 0 ∧ bField w = 0 ∧ cField w = n) ∧ k n = i := by
  unfold decodeI8
  split <;> simp_all

theorem decodeI2_eq_ok {k : Sel → Instr} :
    decodeI2 w k = .ok i ↔ ∃ p, (aField w = 0 ∧ bField w = 0 ∧ cField w = selField p) ∧ k p = i := by
  have hsel : decodeI2 w k = .ok i ↔ (aField w = 0 ∧ bField w = 0) ∧ ∃ p, selector (cField w) = .ok p ∧ k p = i := by
    unfold decodeI2 selector
    split
    · split <;> simp_all
    · simp_all
  simp only [hsel, selector_eq_ok]
  constructor
  · rintro ⟨⟨ha, hb⟩, p, hc, hk⟩; exact ⟨p, ⟨ha, hb, hc⟩, hk⟩
  · rintro ⟨p, ⟨ha, hb, hc⟩, hk⟩; exact ⟨⟨ha, hb⟩, p, hc, hk⟩

theorem decodeI1_eq_ok {k : Bit → Instr} :
    decodeI1 w k = .ok i ↔ ∃ x, (aField w = 0 ∧ bField w = 0 ∧ cField w = bitField x) ∧ k x = i := by
  unfold decodeI1
  constructor
  · intro h
    split at h
    · rename_i hab
      split at h
      · rename_i hle
        obtain ⟨x, hx⟩ := exists_bitField_iff.mpr hle
        rw [hx, getLsbD_bitField, Except.ok.injEq] at h
        exact ⟨x, ⟨hab.1, hab.2, hx⟩, h⟩
      · cases h
    · cases h
  · rintro ⟨x, ⟨ha, hb, hc⟩, rfl⟩
    rw [if_pos ⟨ha, hb⟩, hc, if_pos (bitField_le x), getLsbD_bitField]

theorem decodeII_eq_ok {k : Byte → Byte → Instr} :
    decodeII w k = .ok i ↔ ∃ x y, (aField w = 0 ∧ bField w = x ∧ cField w = y) ∧ k x y = i := by
  unfold decodeII
  split <;> simp_all

theorem decodeI9_eq_ok {k : BitVec 9 → Instr} :
    decodeI9 w k = .ok i ↔
      ∃ n : BitVec 9, (aField w = 0 ∧ bField w = bitField (n.getLsbD 8) ∧ cField w = n.setWidth 8) ∧ k n = i := by
  unfold decodeI9
  constructor
  · intro h
    split at h
    · rename_i ha
      split at h
      · rename_i hle
        obtain ⟨hhigh, hlow⟩ := fields_of_index hle (cField w)
        exact ⟨_, ⟨ha, hhigh.symm, hlow.symm⟩, Except.ok.inj h⟩
      · cases h
    · cases h
  · rintro ⟨n, ⟨ha, hb, hc⟩, rfl⟩
    rw [if_pos ha, hb, hc, if_pos (bitField_le _), index_of_fields]

end

/-! ## Decoding an encoding -/

/-- The word of an assigned `OP` is read as its row of the opcode map says. -/
theorem decode_commandWord {o a b c : Byte} {read : U32 → Except Reject Instr}
    (h : decodeRows.lookup o.toNat = some read) : decode (commandWord o a b c) = read (commandWord o a b c) := by
  rw [decode, opField_commandWord, h]

section

variable {o : Byte}

theorem decode_Z {i : Instr} (h : decodeRows.lookup o.toNat = some fun w => decodeZ w i) :
    decode (commandWord o 0 0 0) = .ok i :=
  (decode_commandWord h).trans (decodeZ_eq_ok.mpr (by simp))

theorem decode_S {k : Sel → Instr} (h : decodeRows.lookup o.toNat = some fun w => decodeS w k) (a : Sel) :
    decode (commandWord o (selField a) 0 0) = .ok (k a) :=
  (decode_commandWord h).trans (decodeS_eq_ok.mpr ⟨a, by simp⟩)

theorem decode_D {k : Sel → Instr} (h : decodeRows.lookup o.toNat = some fun w => decodeD w k) (b : Sel) :
    decode (commandWord o 0 (selField b) 0) = .ok (k b) :=
  (decode_commandWord h).trans (decodeD_eq_ok.mpr ⟨b, by simp⟩)

theorem decode_SD {k : Sel → Sel → Instr} (h : decodeRows.lookup o.toNat = some fun w => decodeSD w k) (a b : Sel) :
    decode (commandWord o (selField a) (selField b) 0) = .ok (k a b) :=
  (decode_commandWord h).trans (decodeSD_eq_ok.mpr ⟨a, b, by simp⟩)

theorem decode_I8 {k : Byte → Instr} (h : decodeRows.lookup o.toNat = some fun w => decodeI8 w k) (n : Byte) :
    decode (commandWord o 0 0 n) = .ok (k n) :=
  (decode_commandWord h).trans (decodeI8_eq_ok.mpr ⟨n, by simp⟩)

theorem decode_I2 {k : Sel → Instr} (h : decodeRows.lookup o.toNat = some fun w => decodeI2 w k) (p : Sel) :
    decode (commandWord o 0 0 (selField p)) = .ok (k p) :=
  (decode_commandWord h).trans (decodeI2_eq_ok.mpr ⟨p, by simp⟩)

theorem decode_I1 {k : Bit → Instr} (h : decodeRows.lookup o.toNat = some fun w => decodeI1 w k) (x : Bit) :
    decode (commandWord o 0 0 (bitField x)) = .ok (k x) :=
  (decode_commandWord h).trans (decodeI1_eq_ok.mpr ⟨x, by simp⟩)

theorem decode_II {k : Byte → Byte → Instr} (h : decodeRows.lookup o.toNat = some fun w => decodeII w k) (x y : Byte) :
    decode (commandWord o 0 x y) = .ok (k x y) :=
  (decode_commandWord h).trans (decodeII_eq_ok.mpr ⟨x, y, by simp⟩)

theorem decode_I9 {k : BitVec 9 → Instr} (h : decodeRows.lookup o.toNat = some fun w => decodeI9 w k) (n : BitVec 9) :
    decode (commandWord o 0 (bitField (n.getLsbD 8)) (n.setWidth 8)) = .ok (k n) :=
  (decode_commandWord h).trans (decodeI9_eq_ok.mpr ⟨n, by simp⟩)

end

/-- Settles O1: the operations fall into the nine formats of rule R71, and the words of a format are read back alike. -/
theorem decodeEncode : Obligations.DecodeEncode := by
  intro i
  cases i with
  | sysNop | sysInit | sysReset | gtzSetf | gtzSetc | gtzClr | gtzStep | gtzEnergy | gtzWin | afskSym | mfskSym | nrziClr
  | crcClr | crcFinal => exact decode_Z rfl
  | hdlcFlags a | hdlcExtract a | crcGen a | crcChk a | rsSyn a => exact decode_S rfl a
  | sysFqpop b | afskDemod b | gfskDemod b | mfskDemod b => exact decode_D rfl b
  | sysMovb a b | sysMovy a b | mfskMap a b | mfskUnmap a b | nrziEnc a b | nrziDec a b | hdlcUnpack a b | hdlcPack a b
  | hdlcStuff a b | hdlcDestuff a b | hdlcFrame a b | frmBuild a b | frmParse a b | frmEncode a b | frmDecode a b
  | crcAppend a b | rsEncb a b | rsDecb a b | rsEnc a b | rsDec a b => exact decode_SD rfl a b
  | crcByte n | gfInv n | gfLog n => exact decode_I8 rfl n
  | sysLoadp p => exact decode_I2 rfl p
  | nrziEncb x | nrziDecb x | crcBit x => exact decode_I1 rfl x
  | gfAdd x y | gfMul x y => exact decode_II rfl x y
  | gfExp n => exact decode_I9 rfl n

/-! ## The legal words (rule R78) -/

/-- A row of the opcode map: among the words of its `OP` the reader reads those that the format allows, and what it reads
has that word. -/
def ReadsFormat (o : Nat) (f : Format) (read : U32 → Except Reject Instr) : Prop :=
  ∀ w, (opField w).toNat = o →
    (f.allows (fieldsOf w) = true ↔ ∃ i, read w = .ok i) ∧ ∀ i, read w = .ok i → encode i = w

section

variable {o : Nat}

/-- A word is made of its `OP` and the fields that the format reads. -/
theorem commandWord_of_fields {w : U32} {a b c : Byte} (ho : (opField w).toNat = o)
    (h : aField w = a ∧ bField w = b ∧ cField w = c) : commandWord (BitVec.ofNat 8 o) a b c = w := by
  obtain ⟨rfl, rfl, rfl⟩ := h
  rw [← ho, BitVec.ofNat_toNat, BitVec.setWidth_eq, commandWord_fields]

theorem field_eq_zero_iff {f : Byte} : f.toNat = 0 ↔ f = 0 := BitVec.toNat_eq (y := 0) |>.symm

theorem readsFormat_Z {i : Instr} (h : encode i = commandWord (BitVec.ofNat 8 o) 0 0 0) :
    ReadsFormat o .Z fun w => decodeZ w i := by
  intro w ho
  simp only [decodeZ_eq_ok, fieldsOf_eq, Format.allows, Bool.and_eq_true, beq_iff_eq, field_eq_zero_iff]
  refine ⟨by simp [and_assoc], ?_⟩
  rintro _ ⟨hf, rfl⟩
  rw [h, commandWord_of_fields ho hf]

theorem readsFormat_S {k : Sel → Instr} (h : ∀ a, encode (k a) = commandWord (BitVec.ofNat 8 o) (selField a) 0 0) :
    ReadsFormat o .S fun w => decodeS w k := by
  intro w ho
  simp only [decodeS_eq_ok, fieldsOf_eq, Format.allows, Bool.and_eq_true, beq_iff_eq, decide_eq_true_eq, field_eq_zero_iff,
    ← exists_selField_iff]
  refine ⟨by simp [and_assoc], ?_⟩
  rintro _ ⟨a, hf, rfl⟩
  rw [h, commandWord_of_fields ho hf]

theorem readsFormat_D {k : Sel → Instr} (h : ∀ b, encode (k b) = commandWord (BitVec.ofNat 8 o) 0 (selField b) 0) :
    ReadsFormat o .D fun w => decodeD w k := by
  intro w ho
  simp only [decodeD_eq_ok, fieldsOf_eq, Format.allows, Bool.and_eq_true, beq_iff_eq, decide_eq_true_eq, field_eq_zero_iff,
    ← exists_selField_iff]
  refine ⟨by simp [and_assoc], ?_⟩
  rintro _ ⟨b, hf, rfl⟩
  rw [h, commandWord_of_fields ho hf]

theorem readsFormat_SD {k : Sel → Sel → Instr}
    (h : ∀ a b, encode (k a b) = commandWord (BitVec.ofNat 8 o) (selField a) (selField b) 0) :
    ReadsFormat o .SD fun w => decodeSD w k := by
  intro w ho
  simp only [decodeSD_eq_ok, fieldsOf_eq, Format.allows, Bool.and_eq_true, beq_iff_eq, decide_eq_true_eq, field_eq_zero_iff,
    ← exists_selField_iff]
  refine ⟨by simp [and_assoc], ?_⟩
  rintro _ ⟨a, b, hf, rfl⟩
  rw [h, commandWord_of_fields ho hf]

theorem readsFormat_I8 {k : Byte → Instr} (h : ∀ n, encode (k n) = commandWord (BitVec.ofNat 8 o) 0 0 n) :
    ReadsFormat o .I8 fun w => decodeI8 w k := by
  intro w ho
  simp only [decodeI8_eq_ok, fieldsOf_eq, Format.allows, Bool.and_eq_true, beq_iff_eq, field_eq_zero_iff]
  refine ⟨by simp, ?_⟩
  rintro _ ⟨n, hf, rfl⟩
  rw [h, commandWord_of_fields ho hf]

theorem readsFormat_I2 {k : Sel → Instr} (h : ∀ p, encode (k p) = commandWord (BitVec.ofNat 8 o) 0 0 (selField p)) :
    ReadsFormat o .I2 fun w => decodeI2 w k := by
  intro w ho
  simp only [decodeI2_eq_ok, fieldsOf_eq, Format.allows, Bool.and_eq_true, beq_iff_eq, decide_eq_true_eq, field_eq_zero_iff,
    ← exists_selField_iff]
  refine ⟨by simp [and_assoc], ?_⟩
  rintro _ ⟨p, hf, rfl⟩
  rw [h, commandWord_of_fields ho hf]

theorem readsFormat_I1 {k : Bit → Instr} (h : ∀ x, encode (k x) = commandWord (BitVec.ofNat 8 o) 0 0 (bitField x)) :
    ReadsFormat o .I1 fun w => decodeI1 w k := by
  intro w ho
  simp only [decodeI1_eq_ok, fieldsOf_eq, Format.allows, Bool.and_eq_true, beq_iff_eq, decide_eq_true_eq, field_eq_zero_iff,
    ← exists_bitField_iff]
  refine ⟨by simp [and_assoc], ?_⟩
  rintro _ ⟨x, hf, rfl⟩
  rw [h, commandWord_of_fields ho hf]

theorem readsFormat_II {k : Byte → Byte → Instr} (h : ∀ x y, encode (k x y) = commandWord (BitVec.ofNat 8 o) 0 x y) :
    ReadsFormat o .II fun w => decodeII w k := by
  intro w ho
  simp only [decodeII_eq_ok, fieldsOf_eq, Format.allows, beq_iff_eq, field_eq_zero_iff]
  refine ⟨by simp, ?_⟩
  rintro _ ⟨x, y, hf, rfl⟩
  rw [h, commandWord_of_fields ho hf]

theorem readsFormat_I9 {k : BitVec 9 → Instr}
    (h : ∀ n, encode (k n) = commandWord (BitVec.ofNat 8 o) 0 (bitField (n.getLsbD 8)) (n.setWidth 8)) :
    ReadsFormat o .I9 fun w => decodeI9 w k := by
  intro w ho
  simp only [decodeI9_eq_ok, fieldsOf_eq, Format.allows, Bool.and_eq_true, beq_iff_eq, decide_eq_true_eq, field_eq_zero_iff]
  constructor
  · constructor
    · rintro ⟨ha, hb⟩
      obtain ⟨hhigh, hlow⟩ := fields_of_index hb (cField w)
      exact ⟨_, _, ⟨ha, hhigh.symm, hlow.symm⟩, rfl⟩
    · rintro ⟨_, n, ⟨ha, hb, -⟩, -⟩
      exact ⟨ha, hb ▸ bitField_le _⟩
  · rintro _ ⟨n, hf, rfl⟩
    rw [h, commandWord_of_fields ho hf]

end

/-- Row by row, the two opcode maps have the same `OP`, and the reader reads the words of the format. -/
theorem rows_read : List.Forall₂ (fun p q => p.1 = q.1 ∧ ReadsFormat p.1 p.2 q.2) opcodeMap decodeRows :=
  .cons ⟨rfl, readsFormat_Z rfl⟩ <| .cons ⟨rfl, readsFormat_Z rfl⟩ <| .cons ⟨rfl, readsFormat_Z rfl⟩ <|
  .cons ⟨rfl, readsFormat_I2 fun _ => rfl⟩ <| .cons ⟨rfl, readsFormat_SD fun _ _ => rfl⟩ <|
  .cons ⟨rfl, readsFormat_SD fun _ _ => rfl⟩ <| .cons ⟨rfl, readsFormat_D fun _ => rfl⟩ <|
  .cons ⟨rfl, readsFormat_Z rfl⟩ <| .cons ⟨rfl, readsFormat_Z rfl⟩ <| .cons ⟨rfl, readsFormat_Z rfl⟩ <|
  .cons ⟨rfl, readsFormat_Z rfl⟩ <| .cons ⟨rfl, readsFormat_Z rfl⟩ <| .cons ⟨rfl, readsFormat_Z rfl⟩ <|
  .cons ⟨rfl, readsFormat_Z rfl⟩ <| .cons ⟨rfl, readsFormat_D fun _ => rfl⟩ <| .cons ⟨rfl, readsFormat_D fun _ => rfl⟩ <|
  .cons ⟨rfl, readsFormat_SD fun _ _ => rfl⟩ <| .cons ⟨rfl, readsFormat_SD fun _ _ => rfl⟩ <|
  .cons ⟨rfl, readsFormat_Z rfl⟩ <| .cons ⟨rfl, readsFormat_D fun _ => rfl⟩ <| .cons ⟨rfl, readsFormat_Z rfl⟩ <|
  .cons ⟨rfl, readsFormat_I1 fun _ => rfl⟩ <| .cons ⟨rfl, readsFormat_I1 fun _ => rfl⟩ <|
  .cons ⟨rfl, readsFormat_SD fun _ _ => rfl⟩ <| .cons ⟨rfl, readsFormat_SD fun _ _ => rfl⟩ <|
  .cons ⟨rfl, readsFormat_SD fun _ _ => rfl⟩ <| .cons ⟨rfl, readsFormat_SD fun _ _ => rfl⟩ <|
  .cons ⟨rfl, readsFormat_SD fun _ _ => rfl⟩ <| .cons ⟨rfl, readsFormat_SD fun _ _ => rfl⟩ <|
  .cons ⟨rfl, readsFormat_SD fun _ _ => rfl⟩ <| .cons ⟨rfl, readsFormat_S fun _ => rfl⟩ <|
  .cons ⟨rfl, readsFormat_S fun _ => rfl⟩ <| .cons ⟨rfl, readsFormat_SD fun _ _ => rfl⟩ <|
  .cons ⟨rfl, readsFormat_SD fun _ _ => rfl⟩ <| .cons ⟨rfl, readsFormat_SD fun _ _ => rfl⟩ <|
  .cons ⟨rfl, readsFormat_SD fun _ _ => rfl⟩ <| .cons ⟨rfl, readsFormat_Z rfl⟩ <|
  .cons ⟨rfl, readsFormat_I1 fun _ => rfl⟩ <| .cons ⟨rfl, readsFormat_I8 fun _ => rfl⟩ <|
  .cons ⟨rfl, readsFormat_Z rfl⟩ <| .cons ⟨rfl, readsFormat_S fun _ => rfl⟩ <|
  .cons ⟨rfl, readsFormat_SD fun _ _ => rfl⟩ <| .cons ⟨rfl, readsFormat_S fun _ => rfl⟩ <|
  .cons ⟨rfl, readsFormat_II fun _ _ => rfl⟩ <| .cons ⟨rfl, readsFormat_II fun _ _ => rfl⟩ <|
  .cons ⟨rfl, readsFormat_I8 fun _ => rfl⟩ <| .cons ⟨rfl, readsFormat_I9 fun _ => rfl⟩ <|
  .cons ⟨rfl, readsFormat_I8 fun _ => rfl⟩ <| .cons ⟨rfl, readsFormat_SD fun _ _ => rfl⟩ <|
  .cons ⟨rfl, readsFormat_S fun _ => rfl⟩ <| .cons ⟨rfl, readsFormat_SD fun _ _ => rfl⟩ <|
  .cons ⟨rfl, readsFormat_SD fun _ _ => rfl⟩ <| .cons ⟨rfl, readsFormat_SD fun _ _ => rfl⟩ <| .nil

/-- Where two maps agree row by row, an `OP` is assigned in both or in none. -/
theorem lookup_rows {ps : List (Nat × Format)} {qs : List (Nat × (U32 → Except Reject Instr))}
    (h : List.Forall₂ (fun p q => p.1 = q.1 ∧ ReadsFormat p.1 p.2 q.2) ps qs) (o : Nat) :
    (ps.lookup o = none ∧ qs.lookup o = none) ∨
      ∃ f read, ps.lookup o = some f ∧ qs.lookup o = some read ∧ ReadsFormat o f read := by
  induction h with
  | nil => exact .inl ⟨rfl, rfl⟩
  | @cons p q ps qs hpq _ ih =>
    obtain ⟨p1, f⟩ := p
    obtain ⟨q1, read⟩ := q
    obtain ⟨rfl, hread⟩ := hpq
    rw [List.lookup_cons, List.lookup_cons]
    by_cases ho : o = p1
    · subst ho
      exact .inr ⟨f, read, by simp, by simp, hread⟩
    · simpa [beq_false_of_ne ho] using ih

/-- A word decodes exactly when it is legal, and then it is the word of what it decodes to. -/
theorem decode_spec (w : U32) :
    (wordLegal w = true ↔ ∃ i, decode w = .ok i) ∧ ∀ i, decode w = .ok i → encode i = w := by
  have hop : (fieldsOf w).op = (opField w).toNat := by rw [fieldsOf_eq]
  unfold wordLegal decode
  rcases lookup_rows rows_read (opField w).toNat with ⟨hp, hq⟩ | ⟨f, read, hp, hq, hread⟩
  · simp [hop, hp, hq]
  · simpa only [hop, hp, hq] using hread w rfl

/-- Settles O2. -/
theorem encodeDecode : Obligations.EncodeDecode := fun w => (decode_spec w).2

/-- Settles O3: a word that is not legal does not decode, so its issue raises `ILLEGAL`. -/
theorem illegalWords : Obligations.IllegalWords := by
  intro w
  obtain ⟨hlegal, -⟩ := decode_spec w
  refine ⟨hlegal, fun hnot s => ?_⟩
  unfold issue
  cases hd : decode w with
  | error e => rfl
  | ok i =>
    rw [hlegal.mpr ⟨i, hd⟩] at hnot
    cases hnot

/-- Settles O4: each word is a fixed one, and the decoder is run on it. -/
theorem sampleWords : Obligations.SampleWords := by
  refine ⟨?_, ?_, ?_, ?_, ?_, ?_, ?_, ?_, ?_, ?_⟩ <;> rfl

end Sys2Proof

/-! # GF(256) and Reed-Solomon codewords (44_gf256.md, 45_reed_solomon.md) -/

namespace Sys2Proof.Machine

set_option Elab.async false

/-! ## Addition -/

theorem gfAdd_comm (a b : Byte) : gfAdd a b = gfAdd b a := BitVec.xor_comm a b

theorem gfAdd_assoc (a b c : Byte) : gfAdd (gfAdd a b) c = gfAdd a (gfAdd b c) := BitVec.xor_assoc a b c

theorem gfAdd_zero (a : Byte) : gfAdd a 0 = a := BitVec.xor_zero

theorem zero_gfAdd (a : Byte) : gfAdd 0 a = a := BitVec.zero_xor

theorem gfAdd_self (a : Byte) : gfAdd a a = 0 := BitVec.xor_self

/-! ## Multiplication by powers of `alpha` (rules R200 to R203) -/

/-- A byte times 2 in the field of rule R200: shifted by one place and reduced by `0x11D`. -/
def gfDouble (a : Byte) : Byte := (a <<< 1) ^^^ (if a.getLsbD 7 then 0x1D else 0)

theorem gfDouble_zero : gfDouble 0 = 0 := rfl

theorem gfDouble_gfAdd (a b : Byte) : gfDouble (gfAdd a b) = gfAdd (gfDouble a) (gfDouble b) := by
  simp only [gfDouble, gfAdd, BitVec.getLsbD_xor, BitVec.shiftLeft_xor_distrib]
  have hcarry : ∀ x y : Bool, (if x ^^ y then (0x1D : Byte) else 0) = (if x then 0x1D else 0) ^^^ (if y then 0x1D else 0) := by
    decide
  rw [hcarry]
  ac_rfl

/-- Doubling `n` times. -/
theorem gfDouble_iterate_gfAdd (n : Nat) (a b : Byte) :
    gfDouble^[n] (gfAdd a b) = gfAdd (gfDouble^[n] a) (gfDouble^[n] b) := by
  induction n generalizing a b with
  | zero => rfl
  | succ n ih => rw [Function.iterate_succ_apply, gfDouble_gfAdd, ih]; rfl

theorem gfDouble_iterate_zero (n : Nat) : gfDouble^[n] 0 = 0 := Function.iterate_fixed gfDouble_zero n

theorem expEntry_mod (i : Nat) : expEntry (i % 255) = expEntry i := by simp [expEntry]

/-- The table `EXP` is read off entry by entry: each entry is the double of the one before, entry 0 that of entry 254. -/
theorem expEntry_succ_lt : ∀ i < 255, expEntry (i + 1) = gfDouble (expEntry i) := by decide +kernel

theorem expEntry_succ (i : Nat) : expEntry (i + 1) = gfDouble (expEntry i) := by
  have h := expEntry_succ_lt (i % 255) (Nat.mod_lt i (by decide))
  rwa [expEntry_mod, ← expEntry_mod, Nat.mod_add_mod, expEntry_mod] at h

theorem expEntry_add (i j : Nat) : expEntry (i + j) = gfDouble^[j] (expEntry i) := by
  induction j with
  | zero => rfl
  | succ j ih => rw [← add_assoc, expEntry_succ, ih, Function.iterate_succ_apply']

theorem expEntry_ne_zero (i : Nat) : expEntry i ≠ 0 := by
  have h : ∀ i < 255, expEntry i ≠ 0 := by decide +kernel
  rw [← expEntry_mod]
  exact h _ (Nat.mod_lt i (by decide))

/-- `LOG` inverts `EXP` (rule R202). -/
theorem expEntry_logEntry {a : Byte} (h : a ≠ 0) : expEntry (logEntry a) = a := by
  have hall : ∀ n < 256, n ≠ 0 → expEntry (logEntry (BitVec.ofNat 8 n)) = BitVec.ofNat 8 n := by decide +kernel
  have ha := hall a.toNat a.isLt fun h0 => h (BitVec.eq_of_toNat_eq h0)
  rwa [BitVec.ofNat_toNat, BitVec.setWidth_eq] at ha

theorem logEntry_expEntry (i : Nat) : logEntry (expEntry i) = i % 255 := by
  have h : ∀ i < 255, logEntry (expEntry i) = i := by decide +kernel
  rw [← expEntry_mod]
  exact h _ (Nat.mod_lt i (by decide))

theorem zero_gfMul (a : Byte) : gfMul 0 a = 0 := if_pos (.inl rfl)

theorem gfMul_zero (a : Byte) : gfMul a 0 = 0 := if_pos (.inr rfl)

theorem gfMul_comm (a b : Byte) : gfMul a b = gfMul b a := by simp only [gfMul, or_comm, add_comm]

/-- Multiplying by `alpha^n` is doubling `n` times. -/
theorem gfMul_expEntry (a : Byte) (n : Nat) : gfMul a (expEntry n) = gfDouble^[n] a := by
  by_cases ha : a = 0
  · rw [ha, zero_gfMul, gfDouble_iterate_zero]
  · have hmod : expEntry (logEntry a + n % 255) = expEntry (logEntry a + n) := by
      rw [← expEntry_mod, Nat.add_mod_mod, expEntry_mod]
    rw [gfMul, if_neg (not_or.mpr ⟨ha, expEntry_ne_zero n⟩), logEntry_expEntry, hmod, expEntry_add, expEntry_logEntry ha]

/-- A byte that is not zero is a power of `alpha`. -/
theorem eq_zero_or_expEntry (a : Byte) : a = 0 ∨ ∃ n, a = expEntry n :=
  or_iff_not_imp_left.mpr fun h => ⟨logEntry a, (expEntry_logEntry h).symm⟩

theorem gfAdd_gfMul (a b c : Byte) : gfMul (gfAdd a b) c = gfAdd (gfMul a c) (gfMul b c) := by
  rcases eq_zero_or_expEntry c with rfl | ⟨n, rfl⟩
  · simp only [gfMul_zero, gfAdd_zero]
  · simp only [gfMul_expEntry, gfDouble_iterate_gfAdd]

theorem gfMul_gfAdd (a b c : Byte) : gfMul a (gfAdd b c) = gfAdd (gfMul a b) (gfMul a c) := by
  simp only [gfMul_comm a, gfAdd_gfMul]

theorem expEntry_gfMul_expEntry (m n : Nat) : gfMul (expEntry m) (expEntry n) = expEntry (m + n) := by
  rw [gfMul_expEntry, expEntry_add]

theorem gfMul_assoc (a b c : Byte) : gfMul (gfMul a b) c = gfMul a (gfMul b c) := by
  rcases eq_zero_or_expEntry b with rfl | ⟨m, rfl⟩
  · rw [gfMul_zero, zero_gfMul, gfMul_zero]
  · rcases eq_zero_or_expEntry c with rfl | ⟨n, rfl⟩
    · simp only [gfMul_zero]
    · rw [expEntry_gfMul_expEntry, gfMul_expEntry, gfMul_expEntry, gfMul_expEntry, Nat.add_comm,
        Function.iterate_add_apply]

theorem gfMul_one (a : Byte) : gfMul a 1 = a := gfMul_expEntry a 0

theorem gfPow_expEntry (i n : Nat) : gfPow (expEntry i) n = expEntry (i * n) := by
  have hmod : i % 255 * n % 255 = i * n % 255 := Nat.mod_mul_mod ..
  unfold gfPow
  split
  · subst n; rw [Nat.mul_zero]; rfl
  · rw [if_neg (expEntry_ne_zero i), logEntry_expEntry, hmod, expEntry_mod]

theorem gfPow_succ (a : Byte) (n : Nat) : gfPow a (n + 1) = gfMul (gfPow a n) a := by
  rcases eq_zero_or_expEntry a with rfl | ⟨i, rfl⟩
  · rw [gfMul_zero]; rfl
  · rw [gfPow_expEntry, gfPow_expEntry, expEntry_gfMul_expEntry]; rfl

/-! ## Blocks as polynomials (45_reed_solomon.md rule R226) -/

/-- Horner's rule from a value on: the value is shifted past the block's coefficients. -/
theorem horner_from (x acc : Byte) (ys : List Byte) :
    ys.foldl (fun acc y => gfAdd (gfMul acc x) y) acc = gfAdd (gfMul acc (gfPow x ys.length)) (evalBlock ys x) := by
  induction ys generalizing acc with
  | nil => exact (gfMul_one acc).symm.trans (gfAdd_zero _).symm
  | cons y ys ih =>
    rw [evalBlock, List.foldl_cons, List.foldl_cons, ih, ih (gfAdd _ y), zero_gfMul, zero_gfAdd, gfAdd_gfMul, gfMul_assoc,
      gfMul_comm x, ← gfPow_succ, gfAdd_assoc, List.length_cons]

theorem evalBlock_append (xs ys : List Byte) (x : Byte) :
    evalBlock (xs ++ ys) x = gfAdd (gfMul (evalBlock xs x) (gfPow x ys.length)) (evalBlock ys x) := by
  rw [evalBlock, List.foldl_append, horner_from]; rfl

theorem evalBlock_cons (y : Byte) (ys : List Byte) (x : Byte) :
    evalBlock (y :: ys) x = gfAdd (gfMul y (gfPow x ys.length)) (evalBlock ys x) := by
  rw [evalBlock, List.foldl_cons, horner_from, zero_gfMul, zero_gfAdd]

theorem evalBlock_concat (xs : List Byte) (y x : Byte) :
    evalBlock (xs ++ [y]) x = gfAdd (gfMul (evalBlock xs x) x) y := by
  rw [evalBlock, List.foldl_append]; rfl

/-- Adding a multiple of a block of the same length adds that multiple of its value. -/
theorem evalBlock_zipWith (k x : Byte) {xs ys : List Byte} (h : xs.length = ys.length) :
    evalBlock (List.zipWith (fun a b => gfAdd a (gfMul k b)) xs ys) x =
      gfAdd (evalBlock xs x) (gfMul k (evalBlock ys x)) := by
  induction xs generalizing ys with
  | nil =>
    obtain rfl := List.length_eq_zero_iff.mp h.symm
    exact ((zero_gfAdd _).trans (gfMul_zero k)).symm
  | cons a xs ih =>
    cases ys with
    | nil => cases h
    | cons b ys =>
      have hlen : xs.length = ys.length := Nat.succ.inj h
      rw [List.zipWith_cons_cons, evalBlock_cons, evalBlock_cons, evalBlock_cons, ih hlen, List.length_zipWith, ← hlen,
        Nat.min_self]
      simp only [gfAdd_gfMul, gfMul_gfAdd, gfMul_assoc]
      simp only [gfAdd]
      ac_rfl

/-! ## The parity register (rule R224) -/

/-- The generator polynomial has the roots `alpha^0` to `alpha^31` (rule R221): there its lower coefficients have the value of
its leading term. -/
theorem evalBlock_genTaps : ∀ i < 32, evalBlock genTaps (expEntry i) = gfPow (expEntry i) 32 := by decide +kernel

theorem parityStep_length {par : List Byte} (d : Byte) (h : par.length = 32) : (parityStep par d).length = 32 := by
  have htaps : genTaps.length = 32 := rfl
  unfold parityStep
  dsimp only
  split <;> simp [h, htaps]

theorem rsParity_length (d : List Byte) : (rsParity d).length = 32 :=
  List.foldlRecOn d parityStep (motive := fun par => par.length = 32) List.length_replicate
    fun _ h y _ => parityStep_length y h

/-- The feedback is added also where it is zero. -/
theorem parityStep_eq (p d : Byte) {ps : List Byte} (h : ps.length = 31) :
    parityStep (p :: ps) d =
      List.zipWith (fun x g => gfAdd x (gfMul (gfAdd d p) g)) (ps ++ [0]) genTaps := by
  have htaps : genTaps.length = 32 := rfl
  unfold parityStep
  dsimp only [List.headD_cons, List.drop_one, List.tail_cons]
  split
  · rename_i hfb
    rw [hfb]
    simp only [zero_gfMul, gfAdd_zero]
    refine List.ext_getElem (by simp [h, htaps]) fun n h1 h2 => ?_
    rw [List.getElem_zipWith]
    rfl
  · rfl

/-- Taking a byte in, the register's polynomial is multiplied by `x`, the byte added as its coefficient of `x^32`, and the result
reduced modulo the generator. -/
theorem parityStep_eval {par : List Byte} (h : par.length = 32) (d : Byte) {i : Nat} (hi : i < 32) :
    evalBlock (parityStep par d) (expEntry i) =
      gfAdd (gfMul (evalBlock par (expEntry i)) (expEntry i)) (gfMul d (gfPow (expEntry i) 32)) := by
  obtain ⟨p, ps, rfl⟩ := List.exists_cons_of_length_pos (by omega : 0 < par.length)
  have hps : ps.length = 31 := Nat.succ.inj h
  have hlen : (ps ++ [0]).length = genTaps.length := by simp [hps]; rfl
  set x := expEntry i
  have hpow : gfPow x 32 = gfMul (gfPow x 31) x := gfPow_succ x 31
  have hcancel : ∀ a b c : Byte, gfAdd b (gfMul (gfAdd d a) c) = gfAdd (gfAdd (gfMul a c) b) (gfMul d c) := by
    intro a b c
    rw [gfAdd_gfMul, gfAdd_comm (gfMul a c), gfAdd_comm (gfMul d c), gfAdd_assoc]
  rw [parityStep_eq p d hps, evalBlock_zipWith _ _ hlen, evalBlock_genTaps i hi, evalBlock_concat, gfAdd_zero,
    evalBlock_cons, hps, gfAdd_gfMul (gfMul p _), gfMul_assoc p, ← hpow]
  exact hcancel ..

/-- The parity of data is the value that data followed by 32 zeros would have: the remainder modulo the generator. -/
theorem rsParity_eval (d : List Byte) {i : Nat} (hi : i < 32) :
    evalBlock (rsParity d) (expEntry i) = gfMul (evalBlock d (expEntry i)) (gfPow (expEntry i) 32) := by
  induction d using List.reverseRecOn with
  | nil =>
    have hzero : ∀ i < 32, evalBlock (List.replicate 32 0) (expEntry i) = 0 := by decide +kernel
    exact (hzero i hi).trans (zero_gfMul _).symm
  | append_singleton d y ih =>
    have hstep : rsParity (d ++ [y]) = parityStep (rsParity d) y := List.foldl_append
    rw [hstep, parityStep_eval (rsParity_length d) y hi, ih, evalBlock_concat, gfAdd_gfMul, gfMul_assoc, gfMul_assoc,
      gfMul_comm (gfPow _ _)]

/-- An encoded block is a codeword: its syndromes are zero, whatever its data (rules R220, R224, R226). -/
theorem rsSyndromes_rsEncodeBlock (d : List Byte) : rsSyndromes (rsEncodeBlock d) = List.replicate 32 0 := by
  refine List.eq_replicate_iff.mpr ⟨by simp [rsSyndromes], fun y hy => ?_⟩
  obtain ⟨i, hi, rfl⟩ := List.mem_map.mp hy
  rw [rsEncodeBlock, evalBlock_append, rsParity_length, rsParity_eval d (List.mem_range.mp hi), gfAdd_self]

/-- The block decoder leaves a codeword as it is (rule R228). -/
theorem rsCorrectBlock_rsEncodeBlock (d : List Byte) : rsCorrectBlock (rsEncodeBlock d) = some (rsEncodeBlock d) := by
  unfold rsCorrectBlock
  dsimp only
  rw [rsSyndromes_rsEncodeBlock, if_pos (by decide)]

end Sys2Proof.Machine

/-! # Frames (30_encoding.md part A, rules R60 to R66, 42_line_coding_hdlc.md, 43_crc_frame.md) -/

namespace Sys2Proof.Machine

set_option Elab.async false

/-! ## Blocks of a payload and of an area (45_reed_solomon.md rules R232, R233) -/

theorem ceilDiv_mul_ge (n : Nat) {d : Nat} (h : 0 < d) : n ≤ d * ceilDiv n d := by
  have hdiv := Nat.lt_mul_div_succ (n + d - 1) h
  rw [ceilDiv]
  rw [Nat.mul_add_one] at hdiv
  omega

theorem byteBlocks_length (size n : Nat) (xs : List Byte) : (byteBlocks size n xs).length = n := by
  induction n generalizing xs with
  | zero => rfl
  | succ n ih => rw [byteBlocks, List.length_cons, ih]

theorem length_of_mem_byteBlocks {size n : Nat} {xs b : List Byte} (h : b ∈ byteBlocks size n xs) : b.length = size := by
  induction n generalizing xs with
  | zero => cases h
  | succ n ih =>
    rcases List.mem_cons.mp h with rfl | h
    · rw [List.length_append, List.length_take, List.length_replicate]; omega
    · exact ih h

/-- Joined, the blocks are the bytes and the padding. -/
theorem byteBlocks_flatten {size n : Nat} {xs : List Byte} (h : xs.length ≤ size * n) :
    (byteBlocks size n xs).flatten = xs ++ List.replicate (size * n - xs.length) 0 := by
  induction n generalizing xs with
  | zero =>
    obtain rfl := List.length_eq_zero_iff.mp (by omega : xs.length = 0)
    rfl
  | succ n ih =>
    rw [Nat.mul_add_one] at h ⊢
    rw [byteBlocks, List.flatten_cons, ih (by rw [List.length_drop]; omega), List.length_drop]
    rcases Nat.le_total xs.length size with hle | hge
    · rw [List.take_of_length_le hle, List.drop_of_length_le hle, List.nil_append, List.append_assoc,
        List.replicate_append_replicate]
      congr 2
      omega
    · rw [Nat.sub_eq_zero_of_le hge, List.replicate_zero, List.append_nil, ← List.append_assoc, List.take_append_drop]
      congr 2
      omega

theorem flatten_length_of_forall {n : Nat} {bs : List (List Byte)} (h : ∀ b ∈ bs, b.length = n) :
    bs.flatten.length = n * bs.length := by
  rw [List.length_flatten, List.eq_replicate_of_mem (a := n) (l := bs.map List.length) (by simpa using h)]
  simp [Nat.mul_comm]

/-- Blocks of one size, joined, are taken apart into the same blocks. -/
theorem codeBlocks_flatten {bs : List (List Byte)} (h : ∀ b ∈ bs, b.length = 255) : codeBlocks bs.flatten = bs := by
  rw [codeBlocks, flatten_length_of_forall h, Nat.mul_div_cancel_left _ (by decide)]
  induction bs with
  | nil => rfl
  | cons b bs ih =>
    have hb := h b (List.mem_cons_self ..)
    rw [List.length_cons, byteBlocks, List.flatten_cons, List.take_append_of_le_length hb.ge, List.take_of_length_le hb.le,
      List.drop_append_of_le_length hb.ge, List.drop_of_length_le hb.le, List.nil_append,
      ih fun c hc => h c (List.mem_cons_of_mem _ hc), List.length_append, Nat.sub_eq_zero_of_le (by omega),
      List.replicate_zero, List.append_nil]

theorem codeBlocks_length (area : List Byte) : (codeBlocks area).length = area.length / 255 := byteBlocks_length ..

theorem dataBlocks_length (p : List Byte) : (dataBlocks p).length = ceilDiv p.length 223 := byteBlocks_length ..

theorem length_of_mem_dataBlocks {p d : List Byte} (h : d ∈ dataBlocks p) : d.length = 223 := length_of_mem_byteBlocks h

theorem dataBlocks_flatten_take (p : List Byte) : (dataBlocks p).flatten.take p.length = p := by
  rw [dataBlocks, byteBlocks_flatten (ceilDiv_mul_ge _ (by decide)), List.take_left]

theorem rsEncodeBlock_length {d : List Byte} (h : d.length = 223) : (rsEncodeBlock d).length = 255 := by
  rw [rsEncodeBlock, List.length_append, rsParity_length, h]

/-- The code blocks of an encoded payload are its data blocks, encoded. -/
theorem codeBlocks_rsEncode (p : List Byte) : codeBlocks (rsEncode p) = (dataBlocks p).map rsEncodeBlock := by
  refine codeBlocks_flatten fun b hb => ?_
  obtain ⟨d, hd, rfl⟩ := List.mem_map.mp hb
  exact rsEncodeBlock_length (length_of_mem_dataBlocks hd)

theorem rsEncode_length (p : List Byte) : (rsEncode p).length = 255 * ceilDiv p.length 223 := by
  rw [rsEncode, flatten_length_of_forall (n := 255), List.length_map, dataBlocks_length]
  intro b hb
  obtain ⟨d, hd, rfl⟩ := List.mem_map.mp hb
  exact rsEncodeBlock_length (length_of_mem_dataBlocks hd)

/-- The data of encoded blocks are the blocks. -/
theorem blocksData_rsEncodeBlock {ds : List (List Byte)} (h : ∀ d ∈ ds, d.length = 223) :
    blocksData (ds.map rsEncodeBlock) = ds.flatten := by
  have hdata : ∀ d ∈ ds, ((fun c => c.take 223) ∘ rsEncodeBlock) d = id d := fun d hd => by
    rw [Function.comp_apply, rsEncodeBlock, ← h d hd, List.take_left]; rfl
  rw [blocksData, List.map_map, List.map_congr_left hdata, List.map_id]

/-- The encoded payload ends with the parity of its last data block. -/
theorem rsEncode_of_getLast? {p d : List Byte} (h : (dataBlocks p).getLast? = some d) :
    ∃ ys, rsEncode p = ys ++ rsParity d := by
  obtain ⟨ds, hds⟩ := List.getLast?_eq_some_iff.mp h
  refine ⟨(ds.map rsEncodeBlock).flatten ++ d, ?_⟩
  rw [rsEncode, hds, List.map_append, List.flatten_append, List.append_assoc]
  simp [rsEncodeBlock]

theorem dataBlocks_eq_nil_iff {p : List Byte} : dataBlocks p = [] ↔ p = [] := by
  constructor
  · intro h
    have hp := dataBlocks_flatten_take p
    rw [h, List.flatten_nil, List.take_nil] at hp
    exact hp.symm
  · rintro rfl
    rfl

/-! ## Correcting blocks (rules R228, R233) -/

theorem applyErrors_length (r : List Byte) (es : List (Nat × Byte)) : (applyErrors r es).length = r.length := by
  induction es generalizing r with
  | nil => rfl
  | cons e es ih => rw [applyErrors, ih, List.length_set]

theorem correctAt_length {r syn c fixed : List Byte} {deg : Nat} (h : correctAt r syn c deg = some fixed) :
    fixed.length = r.length := by
  unfold correctAt at h
  dsimp only at h
  split at h
  · cases h
  · split at h
    · cases h
    · split at h
      · exact Option.some.inj h ▸ applyErrors_length ..
      · cases h

/-- A corrected block is as long as the block received. -/
theorem rsCorrectBlock_length {r c : List Byte} (h : rsCorrectBlock r = some c) : c.length = r.length := by
  unfold rsCorrectBlock at h
  dsimp only at h
  split at h
  · exact Option.some.inj h ▸ rfl
  · split at h
    · cases h
    · exact correctAt_length h

theorem correctBlocks_eq_some {bs cs : List (List Byte)} :
    correctBlocks bs = some cs ↔ bs.map rsCorrectBlock = cs.map some := by
  induction bs generalizing cs with
  | nil => cases cs <;> simp [correctBlocks]
  | cons b bs ih =>
    unfold correctBlocks
    cases cs with
    | nil => cases rsCorrectBlock b <;> cases correctBlocks bs <;> simp
    | cons c cs =>
      rw [List.map_cons, List.map_cons, List.cons.injEq, ← ih]
      cases rsCorrectBlock b <;> cases correctBlocks bs <;> simp

theorem correctBlocks_eq_none {bs : List (List Byte)} : correctBlocks bs = none ↔ ∃ b ∈ bs, rsCorrectBlock b = none := by
  induction bs with
  | nil => simp [correctBlocks]
  | cons b bs ih =>
    rw [List.exists_mem_cons_iff, ← ih, correctBlocks]
    cases rsCorrectBlock b <;> cases correctBlocks bs <;> simp

/-- Correction keeps the number of blocks and the length of each. -/
theorem length_of_correctBlocks {bs cs : List (List Byte)} (h : bs.map rsCorrectBlock = cs.map some) :
    cs.length = bs.length ∧ ((∀ b ∈ bs, b.length = 255) → ∀ c ∈ cs, c.length = 255) := by
  constructor
  · simpa using (congrArg List.length h).symm
  · intro hbs c hc
    have hmem : some c ∈ bs.map rsCorrectBlock := h ▸ List.mem_map_of_mem hc
    obtain ⟨b, hb, hbc⟩ := List.mem_map.mp hmem
    rw [rsCorrectBlock_length hbc, hbs b hb]

theorem correctBlocks_rsEncodeBlock (ds : List (List Byte)) :
    correctBlocks (ds.map rsEncodeBlock) = some (ds.map rsEncodeBlock) := by
  rw [correctBlocks_eq_some, List.map_map, List.map_map]
  exact List.map_congr_left fun d _ => rsCorrectBlock_rsEncodeBlock d

/-- The data of corrected blocks of 255 bytes are 223 bytes a block. -/
theorem blocksData_length {cs : List (List Byte)} (h : ∀ c ∈ cs, c.length = 255) :
    (blocksData cs).length = 223 * cs.length := by
  rw [blocksData, flatten_length_of_forall (n := 223), List.length_map]
  intro b hb
  obtain ⟨c, hc, rfl⟩ := List.mem_map.mp hb
  rw [List.length_take, h c hc]
  rfl

theorem diffCount_self (xs : List Byte) : diffCount xs xs = 0 := by
  induction xs with
  | nil => rfl
  | cons x xs ih => simpa [diffCount] using ih

theorem changedBytes_self (bs : List (List Byte)) : changedBytes bs bs = 0 := by
  induction bs with
  | nil => rfl
  | cons b bs ih => rw [changedBytes, List.zipWith_cons_cons, List.sum_cons, diffCount_self, ← changedBytes, ih]

/-! ## Bits and flags (20_memory.md rule R44, 42_line_coding_hdlc.md rules R148, R154) -/

theorem unpackLsb_length (bytes : List Byte) : (unpackLsb bytes).length = 8 * bytes.length := by
  induction bytes with
  | nil => rfl
  | cons y ys ih =>
    have hbits : (byteBits y).length = 8 := by simp [byteBits]
    rw [unpackLsb, List.map_cons, List.flatten_cons, List.length_append, hbits, ← unpackLsb, ih, List.length_cons]
    omega

/-- Stuffing drops no bit. -/
theorem stuffFrom_length_ge (n : Nat) (bits : List Bit) : bits.length ≤ (stuffFrom n bits).length := by
  induction bits generalizing n with
  | nil => exact Nat.zero_le _
  | cons b bits ih =>
    have h0 := ih 0
    have hn := ih (n + 1)
    cases b with
    | false => simpa [stuffFrom] using h0
    | true =>
      rw [stuffFrom]
      split <;> simp only [List.length_cons] <;> omega

theorem hdlcBuild_length (frame : List Byte) (npre : Nat) :
    (hdlcBuild frame npre).length = 8 * (npre + 2) + 8 * frame.length +
      ((stuff (unpackLsb frame)).length - 8 * frame.length) := by
  have hstuff : 8 * frame.length ≤ (stuff (unpackLsb frame)).length := by
    rw [← unpackLsb_length]
    exact stuffFrom_length_ge 0 _
  have hflags : (List.replicate npre hdlcFlag).flatten.length = 8 * npre := by
    simp [hdlcFlag, Nat.mul_comm]
  have hflag : hdlcFlag.length = 8 := rfl
  rw [hdlcBuild, List.length_append, List.length_append, List.length_append, hflags, hflag]
  omega

/-- The opening flag is one more flag of the preamble. -/
theorem hdlcBuild_eq (frame : List Byte) (npre : Nat) :
    hdlcBuild frame npre =
      (List.replicate (npre + 1) hdlcFlag).flatten ++ stuff (unpackLsb frame) ++ hdlcFlag := by
  rw [hdlcBuild, List.replicate_succ', List.flatten_append, List.flatten_singleton]

/-! ## Building and parsing frames (30_encoding.md rules R60, R61, 43_crc_frame.md rules R182, R183) -/

/-- The first eight bytes of a frame with the magic and the version of rule R60. -/
def headerBytes (flags l1 l0 : Byte) : List Byte := [0x51, 0x52, 0x41, 0x31, 0x01, flags, l1, l0]

theorem headerBytes_length (flags l1 l0 : Byte) : (headerBytes flags l1 l0).length = 8 := rfl

/-- Two bytes joined, the first one low. -/
theorem joinBytes_eq (lo hi : Byte) :
    lo.setWidth 16 ||| (hi.setWidth 16 <<< 8) = BitVec.ofNat 16 (lo.toNat + 256 * hi.toNat) := by
  have hlo := lo.isLt
  have hhi := hi.isLt
  have hmod : hi.toNat % 2 ^ 16 * 2 ^ 8 % 2 ^ 16 = hi.toNat * 2 ^ 8 := by omega
  apply BitVec.eq_of_toNat_eq
  rw [BitVec.toNat_or, BitVec.toNat_shiftLeft, BitVec.toNat_setWidth, BitVec.toNat_setWidth, BitVec.toNat_ofNat,
    Nat.shiftLeft_eq, hmod, Nat.or_comm, ← Nat.shiftLeft_eq, ← Nat.shiftLeft_add_eq_or_of_lt (by omega), Nat.shiftLeft_eq]
  omega

/-- The bytes of a 16-bit value, joined again. -/
theorem joinBytes_bytes (v : U16) :
    BitVec.ofNat 16 ((v.setWidth 8).toNat + 256 * ((v >>> 8).setWidth 8).toNat) = v := by
  have hv := v.isLt
  apply BitVec.eq_of_toNat_eq
  simp only [BitVec.toNat_ofNat, BitVec.toNat_setWidth, BitVec.toNat_ushiftRight, Nat.shiftRight_eq_div_pow]
  omega

theorem storedCrc_append (xs : List Byte) (lo hi : Byte) :
    storedCrc (xs ++ [lo, hi]) = BitVec.ofNat 16 (lo.toNat + 256 * hi.toNat) := by
  rw [← joinBytes_eq]
  simp [storedCrc]

theorem slice_zero {α : Type} (xs : List α) (n : Nat) : slice xs 0 n = xs.take n := rfl

theorem withoutTrailer_append (xs : List Byte) (lo hi : Byte) : withoutTrailer (xs ++ [lo, hi]) = xs := by
  simp [withoutTrailer, slice_zero]

/-- `parse_frame` of a frame in its parts. -/
theorem parseFrame_parts (flags l1 l0 lo hi : Byte) (area : List Byte) :
    parseFrame (headerBytes flags l1 l0 ++ area ++ [lo, hi]) =
      some ⟨flags, BitVec.ofNat 16 (256 * l1.toNat + l0.toNat), area, BitVec.ofNat 16 (lo.toNat + 256 * hi.toNat),
        crc16x25 (headerBytes flags l1 l0 ++ area)⟩ := by
  have hlen : (headerBytes flags l1 l0 ++ area ++ [lo, hi]).length = 8 + area.length + 2 := by
    rw [List.length_append, List.length_append, headerBytes_length]; rfl
  have harea : slice (headerBytes flags l1 l0 ++ area ++ [lo, hi]) 8 (8 + area.length) = area := by
    rw [slice_add, List.append_assoc, List.drop_left' (headerBytes_length ..), List.take_left]
  have hlenField : headerLen (headerBytes flags l1 l0 ++ area ++ [lo, hi]) =
      BitVec.ofNat 16 (256 * l1.toNat + l0.toNat) := by
    rw [Nat.add_comm, ← joinBytes_eq, BitVec.or_comm]; rfl
  have hmagic : slice (headerBytes flags l1 l0 ++ area ++ [lo, hi]) 0 4 = frameMagic := rfl
  have hversion : (headerBytes flags l1 l0 ++ area ++ [lo, hi]).getD 4 0 = frameVersion := rfl
  have hflags : (headerBytes flags l1 l0 ++ area ++ [lo, hi]).getD 5 0 = flags := rfl
  rw [parseFrame, if_neg (by omega), if_neg (not_not.mpr hmagic), if_neg (not_not.mpr hversion), hflags, hlenField, hlen,
    Nat.add_sub_cancel, harea, storedCrc_append, withoutTrailer_append]

/-- What `parse_frame` refuses. -/
theorem parseFrame_eq_none {f : List Byte}
    (h : f.length < 10 ∨ f.take 4 ≠ frameMagic ∨ f.getD 4 0 ≠ frameVersion) : parseFrame f = none := by
  unfold parseFrame
  split
  · rfl
  · split
    · rfl
    · rename_i hlen hmagic
      rw [if_pos]
      exact (h.resolve_left hlen).resolve_left hmagic

theorem frameHeader_eq (flags : Byte) (len : U16) :
    frameHeader flags len = headerBytes (flags &&& 0x0F) ((len >>> 8).setWidth 8) (len.setWidth 8) := rfl

/-- A frame that was built parses to what it was built from, and its CRC is right. -/
theorem parseFrame_buildFrame (flags : Byte) (len : U16) (area : List Byte) :
    parseFrame (buildFrame flags len area) =
      some ⟨flags &&& 0x0F, len, area, frameCrc flags len area, frameCrc flags len area⟩ := by
  rw [buildFrame, crcTrailer, frameHeader_eq, parseFrame_parts, joinBytes_bytes, Nat.add_comm, joinBytes_bytes]
  rfl

theorem flagProfile_eq (flags : Byte) : flagProfile flags = BitVec.ofNat 2 (flags.toNat / 4) := by
  apply BitVec.eq_of_toNat_eq
  simp [flagProfile, Nat.shiftRight_eq_div_pow]

/-- The complement of rule R176. -/
theorem xor_ones (c : U16) : c ^^^ 0xFFFF = ~~~c := by
  rw [BitVec.xor_comm]
  exact BitVec.allOnes_xor

/-- What `RS.PAR` holds after a run over data blocks. -/
theorem leaveParity_spec (ds : List (List Byte)) (s : State) :
    ∃ par, leaveParity ds s = { s with rsPar := par } ∧ (ds = [] → par = s.rsPar) ∧
      ∀ d, ds.getLast? = some d → par.toList = rsParity d := by
  refine ⟨_, leaveParity_eq ds s, ?_, ?_⟩
  · rintro rfl
    rfl
  · intro d hd
    rw [hd]
    exact bytes32_toList (rsParity_length d)

/-- What `RS.SYN` holds after a run over blocks. -/
theorem leaveSyndromes_spec (bs : List (List Byte)) (s : State) :
    ∃ syn, leaveSyndromes bs s = { s with rsSyn := syn } ∧ (bs = [] → syn = s.rsSyn) ∧
      ∀ b, bs.getLast? = some b → syn.toList = rsSyndromes b := by
  refine ⟨_, leaveSyndromes_eq bs s, ?_, ?_⟩
  · rintro rfl
    rfl
  · intro b hb
    rw [hb]
    exact bytes32_toList (by simp [rsSyndromes])

/-- What `FRM.ENCODE` leaves in `RS.PAR`: nothing new without a block, else the end of the area (rule R184). -/
theorem encodeParity_spec (fec : Bool) (p : List Byte) (s : State) :
    ∃ par : Vector Byte 32, (if fec then leaveParity (dataBlocks p) s else s) = { s with rsPar := par } ∧
      (fec = false ∨ p = [] → par = s.rsPar) ∧
      (fec = true → p ≠ [] → ∃ ys, rsEncode p = ys ++ par.toList) := by
  cases fec with
  | false => exact ⟨s.rsPar, rfl, fun _ => rfl, nofun⟩
  | true =>
    obtain ⟨par, heq, hnil, hlast⟩ := leaveParity_spec (dataBlocks p) s
    refine ⟨par, heq, fun h => hnil (dataBlocks_eq_nil_iff.mpr (h.resolve_left nofun)), fun _ hp => ?_⟩
    have hd := List.getLast?_eq_some_getLast (mt dataBlocks_eq_nil_iff.mp hp)
    rw [hlast _ hd]
    exact rsEncode_of_getLast? hd

/-- The 32 bytes before a frame's two trailer bytes. -/
theorem take_before_trailer {xs par tr : List Byte} (hpar : par.length = 32) (htr : tr.length = 2) :
    ((xs ++ par ++ tr).drop ((xs ++ par ++ tr).length - 34)).take 32 = par := by
  have hlen : (xs ++ par ++ tr).length - 34 = xs.length := by
    rw [List.length_append, List.length_append, hpar, htr]; omega
  rw [hlen, List.append_assoc, List.drop_left, ← hpar, List.take_left]

/-- Two result registers written one after the other. -/
theorem rWritten_pair_of_eq {j k : Sel} {v u : U32} {s t : State} (hjk : j ≠ k)
    (h : t.r = bankSet (bankSet s.r j v) k u) : RWritten [(j, v), (k, u)] s t := by
  simp only [RWritten, h, List.forall_mem_cons]
  refine ⟨⟨?_, bankGet_bankSet_same .., by simp⟩, fun i ⟨hj, hk, _⟩ => ?_⟩
  · rw [bankGet_bankSet_ne _ _ hjk, bankGet_bankSet_same]
  · rw [bankGet_bankSet_ne _ _ (Ne.symm hk), bankGet_bankSet_ne _ _ (Ne.symm hj)]

/-! ## Decoding a parsed frame (rules R185, R186) -/

section

variable {f : List Byte} {r : ParsedFrame}

theorem expectedArea_fec (h : flagFec r.flags = true) : expectedArea r = 255 * ((r.len.toNat + 222) / 223) := if_pos h

theorem decodeParsed_of_length_ne (h : r.area.length ≠ expectedArea r) : decodeParsed f r = .fail .none r.computed :=
  if_pos h

theorem decodeParsed_of_uncorrectable (hfec : flagFec r.flags = true) (hlen : r.area.length = expectedArea r)
    (h : correctBlocks (codeBlocks r.area) = none) : decodeParsed f r = .fail .fecUncorrectable r.computed := by
  rw [decodeParsed, if_neg (not_not.mpr hlen), if_pos hfec, h]

/-- The CRC that `decode_frame` computes last once all blocks are corrected: the parse's when it matches, else the one over the
corrected area (log 11). -/
def lastCrc (f : List Byte) (r : ParsedFrame) (cs : List (List Byte)) : U16 :=
  if r.computed = r.stored then r.computed else crc16x25 (f.take 8 ++ cs.flatten)

theorem frameCrcOk_iff : frameCrcOk r = true ↔ r.computed = r.stored := beq_iff_eq

/-- With all blocks corrected, the CRC as received or over the corrected area decides. -/
theorem decodeParsed_of_corrected {cs : List (List Byte)} (hfec : flagFec r.flags = true)
    (hlen : r.area.length = expectedArea r) (h : correctBlocks (codeBlocks r.area) = some cs) :
    decodeParsed f r =
      if r.computed = r.stored ∨ crc16x25 (f.take 8 ++ cs.flatten) = r.stored then
        .payload ((blocksData cs).take r.len.toNat) (codeBlocks r.area) cs (lastCrc f r cs)
      else .fail .integrity (lastCrc f r cs) := by
  rw [decodeParsed, if_neg (not_not.mpr hlen), if_pos hfec, h]
  simp only [frameCrcOk_iff, Bool.or_eq_true, beq_iff_eq, lastCrc, slice_zero]

theorem decodeParsed_of_plain (hfec : flagFec r.flags = false) (hlen : r.area.length = r.len.toNat)
    (hcrc : r.computed = r.stored) : decodeParsed f r = .payload r.area [] [] r.computed := by
  have hexpected : r.area.length = expectedArea r := by rw [expectedArea, hfec]; exact hlen
  rw [decodeParsed, if_neg (not_not.mpr hexpected), hfec, if_neg Bool.false_ne_true, if_pos (frameCrcOk_iff.mpr hcrc)]

/-- The corrected blocks hold as many data bytes as `LEN` announces. -/
theorem payload_length {cs : List (List Byte)} (hlen : r.area.length = 255 * ((r.len.toNat + 222) / 223))
    (h : (codeBlocks r.area).map rsCorrectBlock = cs.map some) :
    ((blocksData cs).take r.len.toNat).length = r.len.toNat := by
  obtain ⟨hcount, hsize⟩ := length_of_correctBlocks h
  rw [List.length_take, blocksData_length (hsize fun b hb => length_of_mem_byteBlocks hb), hcount, codeBlocks_length, hlen]
  omega

end

section

variable {src dst : Sel} {s : State} {r : ParsedFrame} {last : U16}

/-- `FRM.DECODE` that fails after the parse writes the parse's registers and `CRC.REG` (rule R304). -/
theorem execFrmDecode_of_fail {x : Status} (hparse : parseFrame (ybRead src s) = some r)
    (h : decodeParsed (ybRead src s) r = .fail x last) :
    execFrmDecode src dst s =
      .next { s with parsed := parsedRegs r, crcReg := last ^^^ 0xFFFF, status := statusCode x } := by
  simp only [execFrmDecode, hparse, h]
  rfl

/-- `FRM.DECODE` that finds a payload writes it, its length and the number of bytes changed, and the syndromes of the last block
as received. -/
theorem execFrmDecode_of_payload {p : List Byte} {bs cs : List (List Byte)}
    (hparse : parseFrame (ybRead src s) = some r) (h : decodeParsed (ybRead src s) r = .payload p bs cs last) :
    ∃ t, execFrmDecode src dst s = .next t ∧ t.crcReg = ~~~last ∧ YbWritten dst p s t ∧
      RWritten [(0, countWord s.openTick 0 p.length), (1, countWord s.openTick 1 (changedBytes bs cs))] s t ∧
      (bs = [] → t.rsSyn = s.rsSyn) ∧ (∀ b, bs.getLast? = some b → t.rsSyn.toList = rsSyndromes b) ∧
      t = { s with
        parsed := parsedRegs r, crcReg := t.crcReg, yb := t.yb, r := t.r, rsSyn := t.rsSyn, status := 0 } := by
  let u := setCount 1 (changedBytes bs cs)
    (setCount 0 p.length (ybWrite dst p (setCrc (last ^^^ 0xFFFF) (leaveParsed r s))))
  obtain ⟨syn, hsyn, hnil, hlast⟩ := leaveSyndromes_spec bs u
  refine ⟨{ u with rsSyn := syn, status := 0 }, ?_, xor_ones last, ybWritten_of_eq rfl,
    rWritten_pair_of_eq (by decide) rfl, hnil, hlast, rfl⟩
  simp only [execFrmDecode, hparse, h]
  exact congrArg (endWith .ok) hsyn

end

/-! ## A frame that was built decodes (rules R184, R185) -/

theorem and_low_toNat (flags : Byte) : (flags &&& 0x0F).toNat = flags.toNat % 16 := by
  rw [BitVec.toNat_and]
  exact Nat.and_two_pow_sub_one_eq_mod flags.toNat 4

theorem flagFec_and_low (flags : Byte) : flagFec (flags &&& 0x0F) = flagFec flags := by
  simp [flagFec]

theorem flagProfile_and_low (flags : Byte) : flagProfile (flags &&& 0x0F) = flagProfile flags := by
  apply BitVec.eq_of_toNat_eq
  rw [flagProfile_eq, flagProfile_eq, and_low_toNat, BitVec.toNat_ofNat, BitVec.toNat_ofNat]
  omega

/-- What a frame with a payload's area parses to: its FLAGS, LEN and area, and its CRC twice. -/
def builtParse (flags : Byte) (p : List Byte) : ParsedFrame :=
  let len := BitVec.ofNat 16 p.length
  let c := frameCrc flags len (encodeArea flags p)
  ⟨flags &&& 0x0F, len, encodeArea flags p, c, c⟩

theorem builtParse_len {p : List Byte} (flags : Byte) (h : p.length ≤ 65535) :
    (builtParse flags p).len.toNat = p.length := Nat.mod_eq_of_lt (by omega)

/-- A payload's frame decodes to the payload, and no block is changed. -/
theorem decodeParsed_builtParse (flags : Byte) {p : List Byte} (h : p.length ≤ 65535) (f : List Byte) :
    ∃ bs c, decodeParsed f (builtParse flags p) = .payload p bs bs c := by
  have hlen := builtParse_len flags h
  have hflags : flagFec (builtParse flags p).flags = flagFec flags := flagFec_and_low flags
  cases hfec : flagFec flags with
  | false =>
    have harea : (builtParse flags p).area = p := if_neg (Bool.eq_false_iff.mp hfec)
    have hplain := decodeParsed_of_plain (f := f) (hflags.trans hfec) (by rw [harea, hlen]) rfl
    rw [harea] at hplain
    exact ⟨[], _, hplain⟩
  | true =>
    have harea : (builtParse flags p).area = rsEncode p := if_pos hfec
    have hblocks : codeBlocks (builtParse flags p).area = (dataBlocks p).map rsEncodeBlock := by
      rw [harea, codeBlocks_rsEncode]
    have hexpected : (builtParse flags p).area.length = expectedArea (builtParse flags p) := by
      rw [expectedArea_fec (hflags.trans hfec), harea, hlen, rsEncode_length]; rfl
    have hcorrected := decodeParsed_of_corrected (f := f) (hflags.trans hfec) hexpected
      (hblocks ▸ correctBlocks_rsEncodeBlock (dataBlocks p))
    rw [if_pos (.inl rfl), hblocks, blocksData_rsEncodeBlock fun _ => length_of_mem_dataBlocks, hlen,
      dataBlocks_flatten_take] at hcorrected
    exact ⟨_, _, hcorrected⟩

end Sys2Proof.Machine

namespace Sys2Proof

open Machine

/-- Settles O38. -/
theorem hdlcFrame : Obligations.HdlcFrame := by
  intro src dst s
  constructor
  · intro hnpre
    simp only [exec, execHdlcFrame, hnpre]
    rfl
  · intro npre hnpre
    let out := hdlcBuild (ybRead src s) npre
    refine ⟨setStatus .ok (setCount 0 out.length (bbWrite dst out s)), out, ?_, bbWritten_of_eq rfl, hdlcBuild_eq ..,
      hdlcBuild_length .., rWritten_of_eq rfl, rfl⟩
    simp only [exec, execHdlcFrame, hnpre]
    rfl

/-- Settles O46: `parseFrame_eq_none` and `parseFrame_parts` say what the frame parses to. -/
theorem frmParse : Obligations.FrmParse := by
  intro src dst s f
  constructor
  · intro h
    have hnone : parseFrame (ybRead src s) = none := parseFrame_eq_none h
    simp only [exec, execFrmParse, hnone]
    rfl
  · intro flags l1 l0 lo hi area hf stored computed
    let r : ParsedFrame := ⟨flags, BitVec.ofNat 16 (256 * l1.toNat + l0.toNat), area, stored, computed⟩
    have hparse : parseFrame (ybRead src s) = some r :=
      (congrArg parseFrame hf).trans (parseFrame_parts flags l1 l0 lo hi area)
    let u := setCount 0 area.length (ybWrite dst area (leaveParsed r s))
    refine ⟨setStatus (if frameCrcOk r then .ok else .integrity) u, ?_, ?_, ybWritten_of_eq rfl, rWritten_of_eq rfl,
      xor_ones computed, ?_, rfl⟩
    · simp only [exec, execFrmParse, hparse]
      rfl
    · exact congrArg (fun p => Parsed.mk flags (flags.getLsbD 0) (flags.getLsbD 1) p _ stored computed) (flagProfile_eq flags)
    · by_cases h : computed = stored <;> simp [r, frameCrcOk, h, statusCode]

/-- Settles O47: the area is `rsEncode`'s blocks, the last of which ends with the parity left in `RS.PAR`. -/
theorem frmEncode : Obligations.FrmEncode := by
  intro src dst s p fec
  constructor
  · intro hlong
    simp only [exec, execFrmEncode]
    rw [if_pos hlong]
    rfl
  · intro hshort area frame c
    have harea : area.length = if fec then 255 * ((p.length + 222) / 223) else p.length := by
      simp only [area]
      split
      · exact rsEncode_length p
      · rfl
    have hlt : area.length < 2 ^ 32 := by
      rw [harea]
      split <;> omega
    let u := setCount 1 area.length (setR 0 (c.setWidth 32) (ybWrite dst frame s))
    obtain ⟨par, hpar, hkept, hlast⟩ := encodeParity_spec fec p u
    refine ⟨{ u with rsPar := par, crcReg := c ^^^ 0xFFFF, status := 0 }, ?_, ybWritten_of_eq rfl, harea, ?_, xor_ones c,
      hkept, fun hfec hp => ?_, rfl⟩
    · simp only [exec, execFrmEncode]
      rw [if_neg (Nat.not_lt.mpr hshort)]
      exact congrArg (fun v => endWith .ok (setCrc (c ^^^ 0xFFFF) v)) hpar
    · rw [← countWord_of_lt s.openTick 1 hlt]
      exact rWritten_pair_of_eq (by decide) rfl
    · obtain ⟨ys, hys⟩ := hlast hfec hp
      have hframe : frame = frameHeader s.hdrFlags (BitVec.ofNat 16 p.length) ++ ys ++ par.toList ++ crcTrailer c := by
        rw [List.append_assoc _ ys, ← hys]
        simp only [frame, buildFrame, area, hfec, if_true, c]
      rw [hframe]
      exact (take_before_trailer Vector.length_toList rfl).symm

/-- Settles O49, case by case of the checks in their order: the area's length, the blocks, the two CRCs. -/
theorem frmDecodeFec : Obligations.FrmDecodeFec := by
  intro src dst s r f hparse hfec
  have hexpected := expectedArea_fec hfec
  by_cases hlen : r.area.length = 255 * ((r.len.toNat + 222) / 223)
  case neg =>
    have hfail := decodeParsed_of_length_ne (f := f) (hexpected ▸ hlen)
    exact ⟨_, execFrmDecode_of_fail hparse hfail, rfl, fun _ => ⟨xor_ones _, rfl⟩, fun h => absurd h hlen⟩
  case pos =>
    have harea := hlen.trans hexpected.symm
    cases hcs : correctBlocks (codeBlocks r.area) with
    | none =>
      have hfail := decodeParsed_of_uncorrectable (f := f) hfec harea hcs
      refine ⟨_, execFrmDecode_of_fail hparse hfail, rfl, fun h => absurd hlen h,
        fun _ => ⟨fun _ => ⟨xor_ones _, rfl⟩, ?_⟩⟩
      intro cs hmap
      rw [correctBlocks_eq_some.mpr hmap] at hcs
      cases hcs
    | some cs =>
      have hdecoded := decodeParsed_of_corrected (f := f) hfec harea hcs
      have hnofail : ¬ ∃ b ∈ codeBlocks r.area, rsCorrectBlock b = none := by
        rw [← correctBlocks_eq_none, hcs]
        nofun
      have honly : ∀ cs', (codeBlocks r.area).map rsCorrectBlock = cs'.map some → cs' = cs := fun cs' hmap => by
        rw [correctBlocks_eq_some.mpr hmap] at hcs
        exact Option.some.inj hcs
      by_cases hcrc : r.computed = r.stored ∨ crc16x25 (f.take 8 ++ cs.flatten) = r.stored
      · rw [if_pos hcrc] at hdecoded
        obtain ⟨t, hexec, hcrcReg, hyb, hr, hnil, hlast, ht⟩ := execFrmDecode_of_payload (dst := dst) hparse hdecoded
        refine ⟨t, hexec, congrArg State.parsed ht, fun h => absurd hlen h,
          fun _ => ⟨fun h => absurd h hnofail, fun cs' hmap => ?_⟩⟩
        obtain rfl := honly cs' hmap
        have hparsed : t.parsed = parsedRegs r := congrArg State.parsed ht
        have hlt := r.len.isLt
        rw [payload_length hlen hmap, countWord_of_lt _ _ (by omega)] at hr
        exact ⟨hcrcReg, fun h1 h2 => absurd hcrc (not_or.mpr ⟨h1, h2⟩),
          fun _ => ⟨hyb, hr, hnil, hlast, hparsed ▸ ht⟩⟩
      · rw [if_neg hcrc] at hdecoded
        refine ⟨_, execFrmDecode_of_fail hparse hdecoded, rfl, fun h => absurd hlen h,
          fun _ => ⟨fun h => absurd h hnofail, fun cs' hmap => ?_⟩⟩
        obtain rfl := honly cs' hmap
        exact ⟨xor_ones _, fun _ _ => rfl, fun h => absurd h hcrc⟩

/-- Settles O50: `FRM.ENCODE` leaves the frame built from the payload (O47), and that frame decodes to it
(`decodeParsed_builtParse`). -/
theorem frameRoundTrip : Obligations.FrameRoundTrip := by
  intro a b c s hshort
  set p := ybRead a s
  obtain ⟨t, hencode, ⟨hframe, -⟩, -⟩ := (frmEncode a b s).2 hshort
  have hparse : parseFrame (ybRead b t) = some (builtParse s.hdrFlags p) := by
    rw [hframe]
    exact parseFrame_buildFrame ..
  obtain ⟨bs, last, hdecoded⟩ := decodeParsed_builtParse s.hdrFlags hshort (ybRead b t)
  obtain ⟨u, hdecode, -, ⟨hyb, -⟩, ⟨hr, -⟩, -, -, hu⟩ := execFrmDecode_of_payload (dst := c) hparse hdecoded
  have hparsed : u.parsed = parsedRegs (builtParse s.hdrFlags p) := congrArg State.parsed hu
  simp only [List.forall_mem_cons] at hr
  obtain ⟨hr0, hr1, -⟩ := hr
  rw [countWord_of_lt _ _ (by omega)] at hr0
  rw [changedBytes_self] at hr1
  refine ⟨t, u, hencode, hdecode, congrArg State.status hu, hyb, ?_, hr1, ?_, ?_, ?_⟩
  · rw [hr0, BitVec.toNat_ofNat]
    omega
  · rw [hparsed]; exact and_low_toNat s.hdrFlags
  · rw [hparsed]; exact flagProfile_and_low s.hdrFlags
  · rw [hparsed]; exact builtParse_len s.hdrFlags hshort

end Sys2Proof

/-! # The Goertzel unit (40_goertzel.md): stepping, energies and windows, and the Fourier sum that an energy is -/

namespace Sys2Proof.Machine

-- Elaborated one after another, to stay below the memory limit.
set_option Elab.async false

/-! ## The operations by their cases (rules R95 to R97) -/

section

variable {s : State} {c : ExactReal}

theorem exec_gtzStep_of_none (h : s.gtz.coeff = none) : exec .gtzStep s = raise .config s := by
  simp only [exec, execGtzStep, h]

theorem exec_gtzEnergy_of_none (h : s.gtz.coeff = none) : exec .gtzEnergy s = raise .config s := by
  simp only [exec, execGtzEnergy, h]

theorem exec_gtzStep_of_coeff (h : s.gtz.coeff = some c) {st : ExactReal × ExactReal}
    (hst : st = goertzelStep numerics c (s.gtz.s1, s.gtz.s2) s.xs) :
    exec .gtzStep s = endWith .ok (setGoertzel c st.1 st.2 s) := by
  simp only [exec, execGtzStep, h, hst]

theorem exec_gtzEnergy_of_coeff (h : s.gtz.coeff = some c) :
    exec .gtzEnergy s = endWith .ok (setEnergies [goertzelEnergy numerics c (s.gtz.s1, s.gtz.s2)] s) := by
  simp only [exec, execGtzEnergy, h]

/-- `GTZ.WIN` is refused without a coefficient and for a window that does not lie in `SB`. -/
theorem exec_gtzWin_of_refused
    (h : s.gtz.coeff = none ∨ s.sb.length < (bankGet s.a 0).toNat + (bankGet s.a 1).toNat) :
    exec .gtzWin s = raise .config s := by
  cases hc : s.gtz.coeff with
  | none => simp only [exec, execGtzWin, hc]
  | some c =>
    have hout := h.resolve_left (by simp [hc])
    simp only [exec, execGtzWin, hc, if_pos hout]

theorem exec_gtzWin_of_window (h : s.gtz.coeff = some c)
    (hin : (bankGet s.a 0).toNat + (bankGet s.a 1).toNat ≤ s.sb.length) {st : ExactReal × ExactReal}
    (hst : st = goertzelRun numerics c ((s.sb.drop (bankGet s.a 0).toNat).take (bankGet s.a 1).toNat)) :
    exec .gtzWin s = endWith .ok (setEnergies [goertzelEnergy numerics c st] (setGoertzel c st.1 st.2 s)) := by
  simp only [exec, execGtzWin, h, if_neg (not_lt.mpr hin), slice_add, hst]

end

/-- Settles O22: one step and one energy are those over the reals, by `goertzelStep_toReal` and `goertzelEnergy_toReal`. -/
theorem gtzStepEnergy : Obligations.GtzStepEnergy := by
  intro s
  refine ⟨fun hnone => ⟨exec_gtzStep_of_none hnone, exec_gtzEnergy_of_none hnone⟩, fun c hc => ⟨?step, ?energy⟩⟩
  case step =>
    have hstep := goertzelStep_toReal c (s.gtz.s1, s.gtz.s2) s.xs
    exact ⟨_, exec_gtzStep_of_coeff hc rfl, rfl, congrArg Prod.fst hstep, rfl, rfl⟩
  case energy =>
    exact ⟨_, _, exec_gtzEnergy_of_coeff hc, evWritten_of_eq rfl, goertzelEnergy_toReal c (s.gtz.s1, s.gtz.s2), rfl⟩

/-- Settles O23: the run over the window and its energy are those over the reals, by `goertzelRun_toReal` and
`goertzelEnergy_toReal`. -/
theorem gtzWin : Obligations.GtzWin := by
  intro s start count
  refine ⟨exec_gtzWin_of_refused, ?_⟩
  intro c hc hin st
  set run := goertzelRun numerics c ((s.sb.drop start).take count) with hrun
  have hst : pairValue run = st := goertzelRun_toReal ..
  have henergy : (goertzelEnergy numerics c run).toReal = realEnergy c.toReal st := hst ▸ goertzelEnergy_toReal c run
  exact ⟨_, _, exec_gtzWin_of_window hc hin hrun, rfl, ⟨⟨c, rfl, rfl⟩, congrArg Prod.fst hst, congrArg Prod.snd hst⟩,
    evWritten_of_eq rfl, henergy, rfl⟩

/-! ## The energy of a window is the squared magnitude of its Fourier sum (rules R90, R91)

With `z = exp (i * w)` and the coefficient `2 * cos w = z + 1 / z`, the recurrence of order two is one of order one:
the number `S1 - S2 / z` turns by `z` and takes in the sample at each step. -/

section

/-- `S1 - exp(-i * w) * S2`, of which the energy is the squared magnitude. -/
noncomputable def phasor (w : ℝ) (st : ℝ × ℝ) : ℂ := st.1 - Complex.exp (-(w * Complex.I)) * st.2

variable (w : ℝ)

theorem exp_add_exp_neg : Complex.exp (w * Complex.I) + Complex.exp (-(w * Complex.I)) = (2 * Real.cos w : ℝ) := by
  rw [Complex.ofReal_mul, Complex.ofReal_cos, Complex.ofReal_ofNat, Complex.two_cos, neg_mul]

theorem exp_mul_exp_neg : Complex.exp (w * Complex.I) * Complex.exp (-(w * Complex.I)) = 1 := by
  rw [← Complex.exp_add, add_neg_cancel, Complex.exp_zero]

theorem phasor_realStep (st : ℝ × ℝ) (x : ℝ) :
    phasor w (realStep (2 * Real.cos w) st x) = x + Complex.exp (w * Complex.I) * phasor w st := by
  simp only [phasor, realStep, Complex.ofReal_add, Complex.ofReal_sub, Complex.ofReal_mul (2 * Real.cos w),
    ← exp_add_exp_neg]
  linear_combination (st.2 : ℂ) * exp_mul_exp_neg w

theorem phasor_sq_norm (st : ℝ × ℝ) : ‖phasor w st‖ ^ 2 = realEnergy (2 * Real.cos w) st := by
  have hre : (phasor w st).re = st.1 - Real.cos w * st.2 := by
    simp [phasor, Complex.exp_re, Complex.exp_im]
  have him : (phasor w st).im = Real.sin w * st.2 := by
    simp [phasor, Complex.exp_re, Complex.exp_im]
  rw [Complex.sq_norm, Complex.normSq_apply, hre, him, realEnergy]
  linear_combination st.2 ^ 2 * Real.sin_sq_add_cos_sq w

/-- The Fourier sum of a window at `w` radians per sample, `exp(-i * w)` taken to its powers. -/
noncomputable def fourierSum (xs : List ExactReal) : ℂ :=
  ∑ n : Fin xs.length, ((xs.get n).toReal : ℂ) * Complex.exp (-(w * Complex.I)) ^ n.val

theorem fourierSum_cons (x : ExactReal) (xs : List ExactReal) :
    fourierSum w (x :: xs) = x.toReal + Complex.exp (-(w * Complex.I)) * fourierSum w xs := by
  simp only [fourierSum, List.length_cons, Fin.sum_univ_succ, Finset.mul_sum]
  congr 1
  · simp
  · refine Finset.sum_congr rfl fun n _ => ?_
    simp only [List.get_cons_succ', Fin.val_succ]
    ring

/-- A run turns the phasor of the state it begins in and adds the Fourier sum of its samples, turned as far. -/
theorem phasor_run (xs : List ExactReal) (st : ℝ × ℝ) :
    Complex.exp (w * Complex.I) * phasor w ((xs.map ExactReal.toReal).foldl (realStep (2 * Real.cos w)) st) =
      Complex.exp (w * Complex.I) ^ xs.length * (Complex.exp (w * Complex.I) * phasor w st + fourierSum w xs) := by
  induction xs generalizing st with
  | nil => simp [fourierSum]
  | cons x xs ih =>
    rw [List.map_cons, List.foldl_cons, ih, phasor_realStep, fourierSum_cons, List.length_cons, pow_succ]
    linear_combination (-Complex.exp (w * Complex.I) ^ xs.length * fourierSum w xs) * exp_mul_exp_neg w

theorem norm_phasor_realRun (xs : List ExactReal) :
    ‖phasor w (realRun (2 * Real.cos w) (xs.map ExactReal.toReal))‖ = ‖fourierSum w xs‖ := by
  have hstart : phasor w (0, 0) = 0 := by simp [phasor]
  have hnorm := congrArg norm (phasor_run w xs (0, 0))
  rw [hstart, mul_zero, zero_add, norm_mul, norm_mul, norm_pow, Complex.norm_exp_ofReal_mul_I, one_pow, one_mul,
    one_mul] at hnorm
  exact hnorm

/-- Over the reals the energy of a window is the squared magnitude of its Fourier sum. -/
theorem realEnergy_realRun (xs : List ExactReal) :
    realEnergy (2 * Real.cos w) (realRun (2 * Real.cos w) (xs.map ExactReal.toReal)) = ‖fourierSum w xs‖ ^ 2 := by
  rw [← phasor_sq_norm, norm_phasor_realRun]

theorem fourierSum_eq_sum_exp (xs : List ExactReal) :
    fourierSum w xs = ∑ n : Fin xs.length,
      ((xs.get n).toReal : ℂ) * Complex.exp (-Complex.I * (w * (n.val : ℝ) : ℝ)) := by
  refine Finset.sum_congr rfl fun n _ => ?_
  rw [← Complex.exp_nat_mul]
  congr 2
  push_cast
  ring

end

/-- Settles O24: the model's energy is the one over the reals (`goertzelWindow_toReal`), and that is the squared magnitude of the
Fourier sum (`realEnergy_realRun`). -/
theorem goertzelIsFourier : Obligations.GoertzelIsFourier := by
  intro f fs xs _
  have hangle : 2 * Real.pi * (f.toReal / fs) = 2 * Real.pi * f.toReal / fs := by ring
  rw [goertzelWindow_toReal, realWindow, realState, realCoeff, hangle, realEnergy_realRun, fourierSum_eq_sum_exp]

end Sys2Proof.Machine

/-! # Demodulators (41_demodulators.md): AFSK, GFSK and the MFSK mapper -/

namespace Sys2Proof

theorem SignIs.zero_iff {a : Int} {r : ℝ} (h : SignIs a r) : a = 0 ↔ r = 0 := by
  obtain ⟨-, hzero, -⟩ := h.iffs
  exact hzero

end Sys2Proof

namespace Sys2Proof.Machine

-- Elaborated one after another, to stay below the memory limit.
set_option Elab.async false

/-! ## One AFSK symbol (rule R115) -/

/-- The checks of rule R116 accept what `afskConfig` answers. -/
theorem afskReady_iff {c : Cfg} {fs sps : Nat} {fm fsp : LinearReal} :
    (SymReady c fs sps ∧ c.fMark = some fm ∧ c.fSpace = some fsp) ↔ afskConfig c = some ⟨⟨fs, sps⟩, fm, fsp⟩ := by
  rw [symReady_iff, afskConfig_eq_some]

section

variable (xs : List ExactReal) (fm fsp : LinearReal) (fs : Nat)

theorem afskSymbol_mark_toReal : (afskSymbol numerics xs fm fsp fs).mark.toReal = realWindow fm.toReal fs xs :=
  goertzelWindow_toReal fm fs xs

theorem afskSymbol_space_toReal : (afskSymbol numerics xs fm fsp fs).space.toReal = realWindow fsp.toReal fs xs :=
  goertzelWindow_toReal fsp fs xs

theorem afskSymbol_level : AfskLevel fm fsp fs xs (afskSymbol numerics xs fm fsp fs).level := by
  rw [AfskLevel, ← afskSymbol_mark_toReal xs fm fsp, ← afskSymbol_space_toReal xs fm fsp]
  exact numerics_le_iff _ _

/-- The Goertzel unit is left as the space run, the last one, leaves it (40_goertzel.md rule R98). -/
theorem leaveAfsk_goertzelHolds (s : State) :
    GoertzelHolds (leaveAfsk (afskSymbol numerics xs fm fsp fs) s).gtz (realCoeff fsp.toReal fs)
      (realState fsp.toReal fs xs) := by
  have hcoeff := goertzelCoeff_toReal fsp fs
  have hrun := goertzelRun_toReal (goertzelCoeff numerics fsp fs) xs
  rw [hcoeff] at hrun
  exact ⟨⟨_, rfl, hcoeff⟩, congrArg Prod.fst hrun, congrArg Prod.snd hrun⟩

end

/-- A silent window has no energy at any frequency. -/
theorem realWindow_silent (f : ℝ) (fs : Nat) {xs : List ExactReal} (hxs : ∀ x ∈ xs, x.toReal = 0) :
    realWindow f fs xs = 0 := by
  have hstate : realState f fs xs = (0, 0) :=
    List.foldlRecOn (motive := fun st => st = (0, 0)) _ _ rfl fun st hst x hx => by
      obtain ⟨y, hy, rfl⟩ := List.mem_map.mp hx
      simp [realStep, hst, hxs y hy]
  simp [realWindow, hstate, realEnergy]

/-! ## AFSK.DEMOD (rules R114, R117) -/

section

variable (xs : List ExactReal) (off : Nat) (c : AfskConfig LinearReal)

theorem afskSymbols_length : (afskSymbols numerics xs off c).length = windowCount xs.length off c.sym.sps := by
  simp [afskSymbols, symWindows_length]

theorem afskDemod_length : (afskDemod numerics xs off c).length = windowCount xs.length off c.sym.sps := by
  rw [afskDemod, List.length_map, afskSymbols_length]

variable {xs off c} {k : Nat}

theorem afskSymbols_getElem? (hk : k < windowCount xs.length off c.sym.sps) :
    (afskSymbols numerics xs off c)[k]? =
      some (afskSymbol numerics ((xs.drop (off + k * c.sym.sps)).take c.sym.sps) c.mark c.space c.sym.fs) := by
  rw [afskSymbols, List.getElem?_map, symWindows_getElem? xs hk, Option.map_some]

/-- The level of symbol `k` is decided from its window. -/
theorem afskDemod_symbol (hk : k < windowCount xs.length off c.sym.sps) :
    AfskLevel c.mark c.space c.sym.fs ((xs.drop (off + k * c.sym.sps)).take c.sym.sps)
      ((afskDemod numerics xs off c).getD k false) := by
  rw [afskDemod, List.getD_eq_getElem?_getD, List.getElem?_map, afskSymbols_getElem? hk]
  exact afskSymbol_level ..

end

section

variable {dst : Sel} {s : State} {c : AfskConfig LinearReal}

/-- The state in which `AFSK.DEMOD` has written its levels and their count. -/
def afskLevelsWritten (dst : Sel) (s : State) (c : AfskConfig LinearReal) : State :=
  let off := (bankGet s.a 0).toNat
  setCount 0 (windowCount s.sb.length off c.sym.sps) (bbWrite dst (afskDemod numerics s.sb off c) s)

theorem execAfskDemod_of_none (hc : afskConfig s.cfg = some c)
    (h0 : windowCount s.sb.length (bankGet s.a 0).toNat c.sym.sps = 0) :
    execAfskDemod dst s = endWith .ok (afskLevelsWritten dst s c) := by
  have hlen := afskSymbols_length s.sb (bankGet s.a 0).toNat c
  have hnil : afskSymbols numerics s.sb (bankGet s.a 0).toNat c = [] := List.length_eq_zero_iff.mp (hlen.trans h0)
  simp only [execAfskDemod, hc, afskLevelsWritten, afskDemod, ← hlen, hnil]
  rfl

theorem execAfskDemod_of_last (hc : afskConfig s.cfg = some c) {count : Nat}
    (hcount : windowCount s.sb.length (bankGet s.a 0).toNat c.sym.sps = count) (hpos : 0 < count) :
    let window := (s.sb.drop ((bankGet s.a 0).toNat + (count - 1) * c.sym.sps)).take c.sym.sps
    execAfskDemod dst s =
      endWith .ok (leaveAfsk (afskSymbol numerics window c.mark c.space c.sym.fs) (afskLevelsWritten dst s c)) := by
  intro window
  have hlen := afskSymbols_length s.sb (bankGet s.a 0).toNat c
  have hlast : (afskSymbols numerics s.sb (bankGet s.a 0).toNat c).getLast? =
      some (afskSymbol numerics window c.mark c.space c.sym.fs) := by
    rw [List.getLast?_eq_getElem?, hlen, hcount]
    exact afskSymbols_getElem? (by omega)
  simp only [execAfskDemod, hc, hlast, afskLevelsWritten, afskDemod, ← hlen]

end

/-! ## The sum of phase advances (rule R120) -/

/-- The sign taken of a direction's angle is right. -/
theorem angleSign_right (re im : ExactReal) : SignIs (angleSign re im) (realAngle re.toReal im.toReal) := by
  unfold angleSign
  rcases sign_right im with ⟨him, hpos⟩ | ⟨him, hzero⟩ | ⟨him, hneg⟩
  · rw [if_neg (by omega)]
    have hne : realAngle re.toReal im.toReal ≠ 0 := fun h => hpos.ne' (Complex.arg_eq_zero_iff.mp h).2
    exact .inl ⟨him, (Complex.arg_nonneg_iff.mpr hpos.le).lt_of_ne' hne⟩
  · rw [if_pos him, hzero]
    split
    · rename_i hre
      have hre : re.toReal < 0 := lt_of_not_ge fun h => absurd ((sign_right re).nonneg_iff.mpr h) (by omega)
      exact .inl ⟨rfl, by rw [realAngle, Complex.arg_eq_pi_iff.mpr ⟨hre, rfl⟩]; exact Real.pi_pos⟩
    · rename_i hre
      exact .inr (.inl ⟨rfl, Complex.arg_eq_zero_iff.mpr ⟨(sign_right re).nonneg_iff.mp (by omega), rfl⟩⟩)
  · rw [if_neg (by omega)]
    exact .inr (.inr ⟨him, Complex.arg_neg_iff.mpr hneg⟩)

/-- The whole turns to count when angles of signs `a` and `b` are added and their sum, brought back into `(-pi, pi]`, has
sign `c`. -/
def turnsPassed (a b c : Int) : Int :=
  if a = 1 ∧ b = 1 ∧ c ≠ 1 then 1 else if a = -1 ∧ b = -1 ∧ c = 1 then -1 else 0

/-- The angles of two directions add up to the angle of their product and the whole turns passed. The product's angle is the
sum up to whole turns, all three lie in `(-pi, pi]`, and so at most one turn is passed, in the way that the signs tell. -/
theorem arg_add_arg {x y : ℂ} (hx : x ≠ 0) (hy : y ≠ 0) {a b c : Int} (ha : SignIs a x.arg) (hb : SignIs b y.arg)
    (hc : SignIs c (x * y).arg) : x.arg + y.arg = (x * y).arg + 2 * Real.pi * turnsPassed a b c := by
  obtain ⟨k, hk⟩ := Real.Angle.angle_eq_iff_two_pi_dvd_sub.mp (Complex.arg_mul_coe_angle hx hy).symm
  obtain ⟨hxl, hxu⟩ := Complex.arg_mem_Ioc x
  obtain ⟨hyl, hyu⟩ := Complex.arg_mem_Ioc y
  obtain ⟨hzl, hzu⟩ := Complex.arg_mem_Ioc (x * y)
  obtain ⟨ha1, -, ha3⟩ := ha.iffs
  obtain ⟨hb1, -, hb3⟩ := hb.iffs
  obtain ⟨hc1, -, -⟩ := hc.iffs
  have hkIcc : k ∈ Finset.Icc (-1) 1 :=
    IsStrictOrderedRing.int_mem_Icc_of_mul_mem_Ioo Real.two_pi_pos ⟨by push_cast; linarith, by push_cast; linarith⟩
  suffices hturns : turnsPassed a b c = k by rw [hturns]; linarith
  simp only [turnsPassed, ha1, hb1, hc1, ha3, hb3, ne_eq, not_lt]
  obtain rfl | rfl | rfl : k = 1 ∨ k = -1 ∨ k = 0 := by have := Finset.mem_Icc.mp hkIcc; omega
  all_goals push_cast at hk
  · exact if_pos ⟨by linarith, by linarith, by linarith⟩
  · rw [if_neg fun ⟨hx, _, _⟩ => by linarith, if_pos ⟨by linarith, by linarith, by linarith⟩]
  · rw [if_neg fun ⟨hx, hy, hz⟩ => by linarith, if_neg fun ⟨hx, hy, hz⟩ => by linarith]

section

variable {p : PhaseSum} {dot cross : ExactReal}

/-- A direction of a number is the origin exactly when the signs taken of its parts say so. -/
theorem direction_zero_iff : dot.sign = 0 ∧ cross.sign = 0 ↔ dot.toReal = 0 ∧ cross.toReal = 0 := by
  rw [(sign_right dot).zero_iff, (sign_right cross).zero_iff]

theorem phaseAdd_of_zero (hdot : dot.toReal = 0) (hcross : cross.toReal = 0) : phaseAdd p dot cross = p :=
  if_pos (direction_zero_iff.mpr ⟨hdot, hcross⟩)

theorem phaseAdd_of_ne_zero (h : ¬ (dot.toReal = 0 ∧ cross.toReal = 0)) :
    let d := directionMul p dot cross
    phaseAdd p dot cross =
      ⟨p.turns + turnsPassed (angleSign p.re p.im) (angleSign dot cross) (angleSign d.1 d.2), d.1, d.2⟩ :=
  if_neg (mt direction_zero_iff.mp h)

/-- The direction of a phase sum is not the origin. -/
def HasDirection (p : PhaseSum) : Prop := p.re.toReal ≠ 0 ∨ p.im.toReal ≠ 0

/-- Two numbers, read as the real and the imaginary part of a complex number. -/
noncomputable def complexOf (re im : ExactReal) : ℂ := ⟨re.toReal, im.toReal⟩

theorem realAngle_eq (re im : ExactReal) : realAngle re.toReal im.toReal = (complexOf re im).arg := rfl

theorem phaseValue_eq (p : PhaseSum) : phaseValue p = 2 * Real.pi * p.turns + (complexOf p.re p.im).arg := rfl

theorem complexOf_ne_zero_iff {re im : ExactReal} : complexOf re im ≠ 0 ↔ re.toReal ≠ 0 ∨ im.toReal ≠ 0 := by
  rw [Ne, Complex.ext_iff, not_and_or]; rfl

/-- The product of two directions is that of the complex numbers. -/
theorem complexOf_directionMul :
    complexOf (directionMul p dot cross).1 (directionMul p dot cross).2 = complexOf p.re p.im * complexOf dot cross := by
  apply Complex.ext <;> simp [directionMul, complexOf]

/-- Adding a direction to a phase sum adds its angle, and the sum keeps a direction. -/
theorem phaseAdd_value (hp : HasDirection p) (dot cross : ExactReal) :
    phaseValue (phaseAdd p dot cross) = phaseValue p + realAngle dot.toReal cross.toReal ∧
      HasDirection (phaseAdd p dot cross) := by
  by_cases hzero : dot.toReal = 0 ∧ cross.toReal = 0
  · obtain ⟨hdot, hcross⟩ := hzero
    have hangle : realAngle 0 0 = 0 := Complex.arg_zero
    rw [phaseAdd_of_zero hdot hcross, hdot, hcross, hangle, add_zero]
    exact ⟨rfl, hp⟩
  · have hx := complexOf_ne_zero_iff.mpr hp
    have hy := complexOf_ne_zero_iff.mpr (not_and_or.mp hzero)
    have hxy := complexOf_directionMul (p := p) (dot := dot) (cross := cross)
    have hc := angleSign_right (directionMul p dot cross).1 (directionMul p dot cross).2
    rw [realAngle_eq, hxy] at hc
    have hsum := arg_add_arg hx hy (angleSign_right p.re p.im) (angleSign_right dot cross) hc
    rw [phaseAdd_of_ne_zero hzero]
    refine ⟨?_, complexOf_ne_zero_iff.mp (hxy ▸ mul_ne_zero hx hy)⟩
    rw [phaseValue_eq, phaseValue_eq, realAngle_eq, hxy, add_assoc _ (complexOf p.re p.im).arg, hsum]
    push_cast
    ring

/-- The sign taken of a phase sum is right: an angle in `(-pi, pi]` does not outweigh a whole turn. -/
theorem phaseSign_right (p : PhaseSum) : SignIs (phaseSign p) (phaseValue p) := by
  obtain ⟨hlow, hhigh⟩ : realAngle p.re.toReal p.im.toReal ∈ Set.Ioc (-Real.pi) Real.pi := Complex.arg_mem_Ioc _
  have hpi := Real.pi_pos
  unfold phaseSign phaseValue
  rcases lt_trichotomy p.turns 0 with hneg | hzero | hpos
  · rw [if_neg hneg.ne, if_neg hneg.le.not_gt]
    have hturns : (p.turns : ℝ) ≤ -1 := by exact_mod_cast (by omega : p.turns ≤ -1)
    exact .inr (.inr ⟨rfl, by nlinarith⟩)
  · simpa [hzero] using angleSign_right p.re p.im
  · rw [if_neg hpos.ne', if_pos hpos]
    have hturns : (1 : ℝ) ≤ p.turns := by exact_mod_cast hpos
    exact .inl ⟨rfl, by nlinarith⟩

theorem phaseZero_value : phaseValue phaseZero = 0 := by
  have hangle : realAngle 1 0 = 0 := Complex.arg_one
  simp [phaseValue, phaseZero, hangle]

theorem phaseZero_hasDirection : HasDirection phaseZero := by simp [HasDirection, phaseZero]

end

/-! ## One sample of the GFSK discriminator (rule R120) -/

section

variable (alpha : ExactReal) (st : IQ ExactReal × PhaseSum) (x : ExactReal) (turn : LinearReal)

/-- The filter moves by `alpha` towards the mixed sample. -/
theorem gfskSample_filter :
    let f := (gfskSample numerics alpha st x turn).1
    f.i.toReal = st.1.i.toReal + alpha.toReal * (x.toReal * Real.cos (2 * Real.pi * turn.toReal) - st.1.i.toReal) ∧
      f.q.toReal =
        st.1.q.toReal + alpha.toReal * (-(x.toReal * Real.sin (2 * Real.pi * turn.toReal)) - st.1.q.toReal) := by
  simp [gfskSample]

/-- The direction added to the sum is the new filtered sample times the conjugate of the old one. -/
theorem gfskSample_phase :
    let u := gfskSample numerics alpha st x turn
    ∃ dot cross, u.2 = phaseAdd st.2 dot cross ∧
      dot.toReal = u.1.i.toReal * st.1.i.toReal + u.1.q.toReal * st.1.q.toReal ∧
      cross.toReal = st.1.i.toReal * u.1.q.toReal - u.1.i.toReal * st.1.q.toReal :=
  ⟨_, _, rfl, by simp [gfskSample], by simp [gfskSample]⟩

end

/-- The oscillator's angle in radians. -/
theorem gfskTurn_toReal (c : GfskConfig LinearReal ExactReal) (n : Nat) :
    2 * Real.pi * (gfskTurn numerics c n).toReal = oscillator c.mark.toReal c.space.toReal c.sym.fs n := by
  simp only [gfskTurn, oscillator, numerics_frequencyScale, numerics_frequencyAdd, linear_scale_toReal, linear_add_toReal]
  push_cast
  ring

/-! ## Silence (rule R123) -/

/-- The filtered sample is 0. -/
def IQ.Silent (f : IQ ExactReal) : Prop := f.i.toReal = 0 ∧ f.q.toReal = 0

section

variable {c : GfskConfig LinearReal ExactReal} {st : IQ ExactReal × PhaseSum} {f : IQ ExactReal}

/-- A sample 0 leaves a silent filter silent and adds no phase. -/
theorem gfskSample_silent (hst : st.1.Silent) {x : ExactReal} (hx : x.toReal = 0) (turn : LinearReal) :
    (gfskSample numerics c.alpha st x turn).1.Silent ∧ (gfskSample numerics c.alpha st x turn).2 = st.2 := by
  obtain ⟨hi, hq⟩ := hst
  obtain ⟨hfi, hfq⟩ := gfskSample_filter c.alpha st x turn
  obtain ⟨dot, cross, hphase, hdot, hcross⟩ := gfskSample_phase c.alpha st x turn
  refine ⟨⟨by simp [hfi, hi, hx], by simp [hfq, hq, hx]⟩, hphase.trans ?_⟩
  exact phaseAdd_of_zero (by simp [hdot, hi, hq]) (by simp [hcross, hi, hq])

theorem gfskWindow_silent (hst : st.1.Silent) {w : List ExactReal} (hw : ∀ x ∈ w, x.toReal = 0) (n : Nat) :
    (gfskWindow numerics c st w n).1.Silent ∧ (gfskWindow numerics c st w n).2 = st.2 := by
  induction w generalizing st n with
  | nil => exact ⟨hst, rfl⟩
  | cons x w ih =>
    obtain ⟨hx, hw⟩ := List.forall_mem_cons.mp hw
    obtain ⟨hsilent, hsame⟩ := gfskSample_silent (c := c) hst hx (gfskTurn numerics c n)
    obtain ⟨hrest, hsum⟩ := ih hsilent hw (n + 1)
    exact ⟨hrest, hsum.trans hsame⟩

/-- A sum of phase advances that is 0 gives level 1 in either order of the tones. -/
theorem gfskLevel_zero : gfskLevel numerics c 0 = true := by
  unfold gfskLevel
  split <;> rfl

theorem gfskLevels_silent (hf : f.Silent) {ws : List (List ExactReal)} (hws : ∀ w ∈ ws, ∀ x ∈ w, x.toReal = 0) (n : Nat) :
    ∀ level ∈ gfskLevels numerics c f ws n, level = true := by
  induction ws generalizing f n with
  | nil => simp [gfskLevels]
  | cons w ws ih =>
    obtain ⟨hw, hws⟩ := List.forall_mem_cons.mp hws
    obtain ⟨hsilent, hsum⟩ := gfskWindow_silent (c := c) (st := (f, phaseZero)) hf hw n
    have hsign : phaseSign phaseZero = 0 := (phaseSign_right _).zero_iff.mpr phaseZero_value
    refine List.forall_mem_cons.mpr ⟨?_, ih hsilent hws _⟩
    rw [numerics_phaseSign, numerics_phaseZero, hsum, hsign, gfskLevel_zero]

theorem gfskDemod_silent {xs : List ExactReal} (hxs : ∀ x ∈ xs, x.toReal = 0) (off : Nat) :
    ∀ level ∈ gfskDemod numerics xs off c, level = true :=
  gfskLevels_silent ⟨rfl, rfl⟩ (fun _ hw x hx => hxs x (mem_of_mem_symWindows hw hx)) off

end

/-! ## The discriminator over a waveform (rules R114, R120) -/

/-- The checks of rules R113 and R121 accept what `gfskConfig` answers: the signs that it takes are those of the real numbers. -/
theorem gfskReady_iff {c : Cfg} {fs sps : Nat} {fm fsp : LinearReal} {alpha : ExactReal} :
    GfskReady c fs sps fm fsp alpha ↔ gfskConfig c = some ⟨⟨fs, sps⟩, fm, fsp, alpha⟩ := by
  have hdiff : (ExactReal.sub fm.toExact fsp.toExact).sign ≠ 0 ↔ fm.toReal ≠ fsp.toReal := by
    rw [Ne, (sign_right _).zero_iff, sub_toReal, toExact_toReal, toExact_toReal, sub_eq_zero]
  have hle : 0 ≤ (ExactReal.sub (ExactReal.ofRat 1) alpha).sign ↔ alpha.toReal ≤ 1 := by
    rw [(sign_right _).nonneg_iff, sub_toReal, toReal_ofRat, Rat.cast_one, sub_nonneg]
  simp only [GfskReady, gfskConfig_eq_some, symReady_iff, hdiff, hle, (sign_right alpha).pos_iff]

theorem SymReady.sps_pos {c : Cfg} {fs sps : Nat} (h : SymReady c fs sps) : 0 < sps := by
  obtain ⟨baud, -, -, hfs, hbaud, hmod, rfl⟩ := h
  exact Nat.div_pos (Nat.le_of_dvd hfs (Nat.dvd_of_mod_eq_zero hmod)) hbaud

/-- A symbol window is whole. -/
theorem symWindow_length {xs : List ExactReal} {off sps k : Nat} (hk : k < windowCount xs.length off sps) :
    ((xs.drop (off + k * sps)).take sps).length = sps := by
  have hpos : ¬ xs.length < off := fun h => by simp [windowCount, h] at hk
  rw [windowCount, if_neg hpos] at hk
  have hfit : (k + 1) * sps ≤ xs.length - off := (Nat.mul_le_mul_right sps hk).trans (Nat.div_mul_le_self _ _)
  rw [Nat.succ_mul] at hfit
  simp only [List.length_take, List.length_drop]
  omega

section

variable {c : GfskConfig LinearReal ExactReal} {off : Nat} {xs : List ExactReal}

/-- The model's filter before sample `j` of a waveform holds the filtered I and Q of the discriminator over the reals. -/
def FilterAt (c : GfskConfig LinearReal ExactReal) (off : Nat) (xs : List ExactReal) (j : Nat) (f : IQ ExactReal) : Prop :=
  f.i.toReal = filteredI c.mark.toReal c.space.toReal c.alpha.toReal c.sym.fs off (xs.map ExactReal.toReal) j ∧
    f.q.toReal = filteredQ c.mark.toReal c.space.toReal c.alpha.toReal c.sym.fs off (xs.map ExactReal.toReal) j

/-- The phase advance at sample `j` of a waveform, with the frequencies of a configuration. -/
noncomputable def advanceAt (c : GfskConfig LinearReal ExactReal) (off : Nat) (xs : List ExactReal) (j : Nat) : ℝ :=
  phaseAdvance c.mark.toReal c.space.toReal c.alpha.toReal c.sym.fs off (xs.map ExactReal.toReal) j

theorem filterAt_zero : FilterAt c off xs 0 ⟨.zero, .zero⟩ := ⟨rfl, rfl⟩

/-- One sample of the model is one step of both filters over the reals, and adds the phase advance of that step. -/
theorem gfskSample_real {j : Nat} {st : IQ ExactReal × PhaseSum} {x : ExactReal} (hf : FilterAt c off xs j st.1)
    (hp : HasDirection st.2) (hx : xs[off + j]? = some x) :
    let u := gfskSample numerics c.alpha st x (gfskTurn numerics c (off + j))
    FilterAt c off xs (j + 1) u.1 ∧ HasDirection u.2 ∧ phaseValue u.2 = phaseValue st.2 + advanceAt c off xs j := by
  intro u
  obtain ⟨hi, hq⟩ := hf
  have hsample : (xs.map ExactReal.toReal).getD (off + j) 0 = x.toReal := by simp [List.getD_eq_getElem?_getD, hx]
  obtain ⟨hui, huq⟩ := gfskSample_filter c.alpha st x (gfskTurn numerics c (off + j))
  obtain ⟨dot, cross, hphase, hdot, hcross⟩ := gfskSample_phase c.alpha st x (gfskTurn numerics c (off + j))
  rw [gfskTurn_toReal, ← hsample, hi] at hui
  rw [gfskTurn_toReal, ← hsample, hq] at huq
  obtain ⟨hsum, hdir⟩ := phaseAdd_value hp dot cross
  refine ⟨⟨hui, huq⟩, hphase ▸ hdir, ?_⟩
  rw [hphase, hsum, hdot, hcross, hi, hq, hui, huq]
  rfl

/-- The samples of a window take the filters on by as many steps and add their phase advances. -/
theorem gfskWindow_real {j : Nat} {st : IQ ExactReal × PhaseSum} {w : List ExactReal} (hf : FilterAt c off xs j st.1)
    (hp : HasDirection st.2) (hw : w <+: xs.drop (off + j)) :
    let u := gfskWindow numerics c st w (off + j)
    FilterAt c off xs (j + w.length) u.1 ∧
      phaseValue u.2 = phaseValue st.2 + ∑ m ∈ Finset.range w.length, advanceAt c off xs (j + m) := by
  induction w generalizing j st with
  | nil => exact ⟨hf, by simp [gfskWindow]⟩
  | cons x w ih =>
    obtain ⟨rest, hrest⟩ := hw
    have hx : xs[off + j]? = some x := by rw [← List.head?_drop, ← hrest]; rfl
    have hw : w <+: xs.drop (off + (j + 1)) := ⟨rest, by rw [← add_assoc, ← List.tail_drop, ← hrest]; rfl⟩
    obtain ⟨hf, hp, hvalue⟩ := gfskSample_real hf hp hx
    obtain ⟨hfilter, hsum⟩ := ih hf hp hw
    have hlen : j + (x :: w).length = j + 1 + w.length := by rw [List.length_cons]; ring
    refine ⟨hlen ▸ hfilter, hsum.trans ?_⟩
    rw [hvalue, List.length_cons, Finset.sum_range_succ', add_zero, add_assoc, add_comm (advanceAt c off xs j)]
    simp only [add_assoc, add_comm 1]

/-- The level of a symbol from the exact sum of its phase advances is that from their average over the reals. -/
theorem gfskLevel_iff (p : PhaseSum) {sps : Nat} (hsps : 0 < sps) :
    gfskLevel numerics c (phaseSign p) = true ↔
      (c.space.toReal < c.mark.toReal → 0 ≤ phaseValue p / sps) ∧
        (c.mark.toReal ≤ c.space.toReal → phaseValue p / sps ≤ 0) := by
  have hpos : (0 : ℝ) < sps := by exact_mod_cast hsps
  have horder := numerics_lt_iff c.space.toExact c.mark.toExact
  rw [toExact_toReal, toExact_toReal] at horder
  have hsign := phaseSign_right p
  rw [le_div_iff₀ hpos, div_le_iff₀ hpos, zero_mul, gfskLevel, numerics_ofFrequency]
  by_cases h : c.space.toReal < c.mark.toReal
  · rw [if_pos (horder.mpr h), decide_eq_true_iff, hsign.nonneg_iff]
    exact ⟨fun hv => ⟨fun _ => hv, fun hle => absurd h hle.not_gt⟩, fun hv => hv.1 h⟩
  · rw [if_neg (mt horder.mp h), decide_eq_true_iff, ← not_lt, hsign.pos_iff, not_lt]
    exact ⟨fun hv => ⟨fun hlt => absurd hlt h, fun _ => hv⟩, fun hv => hv.2 (not_lt.mp h)⟩

theorem gfskLevels_length (f : IQ ExactReal) (ws : List (List ExactReal)) (n : Nat) :
    (gfskLevels numerics c f ws n).length = ws.length := by
  induction ws generalizing f n with
  | nil => rfl
  | cons w ws ih => rw [gfskLevels, List.length_cons, ih, List.length_cons]

/-- The windows given are those of a waveform from number `k` on. -/
def WindowsFrom (c : GfskConfig LinearReal ExactReal) (off : Nat) (xs : List ExactReal) (k : Nat)
    (ws : List (List ExactReal)) : Prop :=
  ∀ i w, ws[i]? = some w → w.length = c.sym.sps ∧ w <+: xs.drop (off + (k + i) * c.sym.sps)

theorem WindowsFrom.tail {k : Nat} {w : List ExactReal} {ws : List (List ExactReal)} (h : WindowsFrom c off xs k (w :: ws)) :
    WindowsFrom c off xs (k + 1) ws := fun i v hv => by
  have hnumber : k + 1 + i = k + (i + 1) := by ring
  rw [hnumber]
  exact h (i + 1) v hv

theorem symWindows_windowsFrom : WindowsFrom c off xs 0 (symWindows xs off c.sym.sps) := by
  intro i w hw
  obtain ⟨hi, -⟩ := List.getElem?_eq_some_iff.mp hw
  rw [symWindows_length] at hi
  obtain rfl := Option.some.inj ((symWindows_getElem? xs hi).symm.trans hw)
  rw [zero_add]
  exact ⟨symWindow_length hi, List.take_prefix ..⟩

/-- The symbol `k` of a waveform has level mark. -/
def MarkAt (c : GfskConfig LinearReal ExactReal) (off : Nat) (xs : List ExactReal) (k : Nat) : Prop :=
  GfskMark c.mark.toReal c.space.toReal c.alpha.toReal c.sym.fs c.sym.sps off (xs.map ExactReal.toReal) k

/-- The level of the window of number `k`: its sum of phase advances, begun at 0, is that over the reals. -/
theorem gfskLevel_mark (hsps : 0 < c.sym.sps) {f : IQ ExactReal} {k : Nat} (hf : FilterAt c off xs (k * c.sym.sps) f)
    {w : List ExactReal} (hlen : w.length = c.sym.sps) (hw : w <+: xs.drop (off + k * c.sym.sps)) :
    let u := gfskWindow numerics c (f, phaseZero) w (off + k * c.sym.sps)
    FilterAt c off xs ((k + 1) * c.sym.sps) u.1 ∧ (gfskLevel numerics c (phaseSign u.2) = true ↔ MarkAt c off xs k) := by
  intro u
  obtain ⟨hfilter, hsum⟩ := gfskWindow_real (st := (f, phaseZero)) hf phaseZero_hasDirection hw
  rw [hlen, ← Nat.succ_mul] at hfilter
  rw [hlen, phaseZero_value, zero_add] at hsum
  exact ⟨hfilter, by rw [gfskLevel_iff _ hsps, hsum]; rfl⟩

theorem gfskLevels_mark (hsps : 0 < c.sym.sps) {f : IQ ExactReal} {k : Nat} (hf : FilterAt c off xs (k * c.sym.sps) f)
    {ws : List (List ExactReal)} (hws : WindowsFrom c off xs k ws) {i : Nat} (hi : i < ws.length) :
    (gfskLevels numerics c f ws (off + k * c.sym.sps)).getD i false = true ↔ MarkAt c off xs (k + i) := by
  induction ws generalizing f k i with
  | nil => simp at hi
  | cons w ws ih =>
    obtain ⟨hlen, hw⟩ := hws 0 w rfl
    obtain ⟨hfilter, hlevel⟩ := gfskLevel_mark hsps hf hlen hw
    cases i with
    | zero => exact hlevel
    | succ i =>
      have hstart : off + k * c.sym.sps + c.sym.sps = off + (k + 1) * c.sym.sps := by ring
      have hnumber : k + (i + 1) = k + 1 + i := by ring
      rw [gfskLevels, List.getD_cons_succ, hstart, hnumber]
      exact ih hfilter hws.tail (Nat.lt_of_succ_lt_succ hi)

theorem gfskDemod_length : (gfskDemod numerics xs off c).length = windowCount xs.length off c.sym.sps := by
  rw [gfskDemod, gfskLevels_length, symWindows_length]

/-- The level of symbol `k` is the one that the discriminator over the reals decides. -/
theorem gfskDemod_symbol (hsps : 0 < c.sym.sps) {k : Nat} (hk : k < windowCount xs.length off c.sym.sps) :
    (gfskDemod numerics xs off c).getD k false = true ↔ MarkAt c off xs k := by
  have hlevel := gfskLevels_mark (k := 0) (i := k) hsps (Nat.zero_mul _ ▸ filterAt_zero) symWindows_windowsFrom
    (symWindows_length xs off c.sym.sps ▸ hk)
  rwa [Nat.zero_mul, add_zero, zero_add] at hlevel

end

/-! ## Bit groups and tone indices (rules R46, R127) -/

theorem groupIndex_lt (bits : List Bit) : groupIndex bits < 2 ^ bits.length := by
  induction bits with
  | nil => simp [groupIndex]
  | cons b bs ih =>
    have hbit : (if b then 1 else 0) < 2 := by split <;> omega
    rw [groupIndex, List.length_cons, pow_succ]
    omega

/-- The first bit of a group is the least significant of its index. -/
theorem groupIndex_testBit (bits : List Bit) (j : Nat) : (groupIndex bits).testBit j = bits.getD j false := by
  induction bits generalizing j with
  | nil => simp [groupIndex]
  | cons b bs ih =>
    cases j with
    | zero => cases b <;> simp [groupIndex, Nat.testBit_zero]
    | succ j =>
      have hhalf : ((if b then 1 else 0) + 2 * groupIndex bs) / 2 = groupIndex bs := by split <;> omega
      rw [groupIndex, Nat.testBit_succ, hhalf, ih, List.getD_cons_succ]

/-- Group `g` of `size` bits, padded with zeros (rule R127). -/
def bitGroup (size g : Nat) (bits : List Bit) : List Bit := (List.range size).map fun j => bits.getD (g * size + j) false

theorem bitGroup_getD {size g j : Nat} (bits : List Bit) (hj : j < size) :
    (bitGroup size g bits).getD j false = bits.getD (g * size + j) false := by
  simp [bitGroup, List.getD_eq_getElem?_getD, hj]

theorem bitGroups_length (size n : Nat) (bits : List Bit) : (bitGroups size n bits).length = n := by
  induction n generalizing bits with
  | zero => rfl
  | succ n ih => rw [bitGroups, List.length_cons, ih]

theorem bitGroups_getElem? {size n g : Nat} (bits : List Bit) (hg : g < n) :
    (bitGroups size n bits)[g]? = some (bitGroup size g bits) := by
  induction n generalizing g bits with
  | zero => omega
  | succ n ih =>
    cases g with
    | zero => simp [bitGroups, bitGroup]
    | succ g =>
      have hpos : ∀ j, size + (g * size + j) = (g + 1) * size + j := fun j => by ring
      rw [bitGroups, List.getElem?_cons_succ, ih _ (by omega)]
      simp [bitGroup, List.getD_eq_getElem?_getD, hpos]

section

variable {bits : List Bit} {b g j : Nat}

theorem mfskMap_length (bits : List Bit) (b : Nat) : (mfskMap bits b).length = ceilDiv bits.length b := by
  rw [mfskMap, List.length_map, bitGroups_length]

theorem mfskMap_getElem? (hg : g < ceilDiv bits.length b) : (mfskMap bits b)[g]? = some (groupIndex (bitGroup b g bits)) := by
  rw [mfskMap, List.getElem?_map, bitGroups_getElem? bits hg, Option.map_some]

theorem groupIndex_bitGroup_lt (bits : List Bit) (b g : Nat) : groupIndex (bitGroup b g bits) < 2 ^ b := by
  simpa [bitGroup] using groupIndex_lt (bitGroup b g bits)

theorem groupIndex_bitGroup_testBit (bits : List Bit) (g : Nat) (hj : j < b) :
    (groupIndex (bitGroup b g bits)).testBit j = bits.getD (g * b + j) false := by
  rw [groupIndex_testBit, bitGroup_getD bits hj]

/-- Unmapping a mapping gives the bits back and the zeros that padded the last group: bit `i` is bit `i % b` of group
`i / b`. -/
theorem mfskUnmap_mfskMap (bits : List Bit) (hb : 1 ≤ b) :
    mfskUnmap (mfskMap bits b) b = bits ++ List.replicate (ceilDiv bits.length b * b - bits.length) false := by
  have hceil : bits.length ≤ ceilDiv bits.length b * b := mul_comm b _ ▸ ceilDiv_mul_ge bits.length hb
  have hlen : (mfskUnmap (mfskMap bits b) b).length = ceilDiv bits.length b * b := by rw [mfskUnmap_length, mfskMap_length]
  refine List.ext_getElem (by rw [hlen, List.length_append, List.length_replicate]; omega) fun i hi hi' => ?_
  have hgroup : i / b < ceilDiv bits.length b := Nat.div_lt_of_lt_mul (by rw [mul_comm, ← hlen]; exact hi)
  have hbit := mfskUnmap_getD (mfskMap_getElem? hgroup) (Nat.mod_lt i hb)
  rw [groupIndex_bitGroup_testBit bits _ (Nat.mod_lt i hb), Nat.div_add_mod' i b] at hbit
  rw [← List.getD_eq_getElem _ false, ← List.getD_eq_getElem _ false, hbit]
  rcases Nat.lt_or_ge i bits.length with hlt | hge
  · rw [List.getD_append _ _ _ _ hlt]
  · rw [List.getD_eq_default _ _ hge, List.getD_append_right _ _ _ _ hge, List.getD_eq_getElem?_getD,
      List.getElem?_getD_replicate_default_eq]

end

/-! ## MFSK.MAP and MFSK.UNMAP (rules R126 to R129) -/

/-- The byte that holds the tone index of group `g`: the index fits, and its bits are the group's. -/
theorem groupByte_spec {b : Nat} (hb : b ≤ 4) (bits : List Bit) (g : Nat) :
    let y : Byte := BitVec.ofNat 8 (groupIndex (bitGroup b g bits))
    y.toNat < 2 ^ b ∧ ∀ j, j < b → y.getLsbD j = bits.getD (g * b + j) false := by
  have hlt := groupIndex_bitGroup_lt bits b g
  have hbyte : 2 ^ b ≤ 2 ^ 4 := Nat.pow_le_pow_right (by omega) hb
  refine ⟨?_, fun j hj => ?_⟩
  · rwa [BitVec.toNat_ofNat, Nat.mod_eq_of_lt (by omega)]
  · rw [BitVec.getLsbD_ofNat, groupIndex_bitGroup_testBit bits g hj]
    simp only [show j < 8 by omega, decide_true, Bool.true_and]

section

variable (src dst : Sel) (s : State) {b : Nat}

theorem bpsConfig_eq_none (h : ¬ ∃ b, s.cfg.bps = some b ∧ 1 ≤ b ∧ b ≤ 4) : bpsConfig s.cfg = none :=
  Option.eq_none_iff_forall_ne_some.mpr fun b hb => h ⟨b, bpsConfig_eq_some.mp hb⟩

theorem exec_mfskMap_of_none (h : bpsConfig s.cfg = none) : exec (.mfskMap src dst) s = raise .config s := by
  simp only [exec, execMfskMap, h]

theorem exec_mfskUnmap_of_none (h : bpsConfig s.cfg = none) : exec (.mfskUnmap src dst) s = raise .config s := by
  simp only [exec, execMfskUnmap, h]

/-- The bytes that `MFSK.MAP` writes, one tone index in each. -/
def mappedBytes (bits : List Bit) (b : Nat) : List Byte := (mfskMap bits b).map (BitVec.ofNat 8)

theorem mappedBytes_length (bits : List Bit) (b : Nat) : (mappedBytes bits b).length = ceilDiv bits.length b := by
  rw [mappedBytes, List.length_map, mfskMap_length]

theorem mappedBytes_getD {bits : List Bit} {g : Nat} (hg : g < (mappedBytes bits b).length) :
    (mappedBytes bits b).getD g 0 = BitVec.ofNat 8 (groupIndex (bitGroup b g bits)) := by
  rw [mappedBytes_length] at hg
  rw [mappedBytes, List.getD_eq_getElem?_getD, List.getElem?_map, mfskMap_getElem? hg]
  rfl

theorem exec_mfskMap_of_bps (h : bpsConfig s.cfg = some b) :
    let out := mappedBytes (bbRead src s) b
    exec (.mfskMap src dst) s = endWith .ok (setCount 0 out.length (ybWrite dst out s)) := by
  simp only [exec, execMfskMap, h, mappedBytes, List.length_map]

/-- The bits of the tone indices in a list of bytes. -/
def unmappedBits (ys : List Byte) (b : Nat) : List Bit := mfskUnmap (ys.map fun y => y.toNat) b

theorem unmappedBits_length (ys : List Byte) (b : Nat) : (unmappedBits ys b).length = ys.length * b := by
  rw [unmappedBits, mfskUnmap_length, List.length_map]

theorem unmappedBits_getD {ys : List Byte} {g j : Nat} (hg : g < ys.length) (hj : j < b) :
    (unmappedBits ys b).getD (g * b + j) false = (ys.getD g 0).getLsbD j := by
  rw [List.getD_eq_getElem _ _ hg, BitVec.getLsbD]
  exact mfskUnmap_getD (by rw [List.getElem?_map, List.getElem?_eq_getElem hg, Option.map_some]) hj

/-- `MFSK.UNMAP` writes the bits of the tone indices. -/
theorem exec_mfskUnmap_of_inRange (h : bpsConfig s.cfg = some b) (hall : ∀ y ∈ ybRead src s, y.toNat < 2 ^ b) :
    let out := unmappedBits (ybRead src s) b
    exec (.mfskUnmap src dst) s = endWith .ok (setCount 0 out.length (bbWrite dst out s)) := by
  simp only [exec, execMfskUnmap, h, unmappedBits]
  exact if_neg (by simpa using hall)

/-- `MFSK.UNMAP` is refused for a byte that is no tone index (rule R129). -/
theorem exec_mfskUnmap_of_outOfRange (h : bpsConfig s.cfg = some b) (hbad : ∃ y ∈ ybRead src s, 2 ^ b ≤ y.toNat) :
    exec (.mfskUnmap src dst) s = raise .config s := by
  simp only [exec, execMfskUnmap, h]
  exact if_pos (by simpa using hbad)

end

end Sys2Proof.Machine

namespace Sys2Proof

open Machine

/-! ## The obligations -/

/-- Settles O25: with an accepted configuration the window is run by `afskSymbol`, whose level, energies and last run the
lemmas above give; `afskReady_iff` says when the configuration is accepted. -/
theorem afskSym : Obligations.AfskSym := by
  intro s start
  constructor
  · intro fs sps fm fsp hsym hmark hspace hlen xs
    let x := afskSymbol numerics xs fm fsp fs
    refine ⟨setStatus .ok (setR 0 (bitWord x.level) (leaveAfsk x s)), x.mark, x.space, x.level, ?_, rWritten_of_eq rfl,
      evWritten_of_eq rfl, afskSymbol_mark_toReal xs fm fsp fs, afskSymbol_space_toReal xs fm fsp fs,
      afskSymbol_level xs fm fsp fs, leaveAfsk_goertzelHolds xs fm fsp fs s, rfl⟩
    simp only [exec, execAfskSym, afskReady_iff.mp ⟨hsym, hmark, hspace⟩]
    rw [if_neg (not_lt.mpr hlen), slice_add]
    rfl
  · intro hnot
    simp only [exec, execAfskSym]
    split
    · rfl
    · rename_i c hc
      obtain ⟨hsym, hmark, hspace⟩ := afskReady_iff.mpr hc
      rw [if_pos]
      · rfl
      · by_contra hlen
        exact hnot ⟨_, _, _, _, hsym, hmark, hspace, not_lt.mp hlen⟩

/-- Settles O26: the energies that AFSK compares are the same real number, and silence adds no phase (`gfskDemod_silent`). -/
theorem tiesFavourMark : Obligations.TiesFavourMark := by
  have silence : ∀ n, ∀ x ∈ List.replicate n ExactReal.zero, x.toReal = 0 := fun n x hx => by
    rw [List.eq_of_mem_replicate hx, toReal_zero]
  refine ⟨fun xs fm fsp fs hsame => ?tones, fun n fm fsp fs => ?window, fun n off c => gfskDemod_silent (silence n) off⟩
  case tones => exact (afskSymbol_level xs fm fsp fs).mpr (by rw [hsame])
  case window =>
    refine (afskSymbol_level _ fm fsp fs).mpr ?_
    rw [realWindow_silent _ fs (silence n), realWindow_silent _ fs (silence n)]

/-- Settles O27: the levels are those of `afskDemod_symbol` window by window, and the last window, if there is one, leaves
`EV` and the Goertzel unit as `leaveAfsk` does. -/
theorem afskDemod : Obligations.AfskDemod := by
  intro dst s off
  constructor
  · intro fs sps fm fsp hsym hmark hspace count window
    have hc := afskReady_iff.mp ⟨hsym, hmark, hspace⟩
    let c : AfskConfig LinearReal := ⟨⟨fs, sps⟩, fm, fsp⟩
    let u := afskLevelsWritten dst s c
    have hlen := afskDemod_length s.sb off c
    have hlevels := fun k (hk : k < count) => afskDemod_symbol (c := c) hk
    rcases Nat.eq_zero_or_pos count with h0 | hpos
    · exact ⟨setStatus .ok u, _, execAfskDemod_of_none hc h0, bbWritten_of_eq rfl, hlen, rWritten_of_eq rfl, hlevels,
        fun _ => ⟨rfl, rfl⟩, fun hpos => absurd h0 hpos.ne', rfl⟩
    · exact ⟨setStatus .ok (leaveAfsk _ u), _, execAfskDemod_of_last hc rfl hpos, bbWritten_of_eq rfl, hlen,
        rWritten_of_eq rfl, hlevels, fun h0 => absurd h0 hpos.ne',
        fun _ => ⟨leaveAfsk_goertzelHolds _ fm fsp fs u, _, _, evWritten_of_eq rfl, afskSymbol_mark_toReal ..,
          afskSymbol_space_toReal ..⟩, rfl⟩
  · intro hnot
    simp only [exec, execAfskDemod]
    split
    · rfl
    · rename_i c hc
      exact absurd ⟨_, _, _, _, afskReady_iff.mpr hc⟩ hnot

/-- Settles O28: window by window the model's filters and phase sum are those over the reals (`gfskWindow_real`), and so are
the levels (`gfskDemod_symbol`). -/
theorem gfskDemod : Obligations.GfskDemod := by
  intro dst s off
  constructor
  · intro fs sps fm fsp alpha hready count
    have hc := gfskReady_iff.mp hready
    obtain ⟨hsym, -⟩ := hready
    let c : GfskConfig LinearReal ExactReal := ⟨⟨fs, sps⟩, fm, fsp, alpha⟩
    let out := Machine.gfskDemod numerics s.sb off c
    have hlen : out.length = count := gfskDemod_length
    refine ⟨setStatus .ok (setCount 0 count (bbWrite dst out s)), out, ?_, bbWritten_of_eq rfl, hlen,
      fun k hk => gfskDemod_symbol (c := c) hsym.sps_pos hk, rWritten_of_eq rfl, rfl⟩
    simp only [exec, execGfskDemod, hc]
    rw [← hlen]
    rfl
  · intro hnot
    simp only [exec, execGfskDemod]
    split
    · rfl
    · rename_i c hc
      exact absurd ⟨_, _, _, _, _, gfskReady_iff.mpr hc⟩ hnot

/-- Settles O29: `gfskSample_filter` and `gfskSample_phase`, which hold of any sum of phase advances. -/
theorem gfskSample : Obligations.GfskSample := by
  intro alpha turn f p x st i q
  obtain ⟨hi, hq⟩ := gfskSample_filter alpha (f, p) x turn
  exact ⟨hi, hq, gfskSample_phase alpha (f, p) x turn⟩

/-- Settles O30: `phaseAdd_value`, `phaseSign_right` and the empty sum. -/
theorem phaseSumExact : Obligations.PhaseSumExact :=
  ⟨fun _ dot cross hp => phaseAdd_value hp dot cross, fun p => (phaseSign_right p).iffs, phaseZero_value,
    phaseZero_hasDirection⟩

/-- Settles O31: the bytes of `mappedBytes` by `groupByte_spec`, the bits of `unmappedBits` by `unmappedBits_getD`, the round
trip by `mfskUnmap_mfskMap`. -/
theorem mfskMapUnmap : Obligations.MfskMapUnmap := by
  refine ⟨fun bits b hb => mfskUnmap_mfskMap bits hb, fun src dst s => ⟨?accepted, fun hnot => ?refused⟩⟩
  case accepted =>
    intro b hbps hlow hhigh
    have hc := bpsConfig_eq_some.mpr ⟨hbps, hlow, hhigh⟩
    refine ⟨?map, fun hall => ?unmap, fun hbad => ?outOfRange⟩
    case map =>
      refine ⟨_, _, exec_mfskMap_of_bps src dst s hc, ybWritten_of_eq rfl, mappedBytes_length .., fun g hg => ?_,
        rWritten_of_eq rfl, rfl⟩
      rw [mappedBytes_getD hg]
      exact groupByte_spec hhigh _ g
    case unmap =>
      exact ⟨_, _, exec_mfskUnmap_of_inRange src dst s hc hall, bbWritten_of_eq rfl, unmappedBits_length ..,
        fun g j hg hj => unmappedBits_getD hg hj, rWritten_of_eq rfl, rfl⟩
    case outOfRange => exact exec_mfskUnmap_of_outOfRange src dst s hc hbad
  case refused =>
    have hc := bpsConfig_eq_none s hnot
    exact ⟨exec_mfskMap_of_none src dst s hc, exec_mfskUnmap_of_none src dst s hc⟩

end Sys2Proof

/-! # Line coding and HDLC (42_line_coding_hdlc.md): NRZI, packing, stuffing, flags and frames -/

namespace Sys2Proof.Machine

-- Elaborated one after another, to stay below the memory limit.
set_option Elab.async false

/-! ## The line code (rules R140, R141) -/

theorem nrziEnc_length (lv : Bit) (bits : List Bit) : (nrziEnc lv bits).length = bits.length := by
  induction bits generalizing lv with
  | nil => rfl
  | cons b bits ih => rw [nrziEnc, List.length_cons, ih, List.length_cons]

theorem nrziDec_length (pv : Bit) (levels : List Bit) : (nrziDec pv levels).length = levels.length := by
  induction levels generalizing pv with
  | nil => rfl
  | cons l levels ih => rw [nrziDec, List.length_cons, ih, List.length_cons]

/-- Each level sent is a step from the level before it. -/
theorem nrziEnc_getD (lv : Bit) {bits : List Bit} {i : Nat} (hi : i < bits.length) :
    (nrziEnc lv bits).getD i false = nrziEncStep ((lv :: nrziEnc lv bits).getD i false) (bits.getD i false) := by
  induction bits generalizing lv i with
  | nil => cases hi
  | cons b bits ih =>
    cases i with
    | zero => rfl
    | succ i => exact ih (nrziEncStep lv b) (Nat.lt_of_succ_lt_succ hi)

/-- Each bit received compares a level with the level before it. -/
theorem nrziDec_getD (pv : Bit) {levels : List Bit} {i : Nat} (hi : i < levels.length) :
    (nrziDec pv levels).getD i false = nrziDecStep ((pv :: levels).getD i false) (levels.getD i false) := by
  induction levels generalizing pv i with
  | nil => cases hi
  | cons l levels ih =>
    cases i with
    | zero => rfl
    | succ i => exact ih l (Nat.lt_of_succ_lt_succ hi)

theorem nrziDecStep_nrziEncStep (lv b : Bit) : nrziDecStep lv (nrziEncStep lv b) = b := by
  cases lv <;> cases b <;> rfl

/-- The decoder's previous level is the encoder's level before each step (rule R141). -/
theorem nrziDec_nrziEnc (lv : Bit) (bits : List Bit) : nrziDec lv (nrziEnc lv bits) = bits := by
  induction bits generalizing lv with
  | nil => rfl
  | cons b bits ih => rw [nrziEnc, nrziDec, nrziDecStep_nrziEncStep, ih]

/-! ## Bytes and bits (20_memory.md rules R44, R45) -/

theorem byteBits_length (y : Byte) : (byteBits y).length = 8 := by rw [byteBits, List.length_map, List.length_range]

theorem byteBits_getD (y : Byte) {k : Nat} (hk : k < 8) : (byteBits y).getD k false = y.getLsbD k := by
  simp [byteBits, List.getD_eq_getElem?_getD, hk]

theorem unpackLsb_cons (y : Byte) (ys : List Byte) : unpackLsb (y :: ys) = byteBits y ++ unpackLsb ys := rfl

/-- Bit `k` of byte `j` is bit `8 * j + k` of the sequence. -/
theorem unpackLsb_getD {bytes : List Byte} {j k : Nat} (hj : j < bytes.length) (hk : k < 8) :
    (unpackLsb bytes).getD (8 * j + k) false = (bytes.getD j 0).getLsbD k := by
  induction bytes generalizing j with
  | nil => cases hj
  | cons y ys ih =>
    rw [unpackLsb_cons]
    cases j with
    | zero =>
      rw [List.getD_append _ _ _ _ (by rw [byteBits_length]; omega), Nat.mul_zero, Nat.zero_add, byteBits_getD y hk,
        List.getD_cons_zero]
    | succ j =>
      have hpos : 8 * (j + 1) + k - (byteBits y).length = 8 * j + k := by rw [byteBits_length]; omega
      rw [List.getD_append_right _ _ _ _ (by rw [byteBits_length]; omega), hpos, ih (Nat.lt_of_succ_lt_succ hj),
        List.getD_cons_succ]

/-- A bit list read as a byte and as a tone index is the same number. -/
theorem bitsValue_eq_groupIndex (bits : List Bit) : bitsValue bits = groupIndex bits := by
  induction bits with
  | nil => rfl
  | cons b bits ih => rw [bitsValue, groupIndex, ih]

theorem packBytes_length (n : Nat) (bits : List Bit) : (packBytes n bits).length = n := by
  induction n generalizing bits with
  | zero => rfl
  | succ n ih => rw [packBytes, List.length_cons, ih]

theorem packBytes_getD {n j k : Nat} (bits : List Bit) (hj : j < n) (hk : k < 8) :
    ((packBytes n bits).getD j 0).getLsbD k = bits.getD (8 * j + k) false := by
  induction n generalizing j bits with
  | zero => omega
  | succ n ih =>
    rw [packBytes]
    cases j with
    | zero =>
      rw [List.getD_cons_zero, BitVec.getLsbD_ofNat, bitsValue_eq_groupIndex, groupIndex_testBit]
      simp [List.getD_eq_getElem?_getD, List.getElem?_take_of_lt, hk]
    | succ j =>
      have hpos : 8 + (8 * j + k) = 8 * (j + 1) + k := by omega
      rw [List.getD_cons_succ, ih _ (Nat.lt_of_succ_lt_succ hj), List.getD_eq_getElem?_getD, List.getElem?_drop, hpos,
        List.getD_eq_getElem?_getD]

theorem packLsb_length (bits : List Bit) : (packLsb bits).length = bits.length / 8 := packBytes_length ..

theorem packLsb_getD {bits : List Bit} {j k : Nat} (hj : j < (packLsb bits).length) (hk : k < 8) :
    ((packLsb bits).getD j 0).getLsbD k = bits.getD (8 * j + k) false :=
  packBytes_getD bits (packLsb_length bits ▸ hj) hk

/-- Unpacked bytes are packed into the same bytes. -/
theorem packLsb_unpackLsb (bytes : List Byte) : packLsb (unpackLsb bytes) = bytes := by
  have hlen : (packLsb (unpackLsb bytes)).length = bytes.length := by
    rw [packLsb_length, unpackLsb_length, Nat.mul_div_cancel_left _ (by decide)]
  refine List.ext_getElem hlen fun j hj hj' => BitVec.eq_of_getLsbD_eq fun k hk => ?_
  rw [← List.getD_eq_getElem _ 0 hj, ← List.getD_eq_getElem _ 0 hj', packLsb_getD hj hk, unpackLsb_getD hj' hk]

/-! ## Runs of ones -/

section

variable {m : Nat} {xs ys : List Bit}

theorem false_notMem_ones : false ∉ List.replicate m true := fun h => Bool.false_ne_true (List.eq_of_mem_replicate h)

/-- A run of ones at the front ends before any zero. -/
theorem ones_prefix_of_zero (h : List.replicate m true <+: xs ++ false :: ys) : List.replicate m true <+: xs := by
  have hcut : xs ++ [false] <+: xs ++ false :: ys := (List.prefix_append_right_inj xs).mpr ⟨ys, rfl⟩
  rcases List.prefix_or_prefix_of_prefix h hcut with hle | hge
  · rcases List.prefix_concat_iff.mp hle with heq | hle
    · exact absurd (heq ▸ List.mem_concat_self) false_notMem_ones
    · exact hle
  · exact absurd (hge.subset List.mem_concat_self) false_notMem_ones

/-- A run of ones at the end begins after any zero. -/
theorem ones_suffix_of_zero (h : List.replicate m true <:+ xs ++ false :: ys) : List.replicate m true <:+ ys := by
  rcases List.suffix_or_suffix_of_suffix h (List.suffix_append xs (false :: ys)) with hle | hge
  · rcases List.suffix_cons_iff.mp hle with heq | hle
    · exact absurd (heq ▸ List.mem_cons_self) false_notMem_ones
    · exact hle
  · exact absurd (hge.subset List.mem_cons_self) false_notMem_ones

/-- A run of ones lies on one side of any zero. -/
theorem ones_infix_of_zero (h : List.replicate m true <:+: xs ++ false :: ys) :
    List.replicate m true <:+: xs ∨ List.replicate m true <:+: ys := by
  rcases List.infix_append_iff.mp h with hxs | hys | ⟨before, after, hsplit, hbefore, hafter⟩
  · exact .inl hxs
  · rcases List.infix_cons_iff.mp hys with hfront | hys
    · exact .inl ((ones_prefix_of_zero (xs := []) hfront).isInfix.trans List.nil_infix)
    · exact .inr hys
  · rcases List.prefix_cons_iff.mp hafter with rfl | ⟨rest, rfl, -⟩
    · exact .inl (hsplit ▸ (List.append_nil before).symm ▸ hbefore.isInfix)
    · exact absurd (hsplit ▸ List.mem_append_right before List.mem_cons_self) false_notMem_ones

theorem ones_append_true_cons (n : Nat) (bs : List Bit) :
    List.replicate n true ++ true :: bs = List.replicate (n + 1) true ++ bs := by
  rw [List.replicate_succ', List.append_assoc, List.singleton_append]

end

/-! ## Stuffing (rule R148) -/

/-- The ones sent so far and the stuffed bits after them hold at most five ones in a row, and at most four at the end. -/
theorem stuffFrom_runs {n : Nat} (hn : n ≤ 4) (bits : List Bit) :
    ¬ List.replicate 6 true <:+: List.replicate n true ++ stuffFrom n bits ∧
      ¬ List.replicate 5 true <:+ List.replicate n true ++ stuffFrom n bits := by
  have hshort : ∀ {k m : Nat}, m < k → ¬ List.replicate k true <:+: List.replicate m true := fun hlt h =>
    absurd h.length_le (by rw [List.length_replicate, List.length_replicate]; omega)
  induction n, bits using stuffFrom.induct with
  | case1 n =>
    rw [stuffFrom, List.append_nil]
    exact ⟨hshort (by omega), fun h => hshort (by omega) h.isInfix⟩
  | case2 n bits ih =>
    obtain ⟨hsix, hfive⟩ := ih (Nat.zero_le 4)
    rw [stuffFrom]
    exact ⟨fun h => (ones_infix_of_zero h).elim (hshort (by omega)) hsix, fun h => hfive (ones_suffix_of_zero h)⟩
  | case3 n bits hlast ih =>
    obtain ⟨hsix, hfive⟩ := ih (Nat.zero_le 4)
    rw [stuffFrom, if_pos hlast, ones_append_true_cons, hlast]
    exact ⟨fun h => (ones_infix_of_zero h).elim (hshort (by omega)) hsix, fun h => hfive (ones_suffix_of_zero h)⟩
  | case4 n bits hmore ih =>
    rw [stuffFrom, if_neg hmore, ones_append_true_cons]
    exact ih (by omega)

theorem not_six_ones_infix_stuff (bits : List Bit) : ¬ List.replicate 6 true <:+: stuff bits :=
  (stuffFrom_runs (Nat.zero_le 4) bits).1

theorem not_five_ones_suffix_stuff (bits : List Bit) : ¬ List.replicate 5 true <:+ stuff bits :=
  (stuffFrom_runs (Nat.zero_le 4) bits).2

/-- Stuffing inserts zeros only. -/
theorem stuffFrom_filter (n : Nat) (bits : List Bit) : (stuffFrom n bits).filter id = bits.filter id := by
  induction n, bits using stuffFrom.induct with
  | case1 n => rfl
  | case2 n bits ih => simpa [stuffFrom] using ih
  | case3 n bits hlast ih => simpa [stuffFrom, hlast] using ih
  | case4 n bits hmore ih => simpa [stuffFrom, hmore] using ih

/-- The destuffer that has seen the ones sent so far gives the bits back. -/
theorem destuffFrom_stuffFrom {n : Nat} (hn : n ≤ 4) (bits : List Bit) : destuffFrom n (stuffFrom n bits) = bits := by
  induction n, bits using stuffFrom.induct with
  | case1 n => rfl
  | case2 n bits ih => rw [stuffFrom, destuffFrom, if_neg (by omega), ih (Nat.zero_le 4)]
  | case3 n bits hlast ih =>
    rw [stuffFrom, if_pos hlast, destuffFrom, hlast, destuffFrom, if_pos (by rfl), ih (Nat.zero_le 4)]
  | case4 n bits hmore ih => rw [stuffFrom, if_neg hmore, destuffFrom, Nat.min_eq_left (by omega), ih (by omega)]

theorem destuff_stuff (bits : List Bit) : destuff (stuff bits) = bits := destuffFrom_stuffFrom (Nat.zero_le 4) bits

/-! ## Destuffing any bits (rule R149) -/

/-- Destuffing drops zeros only. -/
theorem destuffFrom_filter (n : Nat) (bits : List Bit) : (destuffFrom n bits).filter id = bits.filter id := by
  induction n, bits using destuffFrom.induct with
  | case1 n => rfl
  | case2 bits ih => simpa [destuffFrom] using ih
  | case3 n bits hfew ih => simpa [destuffFrom, hfew] using ih
  | case4 n bits ih => simpa [destuffFrom] using ih

theorem destuffFrom_length_le (n : Nat) (bits : List Bit) : (destuffFrom n bits).length ≤ bits.length := by
  induction n, bits using destuffFrom.induct with
  | case1 n => exact Nat.le_refl _
  | case2 bits ih => rw [destuffFrom, if_pos rfl, List.length_cons]; omega
  | case3 n bits hfew ih => rw [destuffFrom, if_neg hfew, List.length_cons, List.length_cons]; omega
  | case4 n bits ih => rw [destuffFrom, List.length_cons, List.length_cons]; omega

/-- `n`, at most 5, says how many ones end the bits seen so far: all of them, or at least five. -/
def OnesAtEnd (seen : List Bit) (n : Nat) : Prop := n ≤ 5 ∧ ∀ k ≤ 5, List.replicate k true <:+ seen ↔ k ≤ n

theorem onesAtEnd_nil : OnesAtEnd [] 0 := ⟨Nat.zero_le 5, fun k _ => by simp⟩

theorem onesAtEnd_concat_false (seen : List Bit) : OnesAtEnd (seen ++ [false]) 0 := by
  refine ⟨Nat.zero_le 5, fun k _ => ⟨fun h => ?_, fun h => ?_⟩⟩
  · simpa using (ones_suffix_of_zero h).length_le
  · rw [Nat.le_zero.mp h]
    exact List.nil_suffix

theorem OnesAtEnd.concat_true {seen : List Bit} {n : Nat} (h : OnesAtEnd seen n) :
    OnesAtEnd (seen ++ [true]) (min (n + 1) 5) := by
  obtain ⟨hn, hruns⟩ := h
  refine ⟨Nat.min_le_right .., fun k hk => ?_⟩
  cases k with
  | zero => simp
  | succ k =>
    have hstep : List.replicate (k + 1) true <:+ seen ++ [true] ↔ List.replicate k true <:+ seen := by
      rw [List.replicate_succ', List.suffix_concat_iff]
      simp
    rw [hstep, hruns k (by omega)]
    omega

/-- Rule R149 drops bit `i`: it is 0 and the five bits before it are ones. -/
def destuffDrops (bits : List Bit) (i : Nat) : Bool :=
  !bits.getD i false && decide (List.replicate 5 true <:+ bits.take i)

theorem destuffDrops_iff {bits : List Bit} {i : Nat} (hi : i ≤ bits.length) :
    destuffDrops bits i = true ↔
      bits.getD i false = false ∧ 5 ≤ i ∧ (bits.drop (i - 5)).take 5 = List.replicate 5 true := by
  have hrun : List.replicate 5 true <:+ bits.take i ↔ 5 ≤ i ∧ (bits.drop (i - 5)).take 5 = List.replicate 5 true := by
    rw [List.suffix_iff_eq_drop, List.length_replicate, List.length_take_of_le hi, List.drop_take, eq_comm]
    constructor
    · intro h
      have hfive : 5 ≤ i := by
        have hlen := congrArg List.length h
        simp only [List.length_take, List.length_drop, List.length_replicate] at hlen
        omega
      rw [Nat.sub_sub_self hfive] at h
      exact ⟨hfive, h⟩
    · rintro ⟨hfive, h⟩
      rwa [Nat.sub_sub_self hfive]
  rw [destuffDrops, Bool.and_eq_true, Bool.not_eq_true', decide_eq_true_eq, hrun]

theorem destuffDrops_append_cons {seen : List Bit} {n : Nat} (h : OnesAtEnd seen n) (b : Bit) (bits : List Bit) :
    destuffDrops (seen ++ b :: bits) seen.length = (!b && decide (n = 5)) := by
  obtain ⟨hn, hruns⟩ := h
  have hfive : List.replicate 5 true <:+ seen ↔ n = 5 := (hruns 5 (Nat.le_refl 5)).trans (by omega)
  rw [destuffDrops, List.take_left, List.getD_append_right _ _ _ _ (Nat.le_refl _), Nat.sub_self, List.getD_cons_zero]
  simp only [hfive]

/-- The bits that destuffing keeps of `bits`, when `seen` stands before them. -/
def keptAfter (seen bits : List Bit) : List Bit :=
  ((List.range bits.length).filter fun i => !destuffDrops (seen ++ bits) (seen.length + i)).map fun i => bits.getD i false

theorem keptAfter_cons {seen : List Bit} {n : Nat} (h : OnesAtEnd seen n) (b : Bit) (bits : List Bit) :
    keptAfter seen (b :: bits) =
      if b = false ∧ n = 5 then keptAfter (seen ++ [b]) bits else b :: keptAfter (seen ++ [b]) bits := by
  have hpos : ∀ i, seen.length + (i + 1) = (seen ++ [b]).length + i := fun i => by
    rw [List.length_append, List.length_singleton]; omega
  have hbits : seen ++ b :: bits = (seen ++ [b]) ++ bits := by rw [List.append_assoc, List.singleton_append]
  have htail : keptAfter (seen ++ [b]) bits =
      (((List.range bits.length).map Nat.succ).filter fun i => !destuffDrops (seen ++ b :: bits) (seen.length + i)).map
        fun i => (b :: bits).getD i false := by
    rw [keptAfter, List.filter_map, List.map_map, hbits]
    simp only [Function.comp_def, Nat.succ_eq_add_one, hpos, List.getD_cons_succ]
  rw [htail, keptAfter, List.length_cons, List.range_succ_eq_map, List.filter_cons, Nat.add_zero,
    destuffDrops_append_cons h b bits]
  cases b <;> by_cases hn : n = 5 <;> simp [hn]

theorem destuffFrom_eq_keptAfter {seen : List Bit} {n : Nat} (h : OnesAtEnd seen n) (bits : List Bit) :
    destuffFrom n bits = keptAfter seen bits := by
  induction bits generalizing seen n with
  | nil => rfl
  | cons b bits ih =>
    rw [keptAfter_cons h]
    cases b with
    | false => simp only [destuffFrom, ih (onesAtEnd_concat_false seen), true_and]
    | true => simp only [destuffFrom, ih h.concat_true, Bool.true_eq_false, false_and, if_false]

/-- Destuffing keeps exactly the bits that rule R149 does not drop. -/
theorem destuff_eq_kept (bits : List Bit) :
    destuff bits = ((List.range bits.length).filter fun i => !destuffDrops bits i).map fun i => bits.getD i false := by
  rw [destuff, destuffFrom_eq_keptAfter onesAtEnd_nil, keptAfter]
  simp only [List.nil_append, List.length_nil, Nat.zero_add]

/-! ## The flag search (rule R155) -/

/-- A flag begins at position `i` (rules R63, R155). -/
def FlagAt (bits : List Bit) (i : Nat) : Prop := (bits.drop i).take 8 = hdlcFlag

theorem FlagAt.add_eight_le {bits : List Bit} {i : Nat} (h : FlagAt bits i) : i + 8 ≤ bits.length := by
  have hlen := congrArg List.length h
  rw [List.length_take, List.length_drop, show hdlcFlag.length = 8 from rfl] at hlen
  omega

theorem not_flagAt_nil (i : Nat) : ¬ FlagAt [] i := fun h => by
  have hle := h.add_eight_le
  rw [List.length_nil] at hle
  omega

section

variable {adv : Nat}

/-- The positions found are flags among those not skipped. -/
theorem flagAt_of_mem_findFlagsFrom {i skip p : Nat} {bits : List Bit} (h : p ∈ findFlagsFrom adv i skip bits) :
    ∃ j, p = i + j ∧ skip ≤ j ∧ FlagAt bits j := by
  induction i, skip, bits using findFlagsFrom.induct adv with
  | case1 i skip => simp [findFlagsFrom] at h
  | case2 i skip b bits ih =>
    obtain ⟨j, rfl, hskip, hj⟩ := ih (by rwa [findFlagsFrom] at h)
    exact ⟨j + 1, by omega, by omega, hj⟩
  | case3 i b bits hflag ih =>
    rw [findFlagsFrom, if_pos hflag] at h
    rcases List.mem_cons.mp h with rfl | h
    · exact ⟨0, rfl, Nat.le_refl 0, hflag⟩
    · obtain ⟨j, rfl, -, hj⟩ := ih h
      exact ⟨j + 1, by omega, Nat.zero_le _, hj⟩
  | case4 i b bits hflag ih =>
    obtain ⟨j, rfl, -, hj⟩ := ih (by rwa [findFlagsFrom, if_neg hflag] at h)
    exact ⟨j + 1, by omega, Nat.zero_le _, hj⟩

/-- The positions after one found are skipped up to the advance. -/
theorem findFlagsFrom_pairwise (i skip : Nat) (bits : List Bit) :
    (findFlagsFrom adv i skip bits).Pairwise fun p q => p + adv ≤ q := by
  induction i, skip, bits using findFlagsFrom.induct adv with
  | case1 i skip => rw [findFlagsFrom]; exact .nil
  | case2 i skip b bits ih => rwa [findFlagsFrom]
  | case3 i b bits hflag ih =>
    rw [findFlagsFrom, if_pos hflag]
    refine List.pairwise_cons.mpr ⟨fun q hq => ?_, ih⟩
    obtain ⟨j, rfl, hskip, -⟩ := flagAt_of_mem_findFlagsFrom hq
    omega
  | case4 i b bits hflag ih => rwa [findFlagsFrom, if_neg hflag]

/-- A flag that is not skipped is found, or begins within the advance of one found. -/
theorem exists_mem_findFlagsFrom (hadv : 0 < adv) {i skip j : Nat} {bits : List Bit} (hskip : skip ≤ j)
    (hj : FlagAt bits j) : ∃ p ∈ findFlagsFrom adv i skip bits, p ≤ i + j ∧ i + j < p + adv := by
  induction i, skip, bits using findFlagsFrom.induct adv generalizing j with
  | case1 i skip => exact absurd hj (not_flagAt_nil j)
  | case2 i skip b bits ih =>
    obtain ⟨j, rfl⟩ : ∃ k, j = k + 1 := ⟨j - 1, by omega⟩
    rw [findFlagsFrom, ← Nat.succ_add_eq_add_succ i j]
    exact ih (by omega) hj
  | case3 i b bits hflag ih =>
    rw [findFlagsFrom, if_pos hflag]
    by_cases hnear : j < adv
    · exact ⟨i, List.mem_cons_self, by omega, by omega⟩
    · obtain ⟨j, rfl⟩ : ∃ k, j = k + 1 := ⟨j - 1, by omega⟩
      obtain ⟨p, hp, hfar⟩ := ih (by omega) hj
      exact ⟨p, List.mem_cons_of_mem _ hp, by omega⟩
  | case4 i b bits hflag ih =>
    cases j with
    | zero => exact absurd hj hflag
    | succ j =>
      rw [findFlagsFrom, if_neg hflag, ← Nat.succ_add_eq_add_succ i j]
      exact ih (Nat.zero_le j) hj

end

theorem flagAt_of_mem_findFlags {bits : List Bit} {adv p : Nat} (h : p ∈ findFlags bits adv) : FlagAt bits p := by
  obtain ⟨j, rfl, -, hj⟩ := flagAt_of_mem_findFlagsFrom h
  rwa [Nat.zero_add]

theorem exists_mem_findFlags {bits : List Bit} {adv i : Nat} (hadv : 0 < adv) (hi : FlagAt bits i) :
    ∃ p ∈ findFlags bits adv, p ≤ i ∧ i < p + adv := by
  have hfound := exists_mem_findFlagsFrom (i := 0) hadv (Nat.zero_le i) hi
  rwa [Nat.zero_add] at hfound

/-! ## The candidate frames (rule R156) -/

section

variable {bits : List Bit} {minbits : Nat}

theorem candidate_eq_none {p q : Nat} (h : q - (p + 8) < minbits) : candidate bits minbits p q = none := by
  have hlen : (slice bits (p + 8) q).length ≤ q - (p + 8) := List.length_take_le ..
  exact if_pos (Nat.lt_of_le_of_lt hlen h)

theorem candidate_eq_some {p q : Nat} (hq : q ≤ bits.length) (h : minbits ≤ q - (p + 8)) :
    candidate bits minbits p q = some ⟨p, q + 8, packLsb (destuff (slice bits (p + 8) q))⟩ :=
  if_neg (by rw [slice_length bits hq]; omega)

theorem framesBetween_cons_cons (p q : Nat) (ps : List Nat) :
    framesBetween bits minbits (p :: q :: ps) =
      (candidate bits minbits p q).toList ++ framesBetween bits minbits (q :: ps) := by
  rw [framesBetween]
  cases candidate bits minbits p q <;> rfl

theorem framesBetween_singleton (p : Nat) : framesBetween bits minbits [p] = [] := rfl

/-- The records are those of the consecutive pairs with enough raw bits between them, in order. -/
theorem framesBetween_eq {pos : List Nat} (h : ∀ q ∈ pos, q ≤ bits.length) :
    framesBetween bits minbits pos = ((pos.zip (pos.drop 1)).filter fun p => decide (minbits ≤ p.2 - (p.1 + 8))).map
      fun p => ⟨p.1, p.2 + 8, packLsb (destuff (slice bits (p.1 + 8) p.2))⟩ := by
  induction pos with
  | nil => rfl
  | cons p ps ih =>
    cases ps with
    | nil => rfl
    | cons q ps =>
      obtain ⟨-, htail⟩ := List.forall_mem_cons.mp h
      obtain ⟨hq, -⟩ := List.forall_mem_cons.mp htail
      have hpairs : (p :: q :: ps).zip ((p :: q :: ps).drop 1) = (p, q) :: (q :: ps).zip ((q :: ps).drop 1) := rfl
      rw [framesBetween_cons_cons, ih htail, hpairs, List.filter_cons]
      by_cases hmin : minbits ≤ q - (p + 8)
      · rw [candidate_eq_some hq hmin, if_pos (decide_eq_true hmin)]
        rfl
      · rw [candidate_eq_none (Nat.lt_of_not_le hmin), if_neg (by simpa using hmin)]
        rfl

theorem framesBetween_concat (ps : List Nat) (p q : Nat) :
    framesBetween bits minbits (ps ++ [p] ++ [q]) =
      framesBetween bits minbits (ps ++ [p]) ++ (candidate bits minbits p q).toList := by
  induction ps with
  | nil => simp [framesBetween_cons_cons, framesBetween_singleton]
  | cons p' ps ih =>
    cases ps with
    | nil => simp [framesBetween_cons_cons, framesBetween_singleton]
    | cons q' ps =>
      simp only [List.cons_append] at ih ⊢
      rw [framesBetween_cons_cons, ih, framesBetween_cons_cons, List.append_assoc]

/-- Flags back to back have no bit between them. -/
theorem framesBetween_adjacent (hmin : 1 ≤ minbits) (i n : Nat) : framesBetween bits minbits (List.range' i n 8) = [] := by
  induction n generalizing i with
  | zero => rfl
  | succ n ih =>
    cases n with
    | zero => rfl
    | succ n =>
      rw [List.range'_succ, List.range'_succ, framesBetween_cons_cons, ← List.range'_succ, ih,
        candidate_eq_none (by omega)]
      rfl

end

/-! ## The flags of a built bit sequence (rules R154, R157) -/

theorem hdlcFlag_append (rest : List Bit) : hdlcFlag ++ rest = false :: (List.replicate 6 true ++ false :: rest) := rfl

/-- A flag begins with a zero and six ones. -/
theorem six_ones_prefix_of_take_eq_flag {b : Bit} {bits : List Bit} (h : (b :: bits).take 8 = hdlcFlag) :
    List.replicate 6 true <+: bits := by
  have hflag : hdlcFlag <+: b :: bits := h ▸ List.take_prefix 8 _
  obtain ⟨rest, hrest⟩ := hflag
  rw [hdlcFlag_append] at hrest
  exact ⟨false :: rest, (List.cons.inj hrest).2⟩

section

variable {adv : Nat}

theorem findFlagsFrom_skip (i : Nat) {skipped : List Bit} {n : Nat} (hn : skipped.length = n) (bits : List Bit) :
    findFlagsFrom adv i n (skipped ++ bits) = findFlagsFrom adv (i + n) 0 bits := by
  induction skipped generalizing i n with
  | nil => rw [← hn]; rfl
  | cons b skipped ih =>
    rw [← hn, List.length_cons, List.cons_append, findFlagsFrom, ih _ rfl, Nat.succ_add_eq_add_succ]

/-- Past a flag both advances lead to the bit after it, unless the flag's last bit begins another flag. -/
theorem findFlagsFrom_flag (hadv : adv = 7 ∨ adv = 8) (i : Nat) {rest : List Bit}
    (hrest : ¬ List.replicate 6 true <+: rest) :
    findFlagsFrom adv i 0 (hdlcFlag ++ rest) = i :: findFlagsFrom adv (i + 8) 0 rest := by
  have hfound : findFlagsFrom adv i 0 (hdlcFlag ++ rest) =
      i :: findFlagsFrom adv (i + 1) (adv - 1) (List.replicate 6 true ++ false :: rest) := by
    rw [hdlcFlag_append, findFlagsFrom, if_pos]
    exact List.take_left (l₁ := hdlcFlag)
  rw [hfound]
  rcases hadv with rfl | rfl
  · rw [findFlagsFrom_skip _ (by rfl), findFlagsFrom, if_neg fun h => hrest (six_ones_prefix_of_take_eq_flag h)]
  · rw [List.append_cons, findFlagsFrom_skip _ (by rfl)]

/-- Flags back to back are found one after another. -/
theorem findFlagsFrom_flags (hadv : adv = 7 ∨ adv = 8) (i n : Nat) {rest : List Bit}
    (hrest : ¬ List.replicate 6 true <+: rest) :
    findFlagsFrom adv i 0 ((List.replicate n hdlcFlag).flatten ++ rest) =
      List.range' i n 8 ++ findFlagsFrom adv (i + 8 * n) 0 rest := by
  induction n generalizing i with
  | zero => rfl
  | succ n ih =>
    have hnext : ¬ List.replicate 6 true <+: (List.replicate n hdlcFlag).flatten ++ rest := by
      cases n with
      | zero => exact hrest
      | succ n =>
        rw [List.replicate_succ (a := hdlcFlag), List.flatten_cons, List.append_assoc, hdlcFlag_append]
        exact fun h => absurd (ones_prefix_of_zero (xs := []) h).length_le (by simp)
    rw [List.replicate_succ, List.flatten_cons, List.append_assoc, findFlagsFrom_flag hadv i hnext, ih, List.range'_succ,
      List.cons_append, Nat.mul_add_one, Nat.add_assoc, Nat.add_comm 8]

/-- A body without six ones in a row hides no flag, and the flag after it is found. -/
theorem findFlagsFrom_body (hadv : adv = 7 ∨ adv = 8) (i : Nat) {body : List Bit}
    (hbody : ¬ List.replicate 6 true <:+: body) :
    findFlagsFrom adv i 0 (body ++ hdlcFlag) = [i + body.length] := by
  induction body generalizing i with
  | nil =>
    have hend := findFlagsFrom_flag hadv i (rest := []) (by simp)
    rwa [List.append_nil, findFlagsFrom] at hend
  | cons b body ih =>
    have hno : ¬ (b :: (body ++ hdlcFlag)).take 8 = hdlcFlag := fun h =>
      hbody ((ones_prefix_of_zero (six_ones_prefix_of_take_eq_flag h)).isInfix.trans (List.suffix_cons b body).isInfix)
    rw [List.cons_append, findFlagsFrom, if_neg hno, ih _ fun h => hbody (h.trans (List.suffix_cons b body).isInfix),
      List.length_cons, Nat.succ_add_eq_add_succ]

/-- The search finds the flags of a built bit sequence and no other, whatever the advance. -/
theorem findFlags_hdlcBuild (hadv : adv = 7 ∨ adv = 8) (frame : List Byte) (npre : Nat) :
    findFlags (hdlcBuild frame npre) adv =
      List.range' 0 (npre + 1) 8 ++ [8 * (npre + 1) + (stuff (unpackLsb frame)).length] := by
  have hsix := not_six_ones_infix_stuff (unpackLsb frame)
  have hbody : ¬ List.replicate 6 true <+: stuff (unpackLsb frame) ++ hdlcFlag :=
    fun h => hsix (ones_prefix_of_zero h).isInfix
  rw [hdlcBuild_eq, List.append_assoc, findFlags, findFlagsFrom_flags hadv _ _ hbody, findFlagsFrom_body hadv _ hsix,
    Nat.zero_add]

end

/-- Between the last two flags of a built bit sequence stand the stuffed bits of the frame. -/
theorem slice_hdlcBuild (frame : List Byte) (npre : Nat) :
    slice (hdlcBuild frame npre) (8 * (npre + 1)) (8 * (npre + 1) + (stuff (unpackLsb frame)).length) =
      stuff (unpackLsb frame) := by
  have hflags : (List.replicate (npre + 1) hdlcFlag).flatten.length = 8 * (npre + 1) := by simp [hdlcFlag, Nat.mul_comm]
  rw [slice_add, hdlcBuild_eq, List.append_assoc, ← hflags, List.drop_left, List.take_left]

theorem candidate_hdlcBuild {frame : List Byte} {minbits : Nat} (hmin : minbits ≤ 8 * frame.length) (npre : Nat) :
    let stop := 8 * (npre + 1) + (stuff (unpackLsb frame)).length
    candidate (hdlcBuild frame npre) minbits (8 * npre) stop = some ⟨8 * npre, stop + 8, frame⟩ := by
  intro stop
  have hlong : (unpackLsb frame).length ≤ (stuff (unpackLsb frame)).length := stuffFrom_length_ge 0 _
  rw [unpackLsb_length] at hlong
  have hstop : stop ≤ (hdlcBuild frame npre).length := by rw [hdlcBuild_length]; omega
  rw [candidate_eq_some hstop (by omega), ← Nat.mul_add_one, slice_hdlcBuild, destuff_stuff, packLsb_unpackLsb]

/-- Extraction from a built bit sequence ends with the frame's record (rule R157). -/
theorem extractFrames_hdlcBuild {adv : Nat} (hadv : adv = 7 ∨ adv = 8) {frame : List Byte} {minbits : Nat}
    (hmin : minbits ≤ 8 * frame.length) (npre : Nat) :
    (extractFrames (hdlcBuild frame npre) adv minbits).2 =
      framesBetween (hdlcBuild frame npre) minbits (List.range' 0 (npre + 1) 8) ++
        [⟨8 * npre, 8 * (npre + 1) + (stuff (unpackLsb frame)).length + 8, frame⟩] := by
  rw [extractFrames, findFlags_hdlcBuild hadv, List.range'_concat, framesBetween_concat, Nat.zero_add,
    candidate_hdlcBuild hmin]
  rfl

/-! ## HDLC.FLAGS and HDLC.EXTRACT by their cases (rules R155, R156) -/

section

variable (src : Sel) {s : State}

theorem flagAdvanceLegal_iff {c : Cfg} : flagAdvanceLegal c = true ↔ c.flagAdvance = 7 ∨ c.flagAdvance = 8 := by
  rw [flagAdvanceLegal, Bool.or_eq_true, beq_iff_eq, beq_iff_eq]

theorem not_flagAdvanceLegal (h : s.cfg.flagAdvance ≠ 7 ∧ s.cfg.flagAdvance ≠ 8) : ¬ flagAdvanceLegal s.cfg = true :=
  fun hlegal => (flagAdvanceLegal_iff.mp hlegal).elim h.1 h.2

theorem exec_hdlcFlags_of_illegal (h : s.cfg.flagAdvance ≠ 7 ∧ s.cfg.flagAdvance ≠ 8) :
    exec (.hdlcFlags src) s = raise .config s := if_neg (not_flagAdvanceLegal h)

theorem exec_hdlcExtract_of_illegal (h : s.cfg.flagAdvance ≠ 7 ∧ s.cfg.flagAdvance ≠ 8) :
    exec (.hdlcExtract src) s = raise .config s := if_neg (not_flagAdvanceLegal h)

theorem exec_hdlcFlags_of_legal (h : s.cfg.flagAdvance = 7 ∨ s.cfg.flagAdvance = 8) :
    let pos := findFlags (bbRead src s) s.cfg.flagAdvance
    exec (.hdlcFlags src) s = endWith .ok (setCount 0 pos.length { s with fp := pos }) := if_pos (flagAdvanceLegal_iff.mpr h)

theorem exec_hdlcExtract_of_legal (h : s.cfg.flagAdvance = 7 ∨ s.cfg.flagAdvance = 8) :
    let x := extractFrames (bbRead src s) s.cfg.flagAdvance s.cfg.minFrameBits
    exec (.hdlcExtract src) s =
      endWith .ok (setCount 1 x.1.length (setCount 0 x.2.length { s with fp := x.1, fq := x.2 })) :=
  if_pos (flagAdvanceLegal_iff.mpr h)

end

end Sys2Proof.Machine

namespace Sys2Proof

open Machine

-- Elaborated one after another, to stay below the memory limit.
set_option Elab.async false

/-! ## The obligations -/

/-- Settles O35: `nrziEnc_getD` and `nrziDec_getD` say each bit, and `nrziDec_nrziEnc` is the round trip. -/
theorem nrziBuffers : Obligations.NrziBuffers := by
  intro src dst s bits
  refine ⟨⟨_, _, rfl, bbWritten_of_eq rfl, nrziEnc_length .., fun i hi => nrziEnc_getD true hi, rfl, rfl, fun c => ?_⟩,
    ⟨_, _, rfl, bbWritten_of_eq rfl, nrziDec_length .., fun i hi => nrziDec_getD true hi, rfl, rfl⟩⟩
  have hread : bbRead dst (bbWrite dst (nrziEnc true bits) s) = nrziEnc true bits := bankGet_bankSet_same ..
  refine ⟨_, rfl, (bankGet_bankSet_same ..).trans ?_⟩
  exact (congrArg (nrziDec true) hread).trans (nrziDec_nrziEnc true bits)

/-- Settles O36: `unpackLsb_getD` and `packLsb_getD` say each bit; fewer than eight bits are left over. -/
theorem hdlcPacking : Obligations.HdlcPacking := by
  intro src dst s
  have hleft : (bbRead src s).length % 8 < 2 ^ 32 := by omega
  refine ⟨⟨_, _, rfl, bbWritten_of_eq rfl, unpackLsb_length _, fun j k => unpackLsb_getD, rfl⟩,
    ⟨_, _, rfl, ybWritten_of_eq rfl, packLsb_length _, fun j k => packLsb_getD, ?_, rfl⟩⟩
  rw [← countWord_of_lt s.openTick 0 hleft]
  exact rWritten_of_eq rfl

/-- Settles O37: the runs of stuffed bits by `stuffFrom_runs`, the bits that destuffing keeps by `destuff_eq_kept`. -/
theorem hdlcStuffing : Obligations.HdlcStuffing := by
  refine ⟨fun bits => ?stuffed, fun bits => ?destuffed, fun src dst s => ?operations⟩
  case stuffed =>
    exact ⟨not_six_ones_infix_stuff bits, not_five_ones_suffix_stuff bits, stuffFrom_filter 0 bits, destuff_stuff bits⟩
  case destuffed =>
    intro dropped
    have hdrops : ∀ i ∈ List.range bits.length, (!destuffDrops bits i) = !decide (dropped i) := fun i hi => by
      rw [Bool.eq_iff_iff.mpr ((destuffDrops_iff (List.mem_range.mp hi).le).trans decide_eq_true_iff.symm)]
    exact ⟨(destuff_eq_kept bits).trans (by rw [List.filter_congr hdrops]), destuffFrom_filter 0 bits⟩
  case operations =>
    exact ⟨⟨_, _, rfl, bbWritten_of_eq rfl, rfl, stuffFrom_length_ge 0 _, rWritten_of_eq rfl, rfl⟩,
      ⟨_, _, rfl, bbWritten_of_eq rfl, rfl, destuffFrom_length_le 0 _, rWritten_of_eq rfl, rfl⟩⟩

/-- Settles O39: the search is sound, keeps its distance and misses no flag by more than the advance. -/
theorem hdlcFlags : Obligations.HdlcFlags := by
  intro src s bits adv isFlag
  exact ⟨exec_hdlcFlags_of_illegal src, fun hadv => ⟨_, exec_hdlcFlags_of_legal src hadv,
    fun p hp => flagAt_of_mem_findFlags hp, findFlagsFrom_pairwise .., fun i hi => exists_mem_findFlags (by omega) hi,
    rWritten_of_eq rfl, rfl⟩⟩

/-- Settles O40: `framesBetween_eq`, since a flag found lies within the bits. -/
theorem hdlcExtract : Obligations.HdlcExtract := by
  intro src s bits adv
  have hwithin : ∀ q ∈ findFlags bits adv, q ≤ bits.length := fun q hq => by
    have hle := (flagAt_of_mem_findFlags hq).add_eight_le
    omega
  exact ⟨exec_hdlcExtract_of_illegal src, fun hadv => ⟨_, exec_hdlcExtract_of_legal src hadv, rfl,
    framesBetween_eq hwithin, rWritten_pair_of_eq (by decide) rfl, rfl⟩⟩

/-- Settles O41: `extractFrames_hdlcBuild`, and the preamble's flags have nothing between them. -/
theorem hdlcRoundTrip : Obligations.HdlcRoundTrip := by
  intro f npre adv minbits hadv hmin
  exact ⟨⟨_, _, extractFrames_hdlcBuild hadv hmin npre, rfl, fun hone => framesBetween_adjacent hone 0 (npre + 1)⟩,
    nrziDec_nrziEnc true _⟩

/-- Settles O34. -/
theorem nrziSteps : Obligations.NrziSteps := by
  intro x s
  exact ⟨rfl, ⟨_, rfl, rfl, rWritten_of_eq rfl, rfl⟩, ⟨_, rfl, rfl, rWritten_of_eq rfl, rfl⟩⟩

end Sys2Proof

/-! # CRC-16/X.25 and the frames it guards (43_crc_frame.md) -/

namespace Sys2Proof.Machine

-- Elaborated one after another, to stay below the memory limit.
set_option Elab.async false

/-! ## Bytes and bits of the register (rules R47, R171) -/

/-- Shifting a register with a word added is one bit step with the word's lowest bit, the rest of the word still to come. -/
theorem crcShift_xor (reg v : U16) : crcShift (reg ^^^ v) = crcBit reg (v.getLsbD 0) ^^^ (v >>> 1) := by
  rw [crcShift, crcBit, BitVec.getLsbD_xor, BitVec.ushiftRight_xor_distrib]
  split
  · rw [BitVec.xor_assoc, BitVec.xor_assoc, BitVec.xor_comm crcPoly]
  · rfl

/-- The lowest `n` bits of a word, lowest first: the stream order of rule R44. -/
def lowBits {w : Nat} (n : Nat) (v : BitVec w) : List Bit := (List.range n).map v.getLsbD

theorem byteBits_eq (y : Byte) : byteBits y = lowBits 8 y := rfl

/-- `n` shifts take in the lowest `n` bits of the word that was added. -/
theorem crcShift_iterate_xor (n : Nat) (reg v : U16) :
    crcShift^[n] (reg ^^^ v) = (lowBits n v).foldl crcBit reg ^^^ (v >>> n) := by
  induction n with
  | zero => rw [BitVec.ushiftRight_zero]; rfl
  | succ n ih =>
    have hbit : (v >>> n).getLsbD 0 = v.getLsbD n := BitVec.getLsbD_ushiftRight ..
    have hbits : lowBits (n + 1) v = lowBits n v ++ [v.getLsbD n] := by
      rw [lowBits, List.range_succ, List.map_append]; rfl
    rw [Function.iterate_succ_apply', ih, crcShift_xor, hbit, hbits, List.foldl_append, ← BitVec.shiftRight_add]
    rfl

theorem lowBits_setWidth {w m n : Nat} (v : BitVec w) (h : n ≤ m) : lowBits n (v.setWidth m) = lowBits n v := by
  refine List.map_congr_left fun k hk => ?_
  have hkn := List.mem_range.mp hk
  rw [BitVec.getLsbD_setWidth, decide_eq_true (by omega : k < m), Bool.true_and]

theorem lowBits_add {w : Nat} (m n : Nat) (v : BitVec w) : lowBits (m + n) v = lowBits m v ++ lowBits n (v >>> m) := by
  have hbit : (v >>> m).getLsbD = fun k => v.getLsbD (m + k) := funext fun k => BitVec.getLsbD_ushiftRight ..
  rw [lowBits, List.range_add, List.map_append, List.map_map, lowBits, lowBits, hbit]
  rfl

/-- Once the shifts have taken in all bits of a word, they are the bit steps over them. -/
theorem foldl_crcBit_lowBits {n : Nat} (reg : U16) {v : U16} (h : v.toNat < 2 ^ n) :
    (lowBits n v).foldl crcBit reg = crcShift^[n] (reg ^^^ v) := by
  have hout : v >>> n = 0#16 := BitVec.eq_of_toNat_eq <| by
    rw [BitVec.toNat_ushiftRight, Nat.shiftRight_eq_div_pow, Nat.div_eq_of_lt h]; rfl
  rw [crcShift_iterate_xor, hout, BitVec.xor_zero]

/-- A byte is its eight bits, bit 0 first. -/
theorem crcByte_eq_foldl (reg : U16) (y : Byte) : crcByte reg y = (byteBits y).foldl crcBit reg := by
  have hy : (y.setWidth 16).toNat < 2 ^ 8 := by
    rw [BitVec.toNat_setWidth]
    exact (Nat.mod_le ..).trans_lt y.isLt
  rw [byteBits_eq, ← lowBits_setWidth y (by decide : 8 ≤ 16), foldl_crcBit_lowBits reg hy]
  rfl

/-- A byte sequence is its bits in stream order, for every register value (rule R47). -/
theorem foldl_crcByte (reg : U16) (bytes : List Byte) :
    bytes.foldl crcByte reg = (unpackLsb bytes).foldl crcBit reg := by
  induction bytes generalizing reg with
  | nil => rfl
  | cons y ys ih => rw [List.foldl_cons, ih, crcByte_eq_foldl, unpackLsb_cons, List.foldl_append]

theorem crc16x25_eq_bits (bytes : List Byte) : crc16x25 bytes = ~~~((unpackLsb bytes).foldl crcBit 0xFFFF) := by
  rw [crc16x25, xor_ones, crcRun, foldl_crcByte]

/-! ## The residue (rule R179) -/

/-- Bit 15 after a shift is the bit shifted out: the feedback sets it, and nothing else does. -/
theorem crcShift_getLsbD_top (x : U16) : (crcShift x).getLsbD 15 = x.getLsbD 0 := by
  have htop : (x >>> 1).getLsbD 15 = false := (BitVec.getLsbD_ushiftRight ..).trans (BitVec.getLsbD_of_ge _ _ (by decide))
  rw [crcShift]
  split
  case isTrue hbit => rw [BitVec.getLsbD_xor, htop, hbit]; rfl
  case isFalse hbit => rw [htop, Bool.eq_false_iff.mpr hbit]

/-- A shift keeps the other bits: bit 15 tells whether the feedback was added to them. -/
theorem ushiftRight_eq_of_crcShift (x : U16) :
    x >>> 1 = if (crcShift x).getLsbD 15 then crcShift x ^^^ crcPoly else crcShift x := by
  rw [crcShift_getLsbD_top, crcShift]
  split
  · rw [BitVec.xor_assoc, BitVec.xor_self, BitVec.xor_zero]
  · rfl

theorem crcShift_injective : Function.Injective crcShift := by
  intro x y hxy
  have hshift : x >>> 1 = y >>> 1 := by rw [ushiftRight_eq_of_crcShift x, ushiftRight_eq_of_crcShift y, hxy]
  apply BitVec.eq_of_getLsbD_eq
  intro k hk
  cases k with
  | zero => rw [← crcShift_getLsbD_top, ← crcShift_getLsbD_top, hxy]
  | succ k =>
    have hbit := congrArg (BitVec.getLsbD · k) hshift
    simpa only [BitVec.getLsbD_ushiftRight, Nat.add_comm 1] using hbit

theorem unpackLsb_crcTrailer (c : U16) : unpackLsb (crcTrailer c) = lowBits 16 c := by
  rw [crcTrailer, unpackLsb_cons, unpackLsb_cons, byteBits_eq, byteBits_eq, lowBits_setWidth _ le_rfl,
    lowBits_setWidth _ le_rfl, lowBits_add 8 8]
  rfl

/-- The trailer is the CRC exactly when the register with the trailer added is `0xFFFF`; the sixteen shifts that follow are
injective and take that to the residue. -/
theorem crcRun_append_crcTrailer (d : List Byte) (c : U16) : crcRun (d ++ crcTrailer c) = 0xF0B8 ↔ crc16x25 d = c := by
  have hrun : crcRun (d ++ crcTrailer c) = crcShift^[16] (crcRun d ^^^ c) := by
    rw [crcRun, List.foldl_append, foldl_crcByte _ (crcTrailer c), unpackLsb_crcTrailer, foldl_crcBit_lowBits _ c.isLt]
    rfl
  have hresidue : crcShift^[16] 0xFFFF = 0xF0B8 := by decide +kernel
  rw [hrun, ← hresidue, (crcShift_injective.iterate 16).eq_iff, crc16x25]
  constructor <;> intro h <;> rw [← h, ← BitVec.xor_assoc, BitVec.xor_self, BitVec.zero_xor]

/-! ## The trailer (rules R43, R178, R182) -/

/-- The trailer's bytes as the statements write them. -/
theorem crcTrailer_eq (c : U16) : crcTrailer c = [BitVec.ofNat 8 (c.toNat % 256), BitVec.ofNat 8 (c.toNat / 256)] := by
  have hlo : c.setWidth 8 = BitVec.ofNat 8 (c.toNat % 256) := BitVec.eq_of_toNat_eq <| by
    rw [BitVec.toNat_setWidth, BitVec.toNat_ofNat, Nat.mod_mod]
  have hhi : (c >>> 8).setWidth 8 = BitVec.ofNat 8 (c.toNat / 256) := BitVec.eq_of_toNat_eq <| by
    rw [BitVec.toNat_setWidth, BitVec.toNat_ushiftRight, BitVec.toNat_ofNat, Nat.shiftRight_eq_div_pow]
  rw [crcTrailer, hlo, hhi]

/-- Two bytes are the trailer of the value they hold. -/
theorem crcTrailer_ofNat (lo hi : Byte) : crcTrailer (BitVec.ofNat 16 (lo.toNat + 256 * hi.toNat)) = [lo, hi] := by
  have hlo := lo.isLt
  have hhi := hi.isLt
  have hvalue : (lo.toNat + 256 * hi.toNat) % 2 ^ 16 = lo.toNat + 256 * hi.toNat := by omega
  have hlow : (lo.toNat + 256 * hi.toNat) % 256 = lo.toNat := by omega
  have hhigh : (lo.toNat + 256 * hi.toNat) / 256 = hi.toNat := by omega
  rw [crcTrailer_eq, BitVec.toNat_ofNat, hvalue, hlow, hhigh, BitVec.ofNat_toNat, BitVec.ofNat_toNat, BitVec.setWidth_eq,
    BitVec.setWidth_eq]

/-! ## CRC.CHK by its cases (rules R176, R179) -/

/-- One result register more, none of those written before. -/
theorem RWritten.concat {vs : List (Sel × U32)} {s t u : State} {k : Sel} {v : U32} (h : RWritten vs s t)
    (hk : ∀ p ∈ vs, p.1 ≠ k) (hu : u.r = bankSet t.r k v) : RWritten (vs ++ [(k, v)]) s u := by
  obtain ⟨hwritten, hkept⟩ := h
  rw [RWritten, hu]
  constructor
  · intro p hp
    rcases List.mem_append.mp hp with hp | hp
    · rw [bankGet_bankSet_ne _ _ (hk p hp), hwritten p hp]
    · rw [List.mem_singleton.mp hp, bankGet_bankSet_same]
  · intro j hj
    have hjk : k ≠ j := hj (k, v) (List.mem_append_right _ (List.mem_singleton_self _))
    rw [bankGet_bankSet_ne _ _ hjk.symm]
    exact hkept j fun p hp => hj p (List.mem_append_left _ hp)

/-- Two result registers written are one write of the bank. -/
theorem setR_setR (j k : Sel) (v u : U32) (s : State) :
    setR k u (setR j v s) = { s with r := bankSet (bankSet s.r j v) k u } := rfl

/-- What a check leaves: three result registers, the register value of the CRC computed, and all else as it was. -/
theorem endWith_checked (equal stored computed : U32) (c : U16) (s : State) :
    ∃ t, endWith .ok (setCrc (c ^^^ 0xFFFF) (setR 2 computed (setR 1 stored (setR 0 equal s)))) = .next t ∧
      RWritten [(0, equal), (1, stored), (2, computed)] s t ∧ t.crcReg = ~~~c ∧
      t = { s with r := t.r, crcReg := t.crcReg, status := 0 } := by
  rw [setR_setR]
  have hpair : RWritten [(0, equal), (1, stored)] s { s with r := bankSet (bankSet s.r 0 equal) 1 stored } :=
    rWritten_pair_of_eq (by decide) rfl
  exact ⟨_, rfl, hpair.concat (by simp) rfl, xor_ones c, rfl⟩

theorem bitWord_beq (x y : U16) : bitWord (x == y) = if x = y then 1 else 0 := by
  simp only [bitWord, beq_iff_eq]

section

variable {src : Sel} {s : State}

theorem exec_crcChk_of_short (h : (ybRead src s).length < 2) : exec (.crcChk src) s = raise .none s := if_pos h

/-- With two bytes or more, `CRC.CHK` compares the last two with the CRC of the others. -/
theorem exec_crcChk_of_append {body : List Byte} {lo hi : Byte} {stored computed : U16}
    (h : ybRead src s = body ++ [lo, hi]) (hstored : stored = BitVec.ofNat 16 (lo.toNat + 256 * hi.toNat))
    (hcomputed : computed = crc16x25 body) :
    exec (.crcChk src) s = endWith .ok (setCrc (computed ^^^ 0xFFFF)
      (setR 2 (computed.setWidth 32) (setR 1 (stored.setWidth 32) (setR 0 (if computed = stored then 1 else 0) s)))) := by
  have hlong : ¬ (ybRead src s).length < 2 := by rw [h, List.length_append]; exact Nat.not_lt.mpr (Nat.le_add_left ..)
  have hbody : withoutTrailer (ybRead src s) = body := by rw [h, withoutTrailer_append]
  rw [← bitWord_beq, hstored, hcomputed, ← storedCrc_append body, ← h, ← hbody]
  exact if_neg hlong

end

/-! ## FRM.BUILD's header and FRM.DECODE with FEC off (rules R182, R185, R186) -/

/-- The header's bytes as the statements write them. -/
theorem frameHeader_bytes (flags : Byte) (len : U16) :
    frameHeader flags len = [0x51, 0x52, 0x41, 0x31, 0x01, BitVec.ofNat 8 (flags.toNat % 16),
      BitVec.ofNat 8 (len.toNat / 256), BitVec.ofNat 8 (len.toNat % 256)] := by
  have hflags : flags &&& 0x0F = BitVec.ofNat 8 (flags.toNat % 16) := by
    rw [← and_low_toNat, BitVec.ofNat_toNat, BitVec.setWidth_eq]
  have hlen := crcTrailer_eq len
  simp only [crcTrailer, List.cons.injEq] at hlen
  obtain ⟨hlo, hhi, -⟩ := hlen
  rw [frameHeader_eq, headerBytes, hflags, hlo, hhi]

/-- `FRM.DECODE` of what does not parse writes nothing but `STATUS` (rule R304). -/
theorem execFrmDecode_of_unparsed {src dst : Sel} {s : State} (h : parseFrame (ybRead src s) = none) :
    execFrmDecode src dst s = raise .none s := by
  simp only [execFrmDecode, h]

theorem expectedArea_plain {r : ParsedFrame} (h : flagFec r.flags = false) : expectedArea r = r.len.toNat :=
  if_neg (Bool.eq_false_iff.mp h)

theorem decodeParsed_of_plain_mismatch {f : List Byte} {r : ParsedFrame} (hfec : flagFec r.flags = false)
    (hlen : r.area.length = r.len.toNat) (hcrc : r.computed ≠ r.stored) :
    decodeParsed f r = .fail .integrity r.computed := by
  rw [decodeParsed, if_neg (not_not.mpr (hlen.trans (expectedArea_plain hfec).symm)), hfec, if_neg Bool.false_ne_true,
    if_neg (mt frameCrcOk_iff.mp hcrc)]

end Sys2Proof.Machine

namespace Sys2Proof

open Machine

-- Elaborated one after another, to stay below the memory limit.
set_option Elab.async false

/-! ## The obligations -/

/-- Settles O42: `crcByte_eq_foldl` takes the byte apart. -/
theorem crcSteps : Obligations.CrcSteps := by
  intro x y s
  refine ⟨rfl, rfl, ⟨_, rfl, ?byte, rfl⟩, ⟨_, rfl, ?final, rfl⟩⟩
  case byte =>
    exact (crcByte_eq_foldl ..).trans (congrArg _ (List.append_nil _).symm)
  case final =>
    rw [← xor_ones]
    exact rWritten_of_eq rfl

/-- Settles O43: the trailer by `crcTrailer_eq`, the check by `exec_crcChk_of_append`. -/
theorem crcBuffers : Obligations.CrcBuffers := by
  intro src dst s d c
  refine ⟨⟨_, rfl, rWritten_of_eq rfl, xor_ones c, rfl⟩, ⟨_, rfl, ?trailer, rWritten_of_eq rfl, xor_ones c, rfl⟩,
    exec_crcChk_of_short, fun body lo hi hd => ?checked⟩
  case trailer =>
    rw [← crcTrailer_eq]
    exact ybWritten_of_eq rfl
  case checked =>
    rw [exec_crcChk_of_append hd rfl rfl]
    exact endWith_checked ..

/-- Settles O44: the bits by `crc16x25_eq_bits`, the appended trailer by O43, the residue by `crcRun_append_crcTrailer`. -/
theorem crcLaws : Obligations.CrcLaws := by
  refine ⟨crc16x25_eq_bits, by decide +kernel, fun a b s => ?appended, fun d lo hi => ?residue⟩
  case appended =>
    obtain ⟨-, ⟨t, happend, ⟨hread, -⟩, -⟩, -⟩ := crcBuffers a b s
    obtain ⟨-, -, -, hchecked⟩ := crcBuffers b b t
    obtain ⟨u, hcheck, ⟨hwritten, -⟩, -⟩ := hchecked _ _ _ hread
    refine ⟨t, u, happend, hcheck, (hwritten _ (List.mem_cons_self ..)).trans (if_pos ?_)⟩
    rw [← storedCrc_append (ybRead a s), ← crcTrailer_eq, crcTrailer, storedCrc_append, joinBytes_bytes]
  case residue =>
    have hlo := lo.isLt
    have hhi := hi.isLt
    rw [← crcTrailer_ofNat lo hi, crcRun_append_crcTrailer, ← BitVec.toNat_inj, BitVec.toNat_ofNat,
      Nat.mod_eq_of_lt (by omega)]

/-- Settles O45. -/
theorem frmBuild : Obligations.FrmBuild := by
  intro src dst s
  rw [← frameHeader_bytes]
  intro h c
  refine ⟨_, rfl, ?_, rWritten_of_eq rfl, xor_ones c, rfl⟩
  rw [← crcTrailer_eq]
  exact ybWritten_of_eq rfl

/-- Settles O48, case by case of the checks in their order: the parse, the area's length, the CRC. -/
theorem frmDecodePlain : Obligations.FrmDecodePlain := by
  intro src dst s f
  refine ⟨fun hnone => ?unparsed, fun r hparse hfec => ?parsed⟩
  case unparsed =>
    exact execFrmDecode_of_unparsed hnone
  case parsed =>
    by_cases hlen : r.area.length = r.len.toNat
    case neg =>
      have hfail := decodeParsed_of_length_ne (f := f) (expectedArea_plain hfec ▸ hlen)
      exact ⟨_, execFrmDecode_of_fail hparse hfail, rfl, xor_ones _, fun _ => rfl, fun h => absurd h hlen,
        fun h => absurd h hlen⟩
    case pos =>
      by_cases hcrc : r.computed = r.stored
      case neg =>
        have hfail := decodeParsed_of_plain_mismatch (f := f) hfec hlen hcrc
        exact ⟨_, execFrmDecode_of_fail hparse hfail, rfl, xor_ones _, fun h => absurd hlen h, fun _ _ => rfl,
          fun _ h => absurd h hcrc⟩
      case pos =>
        have hpayload := decodeParsed_of_plain (f := f) hfec hlen hcrc
        obtain ⟨t, hexec, hreg, hyb, hr, hsyn, -, ht⟩ := execFrmDecode_of_payload (dst := dst) hparse hpayload
        have hparsed : t.parsed = parsedRegs r := congrArg State.parsed ht
        have hlt := r.len.isLt
        rw [countWord_of_lt _ _ (by omega)] at hr
        refine ⟨t, hexec, hparsed, hreg, fun h => absurd hlen h, fun _ h => absurd hcrc h, fun _ _ => ⟨hyb, hr, ?_⟩⟩
        rw [hsyn rfl, ← hparsed] at ht
        exact ht

end Sys2Proof

/-! # GF(256) as the field of polynomials modulo `0x11D` (44_gf256.md): its laws, tables and operations -/

namespace Sys2Proof.Machine

-- Elaborated one after another, to stay below the memory limit.
set_option Elab.async false

/-! ## Logarithms and inverses (rules R202, R203) -/

theorem logEntry_lt {a : Byte} (h : a ≠ 0) : logEntry a < 255 := by
  obtain ⟨n, rfl⟩ := (eq_zero_or_expEntry a).resolve_left h
  rw [logEntry_expEntry]
  exact Nat.mod_lt n (by decide)

/-- The logarithms of a byte and of its inverse add up to 255, and `EXP[255] = 1`. -/
theorem gfMul_gfInv {a : Byte} (h : a ≠ 0) : gfMul a (gfInv a) = 1 := by
  have hlog : logEntry a + (255 - logEntry a) = 255 := Nat.add_sub_cancel' (logEntry_lt h).le
  calc gfMul a (gfInv a) = gfMul (expEntry (logEntry a)) (expEntry (255 - logEntry a)) := by
        rw [expEntry_logEntry h, gfInv]
    _ = expEntry 255 := by rw [expEntry_gfMul_expEntry, hlog]
    _ = 1 := rfl

/-! ## The product by shift and add (rules R200, R203) -/

theorem gfDouble_eq_gfMul (a : Byte) : gfDouble a = gfMul a (expEntry 1) := (gfMul_expEntry a 1).symm

theorem gfMul_gfDouble (a b : Byte) : gfMul a (gfDouble b) = gfDouble (gfMul a b) := by
  rw [gfDouble_eq_gfMul, gfDouble_eq_gfMul, gfMul_assoc]

/-- A bit as a coefficient selects the other factor or 0. -/
theorem gfMul_ite_one (a : Byte) (bit : Bool) : gfMul a (if bit then 1 else 0) = if bit then a else 0 := by
  cases bit
  · exact gfMul_zero a
  · exact gfMul_one a

/-- Without its bit 7 a byte is doubled by the shift alone. -/
theorem gfDouble_of_top_clear {a : Byte} (h : a.getLsbD 7 = false) : gfDouble a = a <<< 1 := by
  rw [gfDouble, h]
  exact BitVec.xor_zero

/-- The bits of a byte from bit `k` on are the double of those from bit `k + 1` on, with bit `k` added. -/
theorem shiftRight_eq_gfDouble (b : Byte) (k : Nat) :
    b >>> k = gfAdd (gfDouble (b >>> (k + 1))) (if b.getLsbD k then 1 else 0) := by
  have htop : (b >>> (k + 1)).getLsbD 7 = false := by
    rw [BitVec.getLsbD_ushiftRight]
    exact BitVec.getLsbD_of_ge _ _ (by omega)
  have hbit : ∀ i, (if b.getLsbD k then (1 : Byte) else 0).getLsbD i = (decide (i = 0) && b.getLsbD k) := by
    intro i
    cases b.getLsbD k <;> simp
  rw [gfDouble_of_top_clear htop, gfAdd]
  refine BitVec.eq_of_getLsbD_eq fun i hi => ?_
  rw [BitVec.getLsbD_xor, hbit, BitVec.getLsbD_shiftLeft, BitVec.getLsbD_ushiftRight, BitVec.getLsbD_ushiftRight]
  cases i with
  | zero => simp
  | succ i => simp [hi, Nat.add_assoc, Nat.add_comm 1]

theorem shiftAddMul_succ (a b : Byte) (n : Nat) :
    shiftAddMul a b (n + 1) =
      gfAdd (gfDouble (shiftAddMul a b n)) (if b.getLsbD (7 - n) then a else 0) := by
  have hdouble : ∀ x : Byte, (if x.getLsbD 7 then (x <<< 1) ^^^ 0x1D else x <<< 1) = gfDouble x := by
    intro x
    unfold gfDouble
    split
    · rfl
    · exact BitVec.xor_zero.symm
  rw [shiftAddMul, hdouble]
  split
  · rfl
  · exact (gfAdd_zero _).symm

/-- After `n` steps, shift and add has multiplied by the `n` highest bits. -/
theorem shiftAddMul_eq_gfMul_shiftRight (a b : Byte) {n : Nat} (h : n ≤ 8) :
    shiftAddMul a b n = gfMul a (b >>> (8 - n)) := by
  induction n with
  | zero =>
    have hzero : b >>> (8 - 0) = 0 := BitVec.ushiftRight_eq_zero le_rfl
    rw [hzero, gfMul_zero]
    rfl
  | succ n ih =>
    have hpos : 8 - n = 7 - n + 1 := by omega
    have hnext : 8 - (n + 1) = 7 - n := by omega
    rw [shiftAddMul_succ, ih (by omega), hpos, hnext, shiftRight_eq_gfDouble b (7 - n), gfMul_gfAdd, gfMul_gfDouble,
      gfMul_ite_one]

/-- The product by tables is the polynomial product modulo `0x11D`. -/
theorem gfMul_eq_shiftAddMul (a b : Byte) : gfMul a b = shiftAddMul a b 8 :=
  (shiftAddMul_eq_gfMul_shiftRight a b le_rfl).symm

/-! ## The generator polynomial (45_reed_solomon.md rule R221) -/

/-- Multiplying the factors out, one at a time, gives the listing of `GEN`. -/
theorem genTable_eq_product :
    genTable = (List.range 32).foldl (fun g i => polyAdd (0 :: g) (g.map (gfMul (expEntry i)))) [1] := by
  decide +kernel

/-! ## The operations that refuse 0 (rules R206, R208) -/

section

variable {a : Byte} (s : State)

theorem exec_gfInv_of_ne_zero (h : a ≠ 0) :
    exec (.gfInv a) s = endWith .ok (setR 0 ((gfInv a).setWidth 32) s) := if_neg h

theorem exec_gfLog_of_ne_zero (h : a ≠ 0) :
    exec (.gfLog a) s = endWith .ok (setR 0 (BitVec.ofNat 32 (logEntry a)) s) := if_neg h

end

/-- What an operation that writes one result register and ends with `OK` leaves. -/
theorem endWith_setR (k : Sel) (v : U32) (s : State) :
    ∃ t, endWith .ok (setR k v s) = .next t ∧ RWritten [(k, v)] s t ∧ t = { s with r := t.r, status := 0 } :=
  ⟨_, rfl, rWritten_of_eq rfl, rfl⟩

end Sys2Proof.Machine

namespace Sys2Proof

open Machine

-- Elaborated one after another, to stay below the memory limit.
set_option Elab.async false

/-! ## The obligations -/

/-- Settles O51: each operation is one write of `R0`, its value by the laws of the field. -/
theorem gfOperations : Obligations.GfOperations := by
  intro a b i s
  refine ⟨endWith_setR .., ?mul, rfl, fun ha => ?inv, endWith_setR .., rfl, fun ha => ?log⟩
  case mul =>
    rw [← gfMul_eq_shiftAddMul]
    exact endWith_setR ..
  case inv =>
    obtain ⟨t, hexec, hwritten, ht⟩ := endWith_setR 0 ((gfInv a).setWidth 32) s
    have hproduct : shiftAddMul a (gfInv a) 8 = 1 := gfMul_eq_shiftAddMul a (gfInv a) ▸ gfMul_gfInv ha
    exact ⟨t, gfInv a, (exec_gfInv_of_ne_zero s ha).trans hexec, hproduct, hwritten, ht⟩
  case log =>
    obtain ⟨t, hexec, hwritten, ht⟩ := endWith_setR 0 (BitVec.ofNat 32 (logEntry a)) s
    exact ⟨t, logEntry a, (exec_gfLog_of_ne_zero s ha).trans hexec, logEntry_lt ha, expEntry_logEntry ha, hwritten, ht⟩

/-- Settles O52: `EXP` repeats after 255 entries, so that its recurrence holds at every index; `GEN` by `genTable_eq_product`. -/
theorem tables : Obligations.Tables := by
  refine ⟨rfl, fun i _ => expEntry_succ i, fun i => ?period, fun i hi => ?inverse, genTable_eq_product⟩
  case period =>
    rw [← expEntry_mod, Nat.add_mod_right, expEntry_mod]
  case inverse =>
    rw [logEntry_expEntry, Nat.mod_eq_of_lt hi]

/-- Settles O53: a byte is 0 or a power of `alpha`, and multiplying by a power is repeated doubling. -/
theorem gfField : Obligations.GfField := fun a b c =>
  ⟨gfMul_eq_shiftAddMul a b, gfMul_comm a b, gfMul_assoc a b c, gfMul_gfAdd a b c, gfAdd_self a, gfMul_one a, gfMul_zero a,
    gfMul_gfInv⟩

end Sys2Proof

/-! # Linear recurrences and sums of powers over a field

What the block decoder of 45_reed_solomon.md rule R228 rests on, for any field: the Berlekamp-Massey invariant and the sums of
powers that syndromes are. -/

namespace Sys2Proof

open Polynomial Finset

-- Elaborated one after another, to stay below the memory limit.
set_option Elab.async false

section

variable {F : Type} [Field F] {S A B T : F[X]} {n L v : Nat} {b : F}

/-! ## Recurrences -/

/-- `A` of degree at most `L` is a recurrence for the coefficients of `S` up to `n`: those of the product beyond `L` are zero. -/
structure Recurs (S : F[X]) (n : Nat) (A : F[X]) (L : Nat) : Prop where
  degree_le : A.natDegree ≤ L
  coeff_zero : ∀ j, L < j → j ≤ n → (A * S).coeff j = 0

theorem coeff_mul_eq_sum (hA : A.natDegree ≤ L) (hL : L ≤ n) (S : F[X]) :
    (A * S).coeff n = ∑ i ∈ range (L + 1), A.coeff i * S.coeff (n - i) := by
  rw [coeff_mul, Nat.sum_antidiagonal_eq_sum_range_succ fun i j => A.coeff i * S.coeff j]
  refine (sum_subset (range_mono (by omega)) fun i _ hi => ?_).symm
  rw [coeff_eq_zero_of_natDegree_lt (by rw [mem_range] at hi; omega), zero_mul]

/-- Two recurrences that are short together continue alike: where one holds one place further, so does the other. -/
theorem Recurs.coeff_succ_eq_zero (hA : Recurs S n A L) (hB : Recurs S (n + 1) B v) (hB0 : B.coeff 0 = 1) (h : L + v ≤ n) :
    (A * S).coeff (n + 1) = 0 := by
  have hzero : (A * (B * S)).coeff (n + 1) = 0 := by
    rw [coeff_mul_eq_sum hA.degree_le (by omega)]
    refine sum_eq_zero fun i hi => ?_
    rw [mem_range] at hi
    rw [hB.coeff_zero _ (by omega) (by omega), mul_zero]
  have hfirst : (B * (A * S)).coeff (n + 1) = (A * S).coeff (n + 1) := by
    rw [coeff_mul_eq_sum hB.degree_le (by omega), sum_range_succ', hB0, one_mul, Nat.sub_zero, add_eq_right]
    refine sum_eq_zero fun i hi => ?_
    rw [mem_range] at hi
    rw [hA.coeff_zero _ (by omega) (by omega), mul_zero]
  rw [← hfirst, mul_left_comm, hzero]

theorem Recurs.succ (h : Recurs S n A L) (hzero : L < n + 1 → (A * S).coeff (n + 1) = 0) : Recurs S (n + 1) A L := by
  refine ⟨h.degree_le, fun j hL hj => ?_⟩
  rcases Nat.le_succ_iff.mp hj with hj | rfl
  · exact h.coeff_zero j hL hj
  · exact hzero hL

theorem Recurs.mono {M : Nat} (h : Recurs S n A L) (hL : L ≤ M) : Recurs S n A M :=
  ⟨h.degree_le.trans hL, fun j hM hj => h.coeff_zero j (hL.trans_lt hM) hj⟩

theorem Recurs.add_C_mul (hA : Recurs S n A L) (hB : Recurs S n B L) (c : F) : Recurs S n (A + C c * B) L := by
  refine ⟨(natDegree_add_le _ _).trans (max_le hA.degree_le ((natDegree_C_mul_le _ _).trans hB.degree_le)), fun j hL hj => ?_⟩
  rw [add_mul, coeff_add, mul_assoc, coeff_C_mul, hA.coeff_zero j hL hj, hB.coeff_zero j hL hj, mul_zero, add_zero]

theorem Recurs.X_mul (h : Recurs S n A L) : Recurs S (n + 1) (X * A) (L + 1) := by
  refine ⟨natDegree_mul_le.trans (by rw [natDegree_X]; have := h.degree_le; omega), fun j hL hj => ?_⟩
  obtain ⟨j, rfl⟩ := Nat.exists_eq_add_of_lt (Nat.zero_lt_of_lt hL)
  rw [Nat.zero_add, mul_assoc, coeff_X_mul]
  exact h.coeff_zero j (by omega) (by omega)

/-! ## The Berlekamp-Massey iteration (rule R228 step 1) -/

/-- `A` with the multiple of `T` subtracted that removes its next coefficient, where that of `T` is `b`. -/
noncomputable def masseyCorrect (S : F[X]) (n : Nat) (A T : F[X]) (b : F) : F[X] :=
  A + C (-((A * S).coeff (n + 1) / b)) * T

/-- The invariant of the iteration after `n` coefficients: `A` is a recurrence of length `L`, and the correction term `T` is one
of the length `n + 1 - L` that fails at the next place, by `b`. -/
structure MasseyInv (S : F[X]) (n : Nat) (A : F[X]) (L : Nat) (T : F[X]) (b : F) : Prop where
  length_le : L ≤ n
  const : A.coeff 0 = 1
  recurs : Recurs S n A L
  const_correction : T.coeff 0 = 0
  correction : Recurs S n T (n + 1 - L)
  fails : (T * S).coeff (n + 1) = b
  ne_zero : b ≠ 0

namespace MasseyInv

theorem start (hS : S.coeff 0 = 1) : MasseyInv S 0 1 0 X 1 where
  length_le := le_rfl
  const := coeff_one_zero
  recurs := ⟨natDegree_one.le, fun _ h h0 => absurd h (Nat.not_lt.mpr h0)⟩
  const_correction := coeff_X_zero
  correction := ⟨natDegree_X_le, fun j h h0 => by omega⟩
  fails := (coeff_X_mul _ _).trans hS
  ne_zero := one_ne_zero

variable (h : MasseyInv S n A L T b)

include h

/-- No discrepancy: the recurrence stays. -/
theorem keep (hd : (A * S).coeff (n + 1) = 0) : MasseyInv S (n + 1) A L (X * T) b where
  length_le := h.length_le.trans (Nat.le_succ n)
  const := h.const
  recurs := h.recurs.succ fun _ => hd
  const_correction := by rw [mul_coeff_zero, coeff_X_zero, zero_mul]
  correction := by
    have hlen : n + 1 + 1 - L = n + 1 - L + 1 := by have := h.length_le; omega
    exact hlen ▸ h.correction.X_mul
  fails := by rw [mul_assoc, coeff_X_mul, h.fails]
  ne_zero := h.ne_zero

/-- The correction removes the discrepancy. -/
theorem corrected {M : Nat} (hL : L ≤ M) (hM : n + 1 - L ≤ M) :
    (masseyCorrect S n A T b).coeff 0 = 1 ∧ Recurs S (n + 1) (masseyCorrect S n A T b) M := by
  unfold masseyCorrect
  constructor
  · rw [coeff_add, coeff_C_mul, h.const, h.const_correction, mul_zero, add_zero]
  · refine ((h.recurs.mono hL).add_C_mul (h.correction.mono hM) _).succ fun _ => ?_
    rw [add_mul, coeff_add, mul_assoc, coeff_C_mul, h.fails, neg_mul, div_mul_cancel₀ _ h.ne_zero, add_neg_cancel]

/-- A discrepancy that the length allows for: the recurrence is corrected. -/
theorem correct (hL : n < 2 * L) : MasseyInv S (n + 1) (masseyCorrect S n A T b) L (X * T) b where
  length_le := h.length_le.trans (Nat.le_succ n)
  const := (h.corrected le_rfl (by omega)).1
  recurs := (h.corrected le_rfl (by omega)).2
  const_correction := by rw [mul_coeff_zero, coeff_X_zero, zero_mul]
  correction := by
    have hlen : n + 1 + 1 - L = n + 1 - L + 1 := by have := h.length_le; omega
    exact hlen ▸ h.correction.X_mul
  fails := by rw [mul_assoc, coeff_X_mul, h.fails]
  ne_zero := h.ne_zero

/-- A discrepancy that needs a longer recurrence: the old one becomes the next correction term. -/
theorem lengthen (hL : 2 * L ≤ n) (hd : (A * S).coeff (n + 1) ≠ 0) :
    MasseyInv S (n + 1) (masseyCorrect S n A T b) (n + 1 - L) (X * A) ((A * S).coeff (n + 1)) where
  length_le := Nat.sub_le ..
  const := (h.corrected (by omega) le_rfl).1
  recurs := (h.corrected (by omega) le_rfl).2
  const_correction := by rw [mul_coeff_zero, coeff_X_zero, zero_mul]
  correction := by
    have hlen : n + 1 + 1 - (n + 1 - L) = L + 1 := by omega
    exact hlen ▸ h.recurs.X_mul
  fails := by rw [mul_assoc, coeff_X_mul]
  ne_zero := hd

/-- A discrepancy means that every recurrence one place further is at least `n + 1 - L` long. -/
theorem length_of_discrepancy (hd : (A * S).coeff (n + 1) ≠ 0) (hB : Recurs S (n + 1) B v) (hB0 : B.coeff 0 = 1) :
    n + 1 - L ≤ v := by
  by_contra hlong
  exact hd (h.recurs.coeff_succ_eq_zero hB hB0 (by omega))

end MasseyInv

end

/-! ## Sums of powers -/

section

variable {ι : Type} {F : Type} [Field F] {s : Finset ι} {x y : ι → F} {S A : F[X]} {n L : Nat}

/-- Weights whose sums of powers of distinct numbers are zero, as many sums as numbers, are zero. -/
theorem eq_zero_of_powerSums (hx : Set.InjOn x s) {w : ι → F} (h : ∀ i < s.card, ∑ p ∈ s, w p * x p ^ i = 0) :
    ∀ p ∈ s, w p = 0 := by
  let e := s.equivFin
  have hinj : Function.Injective fun k => x (e.symm k) := fun j k hjk =>
    e.symm.injective (Subtype.ext (hx (e.symm j).2 (e.symm k).2 hjk))
  have hzero : (fun k => w (e.symm k)) = 0 := by
    refine Matrix.eq_zero_of_forall_pow_sum_mul_pow_eq_zero hinj fun i => ?_
    rw [e.symm.sum_comp fun p : s => w p * x p ^ i.val, ← h i.val i.isLt]
    exact sum_coe_sort s fun p => w p * x p ^ i.val
  intro p hp
  have hp' := congrFun hzero (e ⟨p, hp⟩)
  rwa [e.symm_apply_apply] at hp'

/-- The coefficients of `S` from the second to that of `X^n` are the sums of powers of `x`, weighted with `y`. -/
def SumsPowers (s : Finset ι) (x y : ι → F) (n : Nat) (S : F[X]) : Prop :=
  ∀ j < n, S.coeff (j + 1) = ∑ p ∈ s, y p * x p ^ j

/-- The coefficients of a product with sums of powers are sums of powers, each weighted with the value at the inverse. -/
theorem SumsPowers.coeff_mul (h : SumsPowers s x y n S) (hx : ∀ p ∈ s, x p ≠ 0) (hA : A.natDegree ≤ L) {j : Nat} (hL : L ≤ j)
    (hj : j < n) : (A * S).coeff (j + 1) = ∑ p ∈ s, y p * A.eval (x p)⁻¹ * x p ^ j := by
  have hterm : ∀ i ∈ range (L + 1), A.coeff i * S.coeff (j + 1 - i) = ∑ p ∈ s, A.coeff i * (y p * x p ^ (j - i)) := by
    intro i hi
    have hi' := mem_range.mp hi
    rw [Nat.sub_add_comm (by omega), h _ (by omega), mul_sum]
  rw [coeff_mul_eq_sum hA (by omega), sum_congr rfl hterm, sum_comm]
  refine sum_congr rfl fun p hp => ?_
  rw [eval_eq_sum_range' (Nat.lt_succ_of_le hA), mul_sum, sum_mul]
  refine sum_congr rfl fun i hi => ?_
  have hpow : x p ^ j = x p ^ (j - i) * x p ^ i := by
    rw [← pow_add, Nat.sub_add_cancel (by have := mem_range.mp hi; omega)]
  have hinv : (x p)⁻¹ ^ i * x p ^ i = 1 := by rw [← mul_pow, inv_mul_cancel₀ (hx p hp), one_pow]
  calc A.coeff i * (y p * x p ^ (j - i)) = y p * A.coeff i * x p ^ (j - i) * ((x p)⁻¹ ^ i * x p ^ i) := by rw [hinv]; ring
    _ = y p * (A.coeff i * (x p)⁻¹ ^ i) * x p ^ j := by rw [hpow]; ring

/-- The polynomial with a root at the inverse of each of the numbers. -/
noncomputable def rootsAtInverses (s : Finset ι) (x : ι → F) : F[X] := ∏ p ∈ s, (1 - C (x p) * X)

theorem rootsAtInverses_coeff_zero (s : Finset ι) (x : ι → F) : (rootsAtInverses s x).coeff 0 = 1 := by
  rw [rootsAtInverses, coeff_zero_prod]
  exact prod_eq_one fun p _ => by simp

theorem rootsAtInverses_natDegree_le (s : Finset ι) (x : ι → F) : (rootsAtInverses s x).natDegree ≤ s.card := by
  refine (natDegree_prod_le ..).trans ((sum_le_card_nsmul s _ 1 fun p _ => ?_).trans_eq (Nat.mul_one _))
  exact (natDegree_sub_le ..).trans
    (max_le (natDegree_one.trans_le (Nat.zero_le 1)) ((natDegree_C_mul_le ..).trans natDegree_X_le))

theorem rootsAtInverses_eval {p : ι} (hp : p ∈ s) (hx : x p ≠ 0) : (rootsAtInverses s x).eval (x p)⁻¹ = 0 := by
  rw [rootsAtInverses, eval_prod]
  exact prod_eq_zero hp (by simp [hx])

/-- It is a recurrence for the sums of powers. -/
theorem SumsPowers.recurs_rootsAtInverses (h : SumsPowers s x y n S) (hx : ∀ p ∈ s, x p ≠ 0) :
    Recurs S n (rootsAtInverses s x) s.card := by
  refine ⟨rootsAtInverses_natDegree_le s x, fun j hL hj => ?_⟩
  obtain ⟨j, rfl⟩ := Nat.exists_eq_add_of_lt (Nat.zero_lt_of_lt hL)
  rw [Nat.zero_add, h.coeff_mul hx (rootsAtInverses_natDegree_le s x) (by omega) (by omega)]
  exact sum_eq_zero fun p hp => by rw [rootsAtInverses_eval hp (hx p hp), mul_zero, zero_mul]

/-- A recurrence no longer than the number of summands, over twice as many sums, has a root at each inverse. -/
theorem SumsPowers.eval_recurs (h : SumsPowers s x y n S) (hx : ∀ p ∈ s, x p ≠ 0) (hinj : Set.InjOn x s)
    (hy : ∀ p ∈ s, y p ≠ 0) (hA : Recurs S n A L) (hn : L + s.card ≤ n) : ∀ p ∈ s, A.eval (x p)⁻¹ = 0 := by
  have hzero : ∀ p ∈ s, y p * A.eval (x p)⁻¹ * x p ^ L = 0 := by
    refine eq_zero_of_powerSums hinj fun i hi => ?_
    have hcoeff := hA.coeff_zero (L + i + 1) (by omega) (by omega)
    rw [h.coeff_mul hx hA.degree_le (by omega) (by omega)] at hcoeff
    simpa only [mul_assoc, pow_add] using hcoeff
  intro p hp
  have hp' := hzero p hp
  rw [mul_eq_zero, mul_eq_zero] at hp'
  exact (hp'.resolve_right (pow_ne_zero L (hx p hp))).resolve_left (hy p hp)

/-- Such a recurrence with constant term 1 has the number of summands as its length and degree, and no other roots. -/
theorem SumsPowers.recurs_unique (h : SumsPowers s x y n S) (hx : ∀ p ∈ s, x p ≠ 0) (hinj : Set.InjOn x s)
    (hy : ∀ p ∈ s, y p ≠ 0) (hA : Recurs S n A L) (hA0 : A.coeff 0 = 1) (hL : L ≤ s.card) (hn : 2 * s.card ≤ n) :
    L = s.card ∧ A.natDegree = s.card ∧ ∀ z, A.eval z = 0 ↔ ∃ p ∈ s, (x p)⁻¹ = z := by
  classical
  have hne : A ≠ 0 := fun h0 => by simp [h0] at hA0
  have hroot := h.eval_recurs hx hinj hy hA (by omega)
  have hcard : (s.image fun p => (x p)⁻¹).card = s.card :=
    card_image_of_injOn fun p hp q hq hpq => hinj hp hq (inv_injective hpq)
  have hsub : (s.image fun p => (x p)⁻¹) ⊆ A.roots.toFinset := fun z hz => by
    obtain ⟨p, hp, rfl⟩ := mem_image.mp hz
    exact Multiset.mem_toFinset.mpr ((mem_roots hne).mpr (hroot p hp))
  have hroots : A.roots.toFinset.card ≤ A.natDegree := (Multiset.toFinset_card_le _).trans (card_roots' A)
  have hle := card_le_card hsub
  have hdeg := hA.degree_le
  have hall := eq_of_subset_of_card_le hsub (by omega)
  refine ⟨by omega, by omega, fun z => ?_⟩
  rw [← IsRoot.def, ← mem_roots hne, ← Multiset.mem_toFinset, ← hall, mem_image]

end

end Sys2Proof

/-! # Reed-Solomon blocks, and the operations over them (45_reed_solomon.md rules R225 to R227, R231 to R233) -/

namespace Sys2Proof.Machine

-- Elaborated one after another, to stay below the memory limit.
set_option Elab.async false

/-! ## Blocks by their number (rules R232, R233) -/

/-- Block `k` of a payload: its bytes from `size * k` on, padded with zeros. -/
theorem byteBlocks_getElem? {size n k : Nat} (hk : k < n) (xs : List Byte) :
    (byteBlocks size n xs)[k]? =
      some ((xs.drop (size * k)).take size ++ List.replicate (size - ((xs.drop (size * k)).take size).length) 0) := by
  induction n generalizing xs k with
  | zero => exact absurd hk (Nat.not_lt_zero k)
  | succ n ih =>
    cases k with
    | zero =>
      rw [byteBlocks, List.getElem?_cons_zero, Nat.mul_zero, List.drop_zero, List.length_take]
      congr 3
      omega
    | succ k =>
      have hdrop : size + size * k = size * (k + 1) := by rw [Nat.mul_add_one, Nat.add_comm]
      rw [byteBlocks, List.getElem?_cons_succ, ih (Nat.lt_of_succ_lt_succ hk), List.drop_drop, hdrop]

/-- Block `k` of blocks of one size, joined. -/
theorem flatten_drop_take {size k : Nat} {bs : List (List Byte)} {b : List Byte} (h : ∀ b ∈ bs, b.length = size)
    (hk : bs[k]? = some b) : (bs.flatten.drop (size * k)).take size = b := by
  induction bs generalizing k with
  | nil => cases hk
  | cons c bs ih =>
    obtain ⟨hc, hbs⟩ := List.forall_mem_cons.mp h
    cases k with
    | zero =>
      obtain rfl : c = b := Option.some.inj hk
      rw [Nat.mul_zero, List.drop_zero, List.flatten_cons, ← hc, List.take_left]
    | succ k =>
      have hdrop : size * (k + 1) = c.length + size * k := by rw [hc, Nat.mul_add_one, Nat.add_comm]
      rw [hdrop, ← List.drop_drop, List.flatten_cons, List.drop_left]
      exact ih hbs hk

/-- Codeword `k` of an encoded payload. -/
theorem rsEncode_block {p : List Byte} {k : Nat} (hk : k < ceilDiv p.length 223) :
    let data := (p.drop (223 * k)).take 223
    ((rsEncode p).drop (255 * k)).take 255 = rsEncodeBlock (data ++ List.replicate (223 - data.length) 0) := by
  intro data
  refine flatten_drop_take (fun b hb => ?_) ?_
  · obtain ⟨d, hd, rfl⟩ := List.mem_map.mp hb
    exact rsEncodeBlock_length (length_of_mem_dataBlocks hd)
  · rw [List.getElem?_map, dataBlocks, byteBlocks_getElem? hk]
    rfl

theorem rsSyndromes_length (r : List Byte) : (rsSyndromes r).length = 32 := by
  rw [rsSyndromes, List.length_map, List.length_range]

/-! ## The number of bytes that differ -/

/-- Counting by index: two lists of one length differ at so many indices. -/
theorem diffCount_eq_range {n : Nat} {xs ys : List Byte} (hx : xs.length = n) (hy : ys.length = n) :
    diffCount xs ys = ((List.range n).filter fun j => xs.getD j 0 != ys.getD j 0).length := by
  have hzip : xs.zip ys = (List.range n).map fun j => (xs.getD j 0, ys.getD j 0) := by
    refine List.ext_getElem (by simp [hx, hy]) fun j h1 h2 => ?_
    have hj : j < n := by simpa using h2
    rw [List.getElem_zip, List.getElem_map, List.getElem_range, List.getD_eq_getElem _ _ (hx ▸ hj),
      List.getD_eq_getElem _ _ (hy ▸ hj)]
  rw [diffCount, hzip, List.filter_map, List.length_map]
  rfl

/-- Differences from an index on are differences of the two ends. -/
theorem diffCount_drop {m n : Nat} {xs ys : List Byte} (hx : xs.length = m + n) (hy : ys.length = m + n) :
    diffCount (xs.drop m) (ys.drop m) =
      ((List.range (m + n)).filter fun j => decide (m ≤ j) && xs.getD j 0 != ys.getD j 0).length := by
  have hbefore : ((List.range m).filter fun j => decide (m ≤ j) && xs.getD j 0 != ys.getD j 0) = [] :=
    List.filter_eq_nil_iff.mpr fun j hj => by simp [Nat.not_le.mpr (List.mem_range.mp hj)]
  rw [diffCount_eq_range (n := n) (by simp [hx]) (by simp [hy]), List.range_add, List.filter_append, hbefore,
    List.nil_append, List.filter_map, List.length_map]
  congr 2
  funext j
  simp

/-! ## A block at a point, term by term (rule R226) -/

/-- A running sum starts at its first value. -/
theorem foldl_gfAdd_eq (f : Nat → Byte) (a : Byte) (js : List Nat) :
    js.foldl (fun acc j => gfAdd acc (f j)) a = gfAdd a (js.foldl (fun acc j => gfAdd acc (f j)) 0) := by
  induction js generalizing a with
  | nil => exact (gfAdd_zero a).symm
  | cons j js ih => rw [List.foldl_cons, List.foldl_cons, ih, ih (gfAdd 0 _), zero_gfAdd, gfAdd_assoc]

/-- Horner's rule computes the sum of `r[j] * x^(len - 1 - j)`. -/
theorem evalBlock_eq_sum (r : List Byte) (x : Byte) :
    evalBlock r x =
      (List.range r.length).foldl (fun acc j => gfAdd acc (gfMul (r.getD j 0) (gfPow x (r.length - 1 - j)))) 0 := by
  induction r with
  | nil => rfl
  | cons y ys ih =>
    have hpow : ∀ j, (y :: ys).length - 1 - (j + 1) = ys.length - 1 - j := fun j => by rw [List.length_cons]; omega
    rw [evalBlock_cons, ih, List.length_cons, List.range_succ_eq_map, List.foldl_cons, List.foldl_map]
    simp only [← List.length_cons (a := y), hpow, List.getD_cons_succ]
    rw [foldl_gfAdd_eq _ (gfAdd 0 _), zero_gfAdd]
    rfl

theorem rsSyndromes_getElem {r : List Byte} (i : Fin 32) :
    (bytes32 (rsSyndromes r))[i] = evalBlock r (expEntry i.val) := by
  have hlist : (bytes32 (rsSyndromes r)).toList[i.val]? = (rsSyndromes r)[i.val]? := by
    rw [bytes32_toList (rsSyndromes_length r)]
  simpa [rsSyndromes] using hlist

theorem allZero_iff {xs : List Byte} : allZero xs = true ↔ ∀ x ∈ xs, x = 0 := by simp [allZero]

/-- The syndromes are all zero when each of them is. -/
theorem allZero_rsSyndromes_iff {r : List Byte} :
    allZero (rsSyndromes r) = true ↔ ∀ i : Fin 32, evalBlock r (expEntry i.val) = 0 := by
  rw [allZero_iff, rsSyndromes, List.forall_mem_map]
  exact ⟨fun h i => h i.val (List.mem_range.mpr i.isLt), fun h i hi => h ⟨i, List.mem_range.mp hi⟩⟩

/-! ## The operations by their cases -/

section

variable {src dst : Sel} {s : State}

theorem exec_rsEncb_of_length_ne (h : (ybRead src s).length ≠ 223) : exec (.rsEncb src dst) s = raise .config s := if_pos h

theorem exec_rsEncb_of_length (h : (ybRead src s).length = 223) :
    exec (.rsEncb src dst) s =
      endWith .ok (setParity (rsParity (ybRead src s)) (ybWrite dst (rsEncodeBlock (ybRead src s)) s)) :=
  if_neg (not_not.mpr h)

theorem exec_rsSyn_of_length_ne (h : (ybRead src s).length ≠ 255) : exec (.rsSyn src) s = raise .config s := if_pos h

theorem exec_rsSyn_of_length (h : (ybRead src s).length = 255) :
    exec (.rsSyn src) s =
      endWith .ok (setR 0 (bitWord (!allZero (rsSyndromes (ybRead src s)))) (setSyndromes (rsSyndromes (ybRead src s)) s)) :=
  if_neg (not_not.mpr h)

theorem exec_rsDecb_of_length_ne (h : (ybRead src s).length ≠ 255) : exec (.rsDecb src dst) s = raise .config s := if_pos h

theorem exec_rsDecb_of_none (h : (ybRead src s).length = 255) (hnone : rsCorrectBlock (ybRead src s) = none) :
    exec (.rsDecb src dst) s = endWith .fecUncorrectable (setSyndromes (rsSyndromes (ybRead src s)) s) := by
  simp only [exec, execRsDecb, hnone]
  exact if_neg (not_not.mpr h)

theorem exec_rsDecb_of_some {c : List Byte} (h : (ybRead src s).length = 255) (hsome : rsCorrectBlock (ybRead src s) = some c) :
    exec (.rsDecb src dst) s =
      endWith .ok (setCount 1 (diffCount (c.drop 223) ((ybRead src s).drop 223))
        (setCount 0 (diffCount c (ybRead src s))
          (ybWrite dst (c.take 223) (setSyndromes (rsSyndromes (ybRead src s)) s)))) := by
  simp only [exec, execRsDecb, hsome]
  exact if_neg (not_not.mpr h)

theorem exec_rsDec_of_length_mod_ne (h : (ybRead src s).length % 255 ≠ 0) : exec (.rsDec src dst) s = raise .none s := if_pos h

theorem exec_rsDec_of_none {bs : List (List Byte)} (hbs : ∀ b ∈ bs, b.length = 255) (harea : ybRead src s = bs.flatten)
    (hnone : correctBlocks bs = none) : exec (.rsDec src dst) s = raise .fecUncorrectable s := by
  have hlen : ¬ (ybRead src s).length % 255 ≠ 0 := by rw [harea, flatten_length_of_forall hbs]; simp
  simp only [exec, execRsDec, harea, codeBlocks_flatten hbs, hnone]
  exact if_neg (harea ▸ hlen)

theorem exec_rsDec_of_some {bs cs : List (List Byte)} (hbs : ∀ b ∈ bs, b.length = 255) (harea : ybRead src s = bs.flatten)
    (hsome : correctBlocks bs = some cs) :
    exec (.rsDec src dst) s =
      endWith .ok (leaveSyndromes bs
        (setCount 1 (changedBytes bs cs) (setCount 0 bs.length (ybWrite dst (blocksData cs) s)))) := by
  have hlen : ¬ (ybRead src s).length % 255 ≠ 0 := by rw [harea, flatten_length_of_forall hbs]; simp
  simp only [exec, execRsDec, harea, codeBlocks_flatten hbs, hsome]
  exact if_neg (harea ▸ hlen)

end

/-! ## What the block decoder answers (rule R228) -/

theorem rsSyndromes_eq_zero_iff {r : List Byte} : rsSyndromes r = List.replicate 32 0 ↔ allZero (rsSyndromes r) = true := by
  rw [List.eq_replicate_iff, allZero_iff]
  exact and_iff_right (rsSyndromes_length r)

/-- Steps 2 to 4 succeed with the block they repair, when as many roots as the degree are found, the magnitudes are solved for
and the repaired block is a codeword. -/
theorem correctAt_eq_some {r syn c fixed : List Byte} {deg : Nat} :
    correctAt r syn c deg = some fixed ↔
      (errorPowers c).length = deg ∧ ∃ e, gaussSolve (errorPowers c).length (magnitudeRows syn (errorPowers c)) = some e ∧
        applyErrors r ((errorPowers c).zip e) = fixed ∧ allZero (rsSyndromes fixed) = true := by
  unfold correctAt
  dsimp only
  rw [ite_not]
  split
  · rename_i hdeg
    cases gaussSolve (errorPowers c).length (magnitudeRows syn (errorPowers c)) with
    | none => simp
    | some e =>
      simp only [hdeg, true_and, Option.some.injEq, exists_eq_left', Option.ite_none_right_eq_some]
      constructor
      · rintro ⟨hzero, rfl⟩
        exact ⟨rfl, hzero⟩
      · rintro ⟨rfl, hzero⟩
        exact ⟨hzero, rfl⟩
  · rename_i hdeg
    simp [hdeg]

theorem rsCorrectBlock_of_codeword {r : List Byte} (h : rsSyndromes r = List.replicate 32 0) : rsCorrectBlock r = some r :=
  if_pos (rsSyndromes_eq_zero_iff.mp h)

/-- A block that is no codeword is corrected when the locator's degree is its length and at most 16, and steps 2 to 4 succeed. -/
theorem rsCorrectBlock_eq_some {r c : List Byte} (h : allZero (rsSyndromes r) = false) :
    rsCorrectBlock r = some c ↔
      polyDegree (findLocator (rsSyndromes r)).c = (findLocator (rsSyndromes r)).l ∧
        polyDegree (findLocator (rsSyndromes r)).c ≤ 16 ∧
        correctAt r (rsSyndromes r) (findLocator (rsSyndromes r)).c (polyDegree (findLocator (rsSyndromes r)).c) = some c := by
  unfold rsCorrectBlock
  dsimp only
  rw [if_neg (by simp [h]), Option.ite_none_left_eq_some, not_or, not_not, Nat.not_lt, and_assoc]

/-! ## A corrected block is near -/

theorem diffCount_cons (x y : Byte) (xs ys : List Byte) :
    diffCount (x :: xs) (y :: ys) = (if x = y then 0 else 1) + diffCount xs ys := by
  by_cases h : x = y <;> simp [diffCount, h, Nat.add_comm]

/-- Replacing one byte makes at most one more difference. -/
theorem diffCount_set_le (xs ys : List Byte) (i : Nat) (v : Byte) : diffCount (xs.set i v) ys ≤ diffCount xs ys + 1 := by
  induction xs generalizing ys i with
  | nil => exact Nat.le_succ _
  | cons x xs ih =>
    cases ys with
    | nil => simp [diffCount]
    | cons y ys =>
      cases i with
      | zero =>
        rw [List.set_cons_zero, diffCount_cons, diffCount_cons]
        split <;> omega
      | succ i =>
        rw [List.set_cons_succ, diffCount_cons, diffCount_cons]
        exact Nat.add_le_add_left (ih ys i) _

theorem diffCount_applyErrors_le (r ys : List Byte) (es : List (Nat × Byte)) :
    diffCount (applyErrors r es) ys ≤ diffCount r ys + es.length := by
  induction es generalizing r with
  | nil => exact le_rfl
  | cons e es ih =>
    calc diffCount (applyErrors r (e :: es)) ys
        ≤ diffCount (r.set (254 - e.1) (gfAdd (r.getD (254 - e.1) 0) e.2)) ys + es.length := ih _
      _ ≤ diffCount r ys + 1 + es.length := Nat.add_le_add_right (diffCount_set_le ..) _
      _ = diffCount r ys + (e :: es).length := by rw [List.length_cons]; omega

/-- The decoder answers a codeword that is within sixteen bytes (rule R229). -/
theorem rsCorrectBlock_sound {r c : List Byte} (h : rsCorrectBlock r = some c) :
    rsSyndromes c = List.replicate 32 0 ∧ diffCount c r ≤ 16 := by
  cases hsyn : allZero (rsSyndromes r) with
  | true =>
    have hzero := rsSyndromes_eq_zero_iff.mpr hsyn
    obtain rfl : r = c := Option.some.inj ((rsCorrectBlock_of_codeword hzero).symm.trans h)
    exact ⟨hzero, (diffCount_self r).trans_le (Nat.zero_le 16)⟩
  | false =>
    obtain ⟨-, hdeg, hcorrect⟩ := (rsCorrectBlock_eq_some hsyn).mp h
    obtain ⟨hcount, e, -, rfl, hcode⟩ := correctAt_eq_some.mp hcorrect
    refine ⟨rsSyndromes_eq_zero_iff.mpr hcode, (diffCount_applyErrors_le ..).trans ?_⟩
    rw [diffCount_self, Nat.zero_add, List.length_zip]
    omega

end Sys2Proof.Machine

/-! # The block decoder (45_reed_solomon.md rules R228, R229) -/

namespace Sys2Proof.Machine

open Polynomial Finset

-- Elaborated one after another, to stay below the memory limit.
set_option Elab.async false

/-! ## Bytes in a field

`BitVec` has sums and products of its own, those of numbers; so polynomials over the field of rule R200 are taken over some
field that bytes are mapped into. -/

/-- A byte as an element of the field of rule R200. -/
@[ext] structure GfElement where
  byte : Byte

/-- The field of rule R200: bytes with `gf_add` and `gf_mul` (rule R203). -/
@[reducible] def gfElementField : Field GfElement :=
  letI : Add GfElement := ⟨fun a b => ⟨gfAdd a.byte b.byte⟩⟩
  letI : Mul GfElement := ⟨fun a b => ⟨gfMul a.byte b.byte⟩⟩
  letI : Neg GfElement := ⟨id⟩
  letI : Inv GfElement := ⟨fun a => if a.byte = 0 then ⟨0⟩ else ⟨gfInv a.byte⟩⟩
  letI : Zero GfElement := ⟨⟨0⟩⟩
  letI : One GfElement := ⟨⟨1⟩⟩
  .ofMinimalAxioms GfElement
    (add_assoc := fun _ _ _ => GfElement.ext (gfAdd_assoc ..))
    (zero_add := fun _ => GfElement.ext (zero_gfAdd _))
    (neg_add_cancel := fun _ => GfElement.ext (gfAdd_self _))
    (mul_assoc := fun _ _ _ => GfElement.ext (gfMul_assoc ..))
    (mul_comm := fun _ _ => GfElement.ext (gfMul_comm ..))
    (one_mul := fun _ => GfElement.ext ((gfMul_comm ..).trans (gfMul_one _)))
    (mul_inv_cancel := fun a ha => by
      have hne : a.byte ≠ 0 := fun h => ha (GfElement.ext h)
      exact (congrArg (a * ·) (if_neg hne)).trans (GfElement.ext (gfMul_gfInv hne)))
    (inv_zero := if_pos rfl)
    (left_distrib := fun _ _ _ => GfElement.ext (gfMul_gfAdd ..))
    (exists_pair_ne := ⟨⟨0⟩, ⟨1⟩, fun h => absurd (congrArg GfElement.byte h) (by decide)⟩)

/-- A one-to-one map of bytes into a field that turns `gf_add` and `gf_mul` into its sum and product. -/
structure InField {F : Type} [Field F] (φ : Byte → F) : Prop where
  injective : Function.Injective φ
  add : ∀ a b, φ (gfAdd a b) = φ a + φ b
  mul : ∀ a b, φ (gfMul a b) = φ a * φ b

theorem exists_inField : ∃ (F : Type) (_ : Field F) (φ : Byte → F), InField φ :=
  letI := gfElementField
  ⟨GfElement, gfElementField, GfElement.mk, fun _ _ => congrArg GfElement.byte, fun _ _ => rfl, fun _ _ => rfl⟩

namespace InField

variable {F : Type} [Field F] {φ : Byte → F} (hφ : InField φ)

include hφ

theorem zero : φ 0 = 0 := by
  have h := hφ.add 0 0
  rw [gfAdd_zero] at h
  exact left_eq_add.mp h

theorem eq_zero_iff {a : Byte} : φ a = 0 ↔ a = 0 := by rw [← hφ.zero, hφ.injective.eq_iff]

theorem one : φ 1 = 1 := by
  have h := hφ.mul 1 1
  rw [gfMul_one] at h
  exact (mul_eq_left₀ (hφ.eq_zero_iff.not.mpr (by decide))).mp h.symm

/-- The field has characteristic 2. -/
theorem two : (2 : F) = 0 := by
  rw [← one_add_one_eq_two, ← hφ.one, ← hφ.add, gfAdd_self, hφ.zero]

theorem neg (z : F) : -z = z := by linear_combination -z * hφ.two

theorem inv {a : Byte} (ha : a ≠ 0) : φ (gfInv a) = (φ a)⁻¹ := by
  refine eq_inv_of_mul_eq_one_right ?_
  rw [← hφ.mul, gfMul_gfInv ha, hφ.one]

theorem sum (f : Nat → Byte) (a : Byte) (n : Nat) :
    φ ((List.range n).foldl (fun acc j => gfAdd acc (f j)) a) = φ a + ∑ j ∈ range n, φ (f j) := by
  induction n with
  | zero => simp
  | succ n ih => rw [List.range_succ, List.foldl_append, List.foldl_cons, List.foldl_nil, hφ.add, ih, sum_range_succ, add_assoc]

theorem exp_pow (p i : Nat) : φ (expEntry p) ^ i = φ (expEntry (p * i)) := by
  induction i with
  | zero =>
    rw [pow_zero, Nat.mul_zero]
    exact hφ.one.symm
  | succ i ih => rw [pow_succ, ih, ← hφ.mul, expEntry_gfMul_expEntry, Nat.mul_add_one]

theorem exp_ne_zero (p : Nat) : φ (expEntry p) ≠ 0 := hφ.eq_zero_iff.not.mpr (expEntry_ne_zero p)

theorem exp_injOn : Set.InjOn (fun p => φ (expEntry p)) (Set.Iio 255) := by
  intro p hp q hq h
  have hlog := congrArg logEntry (hφ.injective h)
  rwa [logEntry_expEntry, logEntry_expEntry, Nat.mod_eq_of_lt hp, Nat.mod_eq_of_lt hq] at hlog

/-- `alpha^(-p)`, as the search for roots writes it. -/
theorem exp_inv {p : Nat} (hp : p < 255) : φ (expEntry ((255 - p) % 255)) = (φ (expEntry p))⁻¹ := by
  refine eq_inv_of_mul_eq_one_right ?_
  rw [expEntry_mod, ← hφ.mul, expEntry_gfMul_expEntry, Nat.add_sub_cancel' hp.le]
  exact hφ.one

end InField

/-! ## Coefficient lists as polynomials -/

section

variable {F : Type} [Field F] {φ : Byte → F}

/-- The polynomial of a coefficient list, index the power of `X`. -/
noncomputable def toPoly (φ : Byte → F) : List Byte → F[X]
  | [] => 0
  | c :: cs => C (φ c) + X * toPoly φ cs

variable (hφ : InField φ)

include hφ

theorem toPoly_coeff (cs : List Byte) (i : Nat) : (toPoly φ cs).coeff i = φ (cs.getD i 0) := by
  induction cs generalizing i with
  | nil => exact hφ.zero.symm
  | cons c cs ih =>
    cases i with
    | zero => simp [toPoly]
    | succ i => simpa [toPoly] using ih i

theorem toPoly_polyAdd (xs ys : List Byte) : toPoly φ (polyAdd xs ys) = toPoly φ xs + toPoly φ ys := by
  induction xs generalizing ys with
  | nil => exact (zero_add _).symm
  | cons x xs ih =>
    cases ys with
    | nil => exact (add_zero _).symm
    | cons y ys => rw [polyAdd, toPoly, toPoly, toPoly, ih, hφ.add, C_add]; ring

theorem toPoly_polyShift (k : Byte) (m : Nat) (xs : List Byte) :
    toPoly φ (polyShift k m xs) = C (φ k) * (X ^ m * toPoly φ xs) := by
  induction m with
  | zero =>
    rw [polyShift, List.replicate_zero, List.nil_append, pow_zero, one_mul]
    induction xs with
    | nil => exact (mul_zero _).symm
    | cons x xs ih => rw [List.map_cons, toPoly, toPoly, ih, hφ.mul, C_mul]; ring
  | succ m ih =>
    rw [polyShift] at ih ⊢
    rw [List.replicate_succ, List.cons_append, toPoly, ih, hφ.zero, C_0]
    ring

theorem toPoly_eval (cs : List Byte) (x : Byte) : (toPoly φ cs).eval (φ x) = φ (polyEval cs x) := by
  induction cs with
  | nil => exact eval_zero.trans hφ.zero.symm
  | cons c cs ih =>
    rw [polyEval, List.foldr_cons, ← polyEval, hφ.add, hφ.mul, ← ih, toPoly]
    simp

/-- `polyDegree` is the degree. -/
theorem toPoly_natDegree (cs : List Byte) : (toPoly φ cs).natDegree = polyDegree cs := by
  induction cs using List.reverseRecOn with
  | nil => exact natDegree_zero
  | append_singleton cs c ih =>
    have hcoeff : ∀ i, (toPoly φ (cs ++ [c])).coeff i = φ ((cs ++ [c]).getD i 0) := toPoly_coeff hφ _
    rw [polyDegree, List.reverse_append, List.reverse_singleton, List.singleton_append, List.dropWhile_cons]
    by_cases hc : c = 0
    · have hsame : toPoly φ (cs ++ [c]) = toPoly φ cs := by
        ext i
        rw [hcoeff, toPoly_coeff hφ, hc]
        congr 1
        simp only [List.getD_eq_getElem?_getD, List.getElem?_append]
        split
        · rfl
        · rename_i hi
          rw [List.getElem?_eq_none (Nat.not_lt.mp hi)]
          cases i - cs.length <;> rfl
      rw [hsame, ih, if_pos (by simp [hc])]
      rfl
    · rw [if_neg (by simpa using hc), List.length_cons, List.length_reverse, Nat.add_sub_cancel]
      refine natDegree_eq_of_le_of_coeff_ne_zero (natDegree_le_iff_coeff_eq_zero.mpr fun i hi => ?_) ?_
      · rw [hcoeff, List.getD_eq_default _ _ (by simp; omega), hφ.zero]
      · rw [hcoeff]
        simpa [hφ.eq_zero_iff] using hc

end

section

variable {F : Type} [Field F] {φ : Byte → F} (hφ : InField φ)

/-! ## The locator (rule R228 step 1) -/

/-- The locator after `n` iterations. -/
def locatorAfter (syn : List Byte) (n : Nat) : Locator := (List.range n).foldl (locatorStep syn) ⟨[1], [1], 0, 1, 1⟩

theorem locatorAfter_succ (syn : List Byte) (n : Nat) :
    locatorAfter syn (n + 1) = locatorStep syn (locatorAfter syn n) n := by
  rw [locatorAfter, List.range_succ, List.foldl_append]
  rfl

theorem findLocator_eq (syn : List Byte) : findLocator syn = locatorAfter syn 32 := rfl

/-- The iteration's invariant for the locator after `n` syndromes, over the syndromes with a 1 put before them. -/
def LocatorAt (φ : Byte → F) (syn : List Byte) (n : Nat) (x : Locator) : Prop :=
  MasseyInv (toPoly φ (1 :: syn)) n (toPoly φ x.c) x.l (X ^ x.m * toPoly φ x.b) (φ x.disc)

include hφ

/-- The discrepancy is the product's next coefficient. -/
theorem discrepancy_eq_coeff {syn : List Byte} {n : Nat} {x : Locator} (h : LocatorAt φ syn n x) :
    φ (discrepancy syn x n) = (toPoly φ x.c * toPoly φ (1 :: syn)).coeff (n + 1) := by
  have hle := h.length_le
  rw [discrepancy, hφ.sum, coeff_mul_eq_sum h.recurs.degree_le (by omega), sum_range_succ', h.const, one_mul, Nat.sub_zero,
    toPoly_coeff hφ, List.getD_cons_succ, add_comm]
  congr 1
  refine sum_congr rfl fun i hi => ?_
  rw [mem_range] at hi
  have hpos : n + 1 - (i + 1) = n - (i + 1) + 1 := by omega
  rw [hφ.mul, toPoly_coeff hφ, toPoly_coeff hφ, hpos, List.getD_cons_succ]

/-- The corrected coefficients of an iteration. -/
theorem toPoly_corrected {syn : List Byte} {n : Nat} {x : Locator} (h : LocatorAt φ syn n x) :
    toPoly φ (polyAdd x.c (polyShift (gfMul (discrepancy syn x n) (gfInv x.disc)) x.m x.b)) =
      masseyCorrect (toPoly φ (1 :: syn)) n (toPoly φ x.c) (X ^ x.m * toPoly φ x.b) (φ x.disc) := by
  rw [toPoly_polyAdd hφ, toPoly_polyShift hφ, masseyCorrect, ← discrepancy_eq_coeff hφ h, hφ.neg, hφ.mul,
    hφ.inv (hφ.eq_zero_iff.not.mp h.ne_zero), div_eq_mul_inv]

/-- One iteration keeps the invariant; the length grows only where there is a discrepancy. -/
theorem locatorStep_spec {syn : List Byte} {n : Nat} {x : Locator} (h : LocatorAt φ syn n x) :
    LocatorAt φ syn (n + 1) (locatorStep syn x n) ∧
      ((locatorStep syn x n).l = x.l ∨
        (locatorStep syn x n).l = n + 1 - x.l ∧ (toPoly φ x.c * toPoly φ (1 :: syn)).coeff (n + 1) ≠ 0) := by
  have hdisc := discrepancy_eq_coeff hφ h
  have hcorrected := toPoly_corrected hφ h
  have hshift : X ^ (x.m + 1) * toPoly φ x.b = X * (X ^ x.m * toPoly φ x.b) := by ring
  unfold locatorStep
  dsimp only
  split
  case isTrue hzero =>
    refine ⟨?_, .inl rfl⟩
    rw [LocatorAt, hshift]
    exact h.keep (hdisc ▸ hφ.eq_zero_iff.mpr hzero)
  case isFalse hne =>
    have hcoeff := hdisc ▸ hφ.eq_zero_iff.not.mpr hne
    split
    case isTrue hlong =>
      refine ⟨?_, .inr ⟨rfl, hcoeff⟩⟩
      rw [LocatorAt, hcorrected, pow_one, hdisc]
      exact h.lengthen hlong hcoeff
    case isFalse hshort =>
      refine ⟨?_, .inl rfl⟩
      rw [LocatorAt, hcorrected, hshift]
      exact h.correct (by omega)

/-- After `n` syndromes the locator is a recurrence, no longer than any that holds for all of them. -/
theorem locatorAfter_spec {syn : List Byte} {N v : Nat} {B : F[X]} (hB : Recurs (toPoly φ (1 :: syn)) N B v) (hB0 : B.coeff 0 = 1)
    {n : Nat} (hn : n ≤ N) :
    LocatorAt φ syn n (locatorAfter syn n) ∧ (locatorAfter syn n).l ≤ v := by
  induction n with
  | zero =>
    have hone : toPoly φ [1] = 1 := by rw [toPoly, toPoly, hφ.one, mul_zero, add_zero, C_1]
    refine ⟨?_, Nat.zero_le v⟩
    simp only [LocatorAt, locatorAfter, List.range_zero, List.foldl_nil, hone, hφ.one, pow_one, mul_one]
    exact .start ((toPoly_coeff hφ _ 0).trans hφ.one)
  | succ n ih =>
    obtain ⟨hat, hle⟩ := ih (Nat.le_of_succ_le hn)
    obtain ⟨hstep, hlen⟩ := locatorStep_spec hφ hat
    rw [locatorAfter_succ]
    refine ⟨hstep, ?_⟩
    rcases hlen with hlen | ⟨hlen, hcoeff⟩
    · exact hlen.trans_le hle
    · exact hlen.trans_le (hat.length_of_discrepancy hcoeff ⟨hB.degree_le, fun j hv hj => hB.coeff_zero j hv (hj.trans hn)⟩ hB0)

/-- Of syndromes that are sums of at most 16 powers the locator finds the powers: its degree and length are their number, and its
roots their inverses. -/
theorem findLocator_spec {syn : List Byte} {s : Finset Nat} {x y : Nat → F} (hsum : SumsPowers s x y 32 (toPoly φ (1 :: syn)))
    (hx : ∀ p ∈ s, x p ≠ 0) (hinj : Set.InjOn x s) (hy : ∀ p ∈ s, y p ≠ 0) (hcard : s.card ≤ 16) :
    (findLocator syn).l = s.card ∧ polyDegree (findLocator syn).c = s.card ∧
      ∀ z, polyEval (findLocator syn).c z = 0 ↔ ∃ p ∈ s, (x p)⁻¹ = φ z := by
  obtain ⟨hat, hle⟩ := locatorAfter_spec hφ (hsum.recurs_rootsAtInverses hx) (rootsAtInverses_coeff_zero s x) le_rfl
  obtain ⟨hlen, hdeg, hroots⟩ := hsum.recurs_unique hx hinj hy hat.recurs hat.const hle (by omega)
  rw [toPoly_natDegree hφ] at hdeg
  rw [findLocator_eq]
  refine ⟨hlen, hdeg, fun z => ?_⟩
  rw [← hφ.eq_zero_iff, ← toPoly_eval hφ]
  exact hroots (φ z)

/-! ## Gaussian elimination (rule R228 step 3) -/

omit hφ

/-- The left side of a row's equation, with `n` unknowns. -/
def rowDot (φ : Byte → F) (n : Nat) (row zs : List Byte) : F := ∑ k ∈ range n, φ (row.getD k 0) * φ (zs.getD k 0)

/-- `zs` solves a row's equation; the right side stands after the coefficients. -/
def SolvesRow (φ : Byte → F) (n : Nat) (row zs : List Byte) : Prop := rowDot φ n row zs = φ (row.getD n 0)

theorem rowDot_cons (n : Nat) (a z : Byte) (row zs : List Byte) :
    rowDot φ (n + 1) (a :: row) (z :: zs) = rowDot φ n row zs + φ a * φ z := by
  simp [rowDot, sum_range_succ']

/-- The pivot's row, divided by the pivot, without its first entry. -/
def pivotTail (p : List Byte) : List Byte := (p.drop 1).map (gfMul (gfInv (p.headD 0)))

/-- A row with the pivot's row subtracted so that its first entry becomes zero, without it. -/
def reduceRow (tail row : List Byte) : List Byte := List.zipWith (fun x t => gfAdd x (gfMul (row.headD 0) t)) (row.drop 1) tail

/-- The first unknown, given the others. -/
def backSubst (n : Nat) (tail zs : List Byte) : Byte := (List.zipWith gfMul tail zs).foldl gfAdd (tail.getD n 0)

theorem gaussSolve_succ_of_pivot {n : Nat} {rows rest : List (List Byte)} {p : List Byte}
    (h : takePivot rows = some (p, rest)) :
    gaussSolve (n + 1) rows =
      (gaussSolve n (rest.map (reduceRow (pivotTail p)))).map fun zs => backSubst n (pivotTail p) zs :: zs := by
  cases hrest : gaussSolve n (rest.map (reduceRow (pivotTail p))) <;>
  · unfold reduceRow pivotTail at hrest
    simp only [gaussSolve, h, hrest]
    rfl

theorem takePivot_eq_none {rows : List (List Byte)} : takePivot rows = none → ∀ row ∈ rows, row.headD 0 = 0 := by
  induction rows with
  | nil => intro _ row hrow; cases hrow
  | cons r rows ih =>
    rw [takePivot]
    split
    case isTrue h0 =>
      cases hrest : takePivot rows with
      | none => exact fun _ => List.forall_mem_cons.mpr ⟨h0, ih hrest⟩
      | some x => simp
    case isFalse => nofun

theorem takePivot_eq_some {rows rest : List (List Byte)} {p : List Byte} (h : takePivot rows = some (p, rest)) :
    p.headD 0 ≠ 0 ∧ rows.Perm (p :: rest) := by
  induction rows generalizing rest with
  | nil => cases h
  | cons r rows ih =>
    rw [takePivot] at h
    split at h
    case isTrue h0 =>
      cases hrest : takePivot rows with
      | none => simp [hrest] at h
      | some x =>
        obtain ⟨q, others⟩ := x
        simp only [hrest, Option.some.injEq, Prod.mk.injEq] at h
        obtain ⟨rfl, rfl⟩ := h
        obtain ⟨hne, hperm⟩ := ih hrest
        exact ⟨hne, (hperm.cons r).trans (.swap q r others)⟩
    case isFalse hne =>
      cases h
      exact ⟨hne, .refl _⟩

include hφ

theorem backSubst_eq {n : Nat} {tail zs : List Byte} (htail : tail.length = n + 1) (hzs : zs.length = n) :
    φ (backSubst n tail zs) = φ (tail.getD n 0) + rowDot φ n tail zs := by
  have hzip : List.zipWith gfMul tail zs = (List.range n).map fun k => gfMul (tail.getD k 0) (zs.getD k 0) := by
    refine List.ext_getElem (by simp [htail, hzs]) fun k h1 h2 => ?_
    have hk : k < n := by simpa using h2
    rw [List.getElem_zipWith, List.getElem_map, List.getElem_range, List.getD_eq_getElem _ _ (by omega),
      List.getD_eq_getElem _ _ (by omega)]
  rw [backSubst, hzip, List.foldl_map, hφ.sum, rowDot]
  exact congrArg _ (sum_congr rfl fun k _ => hφ.mul ..)

/-- Dividing a row by its pivot. -/
theorem solvesRow_pivot_iff {n : Nat} {p zs : List Byte} (hp : p.length = n + 2) (hpivot : p.headD 0 ≠ 0) (hzs : zs.length = n)
    (z : Byte) : SolvesRow φ (n + 1) p (z :: zs) ↔ z = backSubst n (pivotTail p) zs := by
  obtain ⟨a, p, rfl⟩ := List.exists_cons_of_length_eq_add_one hp
  have ha : a ≠ 0 := hpivot
  have hget : ∀ k, φ ((pivotTail (a :: p)).getD k 0) = (φ a)⁻¹ * φ (p.getD k 0) := by
    intro k
    have hmap : (pivotTail (a :: p)).getD k 0 = gfMul (gfInv a) (p.getD k 0) := by
      have h0 := List.getD_map (l := p) (d := 0) (n := k) (gfMul (gfInv a))
      rwa [gfMul_zero] at h0
    rw [hmap, hφ.mul, hφ.inv ha]
  have hne : φ a ≠ 0 := hφ.eq_zero_iff.not.mpr ha
  have hdot : rowDot φ n (pivotTail (a :: p)) zs = (φ a)⁻¹ * rowDot φ n p zs := by
    simp only [rowDot, hget, mul_sum, mul_assoc]
  rw [← hφ.injective.eq_iff, backSubst_eq hφ (by simpa [pivotTail] using hp) hzs, hget, hdot, SolvesRow, rowDot_cons,
    List.getD_cons_succ, ← mul_add, eq_inv_mul_iff_mul_eq₀ hne, ← eq_sub_iff_add_eq', sub_eq_add_neg, hφ.neg]

/-- Subtracting the pivot's row. -/
theorem solvesRow_reduceRow_iff {n : Nat} {row tail zs : List Byte} (hrow : row.length = n + 2) (htail : tail.length = n + 1)
    (hzs : zs.length = n) :
    SolvesRow φ n (reduceRow tail row) zs ↔ SolvesRow φ (n + 1) row (backSubst n tail zs :: zs) := by
  obtain ⟨b, row, rfl⟩ := List.exists_cons_of_length_eq_add_one hrow
  have hrow' : row.length = n + 1 := Nat.succ.inj hrow
  have hget : ∀ k ≤ n, φ ((reduceRow tail (b :: row)).getD k 0) = φ (row.getD k 0) + φ b * φ (tail.getD k 0) := by
    intro k hk
    rw [← hφ.mul, ← hφ.add, List.getD_eq_getElem row _ (by omega), List.getD_eq_getElem tail _ (by omega),
      List.getD_eq_getElem _ _ (by simp [reduceRow]; omega)]
    simp [reduceRow]
  have hdot : rowDot φ n (reduceRow tail (b :: row)) zs = rowDot φ n row zs + φ b * rowDot φ n tail zs := by
    rw [rowDot, rowDot, rowDot, mul_sum, ← sum_add_distrib]
    refine sum_congr rfl fun k hk => ?_
    rw [hget k (mem_range.mp hk).le]
    ring
  rw [SolvesRow, SolvesRow, hdot, hget n le_rfl, rowDot_cons, backSubst_eq hφ htail hzs, List.getD_cons_succ]
  constructor <;> intro h
  · linear_combination h + φ b * φ (tail.getD n 0) * hφ.two
  · linear_combination h - φ b * φ (tail.getD n 0) * hφ.two

/-- Elimination finds the solution of equations that have exactly one. -/
theorem gaussSolve_eq_some {n : Nat} {rows : List (List Byte)} {ys : List Byte} (hrows : ∀ row ∈ rows, row.length = n + 1)
    (hys : ys.length = n) (h : ∀ zs, zs.length = n → ((∀ row ∈ rows, SolvesRow φ n row zs) ↔ zs = ys)) :
    gaussSolve n rows = some ys := by
  induction n generalizing rows ys with
  | zero => rw [gaussSolve, List.length_eq_zero_iff.mp hys]
  | succ n ih =>
    obtain ⟨y, ys, rfl⟩ := List.exists_cons_of_length_eq_add_one hys
    have hys' : ys.length = n := Nat.succ.inj hys
    cases hpivot : takePivot rows with
    | none =>
      have hfree : ∀ row ∈ rows, SolvesRow φ (n + 1) row (gfAdd y 1 :: ys) ↔ SolvesRow φ (n + 1) row (y :: ys) := by
        intro row hrow
        have hhead := takePivot_eq_none hpivot row hrow
        obtain ⟨a, row, rfl⟩ := List.exists_cons_of_length_eq_add_one (hrows row hrow)
        have ha : φ a = 0 := hφ.eq_zero_iff.mpr hhead
        rw [SolvesRow, SolvesRow, rowDot_cons, rowDot_cons, ha, zero_mul, zero_mul]
      have hother := (h (gfAdd y 1 :: ys) hys).mp fun row hrow => (hfree row hrow).mpr ((h _ hys).mpr rfl row hrow)
      have hone : φ (gfAdd y 1) = φ y := congrArg φ (List.cons.inj hother).1
      rw [hφ.add, hφ.one, add_eq_left] at hone
      exact absurd hone one_ne_zero
    | some x =>
      obtain ⟨p, rest⟩ := x
      obtain ⟨hne, hperm⟩ := takePivot_eq_some hpivot
      have hlen : ∀ row ∈ p :: rest, row.length = n + 2 := fun row hrow => hrows row (hperm.mem_iff.mpr hrow)
      obtain ⟨hp, hrest⟩ := List.forall_mem_cons.mp hlen
      have htail : (pivotTail p).length = n + 1 := by simp [pivotTail, hp]
      have hsplit : ∀ z zs, zs.length = n → ((∀ row ∈ rows, SolvesRow φ (n + 1) row (z :: zs)) ↔
          z = backSubst n (pivotTail p) zs ∧ ∀ row ∈ rest.map (reduceRow (pivotTail p)), SolvesRow φ n row zs) := by
        intro z zs hzs
        simp only [hperm.mem_iff, List.forall_mem_cons, List.forall_mem_map]
        rw [solvesRow_pivot_iff hφ hp hne hzs]
        refine and_congr_right fun hz => forall₂_congr fun row hrow => ?_
        rw [hz, solvesRow_reduceRow_iff hφ (hrest row hrow) htail hzs]
      obtain ⟨hy, -⟩ := (hsplit y ys hys').mp ((h _ hys).mpr rfl)
      rw [gaussSolve_succ_of_pivot hpivot, ih ?_ hys' fun zs hzs => ?_, Option.map_some, ← hy]
      · intro row hrow
        obtain ⟨row, hmem, rfl⟩ := List.mem_map.mp hrow
        simp [reduceRow, hrest row hmem, htail]
      · refine ⟨fun hz => (List.cons.inj ((h _ ?_).mp ((hsplit _ zs hzs).mpr ⟨rfl, hz⟩))).2, fun hz => ?_⟩
        · rw [List.length_cons, hzs]
        · exact ((hsplit y zs hzs).mp ((h _ (hz ▸ hys)).mpr (hz ▸ rfl))).2

end

/-! ## The errors of a block (rules R226, R228) -/

/-- The powers at which a block differs from a codeword: power `p` stands at index `254 - p`. -/
def errorSet (r c : List Byte) : Finset Nat := {p ∈ range 255 | c.getD (254 - p) 0 ≠ r.getD (254 - p) 0}

/-- What is added at power `p`. -/
def errorAt (r c : List Byte) (p : Nat) : Byte := gfAdd (r.getD (254 - p) 0) (c.getD (254 - p) 0)

theorem mem_errorSet {r c : List Byte} {p : Nat} :
    p ∈ errorSet r c ↔ p < 255 ∧ c.getD (254 - p) 0 ≠ r.getD (254 - p) 0 := by
  rw [errorSet, mem_filter, mem_range]

theorem errorAt_eq_zero_iff {r c : List Byte} {p : Nat} : errorAt r c p = 0 ↔ c.getD (254 - p) 0 = r.getD (254 - p) 0 := by
  rw [errorAt, gfAdd]
  exact BitVec.xor_eq_zero_iff.trans eq_comm

theorem gfAdd_errorAt (r c : List Byte) (p : Nat) : gfAdd (r.getD (254 - p) 0) (errorAt r c p) = c.getD (254 - p) 0 := by
  rw [errorAt, ← gfAdd_assoc, gfAdd_self, zero_gfAdd]

/-- As many powers as bytes that differ. -/
theorem errorSet_card {r c : List Byte} (hr : r.length = 255) (hc : c.length = 255) : (errorSet r c).card = diffCount c r := by
  have hindex : diffCount c r = #{j ∈ range 255 | c.getD j 0 ≠ r.getD j 0} := by
    rw [diffCount_eq_range hc hr]
    exact congrArg List.length (List.filter_congr fun j _ => Bool.eq_iff_iff.mpr (by simp))
  rw [hindex, errorSet, card_filter, card_filter]
  exact sum_range_reflect (fun j => if c.getD j 0 ≠ r.getD j 0 then 1 else 0) 255

section

variable {F : Type} [Field F] {φ : Byte → F} (hφ : InField φ) {r c : List Byte}

include hφ

/-- A block's value at `alpha^i`, by the powers of its bytes. -/
theorem evalBlock_eq_powers (hr : r.length = 255) (i : Nat) :
    φ (evalBlock r (expEntry i)) = ∑ p ∈ range 255, φ (r.getD (254 - p) 0) * φ (expEntry p) ^ i := by
  rw [evalBlock_eq_sum, hφ.sum, hφ.zero, zero_add, hr]
  refine (sum_range_reflect _ 255).symm.trans (sum_congr rfl fun p hp => ?_)
  have hback : 255 - 1 - (255 - 1 - p) = p := by rw [mem_range] at hp; omega
  rw [hback, hφ.mul, gfPow_expEntry, hφ.exp_pow, Nat.mul_comm]

/-- The syndromes of a block are those of its errors: sums of powers of their places, weighted with the errors. -/
theorem evalBlock_eq_errors (hr : r.length = 255) (hc : c.length = 255) (hcode : rsSyndromes c = List.replicate 32 0) {i : Nat}
    (hi : i < 32) :
    φ (evalBlock r (expEntry i)) = ∑ p ∈ errorSet r c, φ (errorAt r c p) * φ (expEntry p) ^ i := by
  have hzero : φ (evalBlock c (expEntry i)) = 0 :=
    hφ.eq_zero_iff.mpr (allZero_rsSyndromes_iff.mp (rsSyndromes_eq_zero_iff.mp hcode) ⟨i, hi⟩)
  have hall : φ (evalBlock r (expEntry i)) = ∑ p ∈ range 255, φ (errorAt r c p) * φ (expEntry p) ^ i := by
    rw [← add_zero (φ _), ← hzero, evalBlock_eq_powers hφ hr, evalBlock_eq_powers hφ hc, ← sum_add_distrib]
    exact sum_congr rfl fun p _ => by rw [errorAt, hφ.add, add_mul]
  rw [hall]
  refine (sum_subset (filter_subset ..) fun p hp hnot => ?_).symm
  have hsame : errorAt r c p = 0 := by
    rw [mem_range] at hp
    by_contra hne
    exact hnot (mem_errorSet.mpr ⟨hp, errorAt_eq_zero_iff.not.mp hne⟩)
  rw [hsame, hφ.zero, zero_mul]

theorem syndromes_sumsPowers (hr : r.length = 255) (hc : c.length = 255) (hcode : rsSyndromes c = List.replicate 32 0) :
    SumsPowers (errorSet r c) (fun p => φ (expEntry p)) (fun p => φ (errorAt r c p)) 32 (toPoly φ (1 :: rsSyndromes r)) := by
  intro i hi
  rw [toPoly_coeff hφ, List.getD_cons_succ, ← evalBlock_eq_errors hφ hr hc hcode hi]
  congr 1
  simp [rsSyndromes, hi]

theorem errorSet_injOn : Set.InjOn (fun p => φ (expEntry p)) (errorSet r c) :=
  hφ.exp_injOn.mono fun _ hp => (mem_errorSet.mp hp).1

theorem errorAt_ne_zero {p : Nat} (hp : p ∈ errorSet r c) : φ (errorAt r c p) ≠ 0 :=
  hφ.eq_zero_iff.not.mpr (errorAt_eq_zero_iff.not.mpr (mem_errorSet.mp hp).2)

/-- A block with no syndrome that is within 32 bytes of a codeword is the codeword. -/
theorem errorSet_eq_empty (hr : r.length = 255) (hc : c.length = 255) (hcode : rsSyndromes c = List.replicate 32 0)
    (hnear : (errorSet r c).card ≤ 32) (hsyn : allZero (rsSyndromes r) = true) : errorSet r c = ∅ := by
  have hzero := eq_zero_of_powerSums (errorSet_injOn hφ) (w := fun p => φ (errorAt r c p)) fun i hi => by
    rw [← evalBlock_eq_errors hφ hr hc hcode (by omega), hφ.eq_zero_iff]
    exact allZero_rsSyndromes_iff.mp hsyn ⟨i, by omega⟩
  exact eq_empty_of_forall_notMem fun p hp => errorAt_ne_zero hφ hp (hzero p hp)

/-- The roots of the locator are the places of the errors, in ascending order. -/
theorem errorPowers_eq {cs : List Byte} (h : ∀ z, polyEval cs z = 0 ↔ ∃ p ∈ errorSet r c, (φ (expEntry p))⁻¹ = φ z) :
    errorPowers cs = (List.range 255).filter (· ∈ errorSet r c) := by
  refine List.filter_congr fun p hp => ?_
  rw [List.mem_range] at hp
  rw [Bool.eq_iff_iff, beq_iff_eq, decide_eq_true_iff, h, hφ.exp_inv hp]
  constructor
  · rintro ⟨q, hq, heq⟩
    exact hφ.exp_injOn (mem_errorSet.mp hq).1 hp (inv_injective heq) ▸ hq
  · exact fun hp => ⟨p, hp, rfl⟩

omit hφ in
theorem sum_toFinset_eq_range {pos : List Nat} (hnodup : pos.Nodup) (f : Nat → F) :
    ∑ p ∈ pos.toFinset, f p = ∑ k ∈ range pos.length, f (pos.getD k 0) := by
  rw [List.sum_toFinset f hnodup]
  clear hnodup
  induction pos with
  | nil => rfl
  | cons p pos ih => rw [List.map_cons, List.sum_cons, ih, List.length_cons, sum_range_succ', add_comm]; rfl

theorem exp_getD_injOn {pos : List Nat} (hnodup : pos.Nodup) (hpos : ∀ p ∈ pos, p < 255) :
    Set.InjOn (fun k => φ (expEntry (pos.getD k 0))) (range pos.length) := by
  intro j hj k hk h
  rw [mem_coe, mem_range] at hj hk
  dsimp only at h
  rw [List.getD_eq_getElem _ _ hj, List.getD_eq_getElem _ _ hk] at h
  exact hnodup.getElem_inj_iff.mp (hφ.exp_injOn (hpos _ (List.getElem_mem hj)) (hpos _ (List.getElem_mem hk)) h)

/-- Row `i` of the magnitudes' equations, as a sum of powers. -/
theorem solvesRow_magnitudes_iff {syn zs : List Byte} {pos : List Nat} {i : Nat} :
    SolvesRow φ pos.length (pos.map (fun p => gfPow (expEntry p) i) ++ [syn.getD i 0]) zs ↔
      ∑ k ∈ range pos.length, φ (zs.getD k 0) * φ (expEntry (pos.getD k 0)) ^ i = φ (syn.getD i 0) := by
  have hright : (pos.map (fun p => gfPow (expEntry p) i) ++ [syn.getD i 0]).getD pos.length 0 = syn.getD i 0 := by simp
  rw [SolvesRow, hright, rowDot]
  refine Eq.congr (sum_congr rfl fun k hk => ?_) rfl
  rw [mem_range] at hk
  rw [List.getD_append _ _ _ _ (by rwa [List.length_map]), List.getD_eq_getElem _ _ (by rwa [List.length_map]), List.getElem_map,
    gfPow_expEntry, ← hφ.exp_pow, ← List.getD_eq_getElem pos 0 hk, mul_comm]

/-- Where the syndromes are sums of powers, the magnitudes' equations have the weights as their only solution. -/
theorem gaussSolve_magnitudes {syn : List Byte} {pos : List Nat} (hnodup : pos.Nodup) (hpos : ∀ p ∈ pos, p < 255)
    {y : Nat → Byte} (h : ∀ i < pos.length, φ (syn.getD i 0) = ∑ p ∈ pos.toFinset, φ (y p) * φ (expEntry p) ^ i) :
    gaussSolve pos.length (magnitudeRows syn pos) = some (pos.map y) := by
  have hlen : (pos.map y).length = pos.length := List.length_map ..
  have hys : ∀ i < pos.length,
      ∑ k ∈ range pos.length, φ ((pos.map y).getD k 0) * φ (expEntry (pos.getD k 0)) ^ i = φ (syn.getD i 0) := by
    intro i hi
    rw [h i hi, sum_toFinset_eq_range hnodup]
    refine sum_congr rfl fun k hk => ?_
    rw [mem_range] at hk
    rw [List.getD_eq_getElem _ _ (hlen ▸ hk), List.getElem_map, ← List.getD_eq_getElem pos 0 hk]
  refine gaussSolve_eq_some hφ (fun row hrow => ?_) hlen fun zs hzs => ?_
  · obtain ⟨i, -, rfl⟩ := List.mem_map.mp hrow
    simp
  · simp only [magnitudeRows, List.forall_mem_map, List.mem_range, solvesRow_magnitudes_iff hφ]
    refine ⟨fun hz => ?_, fun hz => hz ▸ hys⟩
    have hzero := eq_zero_of_powerSums (exp_getD_injOn hφ hnodup hpos)
      (w := fun k => φ (zs.getD k 0) - φ ((pos.map y).getD k 0)) fun i hi => by
        rw [card_range] at hi
        simp only [sub_mul, sum_sub_distrib, hz i hi, hys i hi, sub_self]
    refine List.ext_getElem (hzs.trans hlen.symm) fun k hk hk' => hφ.injective ?_
    have hsame := sub_eq_zero.mp (hzero k (mem_range.mpr (hzs ▸ hk)))
    rwa [List.getD_eq_getElem _ _ hk, List.getD_eq_getElem _ _ hk'] at hsame

end

/-! ## Repairing a block (rule R228 step 4) -/

/-- What an index holds after each of the powers listed was repaired. -/
theorem applyErrors_getD {r : List Byte} (hr : r.length = 255) (y : Nat → Byte) {pos : List Nat} (hnodup : pos.Nodup)
    (hpos : ∀ p ∈ pos, p < 255) {q : Nat} (hq : q < 255) :
    (applyErrors r (pos.map fun p => (p, y p))).getD (254 - q) 0 =
      if q ∈ pos then gfAdd (r.getD (254 - q) 0) (y q) else r.getD (254 - q) 0 := by
  induction pos generalizing r with
  | nil => rfl
  | cons p pos ih =>
    obtain ⟨hp, hpos'⟩ := List.forall_mem_cons.mp hpos
    obtain ⟨hnot, hnodup'⟩ := List.nodup_cons.mp hnodup
    rw [List.map_cons, applyErrors, ih (by rw [List.length_set, hr]) hnodup' hpos']
    by_cases hqp : q = p
    · subst hqp
      rw [if_neg hnot, if_pos (List.mem_cons_self ..), List.getD_eq_getElem _ _ (by rw [List.length_set]; omega),
        List.getElem_set_self]
    · have hother : (r.set (254 - p) (gfAdd (r.getD (254 - p) 0) (y p))).getD (254 - q) 0 = r.getD (254 - q) 0 := by
        rw [List.getD_eq_getElem?_getD, List.getElem?_set_ne (by omega), ← List.getD_eq_getElem?_getD]
      simp only [hother, List.mem_cons, hqp, false_or]

theorem applyErrors_errorSet {r c : List Byte} (hr : r.length = 255) (hc : c.length = 255) {pos : List Nat} (hnodup : pos.Nodup)
    (hpos : ∀ p, p ∈ pos ↔ p ∈ errorSet r c) : applyErrors r (pos.zip (pos.map (errorAt r c))) = c := by
  rw [← List.map_prod_left_eq_zip]
  refine List.ext_getElem ((applyErrors_length ..).trans (hr.trans hc.symm)) fun j hj hj' => ?_
  have hback : 254 - (254 - j) = j := by omega
  rw [← List.getD_eq_getElem _ 0 hj, ← List.getD_eq_getElem _ 0 hj', ← hback,
    applyErrors_getD hr _ hnodup (fun p hp => (mem_errorSet.mp ((hpos p).mp hp)).1) (by omega)]
  split
  case isTrue => exact gfAdd_errorAt ..
  case isFalse hnot =>
    by_contra hne
    exact hnot ((hpos _).mpr (mem_errorSet.mpr ⟨by omega, Ne.symm hne⟩))

/-- A codeword within sixteen bytes is what the decoder answers (rule R229). -/
theorem rsCorrectBlock_of_near {r c : List Byte} (hr : r.length = 255) (hc : c.length = 255)
    (hcode : rsSyndromes c = List.replicate 32 0) (hnear : diffCount c r ≤ 16) : rsCorrectBlock r = some c := by
  obtain ⟨F, _, φ, hφ⟩ := exists_inField
  rw [← errorSet_card hr hc] at hnear
  set pos := (List.range 255).filter (· ∈ errorSet r c) with hdef
  have hnodup : pos.Nodup := List.nodup_range.filter _
  have hmem : ∀ p, p ∈ pos ↔ p ∈ errorSet r c := fun p => by
    rw [hdef, List.mem_filter, List.mem_range, decide_eq_true_iff]
    exact and_iff_right_of_imp fun hp => (mem_errorSet.mp hp).1
  have hrepair := applyErrors_errorSet hr hc hnodup hmem
  have hset : pos.toFinset = errorSet r c := Finset.ext fun p => by rw [List.mem_toFinset, hmem]
  have hcount : pos.length = (errorSet r c).card := by rw [← hset, List.toFinset_card_of_nodup hnodup]
  cases hsyn : allZero (rsSyndromes r) with
  | true =>
    have hempty := errorSet_eq_empty hφ hr hc hcode (by omega) hsyn
    have hnil : pos = [] := List.eq_nil_iff_forall_not_mem.mpr fun p hp => notMem_empty p (hempty ▸ (hmem p).mp hp)
    rw [hnil] at hrepair
    exact (rsCorrectBlock_of_codeword (rsSyndromes_eq_zero_iff.mpr hsyn)).trans (congrArg some hrepair)
  | false =>
    have hsum := syndromes_sumsPowers hφ hr hc hcode
    obtain ⟨hlen, hdeg, hroots⟩ := findLocator_spec hφ hsum (fun p _ => hφ.exp_ne_zero p) (errorSet_injOn hφ)
      (fun p => errorAt_ne_zero hφ) hnear
    have hpowers : errorPowers (findLocator (rsSyndromes r)).c = pos := errorPowers_eq hφ hroots
    rw [rsCorrectBlock_eq_some hsyn, correctAt_eq_some, hpowers, hdeg, hlen]
    refine ⟨rfl, hnear, hcount, _, gaussSolve_magnitudes hφ hnodup (fun p hp => (mem_errorSet.mp ((hmem p).mp hp)).1) ?_,
      hrepair, rsSyndromes_eq_zero_iff.mp hcode⟩
    intro i hi
    have hcoeff := hsum i (by omega)
    rwa [toPoly_coeff hφ, List.getD_cons_succ, ← hset] at hcoeff

end Sys2Proof.Machine

namespace Sys2Proof

open Machine

-- Elaborated one after another, to stay below the memory limit.
set_option Elab.async false

/-! ## The obligations -/

/-- Settles O54: an encoded payload is its data blocks, encoded, and ends with the parity of the last one. -/
theorem rsEncoders : Obligations.RsEncoders := by
  intro src dst s d blocks
  refine ⟨exec_rsEncb_of_length_ne, fun hlen => ?block, ?area⟩
  case block =>
    exact ⟨_, rsParity d, exec_rsEncb_of_length hlen, rfl, rsParity_length d, ybWritten_of_eq rfl,
      bytes32_toList (rsParity_length d), rfl⟩
  case area =>
    let u := setCount 0 (dataBlocks d).length (ybWrite dst (rsEncode d) s)
    have hblocks : (dataBlocks d).length = blocks := dataBlocks_length d
    obtain ⟨par, hpar, hkept, hlast⟩ := leaveParity_spec (dataBlocks d) u
    refine ⟨{ u with rsPar := par, status := 0 }, rsEncode d, congrArg (endWith .ok) hpar, ybWritten_of_eq rfl,
      rsEncode_length d, fun k hk => rsEncode_block hk, ?_, fun hd => hkept (dataBlocks_eq_nil_iff.mpr hd), fun hd => ?_, rfl⟩
    · rw [← hblocks]
      exact rWritten_of_eq rfl
    · have hblock := List.getLast?_eq_some_getLast (mt dataBlocks_eq_nil_iff.mp hd)
      obtain ⟨ys, hys⟩ := rsEncode_of_getLast? hblock
      rw [hys, List.length_append, rsParity_length, Nat.add_sub_cancel, List.drop_left]
      exact hlast _ hblock

/-- Settles O55: the parity makes the block vanish at every root of the generator (`rsSyndromes_rsEncodeBlock`). -/
theorem rsEncodedIsCodeword : Obligations.RsEncodedIsCodeword := fun d hd =>
  ⟨rsEncodeBlock_length hd, rsSyndromes_rsEncodeBlock d⟩

/-- Settles O56: Horner's rule gives the sum of the rule (`evalBlock_eq_sum`). -/
theorem rsSyndrome : Obligations.RsSyndrome := by
  intro src s r
  refine ⟨exec_rsSyn_of_length_ne, fun hlen => ⟨_, exec_rsSyn_of_length hlen, fun i => ?sum, ?flag, rfl⟩⟩
  case sum =>
    have hsum := evalBlock_eq_sum r (expEntry i.val)
    rw [hlen] at hsum
    exact (rsSyndromes_getElem i).trans hsum
  case flag =>
    have hflag : (if ∀ i : Fin 32, (bytes32 (rsSyndromes r))[i] = 0 then (0 : U32) else 1) =
        bitWord (!allZero (rsSyndromes r)) := by
      simp only [rsSyndromes_getElem, ← allZero_rsSyndromes_iff]
      cases allZero (rsSyndromes r) <;> rfl
    exact hflag ▸ rWritten_of_eq rfl

/-- Settles O57: the decoder checks the repaired block, and repairs at most as many bytes as the locator's degree
(`rsCorrectBlock_sound`). -/
theorem rsCorrectSound : Obligations.RsCorrectSound := by
  intro r hlen
  refine ⟨fun c hc => ?_, rsCorrectBlock_of_codeword⟩
  obtain ⟨hcode, hnear⟩ := rsCorrectBlock_sound hc
  exact ⟨(rsCorrectBlock_length hc).trans hlen, hcode, hnear⟩

/-- Settles O58: a near codeword is found (`rsCorrectBlock_of_near`), an encoded block is a codeword (O55), and what is found is
near (O57). -/
theorem rsCorrectsErrors : Obligations.RsCorrectsErrors := by
  refine ⟨fun r c hr hc => rsCorrectBlock_of_near hr hc, fun d r hd hr => ?encoded, fun r hr => ⟨?none, fun hno => ?far⟩⟩
  case encoded =>
    obtain ⟨hlen, hcode⟩ := rsEncodedIsCodeword d hd
    exact rsCorrectBlock_of_near hr hlen hcode
  case none =>
    rintro hnone ⟨c, hc, hcode, hnear⟩
    exact absurd (hnone.symm.trans (rsCorrectBlock_of_near hr hc hcode hnear)) nofun
  case far =>
    cases hfound : rsCorrectBlock r with
    | none => rfl
    | some c => exact absurd ⟨c, (rsCorrectSound r hr).1 c hfound⟩ hno

/-- Settles O59: the counts by index are `diffCount_eq_range` and `diffCount_drop`. -/
theorem rsDecodeBlock : Obligations.RsDecodeBlock := by
  intro src dst s r
  refine ⟨exec_rsDecb_of_length_ne, fun hlen => ⟨fun hnone => ?fails, fun c hc => ?corrects⟩⟩
  case fails =>
    exact ⟨_, exec_rsDecb_of_none hlen hnone, bytes32_toList (rsSyndromes_length r), rfl⟩
  case corrects =>
    have hclen : c.length = 255 := (rsCorrectBlock_length hc).trans hlen
    have hbound : ∀ p : Nat → Bool, ((List.range 255).filter p).length < 2 ^ 32 := fun p =>
      ((List.length_filter_le ..).trans_eq List.length_range).trans_lt (by decide)
    refine ⟨_, exec_rsDecb_of_some hlen hc, ybWritten_of_eq rfl, ?_, bytes32_toList (rsSyndromes_length r), rfl⟩
    rw [← countWord_of_lt s.openTick 0 (hbound _), ← countWord_of_lt s.openTick 1 (hbound _), ← diffCount_eq_range hclen hlen,
      ← diffCount_drop (m := 223) (n := 32) hclen hlen]
    exact rWritten_pair_of_eq (by decide) rfl

/-- Settles O60: the area is its blocks, and `correctBlocks` corrects each of them or fails. -/
theorem rsDecodeArea : Obligations.RsDecodeArea := by
  intro src dst s area
  refine ⟨exec_rsDec_of_length_mod_ne, fun bs harea hbs => ⟨fun hfail => ?fails, fun cs hcs => ?corrects⟩⟩
  case fails =>
    exact exec_rsDec_of_none hbs harea (correctBlocks_eq_none.mpr hfail)
  case corrects =>
    let u := setCount 1 (changedBytes bs cs) (setCount 0 bs.length (ybWrite dst (blocksData cs) s))
    obtain ⟨syn, hsyn, hnil, hlast⟩ := leaveSyndromes_spec bs u
    exact ⟨{ u with rsSyn := syn, status := 0 },
      (exec_rsDec_of_some hbs harea (correctBlocks_eq_some.mpr hcs)).trans (congrArg (endWith .ok) hsyn),
      ybWritten_of_eq rfl, rWritten_pair_of_eq (by decide) rfl, hnil, hlast, rfl⟩

end Sys2Proof

/-! # System operations (46_system.md): reset, profiles, moves and the frame queue -/

namespace Sys2Proof.Machine

-- Elaborated one after another, to stay below the memory limit.
set_option Elab.async false

/-! ## The profile ROM (10_state.md rule R18, 30_encoding.md rule R62) -/

/-- The kind by id, as `profile_from_flags` and rule R18 give it. -/
theorem profileKind_profileFromFlags (id : Sel) :
    profileKind (profileFromFlags id) = if id = 1 then .mfsk else if id = 3 then .gfsk else .afsk := by
  rcases sel_cases id with rfl | rfl | rfl | rfl <;> rfl

theorem profileKind_eq_mfsk_iff {id : Sel} : profileKind (profileFromFlags id) = .mfsk ↔ id = 1 := by
  rcases sel_cases id with rfl | rfl | rfl | rfl <;> decide

theorem profileKind_eq_gfsk_iff {id : Sel} : profileKind (profileFromFlags id) = .gfsk ↔ id = 3 := by
  rcases sel_cases id with rfl | rfl | rfl | rfl <;> decide

/-- A tone of an MFSK profile below `NTONES` holds a value. -/
theorem romTones_isSome (p : Profile) (k : Fin 16) (hk : k.val < (Config.romNTones p).val) : (romTones p)[k].isSome := by
  simp only [romTones, Fin.getElem_fin, Vector.getElem_mapFinIdx, if_pos hk, Option.isSome_some]

section

variable (p : Profile)

theorem profileRom_kind : (profileRom p).kind = profileKind p := by
  unfold profileRom
  cases profileKind p <;> rfl

/-- Every kind uses the baud rate and the preamble length. -/
theorem profileRom_baud_npre : (profileRom p).baud.isSome ∧ (profileRom p).npre.isSome := by
  unfold profileRom
  cases profileKind p <;> exact ⟨rfl, rfl⟩

theorem profileRom_gfskAlpha_isSome_iff : (profileRom p).gfskAlpha.isSome ↔ profileKind p = .gfsk := by
  unfold profileRom
  cases profileKind p <;> simp

variable {p}

/-- An MFSK entry has a table of tones and no pair of them; `BPS` is 1 to 4 and `NTONES` at most 16 by their types. -/
theorem profileRom_of_mfsk (h : profileKind p = .mfsk) :
    (profileRom p).fMark = none ∧ (profileRom p).fSpace = none ∧ (profileRom p).gfskAlpha = none ∧
      (∃ b, (profileRom p).bps = some b ∧ 1 ≤ b ∧ b ≤ 4) ∧ (profileRom p).ntones ≤ 16 ∧
      ∀ k : Fin 16, k.val < (profileRom p).ntones → (profileRom p).tone[k].isSome := by
  unfold profileRom
  rw [h]
  exact ⟨rfl, rfl, rfl, ⟨_, rfl, Nat.le_add_left .., (Config.romBpsLessOne p).isLt⟩, Nat.le_of_lt_succ (Config.romNTones p).isLt,
    romTones_isSome p⟩

/-- An entry of the other kinds has a pair of tones and no table. -/
theorem profileRom_of_ne_mfsk (h : profileKind p ≠ .mfsk) :
    (profileRom p).fMark.isSome ∧ (profileRom p).fSpace.isSome ∧ (profileRom p).bps = none ∧ (profileRom p).ntones = 0 ∧
      ∀ k : Fin 16, (profileRom p).tone[k] = none := by
  cases hkind : profileKind p with
  | mfsk => exact absurd hkind h
  | afsk | gfsk =>
    unfold profileRom
    rw [hkind]
    exact ⟨rfl, rfl, rfl, rfl, fun k => Vector.getElem_replicate k.isLt⟩

end

/-! ## What the operations do (rules R251, R257) -/

theorem exec_sysInit (s : State) : exec .sysInit s = .next { s with tablesReady := true, status := 0 } := by
  cases hready : s.tablesReady with
  | true => exact (if_pos hready).trans (congrArg (endWith .ok) (show s = { s with tablesReady := true } from hready ▸ rfl))
  | false => exact if_neg (Bool.eq_false_iff.mp hready)

section

variable {dst : Sel} {s : State}

theorem exec_sysFqpop_of_nil (h : s.fq = []) : exec (.sysFqpop dst) s = raise .none s := by
  simp only [exec, execSysFqpop, h]

theorem exec_sysFqpop_of_cons {item : FrameRec} {rest : List FrameRec} (h : s.fq = item :: rest) :
    exec (.sysFqpop dst) s =
      endWith .ok (setCount 2 rest.length
        (setCount 1 item.stop (setCount 0 item.start (ybWrite dst item.bytes { s with fq := rest })))) := by
  simp only [exec, execSysFqpop, h]

end

/-- A count that fits in its register is read there as it is. -/
theorem countWord_toNat (tick : Nat) (k : Sel) {n : Nat} (h : n < 2 ^ 32) : (countWord tick k n).toNat = n := by
  rw [countWord_of_lt tick k h, BitVec.toNat_ofNat, Nat.mod_eq_of_lt h]

/-! ## The obligations -/

/-- Settles O14: the all-zero word is the word of `SYS.NOP` (`decodeEncode`), and the `OP` of the all-ones word is unassigned. -/
theorem sysNop : Obligations.SysNop := ⟨fun _ => rfl, decodeEncode .sysNop, by decide⟩

/-- Settles O15: `SYS.INIT` by the two values of `TABLES_READY` (`exec_sysInit`); both resets are `resetBlock`. -/
theorem sysInitReset : Obligations.SysInitReset := fun s => ⟨exec_sysInit s, rfl, rfl⟩

/-- Settles O16: the entry is that of the ROM, described kind by kind above, and the load copies it. -/
theorem sysLoadp : Obligations.SysLoadp := by
  intro id
  obtain ⟨hbaud, hnpre⟩ := profileRom_baud_npre (profileFromFlags id)
  refine ⟨profileRom (profileFromFlags id), ?kind, hbaud, hnpre, fun hid => ?mfsk, fun hid => ?other, ?alpha, fun s => ?load⟩
  case kind => rw [profileRom_kind, profileKind_profileFromFlags]
  case mfsk => exact profileRom_of_mfsk (profileKind_eq_mfsk_iff.mpr hid)
  case other => exact profileRom_of_ne_mfsk (mt profileKind_eq_mfsk_iff.mp hid)
  case alpha => rw [profileRom_gfskAlpha_isSome_iff, profileKind_eq_gfsk_iff]
  case load => exact ⟨_, rfl, rWritten_of_eq rfl, rfl, rfl⟩

/-- Settles O17: a move is one write of a bank of buffers and one of the results. -/
theorem sysMove : Obligations.SysMove :=
  ⟨fun tick k _ h => countWord_toNat tick k h, fun _ _ _ =>
    ⟨⟨_, rfl, bbWritten_of_eq rfl, rWritten_of_eq rfl, rfl⟩, ⟨_, rfl, ybWritten_of_eq rfl, rWritten_of_eq rfl, rfl⟩⟩⟩

/-- Settles O18, by the two shapes of `FQ`; the three result registers are written one after another. -/
theorem sysFqpop : Obligations.SysFqpop := by
  intro dst s
  refine ⟨exec_sysFqpop_of_nil, fun item rest hfq => ?_⟩
  let u := setCount 1 item.stop (setCount 0 item.start (ybWrite dst item.bytes { s with fq := rest }))
  have hbounds : RWritten [(0, countWord s.openTick 0 item.start), (1, countWord s.openTick 1 item.stop)] s u :=
    rWritten_pair_of_eq (by decide) rfl
  exact ⟨_, exec_sysFqpop_of_cons hfq, rfl, ybWritten_of_eq rfl, hbounds.concat (by simp) rfl, rfl⟩

end Sys2Proof.Machine

/-! # Status codes (60_exceptions.md): how a command ends, and what a failing operation leaves -/

namespace Sys2Proof.Machine

-- Elaborated one after another, to stay below the memory limit.
set_option Elab.async false

/-! ## Every command ends with a status code (rule R300) -/

/-- The issue of a command word ends with a status: `ILLEGAL` for a word that does not decode, else the operation's. -/
theorem issue_endsWithStatus (w : U32) (s : State) : ∃ x t, issue w s = endWith x t := by
  unfold issue
  split
  case h_1 => exact ⟨.illegal, s, rfl⟩
  case h_2 i _ =>
    obtain ⟨x, t, hend, -⟩ := exec_endsWithin i s
    exact ⟨x, t, hend⟩

/-- Settles O10: the code that a command ends with is that of one of the seven statuses. -/
theorem everyCommandEnds : Obligations.EveryCommandEnds := by
  intro w s
  obtain ⟨x, t, hend⟩ := issue_endsWithStatus w s
  exact ⟨setStatus x t, hend, statusCode_le x⟩

/-! ## The ways an operation ends (rule R304) -/

/-- The ways an operation begun in `s` ends: with `OK` after its writes, with a status and no other write, or in one of the
three cases of rule R304 with a status and the writes listed there. -/
inductive Ending (s : State) : Instr → Host.Outcome State Fault Refusal → Prop
  | ok {i : Instr} {t : State} : Ending s i (endWith .ok t)
  | raise {i : Instr} {x : Status} : Ending s i (raise x s)
  | parse {src dst : Sel} (r : ParsedFrame) :
    Ending s (.frmParse src dst)
      (endWith .integrity (setCount 0 r.area.length (ybWrite dst r.area (leaveParsed r s))))
  | decode {src dst : Sel} {x : Status} (r : ParsedFrame) (crc : U16)
    (hx : x = .none ∨ x = .integrity ∨ x = .fecUncorrectable) :
    Ending s (.frmDecode src dst) (endWith x (setCrc crc (leaveParsed r s)))
  | decb {src dst : Sel} (syn : List Byte) : Ending s (.rsDecb src dst) (endWith .fecUncorrectable (setSyndromes syn s))

section

variable (src dst : Sel) (s : State)

theorem frmParse_ending : Ending s (.frmParse src dst) (exec (.frmParse src dst) s) := by
  simp only [exec, execFrmParse]
  split
  · exact .raise
  · split
    · exact .ok
    · exact .parse _

/-- The statuses with which `decode_frame` fails after the parse (rules R185, R186). -/
theorem status_of_decodeParsed_fail {f : List Byte} {r : ParsedFrame} {x : Status} {last : U16}
    (h : decodeParsed f r = .fail x last) : x = .none ∨ x = .integrity ∨ x = .fecUncorrectable := by
  have status_eq {y : Status} {crc : U16} (hy : Decoded.fail y crc = .fail x last) : x = y := by cases hy; rfl
  by_cases hlen : r.area.length = expectedArea r
  case neg => exact .inl (status_eq (decodeParsed_of_length_ne hlen ▸ h))
  case pos =>
    cases hfec : flagFec r.flags with
    | false =>
      rw [decodeParsed, if_neg (not_not.mpr hlen), hfec, if_neg Bool.false_ne_true] at h
      split at h
      · cases h
      · exact .inr (.inl (status_eq h))
    | true =>
      cases hcs : correctBlocks (codeBlocks r.area) with
      | none => exact .inr (.inr (status_eq (decodeParsed_of_uncorrectable hfec hlen hcs ▸ h)))
      | some cs =>
        rw [decodeParsed_of_corrected hfec hlen hcs] at h
        split at h
        · cases h
        · exact .inr (.inl (status_eq h))

theorem frmDecode_ending : Ending s (.frmDecode src dst) (exec (.frmDecode src dst) s) := by
  simp only [exec, execFrmDecode]
  split
  · exact .raise
  · split
    case h_1 hfail => exact .decode _ _ (status_of_decodeParsed_fail hfail)
    case h_2 => exact .ok

theorem rsDecb_ending : Ending s (.rsDecb src dst) (exec (.rsDecb src dst) s) := by
  simp only [exec, execRsDecb]
  split
  · exact .raise
  · split
    · exact .decb _
    · exact .ok

end

/-- Every operation ends in one of the ways of rule R304; the operations are grouped by the checks they make before they write. -/
theorem exec_ending (i : Instr) (s : State) : Ending s i (exec i s) := by
  cases i
  case frmParse src dst => exact frmParse_ending src dst s
  case frmDecode src dst => exact frmDecode_ending src dst s
  case rsDecb src dst => exact rsDecb_ending src dst s
  case sysInit =>
    rw [exec_sysInit]
    exact .ok (t := { s with tablesReady := true })
  case sysFqpop | gtzStep | gtzEnergy | gfskDemod | mfskMap | hdlcFrame | frmEncode | crcChk | gfInv | gfLog | rsEncb | rsSyn =>
    simp only [exec, execSysFqpop, execGtzStep, execGtzEnergy, execGfskDemod, execMfskMap, execHdlcFrame, execFrmEncode,
      execCrcChk, execGfInv, execGfLog, execRsEncb, execRsSyn]
    split
    · exact .raise
    · exact .ok
  case hdlcFlags | hdlcExtract =>
    simp only [exec, execHdlcFlags, execHdlcExtract]
    split
    · exact .ok
    · exact .raise
  case gtzSetf | gtzWin | afskSym | mfskUnmap | mfskSym | rsDec =>
    simp only [exec, execGtzSetf, execGtzWin, execAfskSym, execMfskUnmap, execMfskSym, execRsDec]
    split
    · exact .raise
    · split
      · exact .raise
      · exact .ok
  case afskDemod | mfskDemod =>
    simp only [exec, execAfskDemod, execMfskDemod]
    split
    · exact .raise
    · split <;> exact .ok
  -- The other operations make no check.
  all_goals exact .ok

/-- Settles O13, one case per way to end (`exec_ending`). -/
theorem failureKeepsState : Obligations.FailureKeepsState := by
  intro i s t h hfails
  have hend := exec_ending i s
  rw [h] at hend
  generalize ho : Host.Outcome.next t = o at hend
  cases hend with
  | ok => cases ho; exact absurd rfl hfails
  | raise => cases ho; exact .inl rfl
  | @parse src dst r =>
    cases ho
    exact .inr (.inl ⟨src, dst, rfl, rfl, fun _ hk => bankGet_bankSet_ne _ _ hk, fun _ hk => bankGet_bankSet_ne _ _ hk, rfl⟩)
  | @decode src dst x r crc hx =>
    cases ho
    have hcode : (statusCode x).toNat ∈ [1, 2, 3] := by
      rcases hx with rfl | rfl | rfl <;> decide
    exact .inr (.inr (.inl ⟨src, dst, rfl, hcode, rfl⟩))
  | @decb src dst syn => cases ho; exact .inr (.inr (.inr ⟨src, dst, rfl, rfl, rfl⟩))

end Sys2Proof.Machine
